-- ==== Sys2Proof/Word.lean ====
section
/-! DEFINITION. The word types of the part (00 R7, R8, 04 R68) and their plainest arithmetic. -/

namespace Sys2Proof

/-- A byte of any memory of the part. -/
abbrev Byte := BitVec 8

/-- A doubleword: an x or g register, a CSR, a slot of a native line. -/
abbrev Word := BitVec 64

/-- A vector register or a queue entry: 256 bytes, read as one little-endian bit string (04 R68). -/
abbrev Vec := BitVec 2048

/-- A predicate: bit c governs container c (07 R131). -/
abbrev Pred := BitVec 64

/-- A cell pattern of the matrix array: a bit pattern below 2^32 (09 R183). -/
abbrev Cell32 := BitVec 32

end Sys2Proof
end

