-- ==== Sys2Proof/Config.lean ====
section
/-! DEFINITION. What the part fixes, and the values the spec leaves open.
An opaque constant has no body: nothing in Lean can evaluate it, and a claim holds whatever it is. -/

namespace Sys2Proof.Config

/-- Enabled logical cores of the module (00 R3). -/
def cores : Nat := 1152
/-- Logical cores of a compute die (18 R376). -/
def coresPerDie : Nat := 144
/-- Clusters of a compute die (18 R376: 144 cores, four a cluster). -/
def clustersPerDie : Nat := 36
/-- Bytes of a cluster scratchpad (00 R3). -/
def spadBytes : Nat := 2097152
/-- First offset of the upper half of the scratchpad, where back stores lie (02 R33). -/
def backBase : Nat := 0x100000
/-- HBM bytes of the module: 1,024 GB of 2^30 bytes (00 R3, R9); a frame at or above this is refused (19 R389). -/
def hbmBytes : Nat := 2 ^ 40
/-- Bytes of a core's accumulator SRAM (00 R5). -/
def accBytes : Nat := 262144
/-- Virtual address of the accumulator SRAM window of core 0 (14 R309). -/
def windowBase : Nat := 0x7E000000000000
/-- Bytes of a core's instruction store (06 R113, 17 R357). -/
def istoreBytes : Nat := 65536
/-- First address of user code in the instruction store (17 R357). -/
def userText : Nat := 0x4000
/-- Where the 32 KiB data store lies in the control core's addresses: PRESUMED next to the instruction store
(the spec gives it no address), log entry 10. -/
def dstoreBase : Nat := 0x10000
/-- Bytes of a core's data store (00 R3). -/
def dstoreBytes : Nat := 32768
/-- Part generation (19 R401, 22 R436). -/
def generation : Nat := 1
/-- Arithmetic cycles of a millisecond at 1.8 GHz (00 R3), for the times the spec gives in ms. -/
def cyclesPerMs : Nat := 1800000
/-- Base of the resident runtime's trap handler: mtvec at a unit's start (18 R380), log entry 8. -/
def runtimeTrap : Nat := 0
/-- Bytes of local HBM of a compute die: two stacks of 64 GB (00 R3). -/
def dieHbm : Nat := 2 ^ 37

/-- The vendor public key's fused digest (21 R419). -/
opaque fusedKeyDigest : List Byte
/-- The vendor's Ed448 public key, which the boot ROM checks against the fused digest (21 R419). -/
opaque vendorKey : List Byte
/-- The fused anti-rollback counter (21 R419). -/
opaque antiRollback : Nat
/-- The hub die's serial number (21 R422). -/
opaque serial : BitVec 128
/-- The device's private key, derived at boot (21 R422); it is the device's own, log entry 4. -/
opaque deviceKey : List Byte
/-- The vendor's certificate over the device key's public half (21 R422), log entry 4. -/
opaque deviceCert : List Byte
/-- The STATUS of the outcomes that 21 R425 names without a number (GRANTED, LOST, OWNED, LAPSED, NOTCONNECTED, NOSPACE, OVERLAP, in
this order), log entry 119. -/
opaque outcomeCode : Nat → Nat
/-- Built clusters of a compute die (00 R3). -/
def builtClusters : Nat := 40
/-- The fuse map (00 R4): for each die and logical cluster, which of the built clusters that are not yet taken stands behind
it. -/
opaque fuse : Nat → Nat → Nat
/-- Which of its die's two stacks holds an HBM address: they are interleaved (00 R3), and the spec does not say how, log entry
61. -/
opaque hbmStack : Nat → Bool
/-- Which of the stores that a control core has buffered, and that may be seen next, is (14 R305): by draw, log entry 11. -/
opaque storePick : Nat → Nat
/-- The FMODE under which a target performs a remote FP32 add: the spec states none (14 R321), log entry 31. -/
opaque remoteFmode : Word
/-- The x registers other than x2 and x4 when a unit starts, which the spec does not give (18 R379): by number, the same at every
start, since what a unit starts with decides its bits (22 R438), log entry 8. -/
opaque startX : Nat → Word
/-- What a PARAM item reads at acceptance where the parameter's bytes cannot be read (17 R355 states no value): by draw
and item, log entry 13. -/
opaque unreadParam : Nat → Word → Word
/-- The energy, in millijoules, that the power circuits add to ENERGY in an arithmetic cycle (22 R440), log entry 47. -/
opaque energyIn : Nat → Nat
/-- The MAC address fused for a port: data ports 0 to 7, management port 8 (21 R428), log entry 131. -/
opaque portMac : Nat → BitVec 48
/-- What a test of a cluster finds (22 R435), by draw: none, or the failing test of those selected, the core, the site, the
offset, and the cycles that the test ran, log entry 47. -/
opaque testFinds : Nat → Option (Nat × Nat × Nat × Word × Nat)
/-- wkld's free choices of placement (17 R357): the n-th draw, log entry 12. -/
opaque placeDraw : Nat → Nat

/-- The bytes of the line that wkld writes for a portable word (15 R333: a function of the object, its profiles and the
release; the lines themselves are not given): by release, encoded word and place among the word's commands, log entry 12. -/
opaque wkldLine : Nat → BitVec 64 → Nat → List (BitVec 64)

end Sys2Proof.Config
end

