-- ==== Sys2Proof/Syntax.lean ====
section
/-! DEFINITION. The syntax: one constructor of Instr for each row of the opcode table (spec/opcode_table.json).
A row is an instruction of the control core, a native word of a line engine, a command frame, or an operation of
the module that has no encoding (95_what_each_step_holds). -/

namespace Sys2Proof

/-- The four engines of a core, in the order of their codes (02 R41, 12 R247). -/
inductive Eng where
  | A | M | V | X
deriving DecidableEq, Repr

/-- A native word but for its op, which the constructor of Instr gives (05 R92): the type code, the bundle and
token bits, the guard, the four operand fields as the spec's operand codes (05 R93), the doubleword of the literal
slot that follows it where it names a literal (05 R94), and the nibble of the delay word (05 R91). -/
structure NWord where
  ty    : BitVec 4
  stop  : Bool
  tkp   : Bool
  tkn   : Bool
  gvp   : Bool
  gvn   : Bool
  guard : BitVec 6
  ginv  : Bool
  dst   : BitVec 10
  a     : BitVec 10
  b     : BitVec 10
  c     : BitVec 10
  lit   : Word
  lat   : BitVec 4
deriving DecidableEq, Repr

/-- A portable word but for its group and op, which the constructor of Instr gives (05 R85). -/
structure PWord where
  imm18 : BitVec 18
  vs3   : BitVec 5
  vs2   : BitVec 5
  vs1   : BitVec 5
  pinv  : Bool
  pg    : BitVec 3
  ty    : BitVec 4
  vd    : BitVec 5
deriving DecidableEq, Repr

/-- A word that has both forms: native, in a line, or portable, in the control core's stream. -/
inductive Form where
  | nat  (w : NWord)
  | port (p : PWord)
deriving DecidableEq, Repr

/-- A command frame: sixteen doublewords (12 R246). -/
structure Frame where
  dw0  : Word := 0
  dw1  : Word := 0
  dw2  : Word := 0
  dw3  : Word := 0
  dw4  : Word := 0
  dw5  : Word := 0
  dw6  : Word := 0
  dw7  : Word := 0
  dw8  : Word := 0
  dw9  : Word := 0
  dw10 : Word := 0
  dw11 : Word := 0
  dw12 : Word := 0
  dw13 : Word := 0
  dw14 : Word := 0
  dw15 : Word := 0
deriving DecidableEq, Repr

/-- A register number of the control core. -/
abbrev Reg := BitVec 5

/-- Branch conditions of RV64I. -/
inductive BrCond where
  | eq | ne | lt | ge | ltu | geu
deriving DecidableEq, Repr

/-- Load and store widths of RV64I; `u` for the zero-extending loads. -/
inductive MemW where
  | b | h | w | d | bu | hu | wu
deriving DecidableEq, Repr

/-- The register-to-register operations of RV64I, M, Zba, Zbb, Zbs and Zicond (06 R112). -/
inductive AluOp where
  | add | sub | sll | slt | sltu | xor | srl | sra | or | and
  | mul | mulh | mulhsu | mulhu | div | divu | rem | remu
  | sh1add | sh2add | sh3add
  | andn | orn | xnor | max | maxu | min | minu | rol | ror
  | bclr | bext | binv | bset
  | czeroEqz | czeroNez
deriving DecidableEq, Repr

/-- The operations on the low 32 bits (RV64I, M, Zba, Zbb). -/
inductive AluOpW where
  | addw | subw | sllw | srlw | sraw | mulw | divw | divuw | remw | remuw
  | addUw | sh1addUw | sh2addUw | sh3addUw | rolw | rorw
deriving DecidableEq, Repr

/-- The operations of one register and an immediate. -/
inductive ImmOp where
  | addi | slti | sltiu | xori | ori | andi | slli | srli | srai
  | rori | bclri | bexti | binvi | bseti
  | addiw | slliw | srliw | sraiw | roriw | slliUw
deriving DecidableEq, Repr

/-- The one-operand operations of Zbb. -/
inductive UnOp where
  | clz | ctz | cpop | clzw | ctzw | cpopw | sextB | sextH | zextH | orcB | rev8
deriving DecidableEq, Repr

/-- The CSR instructions of Zicsr. -/
inductive CsrOp where
  | rw | rs | rc
deriving DecidableEq, Repr

/-- An ordinary instruction of the control core (06 R112): those of RV64IMAC, Zicsr, Zba, Zbb, Zbs and Zicond that
no other row of the table names, and the encodings that none of them assigns (`illegal`, with the bits found). -/
inductive RvInstr where
  | lui (rd : Reg) (imm : BitVec 20)
  | auipc (rd : Reg) (imm : BitVec 20)
  | jal (rd : Reg) (off : BitVec 20)
  | jalr (rd rs1 : Reg) (imm : BitVec 12)
  | branch (cond : BrCond) (rs1 rs2 : Reg) (off : BitVec 12)
  | load (w : MemW) (rd rs1 : Reg) (imm : BitVec 12)
  | store (w : MemW) (rs1 rs2 : Reg) (imm : BitVec 12)
  | opImm (op : ImmOp) (rd rs1 : Reg) (imm : BitVec 12)
  | op (op : AluOp) (rd rs1 rs2 : Reg)
  | opW (op : AluOpW) (rd rs1 rs2 : Reg)
  | unary (op : UnOp) (rd rs1 : Reg)
  | csr (op : CsrOp) (rd : Reg) (imm : Bool) (src : Reg) (num : BitVec 12)
  | wfi
  | illegal (bits : BitVec 64)
deriving DecidableEq, Repr

/-- The AMO operations of the A extension. -/
inductive AmoOp where
  | swap | add | xor | and | or | min | max | minu | maxu
deriving DecidableEq, Repr

/-- Levels of the work hierarchy, in the order of CANCEL's codes (02 R28, 06 R120). -/
inductive Level where
  | unit | launch | graph | stage | job
deriving DecidableEq, Repr

/-- A master of the control channel, by its identity (21 R423), and the id of its request (21 R425). -/
structure Req where
  master : BitVec 64
  id     : BitVec 32
deriving DecidableEq, Repr

/-- Firmware as the boot flash holds it (21 R419): the header's fields and the image. -/
structure Firmware where
  release : BitVec 32 := 0
  length  : Nat := 0
  digest  : List Byte := []
  sig     : List Byte := []
  image   : List Byte := []
deriving DecidableEq, Repr

/-- A trust anchor of the control channel: its identity, and whether it carries the right OWNER (21 R424). -/
structure Anchor where
  ident : BitVec 64
  owner : Bool
deriving DecidableEq, Repr

/-- What a master offers at a control-channel handshake (21 R424): the public key in its certificate, where it presents one, whether
the certificate's chain is whole, and where it ends; what its ClientHello offers; the scheme with which it signs; and whether it is on
the management port. -/
structure Handshake where
  cert      : Option (List Byte)
  chainOk   : Bool
  anchor    : BitVec 64
  suites    : List (BitVec 16)
  groups    : List (BitVec 16)
  sigs      : List (BitVec 16)
  msig      : BitVec 16
  mgmt      : Bool
deriving DecidableEq, Repr

/-- The kinds of item that READ names (21 R425). -/
inductive ReadItem where
  | bank (die bank : BitVec 4)
  | thermal (die : BitVec 4)
  | record (job : Nat) (addr : Word)
deriving DecidableEq, Repr

/-- A job's attributes (18 R369). -/
structure JobAttr where
  jstat  : Word
  jlo    : Nat
  jhi    : Nat
  maxpri : Nat
  /-- the watchdog's period as a power of two; without one it is the default, 26 (18 R369) -/
  wdlog2 : Option Nat := none
deriving DecidableEq, Repr

/-- The fields of a MAP request (21 R425, R445). -/
structure MapReq where
  va   : Word
  big  : Bool
  len  : Nat
  kind : BitVec 2
  repl : Bool
  w    : Bool
  home : Nat
deriving DecidableEq, Repr

/-- The transports of RoCEv2 (21 R429). -/
inductive Transport where
  | rc | uc | ud | xrc
deriving DecidableEq, Repr

/-- Where an incoming packet belongs: the module's queue pair, and the transport by which it came (21 R429). -/
structure Route where
  qp  : BitVec 24
  via : Transport
deriving DecidableEq, Repr

/-- A die's mean power over the last 10 ms and over the last 100 ms, in watts (22 R439). -/
structure MeanPower where
  ms10  : BitVec 16
  ms100 : BitVec 16
deriving DecidableEq, Repr

/-- An incoming RoCEv2 operation at a job's virtual addresses (21 R429). -/
inductive RdmaOp where
  | write (data : List Byte)
  | read (len : Nat)
  | send (data : List Byte)
  | atomicStd
deriving DecidableEq, Repr

/-- A remote atomic request as a packet (14 R321, 21 R430). -/
structure RmtReq where
  module : BitVec 64
  tag    : Word
  op     : BitVec 3
  ty     : BitVec 4
  raddr  : Word
  opnd   : BitVec 32
  cmp    : BitVec 32
deriving DecidableEq, Repr

/-- What a response carries back: the old word and the status (14 R321). -/
structure RmtAns where
  old    : BitVec 32
  status : BitVec 3
deriving DecidableEq, Repr

/-- What a load is given: the bytes of the code object and the symbols that the runtime supplies with it (17 R358). -/
structure Supply where
  obj  : List Byte
  syms : List (List Byte × Word)
  /-- for each kernel of the table in turn, the offsets in its section at which its phases end, the last its .endkernel: the
  object does not carry them (log entry 8); none where the supply says nothing of it. -/
  marks : List (List Nat) := []
deriving DecidableEq, Repr

/-- The part's steps, one constructor for each row of the opcode table, in the table's order.
Rows with an encoding carry the decoded word or frame; an operation without one carries what it acts on. The core
and the engine that acts are not operands: the state says whose turn it is. -/
inductive Instr where
  -- shapes, streams, commands from the control core (06 R114-R122)
  | setshape (p : PWord)
  | getshape (p : PWord)
  | setstream (p : PWord)
  | cmdpush (p : PWord)
  | respop (p : PWord)
  | waitseq (p : PWord)
  | cancel (p : PWord)
  | cancelApply
  | trapv (p : PWord)
  | trapvNative (w : NWord)
  | bridge (p : PWord)
  -- the Almanac words (13 R294)
  | ttdecl (p : PWord)
  | ttver (p : PWord)
  | specq (p : PWord)
  | ttdrop (p : PWord)
  -- control-core forms of group 2, and PWLD
  | mngo (p : PWord)
  | mnwaitControl (p : PWord)
  | mgangControl (p : PWord)
  | pwld (f : Form)
  -- RV64 (06 R112, R113; 14 R318; 20 R406)
  | rv64Instruction (i : RvInstr) (short : Bool)
  | fence (fm pred succ : BitVec 4) (rd rs1 : Reg)
  | fenceI (imm : BitVec 12) (rd rs1 : Reg)
  | amoWindow (op : AmoOp) (dbl aq rl : Bool) (rd rs1 rs2 : Reg)
  | lr (dbl aq rl : Bool) (rd rs1 : Reg)
  | sc (dbl aq rl : Bool) (rd rs1 rs2 : Reg)
  | ecall
  | ebreak (short : Bool)
  | mret
  | trapEntry
  -- native control flow (06 R123)
  | nopv (w : NWord)
  | pbr (w : NWord)
  | br (w : NWord)
  | brl (w : NWord)
  | ret (w : NWord)
  | loop (w : NWord)
  | halt (w : NWord)
  | resultLanding
  -- group 0 (07)
  | vadd (f : Form)
  | vsub (f : Form)
  | vmul (f : Form)
  | vfma (f : Form)
  | vfms (f : Form)
  | vfnma (f : Form)
  | vfnms (f : Form)
  | vmin (f : Form)
  | vmax (f : Form)
  | vminn (f : Form)
  | vmaxn (f : Form)
  | vabs (f : Form)
  | vneg (f : Form)
  | vcpysgn (f : Form)
  | vrecpe (f : Form)
  | vrsqrte (f : Form)
  | vexp2e (f : Form)
  | vlog2e (f : Form)
  | vrecps (f : Form)
  | vrsqrts (f : Form)
  | vdiv (f : Form)
  | vsqrt (f : Form)
  | viadd (f : Form)
  | visub (f : Form)
  | vimul (f : Form)
  | vimulh (f : Form)
  | vimad (f : Form)
  | vimin (f : Form)
  | vimax (f : Form)
  | vand (f : Form)
  | vor (f : Form)
  | vxor (f : Form)
  | vshl (f : Form)
  | vshr (f : Form)
  | vsra (f : Form)
  | vcvt (f : Form)
  | vcvtsr (f : Form)
  | vquant (f : Form)
  | vdeq (f : Form)
  | vscale (f : Form)
  | vclass (f : Form)
  | vcmp (f : Form)
  | vsel (f : Form)
  | vdadd (f : Form)
  | vdmul (f : Form)
  | vdfma (f : Form)
  | wickReturn
  -- group 1 (08)
  | vmov (f : Form)
  | vbcast (f : Form)
  | vperm (f : Form)
  | vslideup (f : Form)
  | vslidedn (f : Form)
  | vzip (f : Form)
  | vunzip (f : Form)
  | vextr (f : Form)
  | vins (f : Form)
  | viota (f : Form)
  | vcompress (f : Form)
  | vexpand (f : Form)
  | vredsum (f : Form)
  | vredmax (f : Form)
  | vredmin (f : Form)
  | vredisum (f : Form)
  | vscanInc (f : Form)
  | vscanExc (f : Form)
  | vdot (f : Form)
  | pand (f : Form)
  | por (f : Form)
  | pxor (f : Form)
  | pandn (f : Form)
  | pnot (f : Form)
  | pmov (f : Form)
  | pcnt (f : Form)
  | pfirst (f : Form)
  | ptail (f : Form)
  | pset (f : Form)
  | ppack (f : Form)
  | punpack (f : Form)
  | setrot (w : NWord)
  -- group 2 (09, 10)
  | mlds (f : Form)
  | mldf (f : Form)
  | mldg (f : Form)
  | mma (f : Form)
  | mmas (f : Form)
  | mzero (f : Form)
  | accld (f : Form)
  | mtrans (f : Form)
  | mnwait (w : NWord)
  | nestRun
  | mprom (f : Form)
  | mpoly (f : Form)
  | mpolyT (f : Form)
  | mpstat (f : Form)
  | mgang (w : NWord)
  -- group 3 (11)
  | gadd (w : NWord)
  | gsub (w : NWord)
  | gmul (w : NWord)
  | gshl (w : NWord)
  | gshr (w : NWord)
  | gand (w : NWord)
  | gor (w : NWord)
  | gli (w : NWord)
  | gmovx (w : NWord)
  | gcmp (w : NWord)
  | ald (f : Form)
  | alds (f : Form)
  | aldx (w : NWord)
  | ast (f : Form)
  | asts (f : Form)
  | astx (w : NWord)
  | apref (f : Form)
  | vspill (f : Form)
  | vfill (f : Form)
  | anest (w : NWord)
  -- group 4 (12)
  | tkgive (w : NWord)
  | tktake (w : NWord)
  | flset (f : Form)
  | flclr (f : Form)
  | flwaitSet (f : Form)
  | flwaitClr (f : Form)
  | flwaitTake (f : Form)
  | rclaim (f : Form)
  | rpub (f : Form)
  | rwfill (f : Form)
  | rwfree (f : Form)
  | rcons (f : Form)
  | rskip (f : Form)
  | evsigSet (f : Form)
  | evsigClr (f : Form)
  | evsigPost (f : Form)
  | evwait (f : Form)
  | evwaitClr (f : Form)
  -- group 4 (14)
  | fencevAcq (f : Form)
  | fencevRel (f : Form)
  | fencevSc (f : Form)
  | ldacq (f : Form)
  | strel (f : Form)
  | aadd (f : Form)
  | amax (f : Form)
  | amin (f : Form)
  | axchg (f : Form)
  | acas (f : Form)
  | aor (f : Form)
  | aand (f : Form)
  | vaddm (f : Form)
  | aaddRmt (p : PWord)
  | amaxRmt (p : PWord)
  | aminRmt (p : PWord)
  | axchgRmt (p : PWord)
  | acasRmt (p : PWord)
  | aorRmt (p : PWord)
  | aandRmt (p : PWord)
  | remoteAtomicRequest (r : RmtReq) (ageMs : Nat) (qp : BitVec 24)
  | remoteAtomicResponse (tag : Word) (ans : RmtAns) (ageMs : Nat)
  | remoteAtomicTimeout
  | replayTableExpiry
  | tagRecordLapse
  -- command frames (12)
  | codeStart (f : Frame)
  | copy (f : Frame)
  | copynd (f : Frame)
  | bcast (f : Frame)
  | gatherrows (f : Frame)
  | reduce (f : Frame)
  | signal (f : Frame)
  | waitcount (f : Frame)
  | link (f : Frame)
  | chainFrameRead
  | pswap (f : Frame)
  | selftest (f : Frame)
  | selftestDone
  | commandRetire
  | commitExchange
  | commitRetire
  -- errors (20), speculation (13), watchdog (02)
  | correctedError (die bank : BitVec 4) (sub : BitVec 8) (lcore : BitVec 11) (addr : Word)
  | fatalError (die bank : BitVec 4) (sub : BitVec 8) (lcore : BitVec 11) (addr : Word)
  | specStart (entry : BitVec 4)
  | specResolve (entry : BitVec 4)
  | unithang
  -- paging and context (19)
  | pageFaultRecord
  | fbipInterrupt
  | fbflush (n : BitVec 5)
  | tlbinvAsid (wide : Bool)
  | tlbinvVa (wide : Bool)
  | tlbinvAll (wide : Bool)
  | tlbinvDone
  | upcWrite (k : BitVec 3) (v : Word)
  | preempt
  | preipInterrupt
  | mcipInterrupt
  | ctxSave
  | ctxSaveWrite
  | ctxRestore
  | mcctlClrcnt
  | ringcfgWrite (v : Word)
  | csrWrite (num : BitVec 12) (v : Word)
  -- launch, load and the control channel (17, 18, 21)
  | submit (r : Req) (job : Nat) (va : Word)
  | unitStart
  | load (r : Req) (job : Nat) (given : Supply)
  | status (r : Req)
  | attest (r : Req) (nonce : List Byte)
  | read (r : Req) (item : ReadItem)
  | clearmc (r : Req) (die bank : BitVec 4)
  | claim (r : Req) (priority : BitVec 8)
  | electionClose
  | renew (r : Req)
  | release (r : Req)
  | handover (r : Req) (heir : BitVec 64)
  | leaseExpiry
  | createjob (r : Req) (attr : JobAttr)
  | endjob (r : Req) (job : Nat)
  | endjobDone (job : Nat)
  | map (r : Req) (job : Nat) (m : MapReq)
  | unmap (r : Req) (job : Nat) (va : Word) (len : Nat)
  | unmapDone
  | cancelMsg (r : Req) (job : Nat) (level : Level) (sel : Word)
  | peer (r : Req) (job entry : Nat) (gid : BitVec 128) (qp : BitVec 24) (valid : Bool)
  | selftestMsg (r : Req) (die : BitVec 3) (dw10 dw11 : Word)
  | anchors (r : Req) (list : List Anchor) (deny : List (BitVec 64))
  | reset (r : Req)
  | moduleReset
  | boot
  | imageUpload (die : BitVec 4) (fw : Firmware)
  | controlHandshake (h : Handshake)
  | rdmaPacket (route : Route) (va : Word) (op : RdmaOp)
  | replUpdateApply (die : BitVec 3)
  | pageMigration (job : Nat) (va : Word) (frame : Nat)
  | cycleWithhold (die : BitVec 4) (temp : BitVec 16) (power : MeanPower)
  | thermalTrip (die : BitVec 4)
  | accessPerformed
  | lateResultArrives
  | wickAccept
  | functionReady (bit : BitVec 6)
  | ethernetLinkDown (port : BitVec 3)
  | controlConnectionLoss (master : BitVec 64)
deriving DecidableEq, Repr

end Sys2Proof
end

