-- ==== Sys2Proof/Decode.lean ====
section
/-! DEFINITION. The decoder and the encoder: native words and lines (05 R89-R97), portable words (05 R85-R88), the
control core's standard instructions (06 R112), and command frames (12 R246-R250). Refusals carry the names of R110. -/

namespace Sys2Proof

/-- Causes of a DECODE fault, in the order of their subcodes (05 R110). -/
inductive Bad where
  | opcode | type | operand | literal | guard | bundle | delay | link | resume | mode
deriving DecidableEq, Repr

/-- The subcode (05 R110). -/
def Bad.code : Bad → Nat
  | .opcode => 1 | .type => 2 | .operand => 3 | .literal => 4 | .guard => 5
  | .bundle => 6 | .delay => 7 | .link => 8 | .resume => 9 | .mode => 10

/-- The cause with the lowest subcode, which is the one that is logged (05 R110). -/
def Bad.least : List Bad → Option Bad
  | [] => none
  | b :: bs => match Bad.least bs with
    | none => some b
    | some c => if b.code ≤ c.code then some b else some c

/-- The class in which a native operand field is read (05 R93, 07 R132, 08 R160, 09 R191, 11 R227, 12 R264, 14 R312). -/
inductive Cls where
  /-- holds 0x3FF -/
  | unused
  /-- checked with the word's mode, by `extraBad` -/
  | free
  /-- carries any bits -/
  | any
  /-- a vector register, qd0, qd1, or qx0 where the type is INT32 or UINT32 -/
  | vdst
  | vreg
  /-- a vector register, and anything else is OPERAND (10 R210) -/
  | vregO
  /-- a vector register, qa0 to qa3, or a literal -/
  | src
  | srcOrNone
  /-- a vector register or qa0 to qa3 -/
  | strm
  /-- a vector register or qa0 to qa3, and anything else is OPERAND (10 R210) -/
  | strmO
  | stream
  | predD | predS | pred8
  | g | gPair | gOrQa | glit | glitOrNone | lit
  | apredD
  | qa | qd | qx
  | bt
  | count (lo hi : Nat)
  /-- mode codes up to the given one -/
  | mode (max : Nat)
  /-- a scope in bits 2:0 and a kind up to the given one in bits 4:3 -/
  | scoped (max : Nat)
deriving DecidableEq, Repr

/-- The classes that bundle limits count (05 R95). -/
inductive BCls where
  | arith | data | ctl | array | load | addr | mem
deriving DecidableEq, Repr

/-- What the spec's tables say of a native word. -/
structure Row where
  engs   : List Eng
  op     : Nat
  types  : List Nat
  dst    : Cls
  a      : Cls
  b      : Cls
  c      : Cls
  guard  : Bool
  cls    : BCls
  writes : Bool
deriving DecidableEq, Repr

/-- The class of a portable register field (05 R86). -/
inductive PCls where
  | z | r | p | pD | p8 | n1 | n2 | n3 | n4 | st | rEven | r30 | any
  /-- a register that a flag of imm18 names; zero where the flag does not -/
  | rIf
deriving DecidableEq, Repr

/-- How imm18 is divided (05 R87 and the words' definitions). -/
inductive PImm where
  | zero | any | sv2 | cvt | slide | idxXs | idx | xs | mload | mma | mmas | accld | mtrans | mprom | spill | pwld | num2 | row
  | scope | scoped | entry | specq | setshape
  | mode (max : Nat) | count (max : Nat) | sel (max : Nat) | num (mode : Nat)
deriving DecidableEq, Repr

/-- What the spec's tables say of a portable word. -/
structure PRow where
  grp   : Nat
  op    : Nat
  types : Option (List Nat)
  vd    : PCls
  vs1   : PCls
  vs2   : PCls
  vs3   : PCls
  imm   : PImm
  guard : Bool
deriving DecidableEq, Repr

def eV : List Eng := [.V]
def eM : List Eng := [.M]
def eA : List Eng := [.A]
def eAll : List Eng := [.A, .M, .V]
def t0 : List Nat := [0]
def tF : List Nat := [0, 1, 2]
def tI : List Nat := [8, 9, 10, 11, 12, 14]
def tI5 : List Nat := [8, 9, 10, 11, 14]
/-- The type set M of group 1, and T of group 3. -/
def tM : List Nat := [0, 1, 2, 3, 4, 7, 8, 9, 10, 11, 12, 14]
def tX : List Nat := [0, 1, 2, 3, 4, 10, 12]
def tP : List Nat := [0, 1, 2, 3, 4]
def tA : List Nat := [0, 8, 14]
def tB : List Nat := [8, 14]
def tC : List Nat := [0, 8]

/-- The row of a native word and the word (07 R135, 08 R160, 09 R191, 10 R210, 11 R227, 12 R264, 14 R312, 06 R123). -/
def nativeRow : Instr → Option (Row × NWord)
  | .vadd (.nat w) => some (⟨eV, 0x00, tF, .vdst, .src, .src, .unused, true, .arith, true⟩, w)
  | .vsub (.nat w) => some (⟨eV, 0x01, tF, .vdst, .src, .src, .unused, true, .arith, true⟩, w)
  | .vmul (.nat w) => some (⟨eV, 0x02, tF, .vdst, .src, .src, .unused, true, .arith, true⟩, w)
  | .vfma (.nat w) => some (⟨eV, 0x03, tF, .vdst, .src, .src, .src, true, .arith, true⟩, w)
  | .vfms (.nat w) => some (⟨eV, 0x04, tF, .vdst, .src, .src, .src, true, .arith, true⟩, w)
  | .vfnma (.nat w) => some (⟨eV, 0x05, tF, .vdst, .src, .src, .src, true, .arith, true⟩, w)
  | .vfnms (.nat w) => some (⟨eV, 0x06, tF, .vdst, .src, .src, .src, true, .arith, true⟩, w)
  | .vmin (.nat w) => some (⟨eV, 0x08, tF, .vdst, .src, .src, .unused, true, .arith, true⟩, w)
  | .vmax (.nat w) => some (⟨eV, 0x09, tF, .vdst, .src, .src, .unused, true, .arith, true⟩, w)
  | .vminn (.nat w) => some (⟨eV, 0x0A, tF, .vdst, .src, .src, .unused, true, .arith, true⟩, w)
  | .vmaxn (.nat w) => some (⟨eV, 0x0B, tF, .vdst, .src, .src, .unused, true, .arith, true⟩, w)
  | .vabs (.nat w) => some (⟨eV, 0x0C, tF, .vdst, .src, .unused, .unused, true, .arith, true⟩, w)
  | .vneg (.nat w) => some (⟨eV, 0x0D, tF, .vdst, .src, .unused, .unused, true, .arith, true⟩, w)
  | .vcpysgn (.nat w) => some (⟨eV, 0x0E, tF, .vdst, .src, .src, .unused, true, .arith, true⟩, w)
  | .vrecpe (.nat w) => some (⟨eV, 0x10, tF, .vdst, .src, .unused, .unused, true, .arith, true⟩, w)
  | .vrsqrte (.nat w) => some (⟨eV, 0x11, tF, .vdst, .src, .unused, .unused, true, .arith, true⟩, w)
  | .vexp2e (.nat w) => some (⟨eV, 0x14, tF, .vdst, .src, .unused, .unused, true, .arith, true⟩, w)
  | .vlog2e (.nat w) => some (⟨eV, 0x15, tF, .vdst, .src, .unused, .unused, true, .arith, true⟩, w)
  | .vsqrt (.nat w) => some (⟨eV, 0x17, tF, .vdst, .src, .unused, .unused, true, .arith, true⟩, w)
  | .vrecps (.nat w) => some (⟨eV, 0x12, tF, .vdst, .src, .src, .unused, true, .arith, true⟩, w)
  | .vrsqrts (.nat w) => some (⟨eV, 0x13, tF, .vdst, .src, .src, .unused, true, .arith, true⟩, w)
  | .vdiv (.nat w) => some (⟨eV, 0x16, tF, .vdst, .src, .src, .unused, true, .arith, true⟩, w)
  | .viadd (.nat w) => some (⟨eV, 0x18, tI, .vdst, .src, .src, .unused, true, .arith, true⟩, w)
  | .visub (.nat w) => some (⟨eV, 0x19, tI, .vdst, .src, .src, .unused, true, .arith, true⟩, w)
  | .vimin (.nat w) => some (⟨eV, 0x1D, tI, .vdst, .src, .src, .unused, true, .arith, true⟩, w)
  | .vimax (.nat w) => some (⟨eV, 0x1E, tI, .vdst, .src, .src, .unused, true, .arith, true⟩, w)
  | .vimul (.nat w) => some (⟨eV, 0x1A, tI5, .vdst, .src, .src, .unused, true, .arith, true⟩, w)
  | .vimulh (.nat w) => some (⟨eV, 0x1B, tI5, .vdst, .src, .src, .unused, true, .arith, true⟩, w)
  | .vimad (.nat w) => some (⟨eV, 0x1C, tI5, .vdst, .src, .src, .src, true, .arith, true⟩, w)
  | .vand (.nat w) => some (⟨eV, 0x20, tI, .vdst, .src, .src, .unused, true, .arith, true⟩, w)
  | .vor (.nat w) => some (⟨eV, 0x21, tI, .vdst, .src, .src, .unused, true, .arith, true⟩, w)
  | .vxor (.nat w) => some (⟨eV, 0x22, tI, .vdst, .src, .src, .unused, true, .arith, true⟩, w)
  | .vshl (.nat w) => some (⟨eV, 0x23, tI5, .vdst, .src, .src, .unused, true, .arith, true⟩, w)
  | .vshr (.nat w) => some (⟨eV, 0x24, tI5, .vdst, .src, .src, .unused, true, .arith, true⟩, w)
  | .vsra (.nat w) => some (⟨eV, 0x25, tI5, .vdst, .src, .src, .unused, true, .arith, true⟩, w)
  | .vcvt (.nat w) => some (⟨eV, 0x28, [0, 1, 2, 3, 4, 7, 8, 9, 10, 11, 12, 13, 14], .vdst, .src, .free, .free, true, .arith, true⟩, w)
  | .vcvtsr (.nat w) => some (⟨eV, 0x29, [1, 2, 3, 4], .vdst, .src, .free, .free, true, .arith, true⟩, w)
  | .vquant (.nat w) => some (⟨eV, 0x2A, [3, 4, 5, 10, 11, 12], .vdst, .src, .src, .mode 7, true, .arith, true⟩, w)
  | .vdeq (.nat w) => some (⟨eV, 0x2B, tF, .vdst, .src, .stream, .src, true, .arith, true⟩, w)
  | .vscale (.nat w) => some (⟨eV, 0x2C, tF, .vdst, .src, .src, .unused, true, .arith, true⟩, w)
  | .vclass (.nat w) => some (⟨eV, 0x2D, tF, .vdst, .src, .unused, .unused, true, .arith, true⟩, w)
  | .vcmp (.nat w) => some (⟨eV, 0x2E, [0, 1, 2, 8, 9, 10, 11, 12, 14], .predD, .src, .src, .mode 7, true, .arith, true⟩, w)
  | .vsel (.nat w) => some (⟨eV, 0x2F, tM, .vdst, .src, .src, .predS, true, .arith, true⟩, w)
  | .vdadd (.nat w) => some (⟨eV, 0x58, [13], .vdst, .src, .src, .unused, true, .arith, true⟩, w)
  | .vdmul (.nat w) => some (⟨eV, 0x59, [13], .vdst, .src, .src, .unused, true, .arith, true⟩, w)
  | .vdfma (.nat w) => some (⟨eV, 0x5A, [13], .vdst, .src, .src, .src, true, .arith, true⟩, w)
  | .vmov (.nat w) => some (⟨eV, 0x60, tM, .vdst, .src, .unused, .unused, true, .data, true⟩, w)
  | .vbcast (.nat w) => some (⟨eV, 0x61, tM, .vdst, .src, .unused, .count 0 1023, true, .data, true⟩, w)
  | .vperm (.nat w) => some (⟨eV, 0x62, [0, 1, 2, 3, 4, 7, 8, 9, 10, 11, 14], .vdst, .src, .src, .unused, true, .data, true⟩, w)
  | .vslideup (.nat w) => some (⟨eV, 0x63, tM, .vdst, .src, .srcOrNone, .count 0 1023, true, .data, true⟩, w)
  | .vslidedn (.nat w) => some (⟨eV, 0x64, tM, .vdst, .src, .srcOrNone, .count 0 1023, true, .data, true⟩, w)
  | .vzip (.nat w) => some (⟨eV, 0x65, tM, .vdst, .src, .src, .mode 1, true, .data, true⟩, w)
  | .vunzip (.nat w) => some (⟨eV, 0x66, tM, .vdst, .src, .src, .mode 1, true, .data, true⟩, w)
  | .vextr (.nat w) => some (⟨eV, 0x67, tM, .vdst, .src, .unused, .count 0 1023, true, .data, true⟩, w)
  | .vins (.nat w) => some (⟨eV, 0x68, tM, .vdst, .src, .unused, .count 0 1023, true, .data, true⟩, w)
  | .viota (.nat w) => some (⟨eV, 0x69, tI, .vdst, .unused, .unused, .unused, true, .data, true⟩, w)
  | .vcompress (.nat w) => some (⟨eV, 0x6A, tM, .vdst, .src, .unused, .unused, true, .data, true⟩, w)
  | .vexpand (.nat w) => some (⟨eV, 0x6B, tM, .vdst, .src, .unused, .unused, true, .data, true⟩, w)
  | .vredsum (.nat w) => some (⟨eV, 0x70, tF, .vdst, .src, .unused, .unused, true, .arith, true⟩, w)
  | .vredmax (.nat w) => some (⟨eV, 0x71, [0, 1, 2, 8, 9, 10, 11, 12, 14], .vdst, .src, .unused, .unused, true, .arith, true⟩, w)
  | .vredmin (.nat w) => some (⟨eV, 0x72, [0, 1, 2, 8, 9, 10, 11, 12, 14], .vdst, .src, .unused, .unused, true, .arith, true⟩, w)
  | .vredisum (.nat w) => some (⟨eV, 0x73, tI, .vdst, .src, .unused, .unused, true, .arith, true⟩, w)
  | .vscanInc (.nat w) => some (⟨eV, 0x74, [0, 1, 2, 8, 9, 10, 11, 12, 14], .vdst, .src, .unused, .mode 1, true, .arith, true⟩, w)
  | .vscanExc (.nat w) => some (⟨eV, 0x74, [0, 1, 2, 8, 9, 10, 11, 12, 14], .vdst, .src, .unused, .mode 1, true, .arith, true⟩, w)
  | .vdot (.nat w) => some (⟨eV, 0x75, [1, 2, 3, 4, 10], .vdst, .src, .src, .src, true, .arith, true⟩, w)
  | .pand (.nat w) => some (⟨eV, 0x80, t0, .predD, .predS, .predS, .unused, true, .ctl, true⟩, w)
  | .por (.nat w) => some (⟨eV, 0x81, t0, .predD, .predS, .predS, .unused, true, .ctl, true⟩, w)
  | .pxor (.nat w) => some (⟨eV, 0x82, t0, .predD, .predS, .predS, .unused, true, .ctl, true⟩, w)
  | .pandn (.nat w) => some (⟨eV, 0x84, t0, .predD, .predS, .predS, .unused, true, .ctl, true⟩, w)
  | .pnot (.nat w) => some (⟨eV, 0x83, t0, .predD, .predS, .unused, .unused, true, .ctl, true⟩, w)
  | .pmov (.nat w) => some (⟨eV, 0x85, t0, .predD, .predS, .unused, .unused, true, .ctl, true⟩, w)
  | .pcnt (.nat w) => some (⟨eV, 0x86, [14], .vdst, .predS, .unused, .unused, false, .ctl, true⟩, w)
  | .pfirst (.nat w) => some (⟨eV, 0x87, t0, .predD, .predS, .unused, .unused, true, .ctl, true⟩, w)
  | .ptail (.nat w) => some (⟨eV, 0x88, tM, .predD, .src, .unused, .unused, true, .ctl, true⟩, w)
  | .ppack (.nat w) => some (⟨eV, 0x89, t0, .vdst, .pred8, .unused, .unused, false, .ctl, true⟩, w)
  | .punpack (.nat w) => some (⟨eV, 0x8A, t0, .pred8, .src, .unused, .unused, false, .ctl, true⟩, w)
  | .pset (.nat w) => some (⟨eV, 0x8B, t0, .predD, .unused, .unused, .count 0 64, true, .ctl, true⟩, w)
  | .setrot w => some (⟨eV, 0x8C, t0, .unused, .free, .free, .mode 3, true, .ctl, false⟩, w)
  | .mlds (.nat w) => some (⟨eM, 0x00, tX, .unused, .free, .unused, .mode 3, false, .load, true⟩, w)
  | .mldf (.nat w) => some (⟨eM, 0x01, tX, .unused, .free, .unused, .mode 3, false, .load, true⟩, w)
  | .mldg (.nat w) => some (⟨eM, 0x02, tX, .unused, .free, .unused, .mode 3, false, .load, true⟩, w)
  | .mma (.nat w) => some (⟨eM, 0x03, tX, .count 0 1, .free, .free, .mode 15, false, .array, true⟩, w)
  | .mmas (.nat w) => some (⟨eM, 0x04, [1, 3, 4], .count 0 1, .strm, .free, .mode 15, false, .array, true⟩, w)
  | .mzero (.nat w) => some (⟨eM, 0x05, t0, .count 0 2, .unused, .unused, .unused, false, .array, true⟩, w)
  | .accld (.nat w) => some (⟨eM, 0x06, tC, .free, .count 0 63, .unused, .mode 11, false, .load, true⟩, w)
  | .mtrans (.nat w) => some (⟨eM, 0x07, t0, .unused, .unused, .unused, .mode 10, false, .array, true⟩, w)
  | .mnwait w => some (⟨eM, 0x09, t0, .unused, .unused, .unused, .unused, false, .ctl, false⟩, w)
  | .mprom (.nat w) => some (⟨eM, 0x20, tP, .unused, .unused, .unused, .mode 7, false, .array, true⟩, w)
  | .mpoly (.nat w) => some (⟨eM, 0x21, tP, .unused, .strmO, .unused, .mode 3, false, .array, true⟩, w)
  | .mpolyT (.nat w) => some (⟨eM, 0x22, tP, .unused, .strmO, .unused, .mode 3, false, .array, true⟩, w)
  | .mpstat (.nat w) => some (⟨eM, 0x23, t0, .vregO, .unused, .unused, .mode 1, false, .load, true⟩, w)
  | .mgang w => some (⟨eM, 0x24, t0, .unused, .unused, .unused, .unused, false, .ctl, false⟩, w)
  | .gadd w => some (⟨eA, 0x00, t0, .g, .g, .glit, .unused, true, .addr, false⟩, w)
  | .gsub w => some (⟨eA, 0x01, t0, .g, .g, .glit, .unused, true, .addr, false⟩, w)
  | .gmul w => some (⟨eA, 0x02, t0, .g, .g, .glit, .unused, true, .addr, false⟩, w)
  | .gshl w => some (⟨eA, 0x03, t0, .g, .g, .glit, .unused, true, .addr, false⟩, w)
  | .gshr w => some (⟨eA, 0x04, t0, .g, .g, .glit, .unused, true, .addr, false⟩, w)
  | .gand w => some (⟨eA, 0x05, t0, .g, .g, .glit, .unused, true, .addr, false⟩, w)
  | .gor w => some (⟨eA, 0x06, t0, .g, .g, .glit, .unused, true, .addr, false⟩, w)
  | .gli w => some (⟨eA, 0x07, t0, .g, .lit, .unused, .unused, true, .addr, false⟩, w)
  | .gmovx w => some (⟨eA, 0x08, t0, .g, .qx, .unused, .count 0 63, true, .addr, false⟩, w)
  | .gcmp w => some (⟨eA, 0x09, t0, .apredD, .g, .glit, .mode 5, true, .addr, false⟩, w)
  | .ald (.nat w) => some (⟨eA, 0x10, tM, .qa, .g, .glitOrNone, .unused, true, .mem, false⟩, w)
  | .alds (.nat w) => some (⟨eA, 0x14, tM, .qa, .g, .glitOrNone, .unused, true, .mem, false⟩, w)
  | .aldx w => some (⟨eA, 0x11, tM, .qa, .g, .g, .g, true, .mem, false⟩, w)
  | .ast (.nat w) => some (⟨eA, 0x12, tM, .unused, .g, .glitOrNone, .qd, true, .mem, false⟩, w)
  | .asts (.nat w) => some (⟨eA, 0x15, tM, .unused, .g, .glitOrNone, .qd, true, .mem, false⟩, w)
  | .astx w => some (⟨eA, 0x13, tA, .unused, .g, .g, .qd, true, .mem, false⟩, w)
  | .apref (.nat w) => some (⟨eA, 0x16, t0, .unused, .g, .glit, .unused, true, .mem, false⟩, w)
  | .vspill (.nat w) => some (⟨eA, 0x20, t0, .unused, .g, .qd, .count 1 1023, true, .mem, false⟩, w)
  | .vfill (.nat w) => some (⟨eA, 0x21, t0, .qa, .g, .unused, .count 1 1023, true, .mem, false⟩, w)
  | .pwld (.nat w) => some (⟨eA, 0x22, [0, 1, 2, 8, 9, 10, 11, 14], .gOrQa, .count 0 31, .count 0 63, .count 0 1023, true, .mem, false⟩, w)
  | .anest w => some (⟨eA, 0x23, tM, .qa, .g, .g, .mode 1, true, .mem, false⟩, w)
  | .tkgive w => some (⟨eAll, 0xC0, t0, .unused, .count 1 16, .unused, .mode 1, true, .ctl, false⟩, w)
  | .tktake w => some (⟨eAll, 0xC1, t0, .unused, .count 1 16, .unused, .mode 1, true, .ctl, false⟩, w)
  | .flset (.nat w) => some (⟨eAll, 0xC2, t0, .unused, .count 0 63, .unused, .unused, true, .ctl, false⟩, w)
  | .flclr (.nat w) => some (⟨eAll, 0xC3, t0, .unused, .count 0 63, .unused, .unused, true, .ctl, false⟩, w)
  | .flwaitSet (.nat w) => some (⟨eAll, 0xC4, t0, .unused, .count 0 63, .unused, .mode 2, true, .ctl, false⟩, w)
  | .flwaitClr (.nat w) => some (⟨eAll, 0xC4, t0, .unused, .count 0 63, .unused, .mode 2, true, .ctl, false⟩, w)
  | .flwaitTake (.nat w) => some (⟨eAll, 0xC4, t0, .unused, .count 0 63, .unused, .mode 2, true, .ctl, false⟩, w)
  | .rclaim (.nat w) => some (⟨eA, 0xC8, t0, .g, .g, .unused, .count 0 63, true, .ctl, false⟩, w)
  | .rpub (.nat w) => some (⟨eA, 0xC9, t0, .unused, .g, .g, .count 0 63, true, .ctl, false⟩, w)
  | .rwfill (.nat w) => some (⟨eA, 0xCA, t0, .gPair, .unused, .unused, .count 0 63, true, .ctl, false⟩, w)
  | .rwfree (.nat w) => some (⟨eA, 0xCB, t0, .unused, .g, .unused, .count 0 63, true, .ctl, false⟩, w)
  | .rcons (.nat w) => some (⟨eA, 0xCC, t0, .unused, .unused, .unused, .count 0 63, true, .ctl, false⟩, w)
  | .rskip (.nat w) => some (⟨eA, 0xCD, t0, .g, .unused, .unused, .count 0 63, true, .ctl, false⟩, w)
  | .evsigSet (.nat w) => some (⟨eAll, 0xD0, t0, .unused, .count 0 63, .unused, .mode 2, true, .ctl, false⟩, w)
  | .evsigClr (.nat w) => some (⟨eAll, 0xD0, t0, .unused, .count 0 63, .unused, .mode 2, true, .ctl, false⟩, w)
  | .evsigPost (.nat w) => some (⟨eAll, 0xD0, t0, .unused, .free, .unused, .mode 2, true, .ctl, false⟩, w)
  | .evwait (.nat w) => some (⟨eAll, 0xD1, t0, .unused, .count 0 63, .unused, .mode 1, true, .ctl, false⟩, w)
  | .evwaitClr (.nat w) => some (⟨eAll, 0xD1, t0, .unused, .count 0 63, .unused, .mode 1, true, .ctl, false⟩, w)
  | .fencevAcq (.nat w) => some (⟨eAll, 0xE0, t0, .unused, .unused, .unused, .scoped 2, true, .ctl, false⟩, w)
  | .fencevRel (.nat w) => some (⟨eAll, 0xE0, t0, .unused, .unused, .unused, .scoped 2, true, .ctl, false⟩, w)
  | .fencevSc (.nat w) => some (⟨eAll, 0xE0, t0, .unused, .unused, .unused, .scoped 2, true, .ctl, false⟩, w)
  | .ldacq (.nat w) => some (⟨eA, 0xE1, t0, .g, .g, .unused, .scoped 0, true, .mem, false⟩, w)
  | .strel (.nat w) => some (⟨eA, 0xE2, t0, .unused, .g, .g, .scoped 0, true, .mem, false⟩, w)
  | .aadd (.nat w) => some (⟨eA, 0xE3, tA, .g, .g, .glit, .scoped 3, true, .mem, false⟩, w)
  | .amax (.nat w) => some (⟨eA, 0xE4, tA, .g, .g, .glit, .scoped 3, true, .mem, false⟩, w)
  | .amin (.nat w) => some (⟨eA, 0xE5, tA, .g, .g, .glit, .scoped 3, true, .mem, false⟩, w)
  | .axchg (.nat w) => some (⟨eA, 0xE6, tB, .g, .g, .glit, .scoped 3, true, .mem, false⟩, w)
  | .acas (.nat w) => some (⟨eA, 0xE7, tB, .g, .g, .glit, .scoped 3, true, .mem, false⟩, w)
  | .aor (.nat w) => some (⟨eA, 0xE8, tB, .g, .g, .glit, .scoped 3, true, .mem, false⟩, w)
  | .aand (.nat w) => some (⟨eA, 0xE9, tB, .g, .g, .glit, .scoped 3, true, .mem, false⟩, w)
  | .vaddm (.nat w) => some (⟨eV, 0xEA, tC, .count 0 1023, .src, .unused, .unused, true, .arith, true⟩, w)
  | .nopv w => some (⟨eAll, 0xF0, t0, .unused, .unused, .unused, .count 0 1023, false, .ctl, false⟩, w)
  | .pbr w => some (⟨eAll, 0xF1, t0, .bt, .count 0 1023, .any, .any, false, .ctl, false⟩, w)
  | .br w => some (⟨eAll, 0xF2, t0, .unused, .bt, .unused, .unused, true, .ctl, false⟩, w)
  | .brl w => some (⟨eAll, 0xF3, t0, .bt, .bt, .unused, .unused, true, .ctl, false⟩, w)
  | .ret w => some (⟨eAll, 0xF4, t0, .unused, .bt, .unused, .unused, true, .ctl, false⟩, w)
  | .loop w => some (⟨eAll, 0xF5, t0, .unused, .bt, .unused, .unused, true, .ctl, false⟩, w)
  | .halt w => some (⟨eAll, 0xF6, t0, .unused, .unused, .unused, .unused, true, .ctl, false⟩, w)
  | .trapvNative w => some (⟨eAll, 0xF7, t0, .unused, .unused, .unused, .count 0 1023, true, .ctl, false⟩, w)
  | _ => none

/-- Engine V: groups 0 and 1 (05 R101, R102). -/
def ctorV (op : Nat) (c : BitVec 10) : Option (NWord → Instr) :=
  match op with
  | 0x00 => some (fun w => .vadd (.nat w))
  | 0x01 => some (fun w => .vsub (.nat w))
  | 0x02 => some (fun w => .vmul (.nat w))
  | 0x03 => some (fun w => .vfma (.nat w))
  | 0x04 => some (fun w => .vfms (.nat w))
  | 0x05 => some (fun w => .vfnma (.nat w))
  | 0x06 => some (fun w => .vfnms (.nat w))
  | 0x08 => some (fun w => .vmin (.nat w))
  | 0x09 => some (fun w => .vmax (.nat w))
  | 0x0A => some (fun w => .vminn (.nat w))
  | 0x0B => some (fun w => .vmaxn (.nat w))
  | 0x0C => some (fun w => .vabs (.nat w))
  | 0x0D => some (fun w => .vneg (.nat w))
  | 0x0E => some (fun w => .vcpysgn (.nat w))
  | 0x10 => some (fun w => .vrecpe (.nat w))
  | 0x11 => some (fun w => .vrsqrte (.nat w))
  | 0x14 => some (fun w => .vexp2e (.nat w))
  | 0x15 => some (fun w => .vlog2e (.nat w))
  | 0x17 => some (fun w => .vsqrt (.nat w))
  | 0x12 => some (fun w => .vrecps (.nat w))
  | 0x13 => some (fun w => .vrsqrts (.nat w))
  | 0x16 => some (fun w => .vdiv (.nat w))
  | 0x18 => some (fun w => .viadd (.nat w))
  | 0x19 => some (fun w => .visub (.nat w))
  | 0x1D => some (fun w => .vimin (.nat w))
  | 0x1E => some (fun w => .vimax (.nat w))
  | 0x1A => some (fun w => .vimul (.nat w))
  | 0x1B => some (fun w => .vimulh (.nat w))
  | 0x1C => some (fun w => .vimad (.nat w))
  | 0x20 => some (fun w => .vand (.nat w))
  | 0x21 => some (fun w => .vor (.nat w))
  | 0x22 => some (fun w => .vxor (.nat w))
  | 0x23 => some (fun w => .vshl (.nat w))
  | 0x24 => some (fun w => .vshr (.nat w))
  | 0x25 => some (fun w => .vsra (.nat w))
  | 0x28 => some (fun w => .vcvt (.nat w))
  | 0x29 => some (fun w => .vcvtsr (.nat w))
  | 0x2A => some (fun w => .vquant (.nat w))
  | 0x2B => some (fun w => .vdeq (.nat w))
  | 0x2C => some (fun w => .vscale (.nat w))
  | 0x2D => some (fun w => .vclass (.nat w))
  | 0x2E => some (fun w => .vcmp (.nat w))
  | 0x2F => some (fun w => .vsel (.nat w))
  | 0x58 => some (fun w => .vdadd (.nat w))
  | 0x59 => some (fun w => .vdmul (.nat w))
  | 0x5A => some (fun w => .vdfma (.nat w))
  | 0x60 => some (fun w => .vmov (.nat w))
  | 0x61 => some (fun w => .vbcast (.nat w))
  | 0x62 => some (fun w => .vperm (.nat w))
  | 0x63 => some (fun w => .vslideup (.nat w))
  | 0x64 => some (fun w => .vslidedn (.nat w))
  | 0x65 => some (fun w => .vzip (.nat w))
  | 0x66 => some (fun w => .vunzip (.nat w))
  | 0x67 => some (fun w => .vextr (.nat w))
  | 0x68 => some (fun w => .vins (.nat w))
  | 0x69 => some (fun w => .viota (.nat w))
  | 0x6A => some (fun w => .vcompress (.nat w))
  | 0x6B => some (fun w => .vexpand (.nat w))
  | 0x70 => some (fun w => .vredsum (.nat w))
  | 0x71 => some (fun w => .vredmax (.nat w))
  | 0x72 => some (fun w => .vredmin (.nat w))
  | 0x73 => some (fun w => .vredisum (.nat w))
  | 0x74 => if c.toNat = 0 then some (fun w => .vscanInc (.nat w)) else if c.toNat = 1 then some (fun w => .vscanExc (.nat w)) else none
  | 0x75 => some (fun w => .vdot (.nat w))
  | 0x80 => some (fun w => .pand (.nat w))
  | 0x81 => some (fun w => .por (.nat w))
  | 0x82 => some (fun w => .pxor (.nat w))
  | 0x84 => some (fun w => .pandn (.nat w))
  | 0x83 => some (fun w => .pnot (.nat w))
  | 0x85 => some (fun w => .pmov (.nat w))
  | 0x86 => some (fun w => .pcnt (.nat w))
  | 0x87 => some (fun w => .pfirst (.nat w))
  | 0x88 => some (fun w => .ptail (.nat w))
  | 0x89 => some (fun w => .ppack (.nat w))
  | 0x8A => some (fun w => .punpack (.nat w))
  | 0x8B => some (fun w => .pset (.nat w))
  | 0x8C => some (fun w => .setrot w)
  | _ => none

/-- Engine M: group 2 (05 R103). -/
def ctorM (op : Nat) (_ : BitVec 10) : Option (NWord → Instr) :=
  match op with
  | 0x00 => some (fun w => .mlds (.nat w))
  | 0x01 => some (fun w => .mldf (.nat w))
  | 0x02 => some (fun w => .mldg (.nat w))
  | 0x03 => some (fun w => .mma (.nat w))
  | 0x04 => some (fun w => .mmas (.nat w))
  | 0x05 => some (fun w => .mzero (.nat w))
  | 0x06 => some (fun w => .accld (.nat w))
  | 0x07 => some (fun w => .mtrans (.nat w))
  | 0x09 => some (fun w => .mnwait w)
  | 0x20 => some (fun w => .mprom (.nat w))
  | 0x21 => some (fun w => .mpoly (.nat w))
  | 0x22 => some (fun w => .mpolyT (.nat w))
  | 0x23 => some (fun w => .mpstat (.nat w))
  | 0x24 => some (fun w => .mgang w)
  | _ => none

/-- Engine A: group 3 (05 R104). -/
def ctorA (op : Nat) (_ : BitVec 10) : Option (NWord → Instr) :=
  match op with
  | 0x00 => some (fun w => .gadd w)
  | 0x01 => some (fun w => .gsub w)
  | 0x02 => some (fun w => .gmul w)
  | 0x03 => some (fun w => .gshl w)
  | 0x04 => some (fun w => .gshr w)
  | 0x05 => some (fun w => .gand w)
  | 0x06 => some (fun w => .gor w)
  | 0x07 => some (fun w => .gli w)
  | 0x08 => some (fun w => .gmovx w)
  | 0x09 => some (fun w => .gcmp w)
  | 0x10 => some (fun w => .ald (.nat w))
  | 0x14 => some (fun w => .alds (.nat w))
  | 0x11 => some (fun w => .aldx w)
  | 0x12 => some (fun w => .ast (.nat w))
  | 0x15 => some (fun w => .asts (.nat w))
  | 0x13 => some (fun w => .astx w)
  | 0x16 => some (fun w => .apref (.nat w))
  | 0x20 => some (fun w => .vspill (.nat w))
  | 0x21 => some (fun w => .vfill (.nat w))
  | 0x22 => some (fun w => .pwld (.nat w))
  | 0x23 => some (fun w => .anest w)
  | _ => none

/-- Group 4 and control flow, of every engine (05 R105, R107); the row says which engines take it. -/
def ctorS (op : Nat) (c : BitVec 10) : Option (NWord → Instr) :=
  match op with
  | 0xC0 => some (fun w => .tkgive w)
  | 0xC1 => some (fun w => .tktake w)
  | 0xC2 => some (fun w => .flset (.nat w))
  | 0xC3 => some (fun w => .flclr (.nat w))
  | 0xC4 => if c.toNat = 0 then some (fun w => .flwaitSet (.nat w)) else if c.toNat = 1 then some (fun w => .flwaitClr (.nat w)) else if c.toNat = 2 then some (fun w => .flwaitTake (.nat w)) else none
  | 0xC8 => some (fun w => .rclaim (.nat w))
  | 0xC9 => some (fun w => .rpub (.nat w))
  | 0xCA => some (fun w => .rwfill (.nat w))
  | 0xCB => some (fun w => .rwfree (.nat w))
  | 0xCC => some (fun w => .rcons (.nat w))
  | 0xCD => some (fun w => .rskip (.nat w))
  | 0xD0 => if c.toNat = 0 then some (fun w => .evsigSet (.nat w)) else if c.toNat = 1 then some (fun w => .evsigClr (.nat w)) else if c.toNat = 2 then some (fun w => .evsigPost (.nat w)) else none
  | 0xD1 => if c.toNat = 0 then some (fun w => .evwait (.nat w)) else if c.toNat = 1 then some (fun w => .evwaitClr (.nat w)) else none
  | 0xE0 => if (c.toNat / 8 % 4) = 0 then some (fun w => .fencevAcq (.nat w)) else if (c.toNat / 8 % 4) = 1 then some (fun w => .fencevRel (.nat w)) else if (c.toNat / 8 % 4) = 2 then some (fun w => .fencevSc (.nat w)) else none
  | 0xE1 => some (fun w => .ldacq (.nat w))
  | 0xE2 => some (fun w => .strel (.nat w))
  | 0xE3 => some (fun w => .aadd (.nat w))
  | 0xE4 => some (fun w => .amax (.nat w))
  | 0xE5 => some (fun w => .amin (.nat w))
  | 0xE6 => some (fun w => .axchg (.nat w))
  | 0xE7 => some (fun w => .acas (.nat w))
  | 0xE8 => some (fun w => .aor (.nat w))
  | 0xE9 => some (fun w => .aand (.nat w))
  | 0xEA => some (fun w => .vaddm (.nat w))
  | 0xF0 => some (fun w => .nopv w)
  | 0xF1 => some (fun w => .pbr w)
  | 0xF2 => some (fun w => .br w)
  | 0xF3 => some (fun w => .brl w)
  | 0xF4 => some (fun w => .ret w)
  | 0xF5 => some (fun w => .loop w)
  | 0xF6 => some (fun w => .halt w)
  | 0xF7 => some (fun w => .trapvNative w)
  | _ => none

/-- The row of a portable word and the word (05 R85-R88, 06 R114-R122, 07 R135, 08 R160, 09 R191, 10 R210, 11 R228, 12 R264, 13 R294,
14 R312, R320). -/
def portRow : Instr → Option (PRow × PWord)
  | .vadd (.port p) => some (⟨0, 0x00, (some tF), .r, .r, .r, .z, .zero, true⟩, p)
  | .vsub (.port p) => some (⟨0, 0x01, (some tF), .r, .r, .r, .z, .zero, true⟩, p)
  | .vmul (.port p) => some (⟨0, 0x02, (some tF), .r, .r, .r, .z, .zero, true⟩, p)
  | .vfma (.port p) => some (⟨0, 0x03, (some tF), .r, .r, .r, .r, .zero, true⟩, p)
  | .vfms (.port p) => some (⟨0, 0x04, (some tF), .r, .r, .r, .r, .zero, true⟩, p)
  | .vfnma (.port p) => some (⟨0, 0x05, (some tF), .r, .r, .r, .r, .zero, true⟩, p)
  | .vfnms (.port p) => some (⟨0, 0x06, (some tF), .r, .r, .r, .r, .zero, true⟩, p)
  | .vmin (.port p) => some (⟨0, 0x08, (some tF), .r, .r, .r, .z, .zero, true⟩, p)
  | .vmax (.port p) => some (⟨0, 0x09, (some tF), .r, .r, .r, .z, .zero, true⟩, p)
  | .vminn (.port p) => some (⟨0, 0x0A, (some tF), .r, .r, .r, .z, .zero, true⟩, p)
  | .vmaxn (.port p) => some (⟨0, 0x0B, (some tF), .r, .r, .r, .z, .zero, true⟩, p)
  | .vabs (.port p) => some (⟨0, 0x0C, (some tF), .r, .r, .z, .z, .zero, true⟩, p)
  | .vneg (.port p) => some (⟨0, 0x0D, (some tF), .r, .r, .z, .z, .zero, true⟩, p)
  | .vcpysgn (.port p) => some (⟨0, 0x0E, (some tF), .r, .r, .r, .z, .zero, true⟩, p)
  | .vrecpe (.port p) => some (⟨0, 0x10, (some tF), .r, .r, .z, .z, .zero, true⟩, p)
  | .vrsqrte (.port p) => some (⟨0, 0x11, (some tF), .r, .r, .z, .z, .zero, true⟩, p)
  | .vexp2e (.port p) => some (⟨0, 0x14, (some tF), .r, .r, .z, .z, .zero, true⟩, p)
  | .vlog2e (.port p) => some (⟨0, 0x15, (some tF), .r, .r, .z, .z, .zero, true⟩, p)
  | .vsqrt (.port p) => some (⟨0, 0x17, (some tF), .r, .r, .z, .z, .zero, true⟩, p)
  | .vrecps (.port p) => some (⟨0, 0x12, (some tF), .r, .r, .r, .z, .zero, true⟩, p)
  | .vrsqrts (.port p) => some (⟨0, 0x13, (some tF), .r, .r, .r, .z, .zero, true⟩, p)
  | .vdiv (.port p) => some (⟨0, 0x16, (some tF), .r, .r, .r, .z, .zero, true⟩, p)
  | .viadd (.port p) => some (⟨0, 0x18, (some tI), .r, .r, .r, .z, .zero, true⟩, p)
  | .visub (.port p) => some (⟨0, 0x19, (some tI), .r, .r, .r, .z, .zero, true⟩, p)
  | .vimin (.port p) => some (⟨0, 0x1D, (some tI), .r, .r, .r, .z, .zero, true⟩, p)
  | .vimax (.port p) => some (⟨0, 0x1E, (some tI), .r, .r, .r, .z, .zero, true⟩, p)
  | .vimul (.port p) => some (⟨0, 0x1A, (some tI5), .r, .r, .r, .z, .zero, true⟩, p)
  | .vimulh (.port p) => some (⟨0, 0x1B, (some tI5), .r, .r, .r, .z, .zero, true⟩, p)
  | .vimad (.port p) => some (⟨0, 0x1C, (some tI5), .r, .r, .r, .r, .zero, true⟩, p)
  | .vand (.port p) => some (⟨0, 0x20, (some tI), .r, .r, .r, .z, .zero, true⟩, p)
  | .vor (.port p) => some (⟨0, 0x21, (some tI), .r, .r, .r, .z, .zero, true⟩, p)
  | .vxor (.port p) => some (⟨0, 0x22, (some tI), .r, .r, .r, .z, .zero, true⟩, p)
  | .vshl (.port p) => some (⟨0, 0x23, (some tI5), .r, .r, .r, .z, .zero, true⟩, p)
  | .vshr (.port p) => some (⟨0, 0x24, (some tI5), .r, .r, .r, .z, .zero, true⟩, p)
  | .vsra (.port p) => some (⟨0, 0x25, (some tI5), .r, .r, .r, .z, .zero, true⟩, p)
  | .vcvt (.port p) => some (⟨0, 0x28, (some [0, 1, 2, 3, 4, 7, 8, 9, 10, 11, 12, 13, 14]), .r, .r, .rIf, .z, .cvt, true⟩, p)
  | .vcvtsr (.port p) => some (⟨0, 0x29, (some [1, 2, 3, 4]), .r, .r, .rIf, .z, .cvt, true⟩, p)
  | .vquant (.port p) => some (⟨0, 0x2A, (some [3, 4, 5, 10, 11, 12]), .r, .r, .r, .z, (.mode 7), true⟩, p)
  | .vdeq (.port p) => some (⟨0, 0x2B, (some tF), .r, .r, .st, .r, .sv2, true⟩, p)
  | .vscale (.port p) => some (⟨0, 0x2C, (some tF), .r, .r, .r, .z, .zero, true⟩, p)
  | .vclass (.port p) => some (⟨0, 0x2D, (some tF), .r, .r, .z, .z, .zero, true⟩, p)
  | .vcmp (.port p) => some (⟨0, 0x2E, (some [0, 1, 2, 8, 9, 10, 11, 12, 14]), .pD, .r, .r, .z, (.mode 7), true⟩, p)
  | .vsel (.port p) => some (⟨0, 0x2F, (some tM), .r, .r, .r, .p, .zero, true⟩, p)
  | .vdadd (.port p) => some (⟨0, 0x58, (some [13]), .r, .r, .r, .z, .zero, true⟩, p)
  | .vdmul (.port p) => some (⟨0, 0x59, (some [13]), .r, .r, .r, .z, .zero, true⟩, p)
  | .vdfma (.port p) => some (⟨0, 0x5A, (some [13]), .r, .r, .r, .r, .zero, true⟩, p)
  | .vmov (.port p) => some (⟨1, 0x00, (some tM), .r, .r, .z, .z, .zero, true⟩, p)
  | .vbcast (.port p) => some (⟨1, 0x01, (some tM), .r, .r, .z, .z, .idxXs, true⟩, p)
  | .vperm (.port p) => some (⟨1, 0x02, (some [0, 1, 2, 3, 4, 7, 8, 9, 10, 11, 14]), .r, .r, .r, .z, .zero, true⟩, p)
  | .vslideup (.port p) => some (⟨1, 0x03, (some tM), .r, .r, .rIf, .z, .slide, true⟩, p)
  | .vslidedn (.port p) => some (⟨1, 0x04, (some tM), .r, .r, .rIf, .z, .slide, true⟩, p)
  | .vzip (.port p) => some (⟨1, 0x05, (some tM), .r, .r, .r, .z, (.mode 1), true⟩, p)
  | .vunzip (.port p) => some (⟨1, 0x06, (some tM), .r, .r, .r, .z, (.mode 1), true⟩, p)
  | .vextr (.port p) => some (⟨1, 0x07, (some tM), .r, .r, .z, .z, .idx, true⟩, p)
  | .vins (.port p) => some (⟨1, 0x08, (some tM), .r, .r, .z, .z, .idx, true⟩, p)
  | .viota (.port p) => some (⟨1, 0x09, (some tI), .r, .z, .z, .z, .zero, true⟩, p)
  | .vcompress (.port p) => some (⟨1, 0x0A, (some tM), .r, .r, .z, .z, .zero, true⟩, p)
  | .vexpand (.port p) => some (⟨1, 0x0B, (some tM), .r, .r, .z, .z, .zero, true⟩, p)
  | .vredsum (.port p) => some (⟨1, 0x10, (some tF), .r, .r, .z, .z, .zero, true⟩, p)
  | .vredmax (.port p) => some (⟨1, 0x11, (some [0, 1, 2, 8, 9, 10, 11, 12, 14]), .r, .r, .z, .z, .zero, true⟩, p)
  | .vredmin (.port p) => some (⟨1, 0x12, (some [0, 1, 2, 8, 9, 10, 11, 12, 14]), .r, .r, .z, .z, .zero, true⟩, p)
  | .vredisum (.port p) => some (⟨1, 0x13, (some tI), .r, .r, .z, .z, .zero, true⟩, p)
  | .vscanInc (.port p) => some (⟨1, 0x14, (some [0, 1, 2, 8, 9, 10, 11, 12, 14]), .r, .r, .z, .z, (.mode 1), true⟩, p)
  | .vscanExc (.port p) => some (⟨1, 0x14, (some [0, 1, 2, 8, 9, 10, 11, 12, 14]), .r, .r, .z, .z, (.mode 1), true⟩, p)
  | .vdot (.port p) => some (⟨1, 0x15, (some [1, 2, 3, 4, 10]), .r, .r, .r, .r, .zero, true⟩, p)
  | .pand (.port p) => some (⟨1, 0x20, (some t0), .pD, .p, .p, .z, .zero, true⟩, p)
  | .por (.port p) => some (⟨1, 0x21, (some t0), .pD, .p, .p, .z, .zero, true⟩, p)
  | .pxor (.port p) => some (⟨1, 0x22, (some t0), .pD, .p, .p, .z, .zero, true⟩, p)
  | .pandn (.port p) => some (⟨1, 0x24, (some t0), .pD, .p, .p, .z, .zero, true⟩, p)
  | .pnot (.port p) => some (⟨1, 0x23, (some t0), .pD, .p, .z, .z, .zero, true⟩, p)
  | .pmov (.port p) => some (⟨1, 0x25, (some t0), .pD, .p, .z, .z, .zero, true⟩, p)
  | .pcnt (.port p) => some (⟨1, 0x26, (some [14]), .r, .p, .z, .z, .zero, false⟩, p)
  | .pfirst (.port p) => some (⟨1, 0x27, (some t0), .pD, .p, .z, .z, .zero, true⟩, p)
  | .ptail (.port p) => some (⟨1, 0x28, (some tM), .pD, .r, .z, .z, .xs, true⟩, p)
  | .ppack (.port p) => some (⟨1, 0x29, (some t0), .r, .p8, .z, .z, .zero, false⟩, p)
  | .punpack (.port p) => some (⟨1, 0x2A, (some t0), .p8, .r, .z, .z, .zero, false⟩, p)
  | .pset (.port p) => some (⟨1, 0x2B, (some t0), .pD, .z, .z, .z, (.count 64), true⟩, p)
  | .mlds (.port p) => some (⟨2, 0x00, (some tX), .z, .r, .z, .z, .mload, false⟩, p)
  | .mldf (.port p) => some (⟨2, 0x01, (some tX), .z, .r, .z, .z, .mload, false⟩, p)
  | .mldg (.port p) => some (⟨2, 0x02, (some tX), .z, .r, .z, .z, .mload, false⟩, p)
  | .mma (.port p) => some (⟨2, 0x03, (some tX), .n1, .r, .r, .r, .mma, false⟩, p)
  | .mmas (.port p) => some (⟨2, 0x04, (some [1, 3, 4]), .n1, .r, .r, .r, .mmas, false⟩, p)
  | .mzero (.port p) => some (⟨2, 0x05, (some t0), .n2, .z, .z, .z, .zero, false⟩, p)
  | .accld (.port p) => some (⟨2, 0x06, (some tC), .r, .z, .r, .z, .accld, false⟩, p)
  | .mtrans (.port p) => some (⟨2, 0x07, (some t0), .z, .z, .z, .z, .mtrans, false⟩, p)
  | .mngo p => some (⟨2, 0x08, (some t0), .r, .r, .r, .z, .zero, false⟩, p)
  | .mnwaitControl p => some (⟨2, 0x09, (some t0), .r, .r, .z, .z, .zero, false⟩, p)
  | .mprom (.port p) => some (⟨2, 0x20, (some tP), .z, .z, .z, .z, .mprom, false⟩, p)
  | .mpoly (.port p) => some (⟨2, 0x21, (some tP), .z, .r, .z, .z, (.mode 3), false⟩, p)
  | .mpolyT (.port p) => some (⟨2, 0x22, (some tP), .z, .r, .z, .z, (.mode 3), false⟩, p)
  | .mpstat (.port p) => some (⟨2, 0x23, (some t0), .r, .z, .z, .z, (.mode 1), false⟩, p)
  | .mgangControl p => some (⟨2, 0x24, (some t0), .r, .r, .z, .z, .zero, false⟩, p)
  | .ald (.port p) => some (⟨3, 0x10, (some tM), .r, .r, .z, .z, .any, true⟩, p)
  | .alds (.port p) => some (⟨3, 0x14, (some tM), .r, .r, .z, .z, .any, true⟩, p)
  | .ast (.port p) => some (⟨3, 0x12, (some tM), .z, .r, .r, .z, .any, true⟩, p)
  | .asts (.port p) => some (⟨3, 0x15, (some tM), .z, .r, .r, .z, .any, true⟩, p)
  | .apref (.port p) => some (⟨3, 0x16, (some t0), .z, .r, .r, .z, .any, false⟩, p)
  | .vspill (.port p) => some (⟨3, 0x20, (some t0), .z, .r, .r, .z, .spill, false⟩, p)
  | .vfill (.port p) => some (⟨3, 0x21, (some t0), .r, .r, .z, .z, .spill, false⟩, p)
  | .pwld (.port p) => some (⟨3, 0x22, (some t0), .r, .n3, .z, .z, .pwld, false⟩, p)
  | .flset (.port p) => some (⟨4, 0x02, (some t0), .z, .z, .z, .z, (.num 0), false⟩, p)
  | .flclr (.port p) => some (⟨4, 0x03, (some t0), .z, .z, .z, .z, (.num 0), false⟩, p)
  | .flwaitSet (.port p) => some (⟨4, 0x04, (some t0), .z, .z, .z, .z, (.num 0), false⟩, p)
  | .flwaitClr (.port p) => some (⟨4, 0x04, (some t0), .z, .z, .z, .z, (.num 1), false⟩, p)
  | .flwaitTake (.port p) => some (⟨4, 0x04, (some t0), .z, .z, .z, .z, (.num 2), false⟩, p)
  | .rclaim (.port p) => some (⟨4, 0x08, (some t0), .r, .r, .z, .z, (.num 0), true⟩, p)
  | .rpub (.port p) => some (⟨4, 0x09, (some t0), .z, .r, .r, .z, (.num 0), true⟩, p)
  | .rwfill (.port p) => some (⟨4, 0x0A, (some t0), .r30, .z, .z, .z, (.num 0), true⟩, p)
  | .rwfree (.port p) => some (⟨4, 0x0B, (some t0), .z, .r, .z, .z, (.num 0), true⟩, p)
  | .rcons (.port p) => some (⟨4, 0x0C, (some t0), .z, .z, .z, .z, (.num 0), true⟩, p)
  | .rskip (.port p) => some (⟨4, 0x0D, (some t0), .r, .z, .z, .z, (.num 0), true⟩, p)
  | .evsigSet (.port p) => some (⟨4, 0x10, (some t0), .z, .z, .z, .z, (.num 0), false⟩, p)
  | .evsigClr (.port p) => some (⟨4, 0x10, (some t0), .z, .z, .z, .z, (.num 1), false⟩, p)
  | .evsigPost (.port p) => some (⟨4, 0x10, (some t0), .z, .r, .z, .z, .num2, true⟩, p)
  | .evwait (.port p) => some (⟨4, 0x11, (some t0), .z, .z, .z, .z, (.num 0), false⟩, p)
  | .evwaitClr (.port p) => some (⟨4, 0x11, (some t0), .z, .z, .z, .z, (.num 1), false⟩, p)
  | .fencevAcq (.port p) => some (⟨4, 0x20, (some t0), .z, .z, .z, .z, .scoped, false⟩, p)
  | .fencevRel (.port p) => some (⟨4, 0x20, (some t0), .z, .z, .z, .z, .scoped, false⟩, p)
  | .fencevSc (.port p) => some (⟨4, 0x20, (some t0), .z, .z, .z, .z, .scoped, false⟩, p)
  | .ldacq (.port p) => some (⟨4, 0x21, (some t0), .r, .r, .z, .z, .scope, false⟩, p)
  | .strel (.port p) => some (⟨4, 0x22, (some t0), .z, .r, .r, .z, .scope, false⟩, p)
  | .aadd (.port p) => some (⟨4, 0x23, (some tA), .r, .r, .r, .z, .scoped, false⟩, p)
  | .amax (.port p) => some (⟨4, 0x24, (some tA), .r, .r, .r, .z, .scoped, false⟩, p)
  | .amin (.port p) => some (⟨4, 0x25, (some tA), .r, .r, .r, .z, .scoped, false⟩, p)
  | .axchg (.port p) => some (⟨4, 0x26, (some tB), .r, .r, .r, .z, .scoped, false⟩, p)
  | .acas (.port p) => some (⟨4, 0x27, (some tB), .r, .r, .r, .z, .scoped, false⟩, p)
  | .aor (.port p) => some (⟨4, 0x28, (some tB), .r, .r, .r, .z, .scoped, false⟩, p)
  | .aand (.port p) => some (⟨4, 0x29, (some tB), .r, .r, .r, .z, .scoped, false⟩, p)
  | .vaddm (.port p) => some (⟨4, 0x2A, (some tC), .z, .r, .z, .z, .row, true⟩, p)
  | .aaddRmt p => some (⟨4, 0x30, (some tA), .rEven, .r, .z, .z, .zero, false⟩, p)
  | .amaxRmt p => some (⟨4, 0x31, (some tA), .rEven, .r, .z, .z, .zero, false⟩, p)
  | .aminRmt p => some (⟨4, 0x32, (some tA), .rEven, .r, .z, .z, .zero, false⟩, p)
  | .axchgRmt p => some (⟨4, 0x33, (some tB), .rEven, .r, .z, .z, .zero, false⟩, p)
  | .acasRmt p => some (⟨4, 0x34, (some tB), .rEven, .r, .z, .z, .zero, false⟩, p)
  | .aorRmt p => some (⟨4, 0x35, (some tB), .rEven, .r, .z, .z, .zero, false⟩, p)
  | .aandRmt p => some (⟨4, 0x36, (some tB), .rEven, .r, .z, .z, .zero, false⟩, p)
  | .setshape p => some (⟨6, 0x00, none, .n3, .any, .any, .any, .setshape, false⟩, p)
  | .getshape p => some (⟨6, 0x01, (some t0), .r, .n3, .z, .z, (.sel 2), false⟩, p)
  | .setstream p => some (⟨6, 0x02, (some t0), .n4, .r, .r, .z, .zero, false⟩, p)
  | .cmdpush p => some (⟨6, 0x08, (some t0), .r, .r, .z, .z, .zero, false⟩, p)
  | .respop p => some (⟨6, 0x09, (some t0), .r, .z, .z, .z, (.sel 3), false⟩, p)
  | .waitseq p => some (⟨6, 0x0A, (some t0), .r, .r, .z, .z, .zero, false⟩, p)
  | .cancel p => some (⟨6, 0x0B, (some t0), .r, .r, .z, .z, (.sel 4), false⟩, p)
  | .trapv p => some (⟨6, 0x0C, (some t0), .z, .z, .z, .z, (.sel 1023), false⟩, p)
  | .bridge p => some (⟨6, 0x10, (some t0), .z, .z, .z, .z, .any, false⟩, p)
  | .ttdecl p => some (⟨5, 0x20, (some t0), .r, .r, .z, .z, .entry, false⟩, p)
  | .ttver p => some (⟨5, 0x21, (some t0), .r, .z, .z, .z, .entry, false⟩, p)
  | .specq p => some (⟨5, 0x22, (some t0), .r, .z, .z, .z, .specq, false⟩, p)
  | .ttdrop p => some (⟨5, 0x23, (some t0), .r, .z, .z, .z, .entry, false⟩, p)
  | _ => none

/-- The constructor of a portable group and op; words that share an op are told apart by their mode. -/
def portCtor0 (op : Nat) (_ : BitVec 18) : Option (PWord → Instr) :=
  match op with
  | 0x00 => some (fun p => .vadd (.port p))
  | 0x01 => some (fun p => .vsub (.port p))
  | 0x02 => some (fun p => .vmul (.port p))
  | 0x03 => some (fun p => .vfma (.port p))
  | 0x04 => some (fun p => .vfms (.port p))
  | 0x05 => some (fun p => .vfnma (.port p))
  | 0x06 => some (fun p => .vfnms (.port p))
  | 0x08 => some (fun p => .vmin (.port p))
  | 0x09 => some (fun p => .vmax (.port p))
  | 0x0A => some (fun p => .vminn (.port p))
  | 0x0B => some (fun p => .vmaxn (.port p))
  | 0x0C => some (fun p => .vabs (.port p))
  | 0x0D => some (fun p => .vneg (.port p))
  | 0x0E => some (fun p => .vcpysgn (.port p))
  | 0x10 => some (fun p => .vrecpe (.port p))
  | 0x11 => some (fun p => .vrsqrte (.port p))
  | 0x14 => some (fun p => .vexp2e (.port p))
  | 0x15 => some (fun p => .vlog2e (.port p))
  | 0x17 => some (fun p => .vsqrt (.port p))
  | 0x12 => some (fun p => .vrecps (.port p))
  | 0x13 => some (fun p => .vrsqrts (.port p))
  | 0x16 => some (fun p => .vdiv (.port p))
  | 0x18 => some (fun p => .viadd (.port p))
  | 0x19 => some (fun p => .visub (.port p))
  | 0x1D => some (fun p => .vimin (.port p))
  | 0x1E => some (fun p => .vimax (.port p))
  | 0x1A => some (fun p => .vimul (.port p))
  | 0x1B => some (fun p => .vimulh (.port p))
  | 0x1C => some (fun p => .vimad (.port p))
  | 0x20 => some (fun p => .vand (.port p))
  | 0x21 => some (fun p => .vor (.port p))
  | 0x22 => some (fun p => .vxor (.port p))
  | 0x23 => some (fun p => .vshl (.port p))
  | 0x24 => some (fun p => .vshr (.port p))
  | 0x25 => some (fun p => .vsra (.port p))
  | 0x28 => some (fun p => .vcvt (.port p))
  | 0x29 => some (fun p => .vcvtsr (.port p))
  | 0x2A => some (fun p => .vquant (.port p))
  | 0x2B => some (fun p => .vdeq (.port p))
  | 0x2C => some (fun p => .vscale (.port p))
  | 0x2D => some (fun p => .vclass (.port p))
  | 0x2E => some (fun p => .vcmp (.port p))
  | 0x2F => some (fun p => .vsel (.port p))
  | 0x58 => some (fun p => .vdadd (.port p))
  | 0x59 => some (fun p => .vdmul (.port p))
  | 0x5A => some (fun p => .vdfma (.port p))
  | _ => none

def portCtor1 (op : Nat) (imm : BitVec 18) : Option (PWord → Instr) :=
  match op with
  | 0x00 => some (fun p => .vmov (.port p))
  | 0x01 => some (fun p => .vbcast (.port p))
  | 0x02 => some (fun p => .vperm (.port p))
  | 0x03 => some (fun p => .vslideup (.port p))
  | 0x04 => some (fun p => .vslidedn (.port p))
  | 0x05 => some (fun p => .vzip (.port p))
  | 0x06 => some (fun p => .vunzip (.port p))
  | 0x07 => some (fun p => .vextr (.port p))
  | 0x08 => some (fun p => .vins (.port p))
  | 0x09 => some (fun p => .viota (.port p))
  | 0x0A => some (fun p => .vcompress (.port p))
  | 0x0B => some (fun p => .vexpand (.port p))
  | 0x10 => some (fun p => .vredsum (.port p))
  | 0x11 => some (fun p => .vredmax (.port p))
  | 0x12 => some (fun p => .vredmin (.port p))
  | 0x13 => some (fun p => .vredisum (.port p))
  | 0x14 => if (imm.toNat % 65536) = 0 then some (fun p => .vscanInc (.port p)) else if (imm.toNat % 65536) = 1 then some (fun p => .vscanExc (.port p)) else none
  | 0x15 => some (fun p => .vdot (.port p))
  | 0x20 => some (fun p => .pand (.port p))
  | 0x21 => some (fun p => .por (.port p))
  | 0x22 => some (fun p => .pxor (.port p))
  | 0x24 => some (fun p => .pandn (.port p))
  | 0x23 => some (fun p => .pnot (.port p))
  | 0x25 => some (fun p => .pmov (.port p))
  | 0x26 => some (fun p => .pcnt (.port p))
  | 0x27 => some (fun p => .pfirst (.port p))
  | 0x28 => some (fun p => .ptail (.port p))
  | 0x29 => some (fun p => .ppack (.port p))
  | 0x2A => some (fun p => .punpack (.port p))
  | 0x2B => some (fun p => .pset (.port p))
  | _ => none

def portCtor2 (op : Nat) (_ : BitVec 18) : Option (PWord → Instr) :=
  match op with
  | 0x00 => some (fun p => .mlds (.port p))
  | 0x01 => some (fun p => .mldf (.port p))
  | 0x02 => some (fun p => .mldg (.port p))
  | 0x03 => some (fun p => .mma (.port p))
  | 0x04 => some (fun p => .mmas (.port p))
  | 0x05 => some (fun p => .mzero (.port p))
  | 0x06 => some (fun p => .accld (.port p))
  | 0x07 => some (fun p => .mtrans (.port p))
  | 0x08 => some (fun p => .mngo p)
  | 0x09 => some (fun p => .mnwaitControl p)
  | 0x20 => some (fun p => .mprom (.port p))
  | 0x21 => some (fun p => .mpoly (.port p))
  | 0x22 => some (fun p => .mpolyT (.port p))
  | 0x23 => some (fun p => .mpstat (.port p))
  | 0x24 => some (fun p => .mgangControl p)
  | _ => none

def portCtor3 (op : Nat) (_ : BitVec 18) : Option (PWord → Instr) :=
  match op with
  | 0x10 => some (fun p => .ald (.port p))
  | 0x14 => some (fun p => .alds (.port p))
  | 0x12 => some (fun p => .ast (.port p))
  | 0x15 => some (fun p => .asts (.port p))
  | 0x16 => some (fun p => .apref (.port p))
  | 0x20 => some (fun p => .vspill (.port p))
  | 0x21 => some (fun p => .vfill (.port p))
  | 0x22 => some (fun p => .pwld (.port p))
  | _ => none

def portCtor4 (op : Nat) (imm : BitVec 18) : Option (PWord → Instr) :=
  match op with
  | 0x02 => some (fun p => .flset (.port p))
  | 0x03 => some (fun p => .flclr (.port p))
  | 0x04 => if (imm.toNat / 256) = 0 then some (fun p => .flwaitSet (.port p)) else if (imm.toNat / 256) = 1 then some (fun p => .flwaitClr (.port p)) else if (imm.toNat / 256) = 2 then some (fun p => .flwaitTake (.port p)) else none
  | 0x08 => some (fun p => .rclaim (.port p))
  | 0x09 => some (fun p => .rpub (.port p))
  | 0x0A => some (fun p => .rwfill (.port p))
  | 0x0B => some (fun p => .rwfree (.port p))
  | 0x0C => some (fun p => .rcons (.port p))
  | 0x0D => some (fun p => .rskip (.port p))
  | 0x10 => if (imm.toNat / 256) = 0 then some (fun p => .evsigSet (.port p)) else if (imm.toNat / 256) = 1 then some (fun p => .evsigClr (.port p)) else if (imm.toNat / 256) = 2 then some (fun p => .evsigPost (.port p)) else none
  | 0x11 => if (imm.toNat / 256) = 0 then some (fun p => .evwait (.port p)) else if (imm.toNat / 256) = 1 then some (fun p => .evwaitClr (.port p)) else none
  | 0x20 => if (imm.toNat / 8 % 4) = 0 then some (fun p => .fencevAcq (.port p)) else if (imm.toNat / 8 % 4) = 1 then some (fun p => .fencevRel (.port p)) else if (imm.toNat / 8 % 4) = 2 then some (fun p => .fencevSc (.port p)) else none
  | 0x21 => some (fun p => .ldacq (.port p))
  | 0x22 => some (fun p => .strel (.port p))
  | 0x23 => some (fun p => .aadd (.port p))
  | 0x24 => some (fun p => .amax (.port p))
  | 0x25 => some (fun p => .amin (.port p))
  | 0x26 => some (fun p => .axchg (.port p))
  | 0x27 => some (fun p => .acas (.port p))
  | 0x28 => some (fun p => .aor (.port p))
  | 0x29 => some (fun p => .aand (.port p))
  | 0x2A => some (fun p => .vaddm (.port p))
  | 0x30 => some (fun p => .aaddRmt p)
  | 0x31 => some (fun p => .amaxRmt p)
  | 0x32 => some (fun p => .aminRmt p)
  | 0x33 => some (fun p => .axchgRmt p)
  | 0x34 => some (fun p => .acasRmt p)
  | 0x35 => some (fun p => .aorRmt p)
  | 0x36 => some (fun p => .aandRmt p)
  | _ => none

def portCtor5 (op : Nat) (_ : BitVec 18) : Option (PWord → Instr) :=
  match op with
  | 0x20 => some (fun p => .ttdecl p)
  | 0x21 => some (fun p => .ttver p)
  | 0x22 => some (fun p => .specq p)
  | 0x23 => some (fun p => .ttdrop p)
  | _ => none

def portCtor6 (op : Nat) (_ : BitVec 18) : Option (PWord → Instr) :=
  match op with
  | 0x00 => some (fun p => .setshape p)
  | 0x01 => some (fun p => .getshape p)
  | 0x02 => some (fun p => .setstream p)
  | 0x08 => some (fun p => .cmdpush p)
  | 0x09 => some (fun p => .respop p)
  | 0x0A => some (fun p => .waitseq p)
  | 0x0B => some (fun p => .cancel p)
  | 0x0C => some (fun p => .trapv p)
  | 0x10 => some (fun p => .bridge p)
  | _ => none



/-! ## Native words -/

/-- The fields of a native word (05 R92), with its literal doubleword and its delay nibble. -/
def fieldsOf (dw lit : Word) (lat : BitVec 4) : NWord where
  ty    := dw.extractLsb' 52 4
  stop  := dw.getLsbD 51
  tkp   := dw.getLsbD 50
  tkn   := dw.getLsbD 49
  gvp   := dw.getLsbD 48
  gvn   := dw.getLsbD 47
  guard := dw.extractLsb' 41 6
  ginv  := dw.getLsbD 40
  dst   := dw.extractLsb' 30 10
  a     := dw.extractLsb' 20 10
  b     := dw.extractLsb' 10 10
  c     := dw.extractLsb' 0 10
  lit   := lit
  lat   := lat

/-- One bit, as a bit vector. -/
def bit1 (b : Bool) : BitVec 1 := if b then 1 else 0

/-- The doubleword of a native word (05 R92). -/
def packN (op : BitVec 8) (w : NWord) : Word :=
  op ++ w.ty ++ bit1 w.stop ++ bit1 w.tkp ++ bit1 w.tkn ++ bit1 w.gvp ++ bit1 w.gvn ++ w.guard ++ bit1 w.ginv
    ++ w.dst ++ w.a ++ w.b ++ w.c

/-- The op of a native doubleword. -/
def nop (dw : Word) : Nat := (dw.extractLsb' 56 8).toNat

/-- The constructor that an op and a mode give in an owner's space (05 R100). -/
def nativeCtor (e : Eng) (op : Nat) (c : BitVec 10) : Option (NWord → Instr) :=
  if op ≥ 0xC0 then ctorS op c
  else match e with
    | .V => ctorV op c
    | .M => ctorM op c
    | .A => ctorA op c
    | .X => none

/-- A literal code (05 R93). -/
def isLit (x : BitVec 10) : Bool := x = 0x3E0 || x = 0x3E1
def isVreg (x : BitVec 10) : Bool := x.toNat < 0x300
def isQa (x : BitVec 10) : Bool := 0x300 ≤ x.toNat && x.toNat ≤ 0x303
def isQd (x : BitVec 10) : Bool := 0x304 ≤ x.toNat && x.toNat ≤ 0x305
def isStream (x : BitVec 10) : Bool := 0x310 ≤ x.toNat && x.toNat ≤ 0x31F
def isNone (x : BitVec 10) : Bool := x = 0x3FF
def isG (x : BitVec 10) : Bool := x.toNat < 32

/-- Whether a field may hold a literal at all. -/
def Cls.takesLit : Cls → Bool
  | .src | .srcOrNone | .glit | .glitOrNone | .lit => true
  | _ => false

/-- Whether a field holds a legal value of its class, literals apart. -/
def Cls.ok (k : Cls) (ty : Nat) (x : BitVec 10) : Bool :=
  match k with
  | .unused => isNone x
  | .free => true
  | .any => true
  | .vdst => isVreg x || isQd x || (x = 0x306 && (ty = 8 || ty = 14))
  | .vreg => isVreg x
  | .vregO => isVreg x
  | .src => isVreg x || isQa x
  | .srcOrNone => isVreg x || isQa x || isNone x
  | .strm => isVreg x || isQa x
  | .strmO => isVreg x || isQa x
  | .stream => isStream x
  | .predD => 1 ≤ x.toNat && x.toNat ≤ 63
  | .predS => x.toNat ≤ 63
  | .pred8 => x.toNat ≤ 63 && x.toNat % 8 = 0
  | .g => isG x
  | .gPair => x.toNat ≤ 30
  | .gOrQa => isG x || isQa x
  | .glit => isG x
  | .glitOrNone => isG x || isNone x
  | .lit => false
  | .apredD => 1 ≤ x.toNat && x.toNat ≤ 15
  | .qa => isQa x
  | .qd => isQd x
  | .qx => x = 0x306
  | .bt => x.toNat ≤ 3
  | .count lo hi => lo ≤ x.toNat && x.toNat ≤ hi
  | .mode _ => x.toNat < 32
  | .scoped _ => x.toNat < 32

/-- Whether a field is read as an operand code, in which a literal where none is taken is a LITERAL fault; in a field that
is a number, or unused, the literal codes are values out of range (05 R93, R94, R110). -/
def Cls.code : Cls → Bool
  | .vdst | .vreg | .strm | .stream | .gOrQa | .qa | .qd => true
  | _ => false

/-- Whether a field is read in the operand-code class, the default one (05 R93), so that LIT32 and LIT64 are named there. -/
def Cls.operand : Cls → Bool
  | .unused | .vreg | .vregO | .src | .srcOrNone | .strm | .strmO | .stream | .gOrQa | .glit | .glitOrNone | .lit
  | .qa | .qd | .qx => true
  | _ => false

/-- The fault of one field, if any: OPERAND, LITERAL, or MODE (05 R110). -/
def fieldBad (k : Cls) (ty : Nat) (x : BitVec 10) : List Bad :=
  if k = .any then []
  else if k = .free then []
  else if isLit x && k.takesLit then []
  else if isLit x && k.code then [.literal]
  else if !k.ok ty x then [.operand]
  else match k with
    | .mode m => if x.toNat ≤ m then [] else [.mode]
    | .scoped m => if x.toNat % 8 ≤ 4 && x.toNat / 8 ≤ m then [] else [.mode]
    | _ => []

def typeW (ty : Nat) : Nat :=
  match ty with
  | 0 => 32 | 1 => 16 | 2 => 16 | 3 => 8 | 4 => 8 | 5 => 4 | 6 => 4 | 7 => 8
  | 8 => 32 | 9 => 16 | 10 => 8 | 11 => 8 | 12 => 4 | 13 => 64 | 14 => 32
  | _ => 0

/-- The element type of source a: the source type of a conversion, FP32 for VQUANT, else the word's. -/
def srcTy (r : Row) (w : NWord) : Nat :=
  if r.engs = [.V] && (r.op = 0x28 || r.op = 0x29) then w.c.toNat % 16
  else if r.engs = [.V] && r.op = 0x2A then 0
  else w.ty.toNat

/-- The literal codes a word names, in a-b-c order (05 R94), each with the width of its element. -/
def litsOf (r : Row) (w : NWord) : List (BitVec 10 × Nat) :=
  let A := if r.engs = [.A] then 32 else typeW (srcTy r w)
  let B := if r.engs = [.A] then 32 else typeW w.ty.toNat
  (if r.a.takesLit && isLit w.a then [(w.a, A)] else []) ++
  (if r.b.takesLit && isLit w.b then [(w.b, B)] else []) ++
  (if r.c.takesLit && isLit w.c then [(w.c, if r.op = 0x75 || r.op = 0x2B then 32 else B)] else [])

/-- The faults of a word's literals (05 R94, 07 R132). -/
def litBad (r : Row) (w : NWord) : List Bad :=
  match litsOf r w with
  | [] => if w.lit = 0 then [] else [.literal]
  | [(x, k)] =>
    if x = 0x3E1 then (if r.engs = [.A] || w.ty = 13 then [] else [.literal])
    else if w.lit.toNat / 2 ^ 32 ≠ 0 || (k < 32 && w.lit.toNat / 2 ^ k ≠ 0) then [.literal] else []
  | [(x, k), (y, l)] =>
    if x = 0x3E1 || y = 0x3E1 then [.literal]
    else if (k < 32 && w.lit.toNat % 2 ^ 32 / 2 ^ k ≠ 0) || (l < 32 && w.lit.toNat / 2 ^ 32 / 2 ^ l ≠ 0) then [.literal] else []
  | _ => [.literal]

/-- The pairs of VCVT (07 R151) by source and destination type. -/
def cvtPair (s d : Nat) : Bool :=
  let f := [0, 1, 2, 3, 4]
  let i := [8, 9, 10, 11, 12, 14]
  s ≠ d && ((f.contains s && f.contains d) || (i.contains s && [0, 1, 2].contains d) || (f.contains s && i.contains d)
    || (i.contains s && i.contains d) || (s = 7 && d = 0) || (s = 0 && d = 7)
    || ((s = 0 || s = 8) && d = 13) || (s = 13 && (d = 0 || d = 8)))

/-- Conversions from float to integer, on which RND is legal (07 R151). -/
def cvtToInt (s d : Nat) : Bool := [0, 1, 2, 3, 4, 13].contains s && [8, 9, 10, 11, 12, 14].contains d

/-- The faults of a conversion's selector (07 R150-R152), given as its low 16 bits. -/
def cvtBad (sr : Bool) (sel ty : Nat) : List Bad :=
  let s := sel % 16
  let pair := if sr then [0, 1, 2].contains s && [1, 2, 3, 4].contains ty else cvtPair s ty
  if !pair then [.type]
  else
    let big := max (typeW s) (typeW ty)
    let small := min (typeW s) (typeW ty)
    (if sel / 512 ≠ 0 then [.operand] else []) ++
    (if sel / 256 % 2 = 1 && (sr || !cvtToInt s ty) then [.mode] else []) ++
    (if sel / 16 % 8 < big / small then [] else [.mode])

/-- A matrix operand against its source code: 0 streamed, 1 array, 2 descriptor, where anything but a vector register is
OPERAND (09 R184, R191); under a reserved code (3) it has no class, but no code takes a literal. -/
def matBad (kind : Nat) (stm : Bool) (x : BitVec 10) : List Bad :=
  match kind with
  | 0 => if isVreg x || isQa x || (stm && isStream x) then [] else if isLit x then [.literal] else [.operand]
  | 1 => if isNone x then [] else [.operand]
  | 3 => if isLit x then [.literal] else []
  | _ => if isVreg x then [] else [.operand]

/-- RSRC as an operand kind: 0 streamed, 1 mf, 2 mg, 3 descriptor (09 R191). -/
def rKind (m : Nat) : Nat := if m / 4 % 4 = 0 then 0 else if m / 4 % 4 = 3 then 2 else 1

/-- The type of a word's destination, which VDOT widens (07 R132, 08 R177). -/
def dstTy (r : Row) (w : NWord) : Nat :=
  if r.engs = [.V] && r.op = 0x75 && w.ty.toNat = 10 then 8 else w.ty.toNat

/-- The rules of single words that the classes do not hold. An operand whose class the mode gives is checked where the
mode code is a legal one. -/
def extraBad (r : Row) (w : NWord) : List Bad :=
  let ty := w.ty.toNat
  let c := w.c.toNat
  if r.engs = [.V] then
    match r.op with
    | 0x28 | 0x29 =>
      cvtBad (r.op = 0x29) c ty ++
      (if c / 128 % 2 = 1 then (if isVreg w.b then [] else if isLit w.b then [.literal] else [.operand])
       else if isNone w.b then [] else [.operand])
    | 0x2A => if c < 32 && c ≤ 7 && c ≥ 32 / max (typeW ty) 1 then [.mode] else []
    | 0x2E => if c = 6 || c = 7 then (if [8, 9, 10, 11, 12, 14].contains ty then [.mode] else []) else []
    | 0x8C =>
      let m := c
      if m = 0 then [.mode]
      else if m > 3 then []
      else
        (if m = 1 || m = 3 then (if w.a.toNat ≤ 511 then [] else [.operand]) else if isNone w.a then [] else [.operand]) ++
        (if m = 2 || m = 3 then (if w.b.toNat ≤ 47 then [] else [.operand]) else if isNone w.b then [] else [.operand])
    | _ => []
  else if r.engs = [.M] then
    match r.op with
    | 0x00 | 0x01 | 0x02 =>
      if c = 1 || c = 3 then .mode :: matBad 3 false w.a
      else if c > 3 then matBad 3 false w.a else matBad (c % 4) false w.a
    | 0x03 =>
      if c ≥ 16 then matBad 3 true w.a ++ matBad 3 true w.b
      else if c % 4 = 3 then .mode :: (matBad 3 true w.a ++ matBad 3 true w.b)
      else matBad (c % 4) true w.a ++ matBad (rKind c) true w.b ++
        (if isStream w.a && isStream w.b then [.operand] else [])
    | 0x04 => matBad (if c < 16 then rKind c else 3) false w.b
    | 0x06 =>
      if c > 11 then []
      else if c / 4 % 4 = 0 then (if isVreg w.dst then [] else if isLit w.dst then [.literal] else [.operand]) else []
    | 0x07 => if c % 4 = 3 || c / 4 % 4 = 3 then [.mode] else []
    | 0x20 => if c % 4 = 3 then [.mode] else []
    | _ => []
  else if r.engs = [.A] then
    match r.op with
    | 0x22 =>
      let o := (w.b.toNat * 1024 + c) % 65536
      (if o % 2 ^ (w.a.toNat / 8 % 4) ≠ 0 then [.operand] else []) ++
      (if isG w.dst && ty ≠ 0 then [.type] else [])
    | 0x23 => if w.b.toNat ≤ 29 then [] else [.operand]
    | _ => []
  else []

/-- The source of EVSIG.post (12 R264), which depends on the engine. -/
def postBad (e : Eng) (r : Row) (w : NWord) : List Bad :=
  if r.op = 0xD0 && w.c = 2 then
    if e = .A then (if isG w.a then [] else if isLit w.a then [.literal] else [.operand])
    else if isVreg w.a then [] else if isLit w.a then [.literal] else [.operand]
  else []

/-- Every cause that makes a word of engine `e` illegal by itself (05 R91-R94, R99, R110). A mode code that picks the
constructor is legal there; its class is checked all the same. -/
def wordBad (e : Eng) (r : Row) (w : NWord) : List Bad :=
  (if r.engs.contains e then [] else [.opcode]) ++
  (if r.types.contains w.ty.toNat then [] else [.type]) ++
  fieldBad r.dst (dstTy r w) w.dst ++ fieldBad r.a w.ty.toNat w.a ++ fieldBad r.b w.ty.toNat w.b ++
  fieldBad r.c w.ty.toNat w.c ++ extraBad r w ++ postBad e r w ++ litBad r w ++
  (if (w.ginv && w.guard = 0) || (!r.guard && w.guard ≠ 0) || (e = .A && w.guard.toNat > 15) then [.guard] else []) ++
  (if e ≠ .A && r.writes then (if w.lat = 0 then [.delay] else []) else if w.lat = 0 then [] else [.delay])

/-- Whether a field names a literal code where it holds one: the field is read as an operand code, as are those whose class
the mode gives, but for SETROT's counts. `isC` marks c, where such a field is a selector. -/
def namesField (r : Row) (k : Cls) (isC : Bool) : Bool := k.operand || (k = .free && !isC && r.op ≠ 0x8C)

/-- Whether a word is followed by a literal slot: it names a literal code in a, b or c, legally or not (05 R94). -/
def namesLit (r : Row) (w : NWord) : Bool :=
  (isLit w.a && namesField r r.a false) || (isLit w.b && namesField r r.b false) || (isLit w.c && namesField r r.c true)

/-- A mode that picks the constructor is a reserved one: MODE, or OPERAND above bit 4. -/
def modeBad (c : BitVec 10) : Bad := if c.toNat < 32 then .mode else .operand

/-- Ops whose mode picks the constructor, in an owner's space. -/
def modeOp (e : Eng) (op : Nat) : Bool := (e = .V && op = 0x74) || op = 0xC4 || op = 0xD0 || op = 0xD1 || op = 0xE0

/-- A slot before its fields are checked: its row and its word, the constructor where the mode code picks one, and the
cause where that code is a reserved one (05 R100, R110). -/
structure Pick where
  row  : Row
  word : NWord
  ctor : Option (NWord → Instr)
  bad  : List Bad

/-- What a slot holds; none where its op is reserved for the owner (05 R97). Under a reserved code of a mode that picks the
constructor, the other fields are those of the op. -/
def pickNative (e : Eng) (dw lit : Word) (lat : BitVec 4) : Option Pick :=
  let w := fieldsOf dw lit lat
  match nativeCtor e (nop dw) w.c with
  | some k => (nativeRow (k w)).map (fun x => ⟨x.1, x.2, some k, []⟩)
  | none =>
    if modeOp e (nop dw) then
      (nativeCtor e (nop dw) 0).bind (fun k => (nativeRow (k w)).map (fun x => ⟨{ x.1 with c := .any }, x.2, none, [modeBad w.c]⟩))
    else none

/-- Whether a literal slot follows. -/
def Pick.names (p : Pick) : Bool := namesLit p.row p.word
/-- The word, whose literal is dropped where it names none. -/
def Pick.kept (p : Pick) : NWord := if p.names then p.word else { p.word with lit := 0 }
/-- Every cause of the word's own. -/
def Pick.bads (e : Eng) (p : Pick) : List Bad := p.bad ++ wordBad e p.row p.kept

/-- A slot of a line of engine `e` (05 R92-R94, R97), with the doubleword of the slot after it; `lit` is dropped where
the word names no literal. -/
def decodeNative (e : Eng) (dw lit : Word) (lat : BitVec 4) : Except Bad Instr :=
  match pickNative e dw lit lat with
  | none => .error .opcode
  | some p =>
    match Bad.least (p.bads e), p.ctor with
    | some b, _ => .error b
    | none, some k => .ok (k p.kept)
    | none, none => .error .opcode

/-- The doublewords of a native word: itself and its literal slot, where it names a literal. -/
def encodeNative (i : Instr) : Option (Word × Option Word × BitVec 4) :=
  match nativeRow i with
  | none => none
  | some (r, w) => some (packN (BitVec.ofNat 8 r.op) w, if namesLit r w then some w.lit else none, w.lat)

/-! ## Portable words -/

/-- The fields of a portable word (05 R85). -/
def pfieldsOf (x : Word) : PWord where
  imm18 := x.extractLsb' 46 18
  vs3   := x.extractLsb' 41 5
  vs2   := x.extractLsb' 36 5
  vs1   := x.extractLsb' 31 5
  pinv  := x.getLsbD 30
  pg    := x.extractLsb' 27 3
  ty    := x.extractLsb' 23 4
  vd    := x.extractLsb' 7 5

/-- The 64 bits of a portable word (05 R85). -/
def packP (grp : BitVec 3) (op : BitVec 8) (p : PWord) : Word :=
  p.imm18 ++ p.vs3 ++ p.vs2 ++ p.vs1 ++ bit1 p.pinv ++ p.pg ++ p.ty ++ op ++ grp ++ p.vd ++ (0x3F : BitVec 7)

/-- The constructor of a portable group and op (05 R101-R107). -/
def portCtor (grp op : Nat) (imm : BitVec 18) : Option (PWord → Instr) :=
  match grp with
  | 0 => portCtor0 op imm
  | 1 => portCtor1 op imm
  | 2 => portCtor2 op imm
  | 3 => portCtor3 op imm
  | 4 => portCtor4 op imm
  | 5 => portCtor5 op imm
  | 6 => portCtor6 op imm
  | _ => none

/-- A register field of its class (05 R86). -/
def PCls.ok (k : PCls) (x : BitVec 5) : Bool :=
  match k with
  | .z => x = 0
  | .r => true
  | .p => x.toNat < 8
  | .pD => 1 ≤ x.toNat && x.toNat < 8
  | .p8 => x = 0
  | .n1 => x.toNat < 2
  | .n2 => x.toNat < 3
  | .n3 => x.toNat < 8
  | .n4 => x.toNat < 16
  | .st => x.toNat < 16
  | .rEven => x.toNat % 2 = 0 && 2 ≤ x.toNat
  | .r30 => x.toNat ≤ 30
  | .any => true
  | .rIf => true

/-- A matrix operand of a portable word against its source code: a register, zero, or the even register of a pair. -/
def pmatOk (kind : Nat) (sv : Bool) (x : BitVec 5) : Bool :=
  match kind with
  | 0 => !sv || x.toNat < 16
  | 1 => !sv && x = 0
  | _ => !sv && x.toNat % 2 = 0

/-- imm18 and the fields that depend on it (05 R87 and each word's definition). -/
def PImm.ok (k : PImm) (p : PWord) : Bool :=
  let i := p.imm18.toNat
  match k with
  | .zero => i = 0
  | .any => true
  | .sv2 => i = 0x20000
  | .cvt => i < 65536 && (cvtBad false i p.ty.toNat).isEmpty && (i / 128 % 2 = 1 || p.vs2 = 0)
  | .slide => i < 32768 && i / 1024 % 16 = 0 && (i / 16384 % 2 = 0 || p.vs2 = 0)
  | .idxXs => i < 65536 && i / 1024 % 32 = 0 && (i / 32768 = 0 || i % 1024 = 0)
  | .idx => i < 65536 && i / 1024 % 32 = 0
  | .xs => i = 0 || i = 32768
  | .mload => (i = 0 || i = 2) && (i = 0 || p.vs1.toNat % 2 = 0)
  | .mma =>
    let m := i % 65536
    let sv1 := i / 65536 % 2 = 1
    let sv2 := i / 131072 % 2 = 1
    m < 16 && m % 4 ≠ 3 && !(sv1 && sv2) && pmatOk (m % 4) sv1 p.vs1 && pmatOk (rKind m) sv2 p.vs2 && (sv1 || sv2 || p.vs3 = 0)
  | .mmas => i < 16 && i % 4 = 0 && pmatOk (rKind i) false p.vs2
  | .accld =>
    let m := i % 32
    i < 2048 && m < 12 && (if m / 4 = 0 then p.vs2 = 0 else p.vd = 0)
  | .mtrans => i < 16 && i % 4 ≠ 3 && i / 4 ≠ 3
  | .mprom => i < 8 && i % 4 ≠ 3
  | .spill =>
    let n := i % 64
    let v := if p.vs2 = 0 then p.vd.toNat else p.vs2.toNat
    1 ≤ n && n ≤ 32 && v + n ≤ 32
  | .pwld => i % 65536 % 2 ^ (i / 65536) = 0
  | .num2 => i = 512
  | .row => i < 1024
  | .scope => i < 5
  | .scoped => i < 32 && i % 8 < 5
  | .entry => i < 16
  | .specq => i < 48
  | .setshape =>
    match i / 65536 with
    | 0 => i = 0 && p.ty = 0 && p.vs2 = 0 && p.vs3 = 0
    | 2 => true
    | _ => p.vs1 = 0 && p.vs2 = 0 && p.vs3 = 0
  | .mode m => i ≤ m
  | .count m => i ≤ m
  | .sel m => i ≤ m
  | .num m => i / 256 = m && i / 64 % 4 = 0

/-- The types that a portable word takes; SETSHAPE's literal forms take any but the reserved one. -/
def PRow.tyOk (r : PRow) (p : PWord) : Bool :=
  match r.types with
  | some l => l.contains p.ty.toNat
  | none => p.ty ≠ 15

/-- Per-word rules beside the classes: VCVTSR's pairs, VCMP's .ord and .uno, VQUANT's PART. -/
def PRow.extra (r : PRow) (p : PWord) : Bool :=
  if r.grp = 0 && r.op = 0x29 then (cvtBad true p.imm18.toNat p.ty.toNat).isEmpty
  else if r.grp = 0 && r.op = 0x2A then p.imm18.toNat < 32 / max (typeW p.ty.toNat) 1
  else if r.grp = 0 && r.op = 0x2E then p.imm18.toNat < 6 || !(List.contains [8, 9, 10, 11, 12, 14] p.ty.toNat)
  else true

/-- Whether a portable word is legal (05 R85-R88, R109). -/
def PRow.ok (r : PRow) (p : PWord) : Bool :=
  r.tyOk p && r.vd.ok p.vd && r.vs1.ok p.vs1 && r.vs2.ok p.vs2 && r.vs3.ok p.vs3 &&
  (r.extra p && ((r.grp = 0 && r.op = 0x29) || r.imm.ok p)) &&
  (if r.grp = 0 && r.op = 0x29 then p.imm18.toNat < 65536 && (p.imm18.toNat / 128 % 2 = 1 || p.vs2 = 0) else true) &&
  (if r.guard then !(p.pinv && p.pg = 0) else p.pg = 0 && !p.pinv)

/-- A portable word: the constructor and its fields, or none where it is reserved or illegal. -/
def decodePort (x : Word) : Option Instr :=
  let p := pfieldsOf x
  match portCtor (x.extractLsb' 12 3).toNat (x.extractLsb' 15 8).toNat p.imm18 with
  | none => none
  | some k =>
    match portRow (k p) with
    | none => none
    | some (r, q) => if r.ok q then some (k p) else none

/-- The 64 bits of a portable word. -/
def encodePort (i : Instr) : Option Word :=
  match portRow i with
  | none => none
  | some (r, p) => some (packP (BitVec.ofNat 3 r.grp) (BitVec.ofNat 8 r.op) p)

/-- The words that the control core executes itself (05 R88): groups 5 and 6, and the control-core forms of groups 2 to
4 (PWLD, MNGO, MNWAIT, MGANG, flag and event words but EVSIG.post, the memory words but VADDM, the remote atomics). -/
def controlForm (i : Instr) : Bool :=
  match portRow i with
  | none => false
  | some (r, p) =>
    match r.grp with
    | 2 => r.op = 8 || r.op = 9 || r.op = 0x24
    | 3 => r.op = 0x22
    | 4 => (2 ≤ r.op && r.op ≤ 4) || (r.op = 0x10 && p.imm18.toNat / 256 ≠ 2) || r.op = 0x11
        || (0x20 ≤ r.op && r.op ≤ 0x29) || (0x30 ≤ r.op && r.op ≤ 0x36)
    | 5 => true
    | 6 => true
    | _ => false

/-! ## The control core's standard instructions (06 R112) -/

/-- Sign-extends the low bits of a field to a doubleword. -/
def sextN {n : Nat} (x : BitVec n) : Word := x.signExtend 64

def rdF (x : BitVec 32) : Reg := x.extractLsb' 7 5
def rs1F (x : BitVec 32) : Reg := x.extractLsb' 15 5
def rs2F (x : BitVec 32) : Reg := x.extractLsb' 20 5
def f3F (x : BitVec 32) : Nat := (x.extractLsb' 12 3).toNat
def f7F (x : BitVec 32) : Nat := (x.extractLsb' 25 7).toNat
def immI (x : BitVec 32) : BitVec 12 := x.extractLsb' 20 12

/-- OP: funct7 and funct3. -/
def aluOf (f7 f3 : Nat) : Option AluOp :=
  match f7, f3 with
  | 0, 0 => some .add | 0, 1 => some .sll | 0, 2 => some .slt | 0, 3 => some .sltu
  | 0, 4 => some .xor | 0, 5 => some .srl | 0, 6 => some .or | 0, 7 => some .and
  | 32, 0 => some .sub | 32, 5 => some .sra | 32, 4 => some .xnor | 32, 6 => some .orn | 32, 7 => some .andn
  | 1, 0 => some .mul | 1, 1 => some .mulh | 1, 2 => some .mulhsu | 1, 3 => some .mulhu
  | 1, 4 => some .div | 1, 5 => some .divu | 1, 6 => some .rem | 1, 7 => some .remu
  | 16, 2 => some .sh1add | 16, 4 => some .sh2add | 16, 6 => some .sh3add
  | 5, 4 => some .min | 5, 5 => some .minu | 5, 6 => some .max | 5, 7 => some .maxu
  | 48, 1 => some .rol | 48, 5 => some .ror
  | 20, 1 => some .bset | 36, 1 => some .bclr | 36, 5 => some .bext | 52, 1 => some .binv
  | 7, 5 => some .czeroEqz | 7, 7 => some .czeroNez
  | _, _ => none

/-- The funct7 and funct3 of an operation of OP. -/
def aluCode : AluOp → Nat × Nat
  | .add => (0, 0) | .sll => (0, 1) | .slt => (0, 2) | .sltu => (0, 3)
  | .xor => (0, 4) | .srl => (0, 5) | .or => (0, 6) | .and => (0, 7)
  | .sub => (32, 0) | .sra => (32, 5) | .xnor => (32, 4) | .orn => (32, 6) | .andn => (32, 7)
  | .mul => (1, 0) | .mulh => (1, 1) | .mulhsu => (1, 2) | .mulhu => (1, 3)
  | .div => (1, 4) | .divu => (1, 5) | .rem => (1, 6) | .remu => (1, 7)
  | .sh1add => (16, 2) | .sh2add => (16, 4) | .sh3add => (16, 6)
  | .min => (5, 4) | .minu => (5, 5) | .max => (5, 6) | .maxu => (5, 7)
  | .rol => (48, 1) | .ror => (48, 5)
  | .bset => (20, 1) | .bclr => (36, 1) | .bext => (36, 5) | .binv => (52, 1)
  | .czeroEqz => (7, 5) | .czeroNez => (7, 7)

/-- OP-32: funct7 and funct3. -/
def aluwOf (f7 f3 : Nat) : Option AluOpW :=
  match f7, f3 with
  | 0, 0 => some .addw | 32, 0 => some .subw | 0, 1 => some .sllw | 0, 5 => some .srlw | 32, 5 => some .sraw
  | 1, 0 => some .mulw | 1, 4 => some .divw | 1, 5 => some .divuw | 1, 6 => some .remw | 1, 7 => some .remuw
  | 4, 0 => some .addUw | 16, 2 => some .sh1addUw | 16, 4 => some .sh2addUw | 16, 6 => some .sh3addUw
  | 48, 1 => some .rolw | 48, 5 => some .rorw
  | _, _ => none

def aluwCode : AluOpW → Nat × Nat
  | .addw => (0, 0) | .subw => (32, 0) | .sllw => (0, 1) | .srlw => (0, 5) | .sraw => (32, 5)
  | .mulw => (1, 0) | .divw => (1, 4) | .divuw => (1, 5) | .remw => (1, 6) | .remuw => (1, 7)
  | .addUw => (4, 0) | .sh1addUw => (16, 2) | .sh2addUw => (16, 4) | .sh3addUw => (16, 6)
  | .rolw => (48, 1) | .rorw => (48, 5)

/-- OP-IMM and OP-IMM-32 where the operand is an immediate. -/
def immOf (w : Bool) (f3 : Nat) (imm : BitVec 12) : Option (ImmOp × BitVec 12) :=
  let hi6 := imm.toNat / 64
  let hi7 := imm.toNat / 32
  let sh6 := imm &&& 63#12
  let sh5 := imm &&& 31#12
  if w then
    match f3 with
    | 0 => some (.addiw, imm)
    | 1 => if hi7 = 0 then some (.slliw, sh5) else if hi6 = 2 then some (.slliUw, sh6) else none
    | 5 => if hi7 = 0 then some (.srliw, sh5) else if hi7 = 32 then some (.sraiw, sh5) else if hi7 = 48 then some (.roriw, sh5) else none
    | _ => none
  else
    match f3 with
    | 0 => some (.addi, imm)
    | 2 => some (.slti, imm)
    | 3 => some (.sltiu, imm)
    | 4 => some (.xori, imm)
    | 6 => some (.ori, imm)
    | 7 => some (.andi, imm)
    | 1 =>
      if hi6 = 0 then some (.slli, sh6) else if hi6 = 10 then some (.bseti, sh6) else if hi6 = 18 then some (.bclri, sh6)
      else if hi6 = 26 then some (.binvi, sh6) else none
    | _ =>
      if hi6 = 0 then some (.srli, sh6) else if hi6 = 16 then some (.srai, sh6) else if hi6 = 24 then some (.rori, sh6)
      else if hi6 = 18 then some (.bexti, sh6) else none

/-- Width (OP-IMM-32), funct3, the immediate's fixed upper part, and the bits a shift count has, 12 for none. -/
def immCode : ImmOp → Bool × Nat × Nat × Nat
  | .addi => (false, 0, 0, 12) | .slti => (false, 2, 0, 12) | .sltiu => (false, 3, 0, 12) | .xori => (false, 4, 0, 12)
  | .ori => (false, 6, 0, 12) | .andi => (false, 7, 0, 12)
  | .slli => (false, 1, 0, 6) | .bseti => (false, 1, 10 * 64, 6) | .bclri => (false, 1, 18 * 64, 6) | .binvi => (false, 1, 26 * 64, 6)
  | .srli => (false, 5, 0, 6) | .srai => (false, 5, 16 * 64, 6) | .rori => (false, 5, 24 * 64, 6) | .bexti => (false, 5, 18 * 64, 6)
  | .addiw => (true, 0, 0, 12) | .slliw => (true, 1, 0, 5) | .slliUw => (true, 1, 2 * 64, 6)
  | .srliw => (true, 5, 0, 5) | .sraiw => (true, 5, 32 * 32, 5) | .roriw => (true, 5, 48 * 32, 5)

/-- The one-operand operations of Zbb, by OP-IMM-32 or OP-IMM, funct3 and the immediate. -/
def unOf (w : Bool) (f3 imm : Nat) : Option UnOp :=
  if w then (if f3 = 1 then (match imm with | 0x600 => some .clzw | 0x601 => some .ctzw | 0x602 => some .cpopw | _ => none) else none)
  else match f3, imm with
    | 1, 0x600 => some .clz | 1, 0x601 => some .ctz | 1, 0x602 => some .cpop | 1, 0x604 => some .sextB | 1, 0x605 => some .sextH
    | 5, 0x287 => some .orcB | 5, 0x6B8 => some .rev8
    | _, _ => none

/-- Opcode, funct3 and immediate of a one-operand operation. -/
def unCode : UnOp → Nat × Nat × Nat
  | .clz => (0x13, 1, 0x600) | .ctz => (0x13, 1, 0x601) | .cpop => (0x13, 1, 0x602) | .sextB => (0x13, 1, 0x604)
  | .sextH => (0x13, 1, 0x605) | .orcB => (0x13, 5, 0x287) | .rev8 => (0x13, 5, 0x6B8)
  | .clzw => (0x1B, 1, 0x600) | .ctzw => (0x1B, 1, 0x601) | .cpopw => (0x1B, 1, 0x602) | .zextH => (0x3B, 4, 0x080)

def brOf (f3 : Nat) : Option BrCond :=
  match f3 with
  | 0 => some .eq | 1 => some .ne | 4 => some .lt | 5 => some .ge | 6 => some .ltu | 7 => some .geu
  | _ => none
def brCode : BrCond → Nat
  | .eq => 0 | .ne => 1 | .lt => 4 | .ge => 5 | .ltu => 6 | .geu => 7

def loadOf (f3 : Nat) : Option MemW :=
  match f3 with
  | 0 => some .b | 1 => some .h | 2 => some .w | 3 => some .d | 4 => some .bu | 5 => some .hu | 6 => some .wu
  | _ => none
def storeOf (f3 : Nat) : Option MemW :=
  match f3 with
  | 0 => some .b | 1 => some .h | 2 => some .w | 3 => some .d
  | _ => none
def memCode : MemW → Nat
  | .b => 0 | .h => 1 | .w => 2 | .d => 3 | .bu => 4 | .hu => 5 | .wu => 6

def amoOf (f5 : Nat) : Option AmoOp :=
  match f5 with
  | 1 => some .swap | 0 => some .add | 4 => some .xor | 12 => some .and | 8 => some .or
  | 16 => some .min | 20 => some .max | 24 => some .minu | 28 => some .maxu
  | _ => none
def amoCode : AmoOp → Nat
  | .swap => 1 | .add => 0 | .xor => 4 | .and => 12 | .or => 8 | .min => 16 | .max => 20 | .minu => 24 | .maxu => 28

def csrOf (f3 : Nat) : Option (CsrOp × Bool) :=
  match f3 with
  | 1 => some (.rw, false) | 2 => some (.rs, false) | 3 => some (.rc, false)
  | 5 => some (.rw, true) | 6 => some (.rs, true) | 7 => some (.rc, true)
  | _ => none
def csrCode : CsrOp → Bool → Nat
  | .rw, false => 1 | .rs, false => 2 | .rc, false => 3
  | .rw, true => 5 | .rs, true => 6 | .rc, true => 7

/-- An ordinary instruction's constructor. -/
def rv (i : RvInstr) : Option Instr := some (.rv64Instruction i false)

/-- A 32-bit encoding, or none where the named extensions leave it unassigned (06 R112). -/
def decode32 (x : BitVec 32) : Option Instr :=
  let rd := rdF x
  let rs1 := rs1F x
  let rs2 := rs2F x
  let f3 := f3F x
  let f7 := f7F x
  match (x.extractLsb' 0 7).toNat with
  | 0x37 => rv (.lui rd (x.extractLsb' 12 20))
  | 0x17 => rv (.auipc rd (x.extractLsb' 12 20))
  | 0x6F => rv (.jal rd (x.extractLsb' 31 1 ++ x.extractLsb' 12 8 ++ x.extractLsb' 20 1 ++ x.extractLsb' 21 10))
  | 0x67 => if f3 = 0 then rv (.jalr rd rs1 (immI x)) else none
  | 0x63 =>
    match brOf f3 with
    | some c => rv (.branch c rs1 rs2 (x.extractLsb' 31 1 ++ x.extractLsb' 7 1 ++ x.extractLsb' 25 6 ++ x.extractLsb' 8 4))
    | none => none
  | 0x03 => match loadOf f3 with | some m => rv (.load m rd rs1 (immI x)) | none => none
  | 0x23 => match storeOf f3 with | some m => rv (.store m rs1 rs2 (x.extractLsb' 25 7 ++ x.extractLsb' 7 5)) | none => none
  | 0x13 =>
    match unOf false f3 (immI x).toNat with
    | some o => rv (.unary o rd rs1)
    | none => match immOf false f3 (immI x) with | some (o, i) => rv (.opImm o rd rs1 i) | none => none
  | 0x1B =>
    match unOf true f3 (immI x).toNat with
    | some o => rv (.unary o rd rs1)
    | none => match immOf true f3 (immI x) with | some (o, i) => rv (.opImm o rd rs1 i) | none => none
  | 0x33 => match aluOf f7 f3 with | some o => rv (.op o rd rs1 rs2) | none => none
  | 0x3B =>
    if f7 = 4 ∧ f3 = 4 ∧ rs2 = 0 then rv (.unary .zextH rd rs1)
    else match aluwOf f7 f3 with | some o => rv (.opW o rd rs1 rs2) | none => none
  | 0x0F =>
    match f3 with
    | 0 => some (.fence (x.extractLsb' 28 4) (x.extractLsb' 24 4) (x.extractLsb' 20 4) rd rs1)
    | 1 => some (.fenceI (immI x) rd rs1)
    | _ => none
  | 0x2F =>
    if f3 = 2 ∨ f3 = 3 then
      let dbl := f3 = 3
      let aq := x.getLsbD 26
      let rl := x.getLsbD 25
      let f5 := f7 / 4
      if f5 = 2 then (if rs2 = 0 then some (.lr dbl aq rl rd rs1) else none)
      else if f5 = 3 then some (.sc dbl aq rl rd rs1 rs2)
      else match amoOf f5 with | some o => some (.amoWindow o dbl aq rl rd rs1 rs2) | none => none
    else none
  | 0x73 =>
    if f3 = 0 then
      if rd = 0 ∧ rs1 = 0 then
        match (immI x).toNat with
        | 0x000 => some .ecall
        | 0x001 => some (.ebreak false)
        | 0x302 => some .mret
        | 0x105 => rv .wfi
        | _ => none
      else none
    else match csrOf f3 with
      | some (o, im) => rv (.csr o rd im rs1 (immI x))
      | none => none
  | _ => none

/-- A register of a compressed encoding's three-bit field. -/
def cReg (x : BitVec 3) : Reg := (1 : BitVec 2) ++ x

/-- A compressed instruction's constructor. -/
def rvc (i : RvInstr) : Option Instr := some (.rv64Instruction i true)

/-- A 16-bit encoding, or none where it is unassigned (C of RV64; 06 R112). -/
def decode16 (x : BitVec 16) : Option Instr :=
  let rd := x.extractLsb' 7 5
  let rs2 := x.extractLsb' 2 5
  let rd3 := cReg (x.extractLsb' 2 3)
  let rs3 := cReg (x.extractLsb' 7 3)
  let b12 := x.extractLsb' 12 1
  let imm6 : BitVec 12 := (b12 ++ rs2).signExtend 12
  let sh6 : BitVec 12 := (b12 ++ rs2).setWidth 12
  match (x.extractLsb' 0 2).toNat, (x.extractLsb' 13 3).toNat with
  | 0, 0 =>
    let u : BitVec 8 := x.extractLsb' 7 4 ++ x.extractLsb' 11 2 ++ x.extractLsb' 5 1 ++ x.extractLsb' 6 1
    if u = 0 then none else rvc (.opImm .addi rd3 2 ((u ++ (0 : BitVec 2)).setWidth 12))
  | 0, 2 =>
    let u : BitVec 7 := x.extractLsb' 5 1 ++ x.extractLsb' 10 3 ++ x.extractLsb' 6 1 ++ (0 : BitVec 2)
    rvc (.load .w rd3 rs3 (u.setWidth 12))
  | 0, 3 =>
    let u : BitVec 8 := x.extractLsb' 5 2 ++ x.extractLsb' 10 3 ++ (0 : BitVec 3)
    rvc (.load .d rd3 rs3 (u.setWidth 12))
  | 0, 6 =>
    let u : BitVec 7 := x.extractLsb' 5 1 ++ x.extractLsb' 10 3 ++ x.extractLsb' 6 1 ++ (0 : BitVec 2)
    rvc (.store .w rs3 rd3 (u.setWidth 12))
  | 0, 7 =>
    let u : BitVec 8 := x.extractLsb' 5 2 ++ x.extractLsb' 10 3 ++ (0 : BitVec 3)
    rvc (.store .d rs3 rd3 (u.setWidth 12))
  | 1, 0 => rvc (.opImm .addi rd rd imm6)
  | 1, 1 => if rd = 0 then none else rvc (.opImm .addiw rd rd imm6)
  | 1, 2 => rvc (.opImm .addi rd 0 imm6)
  | 1, 3 =>
    if rd = 2 then
      let u : BitVec 10 := b12 ++ x.extractLsb' 3 2 ++ x.extractLsb' 5 1 ++ x.extractLsb' 2 1 ++ x.extractLsb' 6 1 ++ (0 : BitVec 4)
      if u = 0 then none else rvc (.opImm .addi 2 2 (u.signExtend 12))
    else
      let u : BitVec 6 := b12 ++ rs2
      if u = 0 then none else rvc (.lui rd (u.signExtend 20))
  | 1, 4 =>
    match (x.extractLsb' 10 2).toNat with
    | 0 => rvc (.opImm .srli rs3 rs3 sh6)
    | 1 => rvc (.opImm .srai rs3 rs3 sh6)
    | 2 => rvc (.opImm .andi rs3 rs3 imm6)
    | _ =>
      match (x.extractLsb' 12 1).toNat, (x.extractLsb' 5 2).toNat with
      | 0, 0 => rvc (.op .sub rs3 rs3 rd3)
      | 0, 1 => rvc (.op .xor rs3 rs3 rd3)
      | 0, 2 => rvc (.op .or rs3 rs3 rd3)
      | 0, _ => rvc (.op .and rs3 rs3 rd3)
      | _, 0 => rvc (.opW .subw rs3 rs3 rd3)
      | _, 1 => rvc (.opW .addw rs3 rs3 rd3)
      | _, _ => none
  | 1, 5 =>
    let u : BitVec 11 := b12 ++ x.extractLsb' 8 1 ++ x.extractLsb' 9 2 ++ x.extractLsb' 6 1 ++ x.extractLsb' 7 1
      ++ x.extractLsb' 2 1 ++ x.extractLsb' 11 1 ++ x.extractLsb' 3 3
    rvc (.jal 0 (u.signExtend 20))
  | 1, 6 =>
    let u : BitVec 8 := b12 ++ x.extractLsb' 5 2 ++ x.extractLsb' 2 1 ++ x.extractLsb' 10 2 ++ x.extractLsb' 3 2
    rvc (.branch .eq rs3 0 (u.signExtend 12))
  | 1, 7 =>
    let u : BitVec 8 := b12 ++ x.extractLsb' 5 2 ++ x.extractLsb' 2 1 ++ x.extractLsb' 10 2 ++ x.extractLsb' 3 2
    rvc (.branch .ne rs3 0 (u.signExtend 12))
  | 2, 0 => rvc (.opImm .slli rd rd sh6)
  | 2, 2 =>
    let u : BitVec 8 := x.extractLsb' 2 2 ++ b12 ++ x.extractLsb' 4 3 ++ (0 : BitVec 2)
    if rd = 0 then none else rvc (.load .w rd 2 (u.setWidth 12))
  | 2, 3 =>
    let u : BitVec 9 := x.extractLsb' 2 3 ++ b12 ++ x.extractLsb' 5 2 ++ (0 : BitVec 3)
    if rd = 0 then none else rvc (.load .d rd 2 (u.setWidth 12))
  | 2, 4 =>
    if b12 = 0 then
      if rs2 = 0 then (if rd = 0 then none else rvc (.jalr 0 rd 0))
      else rvc (.op .add rd 0 rs2)
    else if rs2 = 0 then (if rd = 0 then some (.ebreak true) else rvc (.jalr 1 rd 0))
    else rvc (.op .add rd rd rs2)
  | 2, 6 =>
    let u : BitVec 8 := x.extractLsb' 7 2 ++ x.extractLsb' 9 4 ++ (0 : BitVec 2)
    rvc (.store .w 2 rs2 (u.setWidth 12))
  | 2, 7 =>
    let u : BitVec 9 := x.extractLsb' 7 3 ++ x.extractLsb' 10 3 ++ (0 : BitVec 3)
    rvc (.store .d 2 rs2 (u.setWidth 12))
  | _, _ => none

/-- Bytes of the control core's next instruction, from its first parcel: 2, 4, or 8 for the 64-bit length class. A
longer RISC-V length class is absent, and counts as a 4-byte encoding that nothing assigns (06 R112). -/
def controlLen (h : BitVec 16) : Nat :=
  if h.extractLsb' 0 2 ≠ 3 then 2
  else if h.extractLsb' 0 7 = 0x3F then 8
  else 4

/-- The control core's next instruction from its eight bytes, of which `controlLen` count; total: what no extension
assigns, and a reserved or illegal portable word, is the instruction `illegal`, which traps (06 R112, 05 R88). -/
def decodeControl (x : Word) : Instr :=
  match controlLen (x.setWidth 16) with
  | 2 => (decode16 (x.setWidth 16)).getD (.rv64Instruction (.illegal ((x.setWidth 16).setWidth 64)) true)
  | 8 => (decodePort x).getD (.rv64Instruction (.illegal x) false)
  | _ => (decode32 (x.setWidth 32)).getD (.rv64Instruction (.illegal ((x.setWidth 32).setWidth 64)) false)

def pack32 (f7 : BitVec 7) (rs2 rs1 : Reg) (f3 : BitVec 3) (rd : Reg) (op : BitVec 7) : BitVec 32 :=
  f7 ++ rs2 ++ rs1 ++ f3 ++ rd ++ op

def packI (imm : BitVec 12) (rs1 : Reg) (f3 : BitVec 3) (rd : Reg) (op : BitVec 7) : BitVec 32 :=
  imm ++ rs1 ++ f3 ++ rd ++ op

/-- The 32-bit encoding of an ordinary instruction (06 R112). -/
def encodeRv : RvInstr → BitVec 32
  | .lui rd imm => imm ++ rd ++ (0x37 : BitVec 7)
  | .auipc rd imm => imm ++ rd ++ (0x17 : BitVec 7)
  | .jal rd o => o.extractLsb' 19 1 ++ o.extractLsb' 0 10 ++ o.extractLsb' 10 1 ++ o.extractLsb' 11 8 ++ rd ++ (0x6F : BitVec 7)
  | .jalr rd rs1 imm => packI imm rs1 0 rd 0x67
  | .branch c rs1 rs2 o =>
    o.extractLsb' 11 1 ++ o.extractLsb' 4 6 ++ rs2 ++ rs1 ++ BitVec.ofNat 3 (brCode c) ++ o.extractLsb' 0 4
      ++ o.extractLsb' 10 1 ++ (0x63 : BitVec 7)
  | .load m rd rs1 imm => packI imm rs1 (BitVec.ofNat 3 (memCode m)) rd 0x03
  | .store m rs1 rs2 imm =>
    imm.extractLsb' 5 7 ++ rs2 ++ rs1 ++ BitVec.ofNat 3 (memCode m) ++ imm.extractLsb' 0 5 ++ (0x23 : BitVec 7)
  | .opImm o rd rs1 imm =>
    let c := immCode o
    packI (BitVec.ofNat 12 c.2.2.1 ||| imm) rs1 (BitVec.ofNat 3 c.2.1) rd (if c.1 then 0x1B else 0x13)
  | .op o rd rs1 rs2 => pack32 (BitVec.ofNat 7 (aluCode o).1) rs2 rs1 (BitVec.ofNat 3 (aluCode o).2) rd 0x33
  | .opW o rd rs1 rs2 => pack32 (BitVec.ofNat 7 (aluwCode o).1) rs2 rs1 (BitVec.ofNat 3 (aluwCode o).2) rd 0x3B
  | .unary o rd rs1 =>
    let c := unCode o
    packI (BitVec.ofNat 12 c.2.2) rs1 (BitVec.ofNat 3 c.2.1) rd (BitVec.ofNat 7 c.1)
  | .csr o rd im src num => packI num src (BitVec.ofNat 3 (csrCode o im)) rd 0x73
  | .wfi => packI 0x105 0 0 0 0x73
  | .illegal b => b.setWidth 32

/-- The 32-bit encoding of a standard instruction; none for the other rows and for the compressed forms, whose 16-bit
encodings `decode16` gives. -/
def encode32 : Instr → Option (BitVec 32)
  | .rv64Instruction i false => some (encodeRv i)
  | .fence fm p s rd rs1 => some (fm ++ p ++ s ++ rs1 ++ (0 : BitVec 3) ++ rd ++ (0x0F : BitVec 7))
  | .fenceI imm rd rs1 => some (packI imm rs1 1 rd 0x0F)
  | .amoWindow o d aq rl rd rs1 rs2 =>
    some (BitVec.ofNat 5 (amoCode o) ++ bit1 aq ++ bit1 rl ++ rs2 ++ rs1 ++ (if d then (3 : BitVec 3) else 2) ++ rd ++ (0x2F : BitVec 7))
  | .lr d aq rl rd rs1 =>
    some ((2 : BitVec 5) ++ bit1 aq ++ bit1 rl ++ (0 : BitVec 5) ++ rs1 ++ (if d then (3 : BitVec 3) else 2) ++ rd ++ (0x2F : BitVec 7))
  | .sc d aq rl rd rs1 rs2 =>
    some ((3 : BitVec 5) ++ bit1 aq ++ bit1 rl ++ rs2 ++ rs1 ++ (if d then (3 : BitVec 3) else 2) ++ rd ++ (0x2F : BitVec 7))
  | .ecall => some 0x00000073
  | .ebreak false => some 0x00100073
  | .mret => some 0x30200073
  | _ => none

/-- Whether an ordinary instruction's operands are those its encoding admits. -/
def RvInstr.wf : RvInstr → Bool
  | .store m _ _ _ => memCode m < 4
  | .opImm o _ _ imm => imm.toNat < 2 ^ (immCode o).2.2.2
  | .illegal b => b.toNat < 2 ^ 32 && (decode32 (b.setWidth 32)).isNone && controlLen (b.setWidth 16) = 4
  | _ => true

/-! ## Command frames (12 R246, R250) -/

def Frame.dws (f : Frame) : List Word :=
  [f.dw0, f.dw1, f.dw2, f.dw3, f.dw4, f.dw5, f.dw6, f.dw7, f.dw8, f.dw9, f.dw10, f.dw11, f.dw12, f.dw13, f.dw14, f.dw15]

def Frame.ofList (l : List Word) : Frame :=
  let g := fun k => l.getD k 0
  ⟨g 0, g 1, g 2, g 3, g 4, g 5, g 6, g 7, g 8, g 9, g 10, g 11, g 12, g 13, g 14, g 15⟩

/-- The kind field (12 R247). -/
def Frame.kind (f : Frame) : Nat := f.dw0.toNat % 256
/-- The engine field (12 R247). -/
def Frame.engCode (f : Frame) : Nat := f.dw0.toNat / 256 % 4

/-- The constructor of a command kind (05 R106, 12 R250); none for a reserved kind. -/
def frameCtor (kind : Nat) : Option (Frame → Instr) :=
  match kind with
  | 0x01 => some .codeStart
  | 0x02 => some .copy
  | 0x03 => some .copynd
  | 0x04 => some .bcast
  | 0x05 => some .gatherrows
  | 0x06 => some .reduce
  | 0x07 => some .signal
  | 0x08 => some .waitcount
  | 0x09 => some .link
  | 0x0A => some .selftest
  | 0x0C => some .pswap
  | _ => none

/-- The frame and the kind of a command's constructor. -/
def frameRow : Instr → Option (Nat × Frame)
  | .codeStart f => some (0x01, f)
  | .copy f => some (0x02, f)
  | .copynd f => some (0x03, f)
  | .bcast f => some (0x04, f)
  | .gatherrows f => some (0x05, f)
  | .reduce f => some (0x06, f)
  | .signal f => some (0x07, f)
  | .waitcount f => some (0x08, f)
  | .link f => some (0x09, f)
  | .selftest f => some (0x0A, f)
  | .pswap f => some (0x0C, f)
  | _ => none

/-- A command frame from its doublewords; none for a reserved kind, which is refused at enqueue (12 R254). -/
def decodeFrame (l : List Word) : Option Instr :=
  let f := Frame.ofList l
  match frameCtor f.kind with
  | some k => some (k f)
  | none => none

def encodeFrame (i : Instr) : Option (List Word) :=
  match frameRow i with
  | some (_, f) => some f.dws
  | none => none

/-! ## Native lines (05 R89-R97) -/

/-- OWNER of a link word (05 R90). -/
def ownerOf (link : Word) : Option Eng :=
  match link.toNat / 2 ^ 28 % 16 with
  | 0 => some .A
  | 1 => some .M
  | 2 => some .V
  | _ => none
def segEnd (dw0 : Word) : Bool := dw0.getLsbD 3
def chainEnd (dw0 : Word) : Bool := dw0.getLsbD 2
/-- NEXT of a link word, in lines. -/
def nextOf (dw0 : Word) : BitVec 24 := dw0.extractLsb' 4 24

/-- The causes that make a line's link and delay words illegal on entry by engine `e` (05 R90, R91). -/
def lineBad (e : Eng) (dw0 : Word) : List Bad :=
  (if dw0.toNat / 2 ^ 60 ≠ 0 then [.delay] else []) ++
  (if ownerOf dw0 = some e ∧ dw0.toNat % 4 = 0 ∧ (nextOf dw0 ≠ 0 ∨ chainEnd dw0) ∧ !(e = .A && segEnd dw0) then [] else [.link])

/-- The delay nibble of a slot (05 R91). -/
def delayOf (dw0 : Word) (slot : Nat) : BitVec 4 := dw0.extractLsb' (32 + 4 * slot) 4

/-- Where a word's literal slot, if it has one, falls: past slot 6, or in the check slot, it is misplaced (05 R94). -/
def litFits (dw0 : Word) (slot : Nat) : Bool := slot + 1 ≤ (if segEnd dw0 then 5 else 6)

/-- A slot: every cause of its own, what it holds, and how many slots it takes. -/
def slotAt (e : Eng) (line : List Word) (slot : Nat) : List Bad × Option Pick × Nat :=
  let dw0 := line.getD 0 0
  match pickNative e (line.getD (slot + 1) 0) (line.getD (slot + 2) 0) (delayOf dw0 slot) with
  | none => ([.opcode], none, 1)
  | some p =>
    if p.names then
      (p.bads e ++ (if litFits dw0 slot then [] else [.literal]) ++ (if delayOf dw0 (slot + 1) = 0 then [] else [.delay]), some p, 2)
    else (p.bads e, some p, 1)

/-- Whether every nibble of a line from a slot on is one that R91 allows: 1 to 15 where a word of M or V writes a result,
else 0. A slot whose op is reserved is passed over, since its word faults when it issues (05 R97). -/
def delaysOk (e : Eng) (line : List Word) : Nat → Nat → Bool
  | 0, _ => true
  | fuel + 1, slot =>
    let dw0 := line.getD 0 0
    if slot > 6 then true
    else if slot = 6 && segEnd dw0 then delayOf dw0 6 = 0
    else match pickNative e (line.getD (slot + 1) 0) (line.getD (slot + 2) 0) (delayOf dw0 slot) with
      | none => delaysOk e line fuel (slot + 1)
      | some p =>
        let here := if e ≠ .A && p.row.writes then delayOf dw0 slot ≠ 0 else delayOf dw0 slot = 0
        if p.names && litFits dw0 slot then here && delayOf dw0 (slot + 1) = 0 && delaysOk e line fuel (slot + 2)
        else here && delaysOk e line fuel (slot + 1)

/-- What is checked when an engine enters a line (05 R90, R91, R97): its nibbles against the words of its owner. Where OWNER
is reserved no engine's words tell them, and LINK stands alone (DEDUCED, log entry 23). -/
def entryBad (e : Eng) (line : List Word) : List Bad :=
  let dw0 := line.getD 0 0
  lineBad e dw0 ++ (if (ownerOf dw0).all (fun o => delaysOk o line 7 0) then [] else [.delay])

/-- What a bundle holds from a slot on, each word with its slot, the faults found, and the slot after it; a bundle that
reaches the end of its line's slots without stop is a BUNDLE fault (05 R95). A reserved op ends it, since no cause comes
before OPCODE. -/
def bundleFrom (e : Eng) (line : List Word) : Nat → Nat → List Bad × List (Nat × Pick) × Nat
  | 0, slot => ([.bundle], [], slot)
  | fuel + 1, slot =>
    let last := if segEnd (line.getD 0 0) then 5 else 6
    if slot > last then ([.bundle], [], slot)
    else
      let (bad, i, n) := slotAt e line slot
      match i with
      | none => (bad, [], slot + 1)
      | some p =>
        if p.word.stop then (bad, [(slot, p)], slot + n)
        else
          let (bad2, ws, s2) := bundleFrom e line fuel (slot + n)
          (bad ++ bad2, (slot, p) :: ws, s2)

/-- The registers, predicates and queues that a word names as destinations (05 R95, 08 R181). -/
def destNames (r : Row) (w : NWord) : List (Nat × Nat) :=
  match r.dst with
  | .vdst => [(0, w.dst.toNat)]
  | .vreg => [(0, w.dst.toNat)]
  | .vregO => [(0, w.dst.toNat)]
  | .predD => [(1, w.dst.toNat)]
  | .pred8 => (List.range 8).map (fun k => (1, w.dst.toNat + k))
  | .apredD => [(1, w.dst.toNat)]
  | .g => [(2, w.dst.toNat)]
  | .gPair => [(2, w.dst.toNat), (2, w.dst.toNat + 1)]
  | .gOrQa => if isG w.dst then [(2, w.dst.toNat)] else [(0, w.dst.toNat)]
  | .qa => [(0, w.dst.toNat)]
  | .free => if isVreg w.dst then [(0, w.dst.toNat)] else []
  | _ => []

/-- Whether a list names something twice. -/
def dup : List (Nat × Nat) → Bool
  | [] => false
  | x :: xs => xs.contains x || dup xs

/-- How many words of a class a bundle of an engine may hold (05 R95). -/
def classLimit (e : Eng) (c : BCls) : Nat :=
  match e, c with
  | .V, .arith => 4 | .V, .data => 1 | .V, .ctl => 1
  | .M, .array => 1 | .M, .load => 1 | .M, .ctl => 1
  | .A, .addr => 4 | .A, .mem => 2 | .A, .ctl => 1
  | _, _ => 0

/-- BUNDLE faults of a complete bundle (05 R95). -/
def bundleBad (e : Eng) (ws : List Pick) : List Bad :=
  let excess := [BCls.arith, .data, .ctl, .array, .load, .addr, .mem].any
    (fun c => (ws.filter (fun p => p.row.cls = c)).length > classLimit e c)
  if excess || dup (ws.flatMap (fun p => destNames p.row p.word)) then [.bundle] else []

/-- The words of a bundle, each with its slot. -/
def wordsIn (ws : List (Nat × Pick)) : List (Nat × Instr) := ws.filterMap (fun x => x.2.ctor.map (fun k => (x.1, k x.2.kept)))

/-- A bundle ready to issue from a slot: its words with their slots and the slot after them, or the cause that is
logged (05 R97, R110). -/
def decodeBundle (e : Eng) (line : List Word) (slot : Nat) : Except Bad (List (Nat × Instr) × Nat) :=
  let (bad, ws, s2) := bundleFrom e line 8 slot
  match Bad.least (bad ++ bundleBad e (ws.map (·.2))) with
  | some b => .error b
  | none => .ok (wordsIn ws, s2)

/-! ## The opcode table's words -/

/-- The instruction that the decoder reads from `nbits` bits `w`, numbered from the first word's least significant bit:
16, 32 or 64 bits are the control core's; 512 are a native line, of which slot 0 is read in its owner's space; 1,024
are a command frame. -/
def decodeTableWord (nbits w : Nat) : Option Instr :=
  if nbits ≤ 64 then
    let x : Word := BitVec.ofNat 64 w
    if controlLen (x.setWidth 16) * 8 < nbits then none
    else match controlLen (x.setWidth 16) with
      | 2 => decode16 (x.setWidth 16)
      | 8 => decodePort x
      | _ => decode32 (x.setWidth 32)
  else if nbits ≤ 512 then
    let line := (List.range 8).map (fun k => BitVec.ofNat 64 (w / 2 ^ (64 * k)))
    match ownerOf (line.getD 0 0) with
    | none => none
    | some e =>
      match decodeNative e (line.getD 1 0) (line.getD 2 0) (delayOf (line.getD 0 0) 0) with
      | .ok i => some i
      | .error _ => none
  else decodeFrame ((List.range 16).map (fun k => BitVec.ofNat 64 (w / 2 ^ (64 * k))))

end Sys2Proof
end

