-- ==== Sys2Proof/Machine/Numeric.lean ====
section
/-! DEFINITION. Number formats and exact arithmetic (04): decoding, the one rounding helper, saturation to integers,
stochastic bits, exact sums and products, estimates and the divide and square-root sequences (07 R136-R155). -/

namespace Sys2Proof.Machine

/-- A set of arithmetic flags, in the bit order of FXFLAGS (04 R79). -/
abbrev Flags := BitVec 6

namespace Flag
def none : Flags := 0
def nx   : Flags := 1
def uf   : Flags := 2
def of   : Flags := 4
def dz   : Flags := 8
def nv   : Flags := 16
def satf : Flags := 32
end Flag

/-- `f` when the condition holds. -/
def flagIf (c : Bool) (f : Flags) : Flags := if c then f else 0

/-! FMODE fields (03 R64). -/
namespace Fmode
def rm (m : Word) : Nat := (m.toNat) % 4
def sr (m : Word) : Bool := m.getLsbD 2
def sub (m : Word) : Nat := (m.toNat / 8) % 4
def sat (m : Word) : Bool := m.getLsbD 5
def mirror (m : Word) : Bool := m.getLsbD 6
def det (m : Word) : Bool := m.getLsbD 7
def shchk (m : Word) : Bool := m.getLsbD 8
def shrd (m : Word) : Bool := m.getLsbD 9
def exactds (m : Word) : Bool := m.getLsbD 10
end Fmode

/-- An exact value (04 R84 decode): a NaN with its signalling mark, an infinity, or (−1)^neg·m·2^e, where m = 0 is a
signed zero. -/
inductive Num where
  | nan (sig : Bool)
  | inf (neg : Bool)
  | fin (neg : Bool) (m : Nat) (e : Int)
deriving DecidableEq, Repr

/-- Rounding modes (04 R74); `sr` carries sr_bits. -/
inductive RMode where
  | rne | rtz | rup | rdn
  | sr (bits : BitVec 32)
deriving DecidableEq, Repr

/-- The mode FMODE.RM names (03 R64). -/
def rmode (fm : Word) : RMode :=
  match Fmode.rm fm with
  | 0 => .rne
  | 1 => .rtz
  | 2 => .rup
  | _ => .rdn

/-- How a format treats infinities and NaN (04 R65). -/
inductive FKind where
  | ieee | e4m3 | e2m1
deriving DecidableEq, Repr

/-- A floating format (04 R65): width, significand bits, bias, kind, the pattern of its largest finite value, whether
FMODE.SUB applies to it (R74), and its canonical NaN. -/
structure Fmt where
  w    : Nat
  mb   : Nat
  bias : Nat
  kind : FKind
  maxP : Nat
  subj : Bool
  cnan : Nat
deriving DecidableEq, Repr

def fp32 : Fmt := ⟨32, 23, 127, .ieee, 0x7F7FFFFF, true, 0x7FC00000⟩
def bf16 : Fmt := ⟨16, 7, 127, .ieee, 0x7F7F, true, 0x7FC0⟩
def fp16 : Fmt := ⟨16, 10, 15, .ieee, 0x7BFF, true, 0x7E00⟩
def e4m3 : Fmt := ⟨8, 3, 7, .e4m3, 0x7E, true, 0x7F⟩
def e5m2 : Fmt := ⟨8, 2, 15, .ieee, 0x7B, true, 0x7E⟩
def e2m1 : Fmt := ⟨4, 1, 1, .e2m1, 7, false, 0⟩
def fp64 : Fmt := ⟨64, 52, 1023, .ieee, 0x7FEFFFFFFFFFFFFF, false, 0x7FF8000000000000⟩

/-- The floating format of a type code; none for the others (05 R99). -/
def fmtOf (ty : Nat) : Option Fmt :=
  match ty with
  | 0 => some fp32
  | 1 => some bf16
  | 2 => some fp16
  | 3 => some e4m3
  | 4 => some e5m2
  | 5 => some e2m1
  | 13 => some fp64
  | _ => none

/-- Element width of a type code (05 R99); the reserved code 15 has none and reads as 0. -/
abbrev width (ty : Nat) : Nat := typeW ty

/-- The integer types (04 R67). -/
def isInt (ty : Nat) : Bool := [8, 9, 10, 11, 12, 14].contains ty
/-- The signed ones. -/
def isSigned (ty : Nat) : Bool := [8, 9, 10, 12].contains ty

/-- An integer element's value (04 R67). -/
def intVal (ty : Nat) (x : Nat) : Int :=
  let w := width ty
  if isSigned ty && x ≥ 2 ^ (w - 1) then (x : Int) - 2 ^ w else x
/-- The w-bit pattern of an integer, modulo 2^w. -/
def wrapInt (w : Nat) (v : Int) : Nat := (v % (2 ^ w : Int)).toNat
/-- The range of an integer type. -/
def intMin (ty : Nat) : Int := if isSigned ty then -(2 ^ (width ty - 1) : Int) else 0
def intMax (ty : Nat) : Int := if isSigned ty then 2 ^ (width ty - 1) - 1 else 2 ^ width ty - 1

/-- decode(e, F) for an unscaled element (04 R65, R66). -/
def decodeF (F : Fmt) (x : Nat) : Num :=
  let neg := x / 2 ^ (F.w - 1) % 2 = 1
  let mag := x % 2 ^ (F.w - 1)
  let E := mag / 2 ^ F.mb
  let M := mag % 2 ^ F.mb
  let emax := 2 ^ (F.w - 1 - F.mb) - 1
  match F.kind with
  | .ieee =>
    if E = emax then
      if M = 0 then .inf neg else .nan (M / 2 ^ (F.mb - 1) % 2 = 0)
    else if E = 0 then .fin neg M (1 - F.bias - F.mb)
    else .fin neg (2 ^ F.mb + M) (E - F.bias - F.mb)
  | .e4m3 =>
    if mag = 0x7F then .nan false
    else if E = 0 then .fin neg M (1 - F.bias - F.mb)
    else .fin neg (2 ^ F.mb + M) (E - F.bias - F.mb)
  | .e2m1 =>
    if E = 0 then .fin neg M (1 - F.bias - F.mb)
    else .fin neg (2 ^ F.mb + M) (E - F.bias - F.mb)

/-- e8m0(E) (04 R65, R84). -/
def decodeE8 (x : Nat) : Num := if x = 0xFF then .nan false else .fin false 1 ((x : Int) - 127)

/-- flush_in(x, F) on a pattern (04 R76). -/
def flushIn (F : Fmt) (fm : Word) (x : Nat) : Nat :=
  if Fmode.sub fm = 1 && F.subj && (x % 2 ^ (F.w - 1) / 2 ^ F.mb = 0) then x / 2 ^ (F.w - 1) % 2 * 2 ^ (F.w - 1) else x

/-- An operand of a word: flushed, then decoded. -/
def operand (F : Fmt) (fm : Word) (x : Nat) : Num := decodeF F (flushIn F fm x)

/-- Sets the sign bit. -/
def withSign (F : Fmt) (neg : Bool) (p : Nat) : Nat := p + if neg then 2 ^ (F.w - 1) else 0

/-- nan_in(F) with its flag (04 R66, R75). -/
def nanIn (F : Fmt) (sig : Bool) : Nat × Flags :=
  match F.kind with
  | .e2m1 => (0, Flag.nv)
  | _ => (F.cnan, flagIf sig Flag.nv)

/-- inf_in(F, s) with its flag (04 R75). -/
def infIn (F : Fmt) (fm : Word) (neg : Bool) : Nat × Flags :=
  match F.kind with
  | .ieee => (withSign F neg (F.maxP + 1), 0)
  | .e4m3 => if Fmode.sat fm then (withSign F neg F.maxP, Flag.satf) else (F.cnan, Flag.nv)
  | .e2m1 => (withSign F neg F.maxP, Flag.nv ||| Flag.satf)

/-- overflow(F, x, m) with its flags (04 R75). -/
def overflowTo (F : Fmt) (fm : Word) (mode : RMode) (neg : Bool) : Nat × Flags :=
  let big := withSign F neg F.maxP
  match F.kind with
  | .e2m1 => if Fmode.sat fm then (big, Flag.satf ||| Flag.nx) else (big, Flag.of ||| Flag.satf ||| Flag.nx)
  | .e4m3 => if Fmode.sat fm then (big, Flag.satf ||| Flag.nx) else (F.cnan, Flag.of ||| Flag.nx)
  | .ieee =>
    if Fmode.sat fm then (big, Flag.satf ||| Flag.nx)
    else
      let inf := withSign F neg (F.maxP + 1)
      let r := match mode with
        | .rne => inf
        | .sr _ => inf
        | .rtz => big
        | .rup => if neg then big else inf
        | .rdn => if neg then inf else big
      (r, Flag.of ||| Flag.nx)

/-- floor(log2 m) for m ≠ 0. -/
def ilog2 (m : Nat) : Nat := Nat.log2 m

/-- The rounding of a finite nonzero magnitude m·2^e, or of one strictly between it and (m + 1)·2^e when `sticky`,
to F (04 R74). A caller that sets `sticky` gives m more bits than F holds. -/
def roundFin (F : Fmt) (fm : Word) (mode : RMode) (neg : Bool) (m : Nat) (e : Int) (sticky : Bool) : Nat × Flags :=
  let E : Int := (ilog2 m : Int) + e
  let emin : Int := 1 - (F.bias : Int)
  let q : Int := (if E < emin then emin else E) - F.mb
  let s := (q - e).toNat                      -- bits dropped
  let t := if e < q then m / 2 ^ s else m * 2 ^ (e - q).toNat
  let rem := if e < q then m % 2 ^ s else 0
  let half := 2 ^ s
  let inexact : Bool := rem ≠ 0 || sticky
  let up : Bool := match mode with
    | .rne => 2 * rem > half || (2 * rem = half && (sticky || t % 2 = 1) && e < q)
    | .rtz => false
    | .rup => inexact && !neg
    | .rdn => inexact && neg
    | .sr b => b.toNat < rem * 2 ^ 32 / half
  let y := t + if up then 1 else 0
  let be := (q + F.mb + F.bias).toNat
  let pat := (be - 1) * 2 ^ F.mb + y
  if pat > F.maxP then overflowTo F fm mode neg
  else if F.subj && Fmode.sub fm = 2 && 0 < pat && pat < 2 ^ F.mb then (withSign F neg 0, Flag.uf ||| Flag.nx)
  else (withSign F neg pat, flagIf inexact Flag.nx ||| flagIf (inexact && pat < 2 ^ F.mb) Flag.uf)

/-- round_to(x, F, m) (04 R74, R75). -/
def roundTo (F : Fmt) (fm : Word) (mode : RMode) (x : Num) : Nat × Flags :=
  match x with
  | .nan sig => nanIn F sig
  | .inf neg => infIn F fm neg
  | .fin neg 0 _ => (withSign F neg 0, 0)
  | .fin neg m e => roundFin F fm mode neg m e false

/-- The integer nearest to an exact value under a mode, and whether a fraction was dropped. -/
def roundInt (mode : RMode) (neg : Bool) (m : Nat) (e : Int) : Int × Bool :=
  if e ≥ 0 then
    let v : Int := (m * 2 ^ e.toNat : Nat)
    (if neg then -v else v, false)
  else
    let s := (-e).toNat
    let t := m / 2 ^ s
    let rem := m % 2 ^ s
    let up : Bool := match mode with
      | .rne => 2 * rem > 2 ^ s || (2 * rem = 2 ^ s && t % 2 = 1)
      | .rtz => false
      | .rup => rem ≠ 0 && !neg
      | .rdn => rem ≠ 0 && neg
      | .sr b => b.toNat < rem * 2 ^ 32 / 2 ^ s
    let v : Int := (t + if up then 1 else 0 : Nat)
    (if neg then -v else v, rem ≠ 0)

/-- sat_int(x, T) (04 R75, R84): the pattern and the flags. -/
def satInt (ty : Nat) (mode : RMode) (x : Num) : Nat × Flags :=
  let w := width ty
  match x with
  | .nan _ => (0, Flag.nv)
  | .inf neg => (wrapInt w (if neg then intMin ty else intMax ty), Flag.nv)
  | .fin neg m e =>
    -- an exponent far beyond any range is cut first, so that no huge power is formed
    if m ≠ 0 ∧ e > 128 then (wrapInt w (if neg then intMin ty else intMax ty), Flag.nv)
    else
      let (v, frac) := roundInt mode neg m e
      if v < intMin ty then (wrapInt w (intMin ty), Flag.nv)
      else if v > intMax ty then (wrapInt w (intMax ty), Flag.nv)
      else (wrapInt w v, flagIf frac Flag.nx)

/-- An integer as an exact value; zero is +0. -/
def numOfInt (v : Int) : Num := .fin (v < 0) v.natAbs 0

/-- sr_bits(T, i, j) (04 R77), with the launch id and the captured SRSEED. -/
def srBits (lid : BitVec 32) (seed : Word) (T : BitVec 16) (i j : BitVec 32) : BitVec 32 :=
  let k0 := seed.setWidth 32
  let k1 := (seed >>> 32).setWidth 32
  let round (st : BitVec 32 × BitVec 32 × BitVec 32 × BitVec 32) (key : BitVec 32) :=
    let (a, b, c, d) := st
    let a := a + key
    let d := (d ^^^ a).rotateLeft 16
    let c := c + d
    let b := (b ^^^ c).rotateLeft 12
    let a := a + b
    let d := (d ^^^ a).rotateLeft 8
    let c := c + d
    let b := (b ^^^ c).rotateLeft 7
    (a, b, c, d)
  let (a, b, c, d) := [k0, k1, k0 ^^^ 0x9E3779B9, k1 ^^^ 0x9E3779B9].foldl round (i, j, lid, T.setWidth 32)
  a ^^^ b ^^^ c ^^^ d

/-! ## Exact arithmetic on finite values -/

/-- A finite exact value n·2^e. -/
structure Dy where
  n : Int
  e : Int
deriving DecidableEq, Repr

namespace Dy
def mul (x y : Dy) : Dy := ⟨x.n * y.n, x.e + y.e⟩
def neg (x : Dy) : Dy := ⟨-x.n, x.e⟩
def add (x y : Dy) : Dy :=
  let e := if x.e < y.e then x.e else y.e
  ⟨x.n * 2 ^ (x.e - e).toNat + y.n * 2 ^ (y.e - e).toNat, e⟩
def sub (x y : Dy) : Dy := x.add y.neg
def scale (x : Dy) (k : Int) : Dy := ⟨x.n, x.e + k⟩
/-- As an exact value; zero is +0. -/
def num (x : Dy) : Num := .fin (x.n < 0) x.n.natAbs x.e
end Dy

/-- A finite value; of the others nothing is asked. -/
def Num.dy : Num → Dy
  | .fin neg m e => ⟨if neg then -(m : Int) else m, e⟩
  | _ => ⟨0, 0⟩

def Num.isNan : Num → Bool
  | .nan _ => true
  | _ => false
def Num.isSig : Num → Bool
  | .nan s => s
  | _ => false
def Num.isInf : Num → Bool
  | .inf _ => true
  | _ => false
def Num.isZero : Num → Bool
  | .fin _ 0 _ => true
  | _ => false
def Num.sign : Num → Bool
  | .nan _ => false
  | .inf n => n
  | .fin n _ _ => n
def Num.neg : Num → Num
  | .nan s => .nan s
  | .inf n => .inf !n
  | .fin n m e => .fin (!n) m e
/-- |x|. -/
def Num.abs : Num → Num
  | .nan s => .nan s
  | .inf _ => .inf false
  | .fin _ m e => .fin false m e
def Num.scale (x : Num) (k : Int) : Num :=
  match x with
  | .fin n m e => .fin n m (e + k)
  | y => y

/-- The exact product of two values that are not NaN, or none for 0·Inf. -/
def mulNum (x y : Num) : Option Num :=
  match x, y with
  | .fin a m e, .fin b n f => some (.fin (a != b) (m * n) (e + f))
  | .inf a, .inf b => some (.inf (a != b))
  | .inf a, .fin b n _ => if n = 0 then none else some (.inf (a != b))
  | .fin a m _, .inf b => if m = 0 then none else some (.inf (a != b))
  | x, _ => some x

/-- The exact sum of terms that are not NaN (04 R83), `rdn` for the sign of a cancelled zero; none for Inf − Inf. -/
def sumNum (rdn : Bool) (ts : List Num) : Option Num :=
  let pinf := ts.any (· == Num.inf false)
  let ninf := ts.any (· == Num.inf true)
  if pinf && ninf then none
  else if pinf then some (.inf false)
  else if ninf then some (.inf true)
  else
    let s : Dy := ts.foldl (fun (a : Dy) t => a.add t.dy) ⟨0, 0⟩
    if s.n = 0 then
      if ts.isEmpty then some (.fin false 0 0)
      else if ts.all (fun t => t.isZero && t.sign) then some (.fin true 0 0)
      else if ts.all (fun t => t.isZero && !t.sign) then some (.fin false 0 0)
      else some (.fin rdn 0 0)
    else some s.num

/-- The rounding of a sum of terms, none of them NaN, under FMODE.RM (07 R136, 08). -/
def roundSum (F : Fmt) (fm : Word) (mode : RMode) (ts : List Num) : Nat × Flags :=
  match sumNum (mode == .rdn) ts with
  | none => (F.cnan, Flag.nv)
  | some v => roundTo F fm mode v

/-- The common start of R136: a NaN operand gives the canonical NaN, NV if one is signalling. -/
def nanCase (F : Fmt) (xs : List Num) (k : Nat × Flags) : Nat × Flags :=
  if xs.any Num.isNan then (F.cnan, flagIf (xs.any Num.isSig) Flag.nv) else k

/-- ±(x·y) ± z of R136. -/
def fmaNum (F : Fmt) (fm : Word) (np nz : Bool) (x y z : Num) : Nat × Flags :=
  nanCase F [x, y, z] <|
    match mulNum x y with
    | none => (F.cnan, Flag.nv)
    | some p => roundSum F fm (rmode fm) [if np then p.neg else p, if nz then z.neg else z]

def addNum (F : Fmt) (fm : Word) (nz : Bool) (x y : Num) : Nat × Flags :=
  nanCase F [x, y] <| roundSum F fm (rmode fm) [x, if nz then y.neg else y]

def mulRound (F : Fmt) (fm : Word) (x y : Num) : Nat × Flags :=
  nanCase F [x, y] <|
    match mulNum x y with
    | none => (F.cnan, Flag.nv)
    | some p => roundTo F fm (rmode fm) p

/-- x < y for values that are not NaN; −0 equals +0. -/
def Num.lt (x y : Num) : Bool :=
  match x, y with
  | .inf true, .inf true => false
  | .inf true, _ => true
  | _, .inf true => false
  | .inf false, _ => false
  | _, .inf false => true
  | a, b => (a.dy.sub b.dy).n < 0

/-- x = y for values that are not NaN. -/
def Num.eq (x y : Num) : Bool := !x.lt y && !y.lt x

/-- The order of minimum and maximum: −0 below +0 (07 R137). -/
def Num.ltZ (x y : Num) : Bool := x.lt y || (x.eq y && x.sign && !y.sign)

/-- dot_group(acc, a, b) (04 R81, R82): acc is an FP32 pattern, the elements are decoded and flushed already. -/
def dotGroup (fm : Word) (acc : Nat) (ab : List (Num × Num)) : Nat × Flags :=
  let a := decodeF fp32 acc
  let vals := a :: ab.flatMap (fun p => [p.1, p.2])
  if vals.any Num.isNan then (fp32.cnan, flagIf (vals.any Num.isSig) Flag.nv)
  else
    let prods := ab.map (fun p => mulNum p.1 p.2)
    if prods.any (·.isNone) then (fp32.cnan, Flag.nv)
    else roundSum fp32 fm .rne (a :: prods.filterMap id)

/-! ## Estimates (07 R140) -/

/-- Integer square root, floor, by `k` binary digits. -/
def isqrtGo (n : Nat) : Nat → Nat → Nat
  | 0, r => r
  | k + 1, r =>
    let c := r + 2 ^ k
    isqrtGo n k (if c * c ≤ n then c else r)
/-- floor(√n). -/
def isqrt (n : Nat) : Nat := isqrtGo n (Nat.log2 n / 2 + 1) 0

/-- A positive value m·2^e truncated to 12 significant bits. -/
def trunc12 (m : Nat) (e : Int) : Nat × Int :=
  let l := ilog2 m
  if l ≤ 11 then (m, e) else (m / 2 ^ (l - 11), e + (l - 11 : Nat))

/-- 1/(m·2^e), to 12 significant bits: exact truncation, by a quotient of at least 13 bits. -/
def recip12 (m : Nat) (e : Int) : Nat × Int :=
  let k := ilog2 m + 14
  trunc12 (2 ^ k / m) (-e - k)

/-- 1/√(m·2^e), to 12 significant bits. -/
def rsqrt12 (m : Nat) (e : Int) : Nat × Int :=
  let (m, e) := if e % 2 = 0 then (m, e) else (2 * m, e - 1)
  let k := ilog2 m / 2 + 16
  trunc12 (isqrt (2 ^ (2 * k) / m)) (-(e / 2) - k)

/-- The first `k` binary digits of log2 of y/2^200, for 1 ≤ y/2^200 < 2, appended to `acc`: each squaring gives a digit. -/
def log2Digits : Nat → Nat → Nat → Nat
  | 0, _, acc => acc
  | k + 1, y, acc =>
    let y2 := y * y / 2 ^ 200
    if y2 ≥ 2 ^ 201 then log2Digits k (y2 / 2) (2 * acc + 1) else log2Digits k y2 (2 * acc)

/-- floor(2^64·log2(m/2^l)), l = floor(log2 m): 64 digits with 136 guard bits (DEDUCED, log entry 20: no operand of
the three types comes nearer to a digit's edge than the guard bits resolve). -/
def log2Frac (m : Nat) : Nat := log2Digits 64 (m * 2 ^ 200 / 2 ^ ilog2 m) 0

/-- log2(m·2^e) to 12 significant bits: sign, significand, exponent; the value 0 as significand 0. -/
def log12 (m : Nat) (e : Int) : Bool × Nat × Int :=
  let E : Int := (ilog2 m : Int) + e
  let L := log2Frac m
  let v : Int := E * 2 ^ 64 + L
  if v = 0 ∧ m = 2 ^ ilog2 m then (false, 0, 0)
  else if m = 2 ^ ilog2 m then
    let (a, b) := trunc12 E.natAbs 0
    (E < 0, a, b)
  else if v ≥ 0 then
    let (a, b) := trunc12 v.toNat (-64)
    (false, a, b)
  else
    let (a, b) := trunc12 (-v - 1).toNat (-64)
    (true, a, b)

/-- The largest c in 2048 .. 4095 with log2(c/2048) below b/2^64, by the bits of c. -/
def exp12Go (b : Nat) : Nat → Nat → Nat
  | 0, c => c
  | k + 1, c =>
    let d := c + 2 ^ k
    exp12Go b k (if log2Frac d < b then d else c)

/-- 2^x to 12 significant bits, x = ±m·2^e with m ≠ 0. Beyond ±2^14 the value is past every format of the word. -/
def exp12 (neg : Bool) (m : Nat) (e : Int) : Nat × Int :=
  if (ilog2 m : Int) + e ≥ 14 then (1, if neg then -40000 else 40000)
  else
    -- x·2^64, rounded down when x has finer bits, which then lie below every boundary (x within 2^-40 of an integer)
    let d : Int := if neg then -(m : Int) else m
    let fx : Int := if e ≥ -64 then d * 2 ^ (e + 64).toNat else d / (2 ^ (-64 - e).toNat : Int)
    let k : Int := fx / 2 ^ 64
    let f := (fx % 2 ^ 64).toNat
    (exp12Go f 11 2048, k - 11)

/-- est(f(x)) for a positive or negative value of 12 significant bits (07 R140): rounded RTZ, neither NX nor UF. -/
def estRound (F : Fmt) (fm : Word) (neg : Bool) (m : Nat) (e : Int) : Nat × Flags :=
  if m = 0 then (withSign F neg 0, 0)
  else
    let (p, f) := roundFin F fm .rtz neg m e false
    (p, f &&& (Flag.of ||| Flag.satf))

/-- The four estimates. -/
inductive Est where
  | recp | rsqrt | exp2 | log2
deriving DecidableEq, Repr

/-- VRECPE, VRSQRTE, VEXP2E and VLOG2E on one operand (07 R140). An infinity is a special operand's result, given as R75
gives an infinite input. -/
def estimate (k : Est) (F : Fmt) (fm : Word) (x : Num) : Nat × Flags :=
  nanCase F [x] <|
  let inf (neg : Bool) (f : Flags) : Nat × Flags := (withSign F neg (F.maxP + 1), f)
  match k, x with
  | .recp, .fin n 0 _ => inf n Flag.dz
  | .recp, .inf n => (withSign F n 0, 0)
  | .recp, .fin n m e => let (a, b) := recip12 m e; estRound F fm n a b
  | .rsqrt, .fin n 0 _ => inf n Flag.dz
  | .rsqrt, .inf false => (0, 0)
  | .rsqrt, .fin false m e => let (a, b) := rsqrt12 m e; estRound F fm false a b
  | .rsqrt, _ => (F.cnan, Flag.nv)
  | .exp2, .inf true => (0, 0)
  | .exp2, .inf false => inf false 0
  | .exp2, .fin _ 0 _ => estRound F fm false 1 0
  | .exp2, .fin n m e => let (a, b) := exp12 n m e; estRound F fm false a b
  | .log2, .fin _ 0 _ => inf true Flag.dz
  | .log2, .inf false => inf false 0
  | .log2, .fin false m e => let (s, a, b) := log12 m e; estRound F fm s a b
  | .log2, _ => (F.cnan, Flag.nv)
  | _, .nan _ => (F.cnan, 0)

/-! ## Divide and square root (07 R142, R143) -/

/-- rne32: rounded once to FP32's 24 bits under RNE, with no flags and no flush. The values of R142 stay inside FP32's
normal range. -/
def rne32 (x : Dy) : Dy :=
  if x.n = 0 then x
  else (decodeF fp32 (roundFin fp32 0 .rne (x.n < 0) x.n.natAbs x.e false).1).dy

/-- Two Newton steps of div_seq. -/
def divStep (mb w : Dy) : Dy :=
  let e := rne32 (Dy.sub ⟨1, 0⟩ (mb.mul w))
  rne32 (w.add (w.mul e))

/-- x/y for finite nonzero magnitudes by div_seq (07 R142); the exponents come out at the end. -/
def divSeq (F : Fmt) (fm : Word) (s : Bool) (mx : Nat) (ex : Int) (my : Nat) (ey : Int) : Nat × Flags :=
  let la := ilog2 mx
  let lb := ilog2 my
  let ma : Dy := ⟨mx, -(la : Int)⟩
  let mb : Dy := ⟨my, -(lb : Int)⟩
  let (w0, we) := recip12 my (-(lb : Int))
  let w := divStep mb (divStep mb ⟨w0, we⟩)
  let q := rne32 (ma.mul w)
  let rem := ma.sub (mb.mul q)
  let v := q.add (rem.mul w)
  let (p, f) := roundTo F fm (rmode fm) (.fin s v.n.natAbs (v.e + (la + ex) - (lb + ey)))
  (p, f ||| flagIf (rem.n ≠ 0) Flag.nx)

def sqrtStep (gh : Dy × Dy) : Dy × Dy :=
  let (g, h) := gh
  let e := rne32 (Dy.sub ⟨1, -1⟩ (g.mul h))
  (rne32 (g.add (g.mul e)), rne32 (h.add (h.mul e)))

/-- √x for a finite x > 0 by sqrt_seq (07 R142). -/
def sqrtSeq (F : Fmt) (fm : Word) (mx : Nat) (ex : Int) : Nat × Flags :=
  let E : Int := (ilog2 mx : Int) + ex
  let k : Int := E / 2
  let m : Dy := ⟨mx, ex - 2 * k⟩
  let (w0, we) := rsqrt12 mx (ex - 2 * k)
  let w : Dy := ⟨w0, we⟩
  let (g, h) := sqrtStep (sqrtStep (rne32 (m.mul w), w.scale (-1)))
  let rem := m.sub (g.mul g)
  let v := g.add (rem.mul h)
  let (p, f) := roundTo F fm (rmode fm) (.fin false v.n.natAbs (v.e + k))
  (p, f ||| flagIf (rem.n ≠ 0) Flag.nx)

/-- The correctly rounded quotient (07 R143). -/
def divExact (F : Fmt) (fm : Word) (s : Bool) (mx : Nat) (ex : Int) (my : Nat) (ey : Int) : Nat × Flags :=
  let k := ilog2 my + 70
  let n := mx * 2 ^ k
  roundFin F fm (rmode fm) s (n / my) (ex - ey - k) (n % my ≠ 0)

/-- The correctly rounded square root (07 R143). -/
def sqrtExact (F : Fmt) (fm : Word) (mx : Nat) (ex : Int) : Nat × Flags :=
  let (m, e) := if ex % 2 = 0 then (mx, ex) else (2 * mx, ex - 1)
  let n := m * 2 ^ 140
  let r := isqrt n
  roundFin F fm (rmode fm) false r (e / 2 - 70) (r * r ≠ n)

/-- VDIV (07 R142, R143). -/
def divNum (F : Fmt) (fm : Word) (x y : Num) : Nat × Flags :=
  nanCase F [x, y] <|
  let s := x.sign != y.sign
  let inf : Nat := withSign F s (F.maxP + 1)
  match x, y with
  | .inf _, .inf _ => (F.cnan, Flag.nv)
  | .inf _, _ => (inf, 0)
  | _, .inf _ => (withSign F s 0, 0)
  | .fin _ 0 _, .fin _ 0 _ => (F.cnan, Flag.nv)
  | .fin _ _ _, .fin _ 0 _ => (inf, Flag.dz)
  | .fin _ 0 _, .fin _ _ _ => (withSign F s 0, 0)
  | .fin _ mx ex, .fin _ my ey =>
    if Fmode.exactds fm then divExact F fm s mx ex my ey else divSeq F fm s mx ex my ey
  | _, _ => (F.cnan, 0)

/-- VSQRT (07 R142, R143). -/
def sqrtNum (F : Fmt) (fm : Word) (x : Num) : Nat × Flags :=
  nanCase F [x] <|
  match x with
  | .fin n 0 _ => (withSign F n 0, 0)
  | .inf false => (F.maxP + 1, 0)
  | .fin false m e => if Fmode.exactds fm then sqrtExact F fm m e else sqrtSeq F fm m e
  | _ => (F.cnan, Flag.nv)

/-- VRECPS and VRSQRTS (07 R141): (k − x·y)/2^h. -/
def stepNum (F : Fmt) (fm : Word) (k : Nat) (h : Int) (x y : Num) : Nat × Flags :=
  nanCase F [x, y] <|
    match mulNum x y with
    | none => roundTo F fm (rmode fm) (.fin false k (-h))
    | some p =>
      match sumNum (rmode fm == .rdn) [.fin false k 0, p.neg] with
      | none => (F.cnan, Flag.nv)
      | some v => roundTo F fm (rmode fm) (v.scale (-h))

/-- VSCALE (07 R139): x·2^y; a y past ±4,096 is cut there, since the result is past the format's range already. -/
def scaleNum (F : Fmt) (fm : Word) (x : Num) (y : Int) : Nat × Flags :=
  nanCase F [x] <|
  let k : Int := if y > 4096 then 4096 else if y < -4096 then -4096 else y
  roundTo F fm (rmode fm) (x.scale k)

/-! ## Scaled elements (04 R69-R72) -/

/-- 128 times the entries of the QN4 codebook (04 R71). -/
def qnBook : List Int := [-128, -89, -67, -51, -37, -24, -12, 0, 10, 20, 31, 43, 57, 73, 93, 128]

/-- An element scaled by an E8M0 block scale (04 R69, R70). -/
def scaleE8 (x : Num) (sc : Nat) : Num :=
  if sc = 0xFF then .nan false else x.scale ((sc : Int) - 127)

/-- qn4(q, c, S) with its flag (04 R69, R72): S is an FP32 pattern. A NaN super-scale sets no flag. -/
def qn4 (q c S : Nat) : Num × Flags :=
  let n : Int := qnBook.getD q 0 * c
  match decodeF fp32 S with
  | .nan _ => (.nan false, 0)
  | .inf s => if n = 0 then (.nan false, Flag.nv) else (.inf (s != (n < 0)), 0)
  | .fin s m e =>
    -- a zero takes the product's sign
    (.fin (s != (qnBook.getD q 0 < 0)) (n.natAbs * m) (e - 15), 0)

/-! ## Comparison and classification (07 R147, R148) -/

/-- The conditions of R108 on decoded values, with NV per R147. -/
def condNum (c : Nat) (x y : Num) : Bool × Flags :=
  let nan := x.isNan || y.isNan
  let sig := x.isSig || y.isSig
  if nan then (c = 1 || c = 7, flagIf (sig || c = 2 || c = 3 || c = 4 || c = 5) Flag.nv)
  else
    let r := match c with
      | 0 => x.eq y
      | 1 => !x.eq y
      | 2 => x.lt y
      | 3 => !y.lt x
      | 4 => y.lt x
      | 5 => !x.lt y
      | 6 => true
      | _ => false
    (r, 0)

/-- The conditions of R108 on integers. -/
def condInt (c : Nat) (x y : Int) : Bool :=
  match c with
  | 0 => x = y
  | 1 => x ≠ y
  | 2 => x < y
  | 3 => x ≤ y
  | 4 => x > y
  | 5 => x ≥ y
  | 6 => true
  | _ => false

/-- VCLASS's one-hot mask of a pattern that has been flushed (07 R148). -/
def classify (F : Fmt) (x : Nat) : Nat :=
  match decodeF F x with
  | .nan s => if s then 2 ^ 8 else 2 ^ 9
  | .inf n => if n then 1 else 2 ^ 7
  | .fin n 0 _ => if n then 2 ^ 3 else 2 ^ 4
  | .fin n m _ => if m < 2 ^ F.mb then (if n then 2 ^ 2 else 2 ^ 5) else (if n then 2 else 2 ^ 6)

/-- VMIN, VMAX, VMINN and VMAXN on flushed patterns (07 R137): `mx` the larger, `num` a lone NaN loses. -/
def minMax (F : Fmt) (mx num : Bool) (x y : Nat) : Nat × Flags :=
  let a := decodeF F x
  let b := decodeF F y
  let f := flagIf (a.isSig || b.isSig) Flag.nv
  if a.isNan && b.isNan then (F.cnan, f)
  else if a.isNan || b.isNan then (if num then (if a.isNan then y else x) else F.cnan, f)
  else if mx then (if a.ltZ b then y else x, f)
  else (if b.ltZ a then y else x, f)

/-- VABS, VNEG and VCPYSGN on flushed patterns (07 R138): the sign becomes `s`. -/
def signOp (F : Fmt) (x : Nat) (s : Bool) : Nat :=
  if (decodeF F x).isNan then F.cnan else withSign F s (x % 2 ^ (F.w - 1))

/-! ## Conversions (07 R151-R155) -/

/-- What round_to or sat_int of R151 gives for one element; `mode` is sr or FMODE.RM, `rnd` the selector's RND. The
source is flushed where it is floating. -/
def convert (src dst : Nat) (fm : Word) (mode : RMode) (rnd : Bool) (x : Nat) : Nat × Flags :=
  let v : Num :=
    if src = 7 then decodeE8 x
    else match fmtOf src with
      | some F => operand F fm x
      | none => numOfInt (intVal src x)
  if dst = 7 then
    match v with
    | .nan s => (0xFF, flagIf s Flag.nv)
    | .inf _ => (0xFE, Flag.satf)
    | .fin _ 0 _ => (0, 0)
    | .fin _ m e =>
      let k : Int := (ilog2 m : Int) + e + 127
      ((if k < 0 then 0 else if k > 254 then 254 else k).toNat, 0)
  else match fmtOf dst with
    | some G => roundTo G fm mode v
    | none => satInt dst (if rnd then rmode fm else .rtz) v

/-- VQUANT's element (07 R154): an FP32 pattern against a block scale. -/
def quantize (ty : Nat) (fm : Word) (mode : RMode) (x sc : Nat) : Nat × Flags :=
  let a := operand fp32 fm x
  let v : Num := if sc = 0xFF then (match a with | .nan s => .nan s | _ => .nan false) else a.scale (127 - (sc : Int))
  match fmtOf ty with
  | some G => roundTo G fm mode v
  | none => satInt ty (rmode fm) v

end Sys2Proof.Machine
end

