-- ==== Sys2Proof/Machine/State.lean ====
section
/-! DEFINITION. The state of the module as plain data, and the state after reset.
It holds what the spec names (INVENTORY.md lists each piece with its rule), and four fields of the model's own:
agenda, cur, note and draws (log entries 1 and 2). Register files and memories are sparse: a list of key and value
in rising order of the keys, an unlisted key reading as the default. -/

namespace Sys2Proof.Machine

/-- A sparse map: keys rise, and an unlisted key reads as a default that the reader names. -/
abbrev SMap (α : Type) := List (Nat × α)

/-- Bytes by address; the canonical form lists no byte that equals what an unlisted address reads as, which is 0
(DESIGN CHOICE, log entry 6). -/
abbrev Mem := List Host.Cell

/-- Why the machine stops where the spec gives no next state. -/
inductive Fault where
  /-- Raised by `step` when the next turn names a core above LCORE 1,151, which the part does not have (00 R4): the
  agenda is not one that the part can follow.  Safe: no run of the part reaches it. -/
  | noSuchCore
deriving DecidableEq, Repr

/-- Why an instruction has no meaning. -/
inductive Refusal where
  /-- Raised by `exec` for an instruction that the model does not hold yet.  Safe. -/
  | notModelled (mnemonic : String)
deriving DecidableEq, Repr

/-- Privilege modes (06 R112). -/
inductive Mode where
  | U | M
deriving DecidableEq, Repr

/-- A micro-program counter (02 R47). -/
structure Upc where
  line : BitVec 49 := 0
  slot : BitVec 3 := 0
  prog : BitVec 12 := 0
  lc   : BitVec 32 := 0
  vrb  : BitVec 9 := 0
  prb  : BitVec 6 := 0
  /-- bt0 to bt3: the line bits and BTV. -/
  bt   : SMap (BitVec 49 × Bool) := []
deriving DecidableEq, Repr

/-- An entry of a queue (02 R44): the bytes, the container mask of a qd entry, and who pushed it (engine and
sequence number of its command), for 13 R287. -/
structure QEnt where
  data : Vec := 0
  mask : Pred := 0
  eng  : Eng := .A
  seq  : BitVec 32 := 0
  /-- the entry has lost its bytes to an uncorrectable error (20 R415, SUB 6). -/
  bad  : Bool := false
deriving DecidableEq, Repr

/-- The seven queues of a core (02 R44), oldest entry first. -/
structure Queues where
  qa0 : List QEnt := []
  qa1 : List QEnt := []
  qa2 : List QEnt := []
  qa3 : List QEnt := []
  qd0 : List QEnt := []
  qd1 : List QEnt := []
  qx0 : List QEnt := []
deriving DecidableEq, Repr

/-- The six token queues (02 R46); each token records the sequence number of the command that gave it. -/
structure Tokens where
  am : List (BitVec 32) := []
  ma : List (BitVec 32) := []
  mv : List (BitVec 32) := []
  vm : List (BitVec 32) := []
  va : List (BitVec 32) := []
  av : List (BitVec 32) := []
deriving DecidableEq, Repr

/-- A buffer of the array: cell (i, j) at key 64·i + j, an unlisted cell +0, and the tag, 15 for NONE (09 R183). -/
structure Buf where
  cells : SMap Cell32 := []
  tag   : BitVec 4 := 15
  /-- an uncorrectable error stands in it (20 R415, SUB 6). -/
  bad   : Bool := false
deriving DecidableEq, Repr

/-- An accumulator bank and its MIRV bit (09 R183). `mir` are the copies of its cells that the idle half of the array
keeps while MIRV is set, each under the cell that it repeats (09 R200-R202). -/
structure Bank where
  cells : SMap Cell32 := []
  mirv  : Bool := false
  mir   : SMap Cell32 := []
  /-- an uncorrectable error stands in it (20 R415, SUB 6). -/
  bad   : Bool := false
deriving DecidableEq, Repr

/-- How a result changes a row of accumulator SRAM (09 R198, 14 R317): overwrite, or an add that reads the old word
as FP32 under the given FMODE, with its inputs flushed for a word (04 R76), or as an integer. -/
inductive AccMode where
  | ovw
  | addF (flush : Bool) (fmode : Word)
  | addI
deriving DecidableEq, Repr

/-- What one result changes when it lands (15 R329). Register and predicate numbers are physical: they are renamed
at issue (06 R127). -/
inductive Landing where
  | vreg (n : Nat) (data mask : Vec)
  | pred (n : Nat) (data mask : Pred)
  | push (code : Nat) (data : Vec) (mask : Pred)
  | acc (row : Nat) (mode : AccMode) (data : Vec) (mask : Pred)
  | bank (n : Nat) (b : Bank)
  /-- clears a row; the bank's MIRV stays only where mirroring applies to the word (09 R201). -/
  | clrRow (bank row : Nat) (keep : Bool)
  /-- FLSET and FLCLR act once every earlier word has landed (12 R267). -/
  | flag (n : Nat) (v : Bool)
  /-- EVSIG.post reads its register when it acts (12 R268). -/
  | post (reg : Nat)
  | buf (n : Nat) (b : Buf)
  | mpstat (v : Word)
  /-- g[n] takes a value that wkld's lines of a region carry to it through qx0 (08 R161, 15 R333). -/
  | greg (n : Nat) (v : Word)
deriving DecidableEq, Repr

/-- A result in flight (15 R327, R329): its engine, the virtual cycle it is due at, its changes, its flags, whether
its value is available (a result declared too short, or served by Wick, is not until it arrives), and the place of
its word for the traps of R327 and R328. -/
structure Flight where
  eng   : Eng
  due   : Nat
  lands : List Landing
  flags : BitVec 6 := 0
  ready : Bool := true
  /-- Wick's value carries an uncorrectable error (07 R159, 20 R415 SUB 9). -/
  bad   : Bool := false
  /-- the arithmetic cycle from which the value of a word that is not Wick's is available (15 R324). -/
  avail : Nat := 0
  wick  : Bool := false
  shchk : Bool := false
  shrd  : Bool := false
  /-- MPOLY.T that stopped: POLYSTOP is raised at the landing (10 R215). -/
  stop  : Bool := false
  line  : BitVec 49 := 0
  slot  : BitVec 3 := 0
  seq   : BitVec 32 := 0
  /-- the virtual cycle at which its word issued. -/
  issued : Nat := 0
deriving DecidableEq, Repr

/-- A word of engine M from its issue to its landing (09 R188, R189): busy from `t` for `o` virtual cycles, landing at
`due`; the buffers (0 S, 1 mf, 2 mg), banks (3, 4) and MPSTAT (5) that it reads and writes; the entries of its left,
right and metadata operands that it has taken, and the pops still to come (virtual cycle, queue, operand). -/
structure MWork where
  i    : Instr
  line : BitVec 49
  slot : BitVec 3
  seq  : BitVec 32
  array : Bool
  t    : Nat
  o    : Nat
  due  : Nat
  rd   : List Nat := []
  wr   : List Nat := []
  opL  : List Vec := []
  opR  : List Vec := []
  opX  : List Vec := []
  pops : List (Nat × Nat × Nat) := []
  /-- scales that a later FENCEV of the engine has had it read ahead of its entries (14 R313): whether of the left operand, the
  row or column and the block, and the scale and super-scale. -/
  scl  : List ((Bool × Nat × Nat) × (Nat × Nat)) := []
  /-- its result has been formed and is in flight. -/
  formed : Bool := false
deriving DecidableEq, Repr

/-- What CMDPUSH and MNGO capture with a command (06 R117): shapes with their requests, FMODE, SRSEED, and for a
nest the table of CSRs 0x820 to 0x83D (09 R204) with its event masks in the frame. -/
structure Captured where
  shp    : SMap Word := []
  shq    : SMap Word := []
  fmode  : Word := 0
  srseed : Word := 0
  nest   : Option (SMap Word) := none
deriving DecidableEq, Repr

/-- How far a nest has come (09 R205): the next index point in order, the bank that it accumulates in, the bank that its last
step wrote, the virtual cycle from which the array unit is free, and the rows still to drain: the virtual cycle from which each may be, its bank, its row
there and its row of accumulator SRAM. -/
structure NestRun where
  k      : Nat := 0
  b      : Nat := 0
  wb     : Nat := 0
  free   : Nat := 0
  drains : List (Nat × Nat × Nat × Nat) := []
deriving DecidableEq, Repr

/-- How far a command or a chain entry has come. -/
inductive CmdSt where
  | queued | running | done
deriving DecidableEq, Repr

/-- A ring record that a transfer with ROP works on (12 R272): the ring, the count of the record and its payload. -/
structure RopRec where
  ring  : Nat
  count : BitVec 32
  addr  : Nat
  len   : Nat
deriving DecidableEq, Repr

/-- The entry of a chain that engine X works on (12 R262). -/
structure ChainEnt where
  frame : Frame
  addr  : Word
  st    : CmdSt := .queued
  rows  : Nat := 0
  rop   : Option RopRec := none
deriving DecidableEq, Repr

/-- A chain (12 R262): the address of the next frame to read, none once the chain's last entry was read, and the entry
at work. -/
structure Chain where
  next : Option Word
  cur  : Option ChainEnt := none
deriving DecidableEq, Repr

/-- A speculation is named by its Almanac entry and its producer's sequence number (13 R281). -/
abbrev SpecId := Nat × BitVec 32

/-- The changing part of an Almanac entry (13 R275). -/
structure AlmLive where
  desc   : SMap Word := []
  owner  : Option Nat := none
  nv     : BitVec 2 := 0
  newest : BitVec 2 := 0
  hit    : BitVec 32 := 0
  miss   : BitVec 32 := 0
  last   : BitVec 2 := 0
deriving DecidableEq, Repr

/-- A word of a region of portable code as wkld's lines carry it out (15 R333): the native word; what the lines hold for it in
registers: g registers and vector registers; the predicate that guards a word carried to engine A, whose native guard is ap1; and
for VEXTR with XS the g register that takes the element. -/
structure PStep where
  i     : Instr
  gset  : List (Nat × Word) := []
  guard : Option Nat := none
  temps : List (Nat × Vec) := []
  out   : Option Nat := none
deriving DecidableEq, Repr

/-- A command of the unit (02 R40, 12 R246). `tent` are the speculations it is tentative on, `began` those it
started tentative on, each with its entry as it then stood, whose predictions it reads until it completes (13 R283), `ev` the event changes it deferred, and `rows` its progress. -/
structure Cmd where
  frame : Frame
  seq   : BitVec 32
  cap   : Captured := {}
  st    : CmdSt := .queued
  rows  : Nat := 0
  chain : Option Chain := none
  /-- addresses whose chained frames were read before: their records are absorbed once (22 R437). -/
  seen  : List Word := []
  rop   : Option RopRec := none
  tent  : List SpecId := []
  began : List (SpecId × AlmLive) := []
  ev    : List (Nat × Bool) := []
  /-- a nest command at work. -/
  nest  : Option NestRun := none
  /-- engine A: the chain has ended or HALT was issued. -/
  ended : Bool := false
  /-- a command of a region of portable code: its words, of which `rows` have issued, and the vector register from which
  on the entries of a stream operand or MMAS's metadata stand (09 R184, R191; 15 R333). -/
  steps : List PStep := []
  strm  : Option Nat := none
deriving DecidableEq, Repr

/-- A store of engine A whose qd entry has not arrived (11 R235): queue code, address, element type, elements, and
whether it goes to virtual memory. `cells` are the addresses of the containers of ASTX, `whole` marks a register of VSPILL,
of which every byte is stored. -/
structure AStore where
  q    : Nat
  addr : Word
  ty   : Nat
  e    : Nat
  va   : Bool
  seq  : BitVec 32
  cells : List Nat := []
  whole : Bool := false
deriving DecidableEq, Repr

/-- Who made a store of the phase: the command's sequence number, and for a chain entry its place in the chain, counted
from 1 (12 R262). -/
abbrev Author := BitVec 32 × Nat

/-- The back copy of a granule (02 R33): its bytes, the bytes of it that the phase has written, and who wrote them. -/
structure Gran where
  data : BitVec 512 := 0
  mask : BitVec 64 := 0
  who  : List Author := []
  /-- the 8-byte words of the copy that carry an uncorrectable error (20 R416, R418). -/
  bad  : BitVec 8 := 0
deriving DecidableEq, Repr

/-- A held store (12 R260): a 64-byte granule of physical memory with its byte mask, tagged with a tentative command;
or, with `pre`, the pre-image of a scratchpad granule that a tentative command wrote (13 R285). -/
structure Held where
  addr : Nat
  mask : BitVec 64
  data : BitVec 512
  tag  : Option (BitVec 32) := none
  /-- for a pre-image: the granule as it was before the command's first write to it, whose bytes are in the mask; and
  whether the granule also holds, or then held, bytes written by work that is not tentative. -/
  pre  : Option (Gran × Bool) := none
  repl : Bool := false
  /-- who made the stores of the entry. -/
  who  : List Author := []
  /-- the entry carries an uncorrectable error (20 R415, SUB 7). -/
  bad  : Bool := false
deriving DecidableEq, Repr

/-- What the determinism checker keeps of a command of the phase (18 R385). -/
structure Checked where
  seq    : BitVec 32
  eng    : Eng
  preds  : List (BitVec 32)
  wait   : Word
  signal : Word
  rd     : Nat × Nat
  wr     : Nat × Nat
  /-- a chain entry: its place in its LINK's chain, counted from 1. -/
  entry  : Nat := 0
  /-- it ends its phase. -/
  pend   : Bool := false
  /-- the native phase that it is one command of (17 R444), if any. -/
  group  : Option Nat := none
  /-- a command of a region of portable code (15 R334). -/
  part   : Bool := false
deriving DecidableEq, Repr

/-- A claim of a ring (12 R271): position, length, the claiming core, and whether it is published. -/
structure Claim where
  pos  : Nat
  len  : Nat
  core : Nat
  size : Nat
  pub  : Bool := false
deriving DecidableEq, Repr

/-- A byte ring (12 R269, R270). -/
structure Ring where
  shared : Bool := false
  en     : Bool := false
  size2  : BitVec 5 := 0
  base   : BitVec 21 := 0
  head   : BitVec 32 := 0
  tail   : BitVec 32 := 0
  clm    : BitVec 32 := 0
  claims : List Claim := []
  filled : Option Nat := none
  /-- the unit, by launch and index, whose parties have used the ring since it was enabled with SHARED clear (12 R270). -/
  user   : Option (Nat × Nat) := none
deriving DecidableEq, Repr

/-- The stage of a phase (02 R34, 20 R417). -/
inductive Stage where
  | run
  /-- the exchange is done; the phase-ending command `seq` of engine `eng` waits for the drain. -/
  | drain (seq : BitVec 32) (eng : Eng)
deriving DecidableEq, Repr

/-- A store with its address, bytes, and whether its page is replicated: one of the control core that no other party has
seen yet (14 R305), or one that a release of the phase orders (14 R308), with the bytes that the phase held before it. -/
structure SbEnt where
  addr : Nat
  data : List Byte
  repl : Bool := false
  prev : List (Option Byte) := []
deriving DecidableEq, Repr

/-- The running phase of a unit. -/
structure Phase where
  back    : SMap Gran := []
  held    : List Held := []
  /-- the stores among the held ones that the phase's releases order, in their order, each with the tag of its entry
  (14 R308); and whether a FENCEV of engine A has released, after which every store is one of them. -/
  rels    : List (SbEnt × Option (BitVec 32)) := []
  fenced  : Bool := false
  flags   : BitVec 6 := 0
  stat    : BitVec 2 := 0
  /-- flags and status bits of tentative commands (13 R285). -/
  tagged  : List (BitVec 32 × BitVec 6 × BitVec 2) := []
  evSet   : Word := 0
  evClr   : Word := 0
  dec     : SMap Nat := []
  run     : Nat := 1
  nonrepl : Bool := false
  flags0  : Word := 0
  /-- the native MGANGs passed before the phase started. -/
  gang0   : BitVec 32 := 0
  /-- the rings with SHARED clear that the phase touched, as they were at its start. -/
  rings0  : SMap Ring := []
  cmds    : List Checked := []
  stage   : Stage := .run
  /-- the phase has made an access that R37 lists, and the early commit before it. -/
  acc37   : Bool := false
  /-- a cancel or a late DEPUNDER or POISONOUT waits for the retire step (02 R31, 12 R257, 20 R418). -/
  doomed  : Bool := false
  /-- a cancel of this unit alone waits for the retire step (02 R31). -/
  ending  : Bool := false
  /-- a command has been pushed since the last PSWAP (13 R296). -/
  pushed  : Bool := false
  /-- when each commit of the unit took place, for 14 R319: the number of this phase. -/
  num     : Nat := 0
deriving DecidableEq, Repr

/-- A speculation of the unit (13 R281, R282): decided or not, on a prediction or not, resolved or not, and the
speculations its resolution is tentative on (R292) with the entry as it was before. -/
structure Spec where
  id       : SpecId
  ran      : Option Bool := none
  resolved : Bool := false
  tent     : List SpecId := []
  /-- the phase in which it was decided: a rollback forgets those of the running phase (13 R293). -/
  phase    : Nat := 0
deriving DecidableEq, Repr

/-- The unit on a core (02 R28, 18 R379). -/
structure Run where
  job      : Nat
  launch   : Nat
  lid      : BitVec 32
  idx      : Nat
  pri      : Nat := 0
  /-- instruction-store address at which the kernel ends, log entry 8. -/
  kend     : Word := 0
  /-- a portable kernel's entry and the ends of its phases, where its load said them, and the phase that its control part is in
  (01 R21; log entry 12). -/
  entry    : Word := 0
  ends     : List Word := []
  portPhase : Nat := 0
  backBase : Nat := 0
  backLen  : Nat := 0
  vslim0   : Word := 0
  vsres    : Nat := 0
  /-- VSLIM has been lowered by the reserve, which happens at most once in a unit (16 R346). -/
  lowered  : Bool := false
  /-- the control-core part of the kernel has ended. -/
  ctlDone  : Bool := false
  /-- the last instruction of the control core was a call of the kernel's end, log entry 8. -/
  called   : Bool := false
  specs    : List Spec := []
  progress : Nat := 0
  /-- the loads of the job that were complete when the unit started (17 R366). -/
  loads    : Nat := 0
  /-- commands that started after waiting on an event whose committed signal came from a commit of a unit: the command,
  the unit's launch and index, and the phase (14 R319). -/
  heard    : List (BitVec 32 × Nat × Nat × Nat) := []
deriving DecidableEq, Repr

/-- A leaf translation that a TLB holds (19 R390): the ASID, the virtual page number at its page size (false 64 KiB,
true 512 MiB), and the entry. -/
structure TlbEnt where
  asid : BitVec 12
  page : Nat
  big  : Bool
  ent  : Word
deriving DecidableEq, Repr

/-- A fault record (19 R393), or a stopped access waiting to enter one (R394): the fields, the command and whether
the access was abandoned. -/
structure FRec where
  va    : Word
  gen   : BitVec 16
  void  : Bool := false
  level : BitVec 2
  acc   : BitVec 3
  eng   : Eng
  seq   : BitVec 32
  prog  : BitVec 12
  eaddr : Word
  /-- the command whose access stopped: with the engine, the party that waits for the flush. -/
  cmd   : BitVec 32 := 0
deriving DecidableEq, Repr

/-- A trap that a line engine raised and the control core has not taken (20 R407). -/
structure ETrap where
  cause : Word
  val   : Word
deriving DecidableEq, Repr

/-- What a line engine does: idle, running the command of its queue, stopped at a trap until the handler's mret, or
stopped at a missing page until the flush. -/
inductive EngSt where
  | idle | run | trapped | faulted
deriving DecidableEq, Repr

/-- A line engine's own state but for its registers. -/
structure Line where
  upc   : Upc := {}
  st    : EngSt := .idle
  seq   : BitVec 32 := 0
  /-- the eight doublewords of the line that the engine is in, as read when it entered it; none before that (05 R97, R98). -/
  buf   : List Word := []
  /-- the latest virtual cycle at which a write to accumulator SRAM from before a FENCEV of the engine lands (14 R313). -/
  fence : Nat := 0
  /-- virtual cycle at which the next bundle may issue (M, V). -/
  next  : Nat := 0
  segvc : BitVec 32 := 0
  segcrc : BitVec 32 := 0xFFFFFFFF
  /-- a Vigil check has been made in this command, and bundles issued since. -/
  checked : Bool := false
  since : Bool := false
  /-- tokens that the word at work (engine A) or the bundle at work (M, V) has moved (12 R265). -/
  moved : Nat := 0
  /-- words of the bundle at work that engine A has completed (11 R245). -/
  done  : Nat := 0
  /-- issue the next bundle once without the check of R328. -/
  pass  : Bool := false
  /-- the micro-program counter was restored or written: the next bundle meets the checks of R48. -/
  resumed : Bool := false
  trap  : Option ETrap := none
  /-- a trap that the engine raises once the bundle at work is complete (06 R122, 10 R215). -/
  post  : Option ETrap := none
  /-- the bundle's own control effects, made at its end: the line to continue at. -/
  goto  : Option (BitVec 49) := none
  /-- the chain ends after this bundle (HALT). -/
  stop  : Bool := false
  /-- registers of engine A written by the bundle at work, seen by later bundles (11 R226). -/
  gnew  : SMap Word := []
  pnew  : SMap Pred := []
deriving DecidableEq, Repr

/-- A core of the part (02 R41). -/
structure Core where
  -- control core
  x        : SMap Word := []
  pc       : Word := 0
  mode     : Mode := .M
  mstatus  : Word := 0
  mie      : Word := 0
  mip      : Word := 0
  mtvec    : Word := 0
  mscratch : Word := 0
  mepc     : Word := 0
  mcause   : Word := 0
  mtval    : Word := 0
  mcounteren : Word := 0
  mcountinhibit : Word := 0
  menvcfg  : Word := 0
  mcycle   : Word := 0
  minstret : Word := 0
  istore   : Mem := []
  ifetch   : Mem := []
  dstore   : Mem := []
  sbuf     : List SbEnt := []
  resv     : Option Nat := none
  seqno    : BitVec 32 := 0
  /-- sequence numbers of the unit's nest commands (09 R206), and of commands that a cancel discarded (06 R119) -/
  nests    : List (BitVec 32) := []
  gone     : List (BitVec 32) := []
  fifoA    : List Word := []
  fifoM    : List Word := []
  fifoV    : List Word := []
  fifoX    : List Word := []
  -- unit CSRs
  fmode    : Word := 0
  srseed   : Word := 0
  fxflags  : BitVec 6 := 0
  astat    : BitVec 2 := 0
  brseq    : Word := 0
  shp      : SMap Word := []
  shq      : SMap Word := []
  nest     : SMap Word := []
  wbase    : SMap Word := []
  wsize    : SMap Word := []
  vslim    : Word := 0
  ringsel  : BitVec 6 := 0
  thsel    : BitVec 4 := 0
  brtab    : Word := 0
  sigh     : SMap Word := []
  vcycle   : Nat := 0
  -- machine CSRs
  ptroot   : Word := 0
  gen      : BitVec 16 := 0
  fbsel    : BitVec 4 := 0
  fbn      : BitVec 5 := 0
  fbuf     : List FRec := []
  fwait    : List FRec := []
  tlbbusy  : Bool := false
  tlbwide  : Bool := false
  tlbmode  : BitVec 2 := 0
  tlbva    : Word := 0
  /-- the ASID and the address that the invalidation under way was started with. -/
  tlbkey   : BitVec 12 × Nat := (0, 0)
  tlbC     : List TlbEnt := []
  tlbA     : List TlbEnt := []
  tlbM     : List TlbEnt := []
  tlbV     : List TlbEnt := []
  tlbX     : List TlbEnt := []
  upcsel   : BitVec 2 := 0
  ctxbusy  : Bool := false
  ctxsave  : Bool := false
  /-- the save or restore was started by the resident runtime in the steps that the spec gives it (19 R399). -/
  ctxrt    : Bool := false
  /-- a saved unit, by launch and index, for which the core is kept while its restore goes on (18 R384, 19 R405). -/
  restoring : Option (Nat × Nat) := none
  ctxstat  : BitVec 3 := 0
  ctxptr   : Word := 0
  ctxlen   : BitVec 32 := 0
  mcbsel   : BitVec 8 := 0
  preip    : Bool := false
  dirty    : BitVec 512 := 0
  gang     : BitVec 2 := 0
  gangord  : BitVec 32 := 0
  /-- the side code this core has asked MGANG for and waits with (10 R221). -/
  gangask  : Option (BitVec 2) := none
  /-- MGANG's answer, made for the core by the last member to arrive, and not yet taken. -/
  gangans  : Option (BitVec 2) := none
  /-- the native MGANG or ganged polynomial word that engine M has reached and waits at, with its control value
  (10 R222, R223) and its slot, and whether the last member to arrive has formed its results. -/
  gangword : Option (Instr × Word × BitVec 3) := none
  gangdone : Bool := false
  /-- 64 times the pc of a bridge word that has begun, and the hand-overs and frames that it has made so far (15 R334). -/
  brstep   : Nat := 0
  /-- the unit that the running handler would return to has left the core: its mret returns to the resident runtime. -/
  orphan   : Bool := false
  /-- traps taken whose handler has not returned, the latest first, from an engine trap on (20 R409): the engine to resume, or
  none for a trap taken within its handler. -/
  handling : List (Option Eng) := []
  -- line engines
  lineA    : Line := {}
  lineM    : Line := {}
  lineV    : Line := {}
  g        : SMap Word := []
  ap       : SMap Pred := []
  v        : SMap Vec := []
  p        : SMap Pred := []
  st       : SMap (Word × Word) := []
  q        : Queues := {}
  tok      : Tokens := {}
  astores  : List AStore := []
  fl       : Word := 0
  bufS     : Buf := {}
  bufF     : Buf := {}
  bufG     : Buf := {}
  mc0      : Bank := {}
  mc1      : Bank := {}
  mpstat   : Word := 0x80008000
  acc      : Mem := []
  /-- doublewords of accumulator SRAM, and physical vector registers, in which an uncorrectable error stands (20 R415, SUB 4
  and 5), and errors on the paths of an engine that its next word meets: residue 10, operand parity 11. -/
  accBad   : List Nat := []
  vBad     : List Nat := []
  hits     : List (Eng × Nat) := []
  /-- a residue mismatch of the control core, which its next instruction meets (20 R416, SUB 10). -/
  ctlHit   : Bool := false
  /-- upsets of the idle half of the array (09 R200, 10 R219) that the next polynomial meets: the number of the promotion, and the
  row and column of the cell whose copy then differs. -/
  mirHits  : List (Nat × Nat × Nat) := []
  flights  : List Flight := []
  mwork    : List MWork := []
  /-- the execute domain could not complete its virtual cycle when it was last at work: it is frozen (02 R45). -/
  iced     : Bool := false
  -- unit and phase
  unit     : Option Run := none
  cmds     : List Cmd := []
  log      : List Cmd := []
  ph       : Phase := {}
  /-- records absorbed by the unit (22 R437), six doublewords each. -/
  sig      : List Word := []
  /-- the request of a tagged remote atomic in flight: tag and time of sending (14 R321). -/
  rmt      : Option (Word × Nat) := none
  rmtans   : Option (BitVec 32 × BitVec 3) := none
deriving DecidableEq, Repr

/-- An Almanac entry: its live fields, its phase-start state (13 R293), its outstanding speculation, and the fields
before each resolution that is itself tentative (R292). -/
structure Alm where
  live  : AlmLive := {}
  start : AlmLive := {}
  spec  : Option SpecId := none
  saved : List (SpecId × AlmLive) := []
deriving DecidableEq, Repr

/-- An add-write that the deterministic rules remember (14 R319). -/
structure AddW where
  core   : Nat
  gran   : Nat
  launch : Nat
  lid    : BitVec 32
  idx    : Nat
  phase  : Nat
  lcore  : Nat
  seq    : BitVec 32
  entry  : Nat := 0
  det    : Bool := false
deriving DecidableEq, Repr

/-- A cluster (00 R3). -/
structure Cluster where
  spad   : Mem := []
  poison : List Nat := []
  ev     : Word := 0
  /-- how many of the hub's updates came before the cluster's last commit (14 R303, R310). -/
  relUpd : Nat := 0
  /-- speculations whose producer has completed, with the core of their unit, in the order in which they became due
  (13 R289). -/
  dues   : List (Nat × SpecId) := []
  /-- whose commits signalled each committed event since it was last clear: unit (launch, index) and phase, 14 R319. -/
  evBy   : SMap (List (Nat × Nat × Nat)) := []
  dc     : SMap (BitVec 32) := []
  dcWait : SMap Nat := []
  ring   : SMap Ring := []
  alm    : SMap Alm := []
  adds   : List AddW := []
  /-- Back stores of running units: lcore, base, length. -/
  backs  : List (Nat × Nat × Nat) := []
deriving DecidableEq, Repr

/-- A machine-check bank (20 R412). -/
structure McBank where
  status : Word := 0
  addr   : Word := 0
  misc   : Word := 0
  phys   : Word := 0
  ceint  : Bool := false
  cnint  : Bool := true
deriving DecidableEq, Repr

/-- A request in a die's Wick unit (07 R157, R158): the core, the index key of its result, and whether it is
accepted. -/
structure WickReq where
  lcore : Nat
  seq   : BitVec 32
  line  : BitVec 49
  slot  : BitVec 3
  due   : Nat
  taken : Bool := false
  /-- the unit has met an uncorrectable error (07 R159). -/
  bad   : Bool := false
deriving DecidableEq, Repr

/-- A SELFTEST that is eligible (22 R434): where it came from (a core's command, or a master's request), its
doublewords, and the time it ends once it runs. -/
structure Test where
  lcore  : Option Nat
  /-- the launch and index of the unit whose command it is. -/
  unit   : Option (Nat × Nat) := none
  seq    : BitVec 32
  req    : Option Req
  job    : Nat
  dw10   : Word
  dw11   : Word
  ends   : Option Nat := none
  begun  : Nat := 0
  /-- since when its command has been cancelled. -/
  stopped : Option Nat := none
deriving DecidableEq, Repr

/-- A compute die's parts outside its cores (00 R3). -/
structure Die where
  wick    : List WickReq := []
  wickAt  : Nat := 0
  lamp    : List Test := []
  /-- how many of the hub's updates this die's replica has applied (14 R310). -/
  applied : Nat := 0
  thstat  : Word := 0
  thrcnt  : Word := 0
  /-- runs of 64 KiB frames of the die's local HBM in use: first frame and count, rising, log entry 5. -/
  used    : List (Nat × Nat) := []
  fw      : Firmware := {}
deriving DecidableEq, Repr

/-- Status of a launch, graph, stage or job record (18 R373), with the refusals of R372. -/
abbrev Status := Nat

/-- A unit of a launch, as the scheduler keeps it. -/
inductive UnitSt where
  | pending
  /-- waits for its core since the given time; `saved` when a save image waits to be restored. -/
  | waiting (since : Nat) (saved : Bool)
  | running
  | complete
  | cancelled
deriving DecidableEq, Repr

/-- A launch (18 R370, R371). -/
structure Launch where
  job     : Nat
  lid     : BitVec 32
  pri     : Nat := 0
  gang    : Nat := 0
  tol     : Bool := false
  notify  : Bool := false
  stage   : Nat := 0
  graph   : Nat := 0
  lc0     : Nat := 0
  nunit   : Nat := 1
  handle  : BitVec 32 := 0
  fmode   : Word := 0
  srseed  : Word := 0
  lstat   : Word := 0
  evs     : Word := 0
  rings   : Word := 0
  dcs     : Word := 0
  alms    : BitVec 16 := 0
  vssize  : Nat := 0
  vsres   : Nat := 0
  sssize  : Nat := 0
  stride  : Word := 0
  vstop0  : Word := 0
  sstop0  : Word := 0
  windows : List (Word × Word) := []
  reqs    : List (Nat × Word × Word) := []
  /-- predecessors fixed at acceptance (18 R381): numbers of launches; none where no launch had used the LID. -/
  preds   : List Nat := []
  status  : Status := 0
  units   : SMap UnitSt := []
  /-- the read and write extents of each phase of the kernel (17 R355): low end and end, equal where empty -/
  extents : List ((Nat × Nat) × (Nat × Nat)) := []
  /-- bytes of each unit's back store (02 R33) -/
  back    : Nat := 0
  /-- clusters in which the launch holds its resources (18 R378) -/
  clusters : List Nat := []
  /-- what the scheduler keeps of a saved unit beside its image: the core as the unit left it -/
  kept    : SMap Core := []
  /-- the stream of records of each unit (22 R437), once the unit has ended or is saved -/
  sigs    : SMap (List Word) := []
  graphI  : Nat := 0
  cancelled : Bool := false
  sigh    : SMap Word := []
  /-- pages made read-only for the windows, with the W bit to restore (11 R241). -/
  wpages  : List (Nat × Bool) := []
deriving DecidableEq, Repr

/-- A graph or stage, open or ended (18 R374). -/
structure Inst where
  job     : Nat
  isStage : Bool
  num     : Nat
  stage   : Nat := 0
  /-- the stage's instance that a graph joined. -/
  parent  : Nat := 0
  count   : Nat := 0
  status  : Status := 0
  anyCancelled : Bool := false
  isOpen  : Bool := true
deriving DecidableEq, Repr

/-- A kernel of a completed load (17 R354, R363). -/
structure Kernel where
  entry   : Word
  stop    : Word
  /-- where each phase of a portable kernel ends, where the load's supply says it. -/
  ends    : List Word := []
  /-- a native kernel, whose entry holds its bridge (17 R444). -/
  native  : Bool := false
  wmask   : BitVec 8
  vssize  : Nat
  vsres   : Nat
  sssize  : Nat
  reqs    : List (Nat × Word)
  /-- read and write expressions of each phase, as items (17 R355). -/
  phases  : List (List (List Word × List Word) × List (List Word × List Word))
deriving DecidableEq, Repr

/-- A completed load (17 R363). -/
structure Load where
  kernels  : List Kernel
  profiles : List Word
  /-- instruction image: address and bytes. -/
  text     : List (Nat × List Byte)
deriving DecidableEq, Repr

/-- A job (18 R369). -/
structure Job where
  attr    : JobAttr
  asid    : BitVec 12
  root    : Nat
  home    : Nat := 0
  loads   : List Load := []
  syms    : List (List Byte × Word) := []
  peers   : SMap (BitVec 128 × BitVec 24 × Bool) := []
  /-- where the table of the job's regions lies (15 R334). -/
  brtab   : Word := 0
  /-- descriptors of the job's regions (15 R334), and the portable word of each that wkld cut from TEXT. -/
  regs    : List (List Word) := []
  ports   : SMap Instr := []
  count   : Nat := 0
  status  : Status := 0
  ending  : Option Req := none
  ended   : Bool := false
  anyCancelled : Bool := false
  started : Bool := false
deriving DecidableEq, Repr

/-- Ownership (21 R426). -/
inductive Own where
  | free
  | elect (claims : List (Req × BitVec 8)) (closes : Nat)
  | owned (owner : BitVec 64) (lease : Nat)
deriving DecidableEq, Repr

/-- The stages of bring-up (21 R419, 20 R414). -/
inductive HubSt where
  | inReset | recovery | up | stopped
deriving DecidableEq, Repr

/-- What a reply reports (21 R425): the four codes that the spec numbers, the outcomes that it only names, and a code
that a message's own rule gives. -/
inductive Reply where
  | ok | notOwner | badMsg | notReady
  | granted | lost | owned | lapsed | notConnected | noSpace | overlap
  | code (n : Nat)
deriving DecidableEq, Repr

/-- A part of a message's body. -/
inductive Item where
  | word (w : Word)
  | bytes (l : List Byte)
deriving DecidableEq, Repr

/-- A message that the device sent: a reply or a NOTIFY (21 R425). -/
structure Msg where
  dest   : BitVec 64
  type   : BitVec 16
  id     : BitVec 32
  status : Reply
  body   : List Item := []
deriving DecidableEq, Repr

/-- A cancel in the scheduler's order (18 R375). -/
structure CancelReq where
  level  : Level
  /-- the launch, instance or job, fixed when the request was accepted -/
  n      : Nat
  idx    : Nat
deriving DecidableEq, Repr

/-- An UNMAP whose frames are not yet free (21 R445). -/
structure Unmapping where
  req    : Req
  job    : Nat
  va     : Nat
  len    : Nat
  frames : List (Nat × Nat)
deriving DecidableEq, Repr

/-- A packet that the module has sent: a request of a tagged remote atomic to a peer, a response to one (21 R430), and the
answers to incoming RoCEv2 operations (R429). -/
inductive Packet where
  | request (r : RmtReq)
  | response (tag : Word) (old : BitVec 32) (status : BitVec 3)
  | ack
  | data (bytes : List Byte)
  | nak
deriving DecidableEq, Repr

/-- A packet on its connection: the peer module's GID and queue pair (21 R430, R431). -/
structure Sent where
  gid  : BitVec 128
  qp   : BitVec 24
  body : Packet
deriving DecidableEq, Repr

/-- A queue pair of the module (21 R429): the job at whose addresses it works, its peer's GID and queue pair, and its path MTU. -/
structure QPair where
  job  : Nat
  gid  : BitVec 128
  peer : BitVec 24
  mtu  : Nat
deriving DecidableEq, Repr

/-- What the owner sets by means that no message of the control channel carries (21 R428, R429, log entry 131): a port's addresses, the
priority with PFC, and a queue pair. -/
inductive Setting where
  | address (port : Nat) (v4 : BitVec 32) (v6 : BitVec 128)
  | pfc (prio : BitVec 3)
  | queuePair (qp : BitVec 24) (conn : Option QPair)
deriving DecidableEq, Repr

/-- An answer that the device owes on a connection: to which request, of which type, and the message once it is formed (21 R425). -/
structure Answer where
  req  : Req
  type : BitVec 16
  msg  : Option Msg := none
deriving DecidableEq, Repr

/-- An applied remote request (14 R322). -/
structure Replay where
  req  : RmtReq
  old  : BitVec 32
  time : Nat
deriving DecidableEq, Repr

/-- A write in the update order (14 R310): physical address, bytes, and the writer's core. A `plain` one, on a page
without REPL, is a store behind a release that waits there until every replica has applied what came before it (R308). -/
structure Update where
  addr  : Nat
  data  : List Byte
  lcore : Nat
  plain : Bool := false
  /-- its bytes carry an uncorrectable error (20 R418). -/
  bad   : Bool := false
deriving DecidableEq, Repr

/-- The hub die (00 R3). -/
structure Hub where
  st       : HubSt := .inReset
  ready    : Word := 0
  /-- READYMAP bits that have cleared: only module reset sets them again (21 R421). -/
  cleared  : Word := 0
  release  : BitVec 32 := 0
  flash    : Firmware := {}
  anchors  : List Anchor := []
  deny     : List (BitVec 64) := []
  /-- connected masters: identity, whether its anchor carries OWNER, whether on the management port, and the anchor in which its
  chain ends, where the chain was verified. -/
  conns    : List (BitVec 64 × Bool × Bool × Option (BitVec 64)) := []
  /-- answers owed that are not sent yet, in the order of their requests: those of one connection leave in that order. -/
  answers  : List Answer := []
  own      : Own := .free
  /-- masters whose lease has lapsed (21 R426). -/
  lapsed   : List (BitVec 64) := []
  out      : List Msg := []
  jobs     : SMap Job := []
  nextJob  : Nat := 1
  launches : SMap Launch := []
  nextLaunch : Nat := 1
  insts    : SMap Inst := []
  nextInst : Nat := 1
  cancels  : List CancelReq := []
  unmaps   : List Unmapping := []
  bank     : SMap McBank := []
  replays  : List Replay := []
  /-- packets sent. -/
  pkts     : List Sent := []
  /-- queue pairs that are connected (21 R429). -/
  qps      : SMap QPair := []
  /-- the priority with PFC (21 R429). -/
  pfc      : BitVec 3 := 0
  /-- IPv4 and IPv6 address of each port, the management port as 8 (21 R428). -/
  ports    : SMap (BitVec 32 × BitVec 128) := []
  /-- first sends: requester's module is this one; tag and time. -/
  tags     : List (Word × Nat) := []
  /-- the update order of replicated pages; updates that every die has applied leave the list for HBM. -/
  updates  : List Update := []
  /-- the frames on the other dies that hold a replicated page's replicas, by the frame on its home die (21 R445). -/
  replicas : SMap (List Nat) := []
  thermal  : SMap Word := []
deriving DecidableEq, Repr

/-- Whose turn it is: a core, an engine, the command at work (its sequence number; `entry` for the entry of its
chain), and the place of the word at work. -/
structure Cur where
  lcore : Nat := 0
  eng   : Eng := .A
  seq   : BitVec 32 := 0
  entry : Bool := false
  line  : BitVec 49 := 0
  slot  : BitVec 3 := 0
deriving DecidableEq, Repr

/-- One turn of the agenda: an agent that moves, after `cycles` arithmetic cycles have passed. -/
inductive Who where
  | control (lcore : Nat)
  | engineA (lcore : Nat)
  | domain (lcore : Nat)
  | command (lcore : Nat) (eng : Eng) (seq : BitVec 32) (entry : Bool)
  | op (lcore : Nat) (eng : Eng) (i : Instr)
  /-- a request of a master's arrives, as bytes (21 R425). -/
  | request (master : BitVec 64) (bytes : List Byte)
  /-- the owner sets what no message carries. -/
  | setting (master : BitVec 64) (x : Setting)
deriving DecidableEq, Repr

/-- A turn and the arithmetic cycles that pass before it. -/
structure Turn where
  cycles : Nat := 1
  who    : Who
deriving DecidableEq, Repr

/-- Contained faults of 20 R415, with what the record holds. -/
structure Contained where
  code : Nat
  sub  : Nat := 0
  addr : Word := 0
  misc : Option Word := none
  lcore2 : Option Nat := none
  /-- the engine of the record, where it is not that of the command: a scale that engine A reads for V (07 R156). -/
  eng  : Option Eng := none
  /-- the access had made an early commit before it met the fault (02 R37). -/
  early : Bool := false
  /-- the bank of the die in which the source is logged, where it is not that of the code (20 R410). -/
  bank : Option Nat := none
deriving DecidableEq, Repr

/-- What the last operation came to, for the bundle that holds it: it took effect, it waits (02 R45), it raised a
contained fault, it stops for a trap, or for a missing page. -/
inductive Note where
  | ok
  | wait
  /-- the operation could act but for its token moves; those it could make are made -/
  | token
  | fault (f : Contained)
  | trap (cause val : Word)
  | missing (r : FRec)
deriving DecidableEq, Repr

/-- Where an uncorrectable error stands in the memory behind HBM's addresses: in HBM itself, in a die's cache, or in what
crosses a die's link (20 R415, SUB 1, 2 and 8). -/
inductive MemSrc where
  | hbm
  | cache (die : Nat)
  | link (die : Nat)
deriving DecidableEq, Repr

/-- The state of the module. -/
structure State where
  core    : SMap Core
  cluster : SMap Cluster
  die     : SMap Die
  hub     : Hub
  hbm     : Mem
  /-- poisoned 8-byte words of memory, by physical address divided by 8, and where the error stands (20 R416). -/
  poison  : List (Nat × MemSrc)
  /-- arithmetic cycles since module reset. -/
  now     : Nat
  agenda  : List Turn
  cur     : Cur
  note    : Note
  draws   : Nat
deriving DecidableEq, Repr

/-- The state after module reset (21 R421): every function in its reset state; the boot ROM is about to run (R419).
The reset value of each piece is its default above; log entries 2, 3, 6, 7, 8 and 9 name those the spec does not
give. -/
def State.reset : State where
  core    := []
  cluster := []
  die     := []
  hub     := {}
  hbm     := []
  poison  := []
  now     := 0
  agenda  := [{ cycles := 0, who := .op 0 .A .boot }]
  cur     := {}
  note    := .ok
  draws   := 0

end Sys2Proof.Machine
end

