-- ==== Sys2Proof/Machine/Ops.lean ====
section
/-! DEFINITION. Named operations over the state: sparse maps and memories, the places of State, the control core's
registers, taking a trap and returning from one, and machine-check records. -/

namespace Sys2Proof.Machine

/-- The outcome of a meaning. -/
abbrev Out := Host.Outcome State Fault Refusal

/-! ## READYMAP bits (21 R421) -/

namespace Ready
def rom : Nat := 0
def fw : Nat := 1
def die (d : Nat) : Nat := 2 + d
def hbm (k : Nat) : Nat := 10 + k
def eth (p : Nat) : Nat := 26 + p
def lamp (d : Nat) : Nat := 34 + d
def mgmt : Nat := 42
def sched : Nat := 43
def rdma : Nat := 44
def seq : Nat := 45
def ownctl : Nat := 46
/-- The two stacks of a die's local HBM (00 R3): those of its number's double and the next (PRESUMED, log entry 61). -/
def local' (d : Nat) : List Nat := [hbm (2 * d), hbm (2 * d + 1)]
end Ready

def State.isReady (s : State) (bit : Nat) : Bool := s.hub.ready.getLsbD bit
/-- A die's local HBM is trained and tested. -/
def State.hbmReady (s : State) (die : Nat) : Bool := (Ready.local' die).all s.isReady

/-! ## Sparse maps and memories -/

/-- The value at a key, or the given default. -/
def SMap.get {α : Type} (m : SMap α) (k : Nat) (d : α) : α :=
  match m with
  | [] => d
  | (j, v) :: t => if j = k then v else SMap.get t k d

/-- The value at a key, if the map lists it. -/
def SMap.find {α : Type} (m : SMap α) (k : Nat) : Option α :=
  match m with
  | [] => none
  | (j, v) :: t => if j = k then some v else SMap.find t k

/-- The map with a key set, its keys rising. -/
def SMap.put {α : Type} (m : SMap α) (k : Nat) (v : α) : SMap α :=
  match m with
  | [] => [(k, v)]
  | (j, u) :: t => if k < j then (k, v) :: (j, u) :: t else if j = k then (k, v) :: t else (j, u) :: SMap.put t k v

/-- The map without a key. -/
def SMap.del {α : Type} (m : SMap α) (k : Nat) : SMap α := m.filter (fun p => p.1 ≠ k)

/-- A byte of a memory; one that is not listed reads as 0 (log entry 6). -/
def Mem.read (m : Mem) (a : Nat) : Byte := SMap.get m a 0

/-- The memory with one byte written, in the canonical form: a byte 0 is not listed. -/
def Mem.write (m : Mem) (a : Nat) (b : Byte) : Mem :=
  match m with
  | [] => if b = 0 then [] else [(a, b)]
  | (j, c) :: t =>
    if a < j then (if b = 0 then (j, c) :: t else (a, b) :: (j, c) :: t)
    else if a = j then (if b = 0 then t else (a, b) :: t)
    else (j, c) :: Mem.write t a b

/-- Addresses strictly rise from a bound, and no listed byte is 0. -/
def Mem.wfFrom (lo : Nat) : Mem → Bool
  | [] => true
  | (a, b) :: t => decide (lo ≤ a) && decide (b ≠ 0) && Mem.wfFrom (a + 1) t

/-- The canonical form of a memory. -/
def Mem.wf (m : Mem) : Bool := Mem.wfFrom 0 m

/-- `n` bytes from an address. -/
def Mem.readN (m : Mem) (a : Nat) : Nat → List Byte
  | 0 => []
  | n + 1 => m.read a :: Mem.readN m (a + 1) n

/-- Bytes written from an address on. -/
def Mem.writeN (m : Mem) (a : Nat) : List Byte → Mem
  | [] => m
  | b :: t => Mem.writeN (m.write a b) (a + 1) t

/-- A number from its bytes, lowest first (00 R7). -/
def leNat : List Byte → Nat
  | [] => 0
  | b :: t => b.toNat + 256 * leNat t

/-- The `n` low bytes of a number, lowest first. -/
def leBytes : Nat → Nat → List Byte
  | 0, _ => []
  | n + 1, v => BitVec.ofNat 8 v :: leBytes n (v / 256)

/-- `n` little-endian doublewords of a byte list. -/
def wordsOf : Nat → List Byte → List Word
  | 0, _ => []
  | n + 1, l => BitVec.ofNat 64 (leNat (l.take 8)) :: wordsOf n (l.drop 8)

def Mem.readWord (m : Mem) (a n : Nat) : Nat := leNat (m.readN a n)
def Mem.writeWord (m : Mem) (a n v : Nat) : Mem := m.writeN a (leBytes n v)

/-- Bytes to write from an address on, cut at the boundaries of aligned 8-byte words: the parts that no party may see torn
(14 R301). Bytes that are not written end a part. -/
def dwParts : Nat → List (Option Byte) → List (Nat × List Byte)
  | _, [] => []
  | a, none :: t => dwParts (a + 1) t
  | a, some b :: t =>
    match dwParts (a + 1) t with
    | (c, bs) :: r => if c = a + 1 ∧ c % 8 ≠ 0 then (a, b :: bs) :: r else (a, [b]) :: (c, bs) :: r
    | [] => [(a, [b])]

/-- A bit field of a doubleword: bits `lo + n − 1 .. lo`. -/
def fld (w : Word) (lo n : Nat) : Nat := w.toNat / 2 ^ lo % 2 ^ n
/-- A doubleword with only the masked bits of `new` taken. -/
def blend (old new mask : Word) : Word := (old &&& ~~~mask) ||| (new &&& mask)
/-- A doubleword with a field set. -/
def setFld (w : Word) (lo n v : Nat) : Word :=
  blend w (BitVec.ofNat 64 (v % 2 ^ n * 2 ^ lo)) (BitVec.ofNat 64 ((2 ^ n - 1) * 2 ^ lo))
/-- n one bits from bit lo. -/
def ones (lo n : Nat) : Word := BitVec.ofNat 64 ((2 ^ n - 1) * 2 ^ lo)

/-! ## Places of the state -/

def State.coreAt (s : State) (n : Nat) : Core := SMap.get s.core n {}
def State.setCore (s : State) (n : Nat) (c : Core) : State := { s with core := SMap.put s.core n c }
def State.updCore (s : State) (n : Nat) (f : Core → Core) : State := s.setCore n (f (s.coreAt n))
/-- The core whose turn it is. -/
def State.me (s : State) : Core := s.coreAt s.cur.lcore
def State.setMe (s : State) (c : Core) : State := s.setCore s.cur.lcore c
def State.updMe (s : State) (f : Core → Core) : State := s.setMe (f s.me)

/-- The cluster of a core (18 R376). -/
def clusterOf (lcore : Nat) : Nat := lcore / 4
/-- The compute die of a core (18 R376). -/
def dieOf (lcore : Nat) : Nat := lcore / Config.coresPerDie

def State.clusterAt (s : State) (n : Nat) : Cluster := SMap.get s.cluster n {}
def State.setCluster (s : State) (n : Nat) (c : Cluster) : State := { s with cluster := SMap.put s.cluster n c }
def State.myCluster (s : State) : Cluster := s.clusterAt (clusterOf s.cur.lcore)
def State.setMyCluster (s : State) (c : Cluster) : State := s.setCluster (clusterOf s.cur.lcore) c
def State.dieAt (s : State) (n : Nat) : Die := SMap.get s.die n {}
def State.setDie (s : State) (n : Nat) (d : Die) : State := { s with die := SMap.put s.die n d }

/-- The state after an operation that took effect. -/
def State.done (s : State) : Out := .next { s with note := .ok }
/-- The state of an operation that waits. -/
def State.waits (s : State) : Out := .next { s with note := .wait }

/-- Whether the resident runtime handles the core's traps (18 R380). -/
def Core.resident (c : Core) : Bool := c.mtvec = BitVec.ofNat 64 Config.runtimeTrap

/-- The line state of an engine. -/
def Core.line (c : Core) : Eng → Line
  | .A => c.lineA
  | .M => c.lineM
  | .V => c.lineV
  | .X => {}
def Core.setLine (c : Core) (e : Eng) (l : Line) : Core :=
  match e with
  | .A => { c with lineA := l }
  | .M => { c with lineM := l }
  | .V => { c with lineV := l }
  | .X => c
def Core.updLine (c : Core) (e : Eng) (f : Line → Line) : Core := c.setLine e (f (c.line e))

def engCode : Eng → Nat
  | .A => 0 | .M => 1 | .V => 2 | .X => 3
def engOf : Nat → Eng
  | 0 => .A | 1 => .M | 2 => .V | _ => .X

/-! ## The control core's registers -/

/-- x[r]; x0 reads zero. -/
def Core.xr (c : Core) (r : Reg) : Word := if r = 0 then 0 else SMap.get c.x r.toNat 0
/-- Writes x[r]; a write of x0 is discarded. -/
def Core.wx (c : Core) (r : Reg) (v : Word) : Core := if r = 0 then c else { c with x := SMap.put c.x r.toNat v }
def State.x (s : State) (r : Reg) : Word := s.me.xr r

/-- The pc past an instruction of `n` bytes. -/
def Core.advance (c : Core) (n : Nat) : Core := { c with pc := c.pc + BitVec.ofNat 64 n }

/-- An instruction counts in minstret, unless mcountinhibit.IR is set. -/
def Core.counted (c : Core) : Core := if c.mcountinhibit.getLsbD 2 then c else { c with minstret := c.minstret + 1 }

/-- x[r] := v and the pc past the instruction; the end of most control-core instructions. -/
def State.retire (s : State) (r : Reg) (v : Word) (n : Nat) : Out :=
  (s.updMe (fun c => ((c.wx r v).advance n).counted)).done

/-! ## Traps (20 R406-R408; the RISC-V privileged architecture) -/

/-- Where a trap goes: mtvec's base, or in vectored mode the interrupt's entry. -/
def trapTarget (mtvec cause : Word) : Word :=
  let base := mtvec &&& ~~~(3 : Word)
  if mtvec.getLsbD 0 ∧ cause.getLsbD 63 then base + 4 * (cause &&& ~~~(ones 63 1)) else base

/-- A core takes a trap: mepc the pc, mcause and mtval as given, MPIE the old MIE, MPP the old mode, MIE clear, machine
mode, and the pc at the handler. A reservation ends (14 R318), and a remote request in flight is abandoned (14 R323). -/
def Core.takeTrap (c : Core) (cause val : Word) : Core :=
  let ms := c.mstatus
  let ms := setFld ms 7 1 (fld ms 3 1)
  let ms := setFld ms 3 1 0
  let ms := setFld ms 11 2 (match c.mode with | .U => 0 | .M => 3)
  { c with mepc := c.pc, mcause := cause, mtval := val, mstatus := ms, mode := .M,
           pc := trapTarget c.mtvec cause, resv := none, rmt := none, rmtans := none,
           handling := if c.handling.isEmpty then [] else none :: c.handling }

/-- The instruction at the boundary raises an exception: no effect but the trap (20 R406). -/
def State.trap (s : State) (cause : Nat) (val : Word) : Out :=
  .next { s.updMe (fun c => c.takeTrap (BitVec.ofNat 64 cause) val) with note := .trap (BitVec.ofNat 64 cause) val }

/-- mret's restoring of status and mode (the RISC-V privileged architecture). A handler whose unit has left the core
returns to the resident runtime (20 R409, 06 R120). -/
def Core.mretStatus (c : Core) : Core :=
  let ms := c.mstatus
  let m : Mode := if fld ms 11 2 = 3 then .M else .U
  let ms := setFld ms 3 1 (fld ms 7 1)
  let ms := setFld ms 7 1 1
  let ms := setFld ms 11 2 0
  if c.orphan && m = .U then { c with mstatus := ms, mode := .M, pc := BitVec.ofNat 64 Config.runtimeTrap, orphan := false }
  else { c with mstatus := ms, mode := m, pc := c.mepc,
                unit := if m = .U then c.unit.map (fun u => { u with ctlDone := u.ctlDone || (c.mepc = u.kend && !u.called) }) else c.unit }

/-! ## Machine-check records (20 R412, R413) -/

/-- A record on its way to a bank. -/
structure Rec where
  cls    : Nat
  lcore  : Option Nat := none
  lcore2 : Option Nat := none
  eng    : Nat := 15
  sub    : Nat := 0
  code   : Nat
  addr   : Word := 0
  misc   : Word := 0
deriving DecidableEq, Repr

/-- The die number of the hub die in bank keys (20 R411). -/
def hubDie : Nat := 8
def bankKey (die bank : Nat) : Nat := die * 16 + bank
def State.bankAt (s : State) (die bank : Nat) : McBank := SMap.get s.hub.bank (bankKey die bank) {}
def State.setBank (s : State) (die bank : Nat) (b : McBank) : State :=
  { s with hub := { s.hub with bank := SMap.put s.hub.bank (bankKey die bank) b } }

/-- MCSTATUS of a record (20 R412), with CNT kept and VALID and OVER as given. -/
def recStatus (r : Rec) (cnt : Nat) (lost : Bool) : Word :=
  BitVec.ofNat 64 (2 ^ 63 + (if lost then 2 ^ 62 else 0) + r.cls % 4 * 2 ^ 60 + (r.lcore.getD 0x7FF) % 2048 * 2 ^ 49
    + (r.lcore2.getD 0x7FF) % 2048 * 2 ^ 38 + cnt % 256 * 2 ^ 30 + r.eng % 16 * 2 ^ 24 + r.sub % 256 * 2 ^ 16 + r.code % 65536)

/-- The built cluster behind the j-th logical cluster of a die, from those not taken by the clusters before it. -/
def builtCluster (fuse : Nat → Nat) : Nat → List Nat → Nat
  | 0, l => l.getD (fuse 0 % l.length) 0
  | j + 1, l => builtCluster (fun k => fuse (k + 1)) j (l.eraseIdx (fuse 0 % l.length))

/-- MCPHYS of a record's core (00 R4, 20 R412): its die, the built cluster that the fuse map gives it, and its place there. -/
def recPhys (lcore : Option Nat) : Word :=
  match lcore with
  | none => 0
  | some n =>
    let pcl := builtCluster (Config.fuse (dieOf n)) (n % Config.coresPerDie / 4) (List.range Config.builtClusters)
    BitVec.ofNat 64 (2 ^ 15 + dieOf n * 2 ^ 8 + pcl * 4 + n % 4)

/-- log(bank, class, fields) (20 R413). -/
def McBank.log (b : McBank) (r : Rec) : McBank :=
  let cnt := fld b.status 30 8
  let cnt := if r.cls = 1 then (if cnt < 255 then cnt + 1 else 255) else cnt
  let b := { b with status := setFld b.status 30 8 cnt }
  if fld b.status 63 1 = 0 ∨ r.cls > fld b.status 60 2 then
    { b with status := recStatus r cnt (fld b.status 63 1 = 1), addr := r.addr, misc := r.misc, phys := recPhys r.lcore }
  else { b with status := setFld b.status 62 1 1 }

def State.log (s : State) (die bank : Nat) (r : Rec) : State := s.setBank die bank ((s.bankAt die bank).log r)

/-- Whether a bank's record raises MCIP on the cores of its die (20 R406, R412). -/
def McBank.raises (b : McBank) : Bool :=
  fld b.status 63 1 = 1 &&
  (match fld b.status 60 2 with
   | 1 => b.ceint
   | 2 => b.cnint
   | 3 => true
   | _ => false)

def State.mcip (s : State) (lcore : Nat) : Bool :=
  (List.range 16).any (fun b => (s.bankAt (dieOf lcore) b).raises)

/-- The scheduler bank: MC0 of the hub die (20 R410). -/
def schedBank : Nat × Nat := (hubDie, 0)

/-- MISC of a record that names a launch and a command (20 R412). -/
def miscOf (lid seq : BitVec 32) : Word := lid ++ seq

/-! ## Messages to masters (21 R425) -/

def State.send (s : State) (m : Msg) : State := { s with hub := { s.hub with out := s.hub.out ++ [m] } }

end Sys2Proof.Machine
end

