-- ==== Sys2Proof/Machine/Hash.lean ====
section
/-! DEFINITION. CRC-32C (00 R11, 15 R331, 22 R437) and SHAKE256 (FIPS 202; 00 R11, 21 R419). -/

namespace Sys2Proof.Machine

/-- One bit of the reflected CRC-32C division. -/
def crcBit (c : BitVec 32) : BitVec 32 := if c.getLsbD 0 then (c >>> 1) ^^^ 0x82F63B78 else c >>> 1

/-- One byte. -/
def crcByte (c : BitVec 32) (b : Byte) : BitVec 32 :=
  (List.range 8).foldl (fun c _ => crcBit c) (c ^^^ b.setWidth 32)

/-- The running CRC over bytes; it starts at 0xFFFF_FFFF and its final value is complemented (15 R331). -/
def crcBytes (c : BitVec 32) (bs : List Byte) : BitVec 32 := bs.foldl crcByte c

/-- The final value. -/
def crcFinal (c : BitVec 32) : BitVec 32 := c ^^^ 0xFFFFFFFF

def crc32c (bs : List Byte) : BitVec 32 := crcFinal (crcBytes 0xFFFFFFFF bs)

/-! ## SHAKE256 -/

def rotl64 (x : Word) (n : Nat) : Word := x.rotateLeft n

/-- The lanes of a Keccak state: lane (x, y) at index x + 5y. -/
abbrev Lanes := List Word
def Lanes.at (a : Lanes) (x y : Nat) : Word := a.getD (x % 5 + 5 * (y % 5)) 0
def lanes (f : Nat → Nat → Word) : Lanes := (List.range 25).map (fun i => f (i % 5) (i / 5))

/-- Rotation offsets of rho, by lane index x + 5y. -/
def rhoTable : List Nat := [0, 1, 62, 28, 27, 36, 44, 6, 55, 20, 3, 10, 43, 25, 39, 41, 45, 15, 21, 8, 18, 2, 61, 56, 14]

/-- Round constants of iota. -/
def iotaTable : List Word :=
  [0x0000000000000001, 0x0000000000008082, 0x800000000000808A, 0x8000000080008000, 0x000000000000808B, 0x0000000080000001,
   0x8000000080008081, 0x8000000000008009, 0x000000000000008A, 0x0000000000000088, 0x0000000080008009, 0x000000008000000A]
  ++ [0x000000008000808B, 0x800000000000008B, 0x8000000000008089, 0x8000000000008003, 0x8000000000008002, 0x8000000000000080,
   0x000000000000800A, 0x800000008000000A, 0x8000000080008081, 0x8000000000008080, 0x0000000080000001, 0x8000000080008008]

/-- One round of Keccak-f[1600]: theta, rho and pi, chi, iota. -/
def keccakRound (a : Lanes) (rc : Word) : Lanes :=
  let c := (List.range 5).map (fun x => a.at x 0 ^^^ a.at x 1 ^^^ a.at x 2 ^^^ a.at x 3 ^^^ a.at x 4)
  let d := (List.range 5).map (fun x => c.getD ((x + 4) % 5) 0 ^^^ rotl64 (c.getD ((x + 1) % 5) 0) 1)
  let a := lanes (fun x y => a.at x y ^^^ d.getD x 0)
  -- pi: lane (x, y) of the result is lane (x + 3y, x) rotated
  let b := lanes (fun x y => rotl64 (a.at (x + 3 * y) x) (rhoTable.getD ((x + 3 * y) % 5 + 5 * x) 0))
  let a := lanes (fun x y => b.at x y ^^^ (~~~(b.at (x + 1) y) &&& b.at (x + 2) y))
  a.set 0 (a.at 0 0 ^^^ rc)

def keccak (a : Lanes) : Lanes := iotaTable.foldl keccakRound a

/-- Rate of SHAKE256 in bytes. -/
def shakeRate : Nat := 136

/-- Absorbs one block of the rate. -/
def absorb (a : Lanes) (block : List Byte) : Lanes :=
  let ws := wordsOf 17 block
  keccak (a.zipIdx.map (fun p => if p.2 < 17 then p.1 ^^^ ws.getD p.2 0 else p.1))

/-- Cuts a list in blocks of the rate. -/
def blocks : Nat → List Byte → List (List Byte)
  | 0, _ => []
  | n + 1, l => if l.isEmpty then [] else l.take shakeRate :: blocks n (l.drop shakeRate)

/-- The message with SHAKE's suffix and padding: 1111, then 10*1. -/
def shakePad (m : List Byte) : List Byte :=
  let n := shakeRate - m.length % shakeRate
  if n = 1 then m ++ [0x9F] else m ++ [0x1F] ++ List.replicate (n - 2) 0 ++ [0x80]

/-- The output of a state, block by block. -/
def squeeze : Nat → Lanes → List Byte
  | 0, _ => []
  | n + 1, a => (a.take 17).flatMap (fun w => leBytes 8 w.toNat) ++ squeeze n (keccak a)

/-- `n` bytes of SHAKE256 of a message. -/
def shake256 (m : List Byte) (n : Nat) : List Byte :=
  let p := shakePad m
  (squeeze ((n + shakeRate - 1) / shakeRate) ((blocks (p.length / shakeRate) p).foldl absorb (List.replicate 25 0))).take n

end Sys2Proof.Machine
end

