-- ==== Sys2Proof/Machine/Memory.lean ====
section
/-! DEFINITION. The module's memories below the phases: HBM and its replicas (14 R310), accumulator SRAM and its windows
(14 R309), page tables, the walk and the TLBs (19 R386-R391), poison (20 R416). -/

namespace Sys2Proof.Machine

/-! ## HBM -/

/-- Bytes from an address overlaid with a list of writes, the later over the earlier. -/
def overlay (base : List Byte) (a : Nat) (ws : List (Nat × List Byte)) : List Byte :=
  ws.foldl (fun bs w => bs.mapIdx (fun k b =>
    if w.1 ≤ a + k ∧ a + k < w.1 + w.2.length then w.2.getD (a + k - w.1) b else b)) base

/-- The updates of replicated pages that a die's replica has applied; the hub die, where the sequencer is, has them all. -/
def State.applied (s : State) (die : Nat) : List (Nat × List Byte) :=
  ((s.hub.updates.take (if die = hubDie then s.hub.updates.length else (s.dieAt die).applied)).filter (fun u => !u.plain)).map
    (fun u => (u.addr, u.data))

/-- `n` bytes of HBM as a party on a die reads them: its own replica where the page is replicated (14 R310). -/
def State.physRead (s : State) (die a n : Nat) : List Byte :=
  match s.applied die with
  | [] => s.hbm.readN a n
  | ws => overlay (s.hbm.readN a n) a ws

/-- Poisoned 8-byte words that a whole write to them replaces (20 R416). -/
def unpoison (p : List Nat) (a n : Nat) : List Nat := p.filter (fun w => !(a ≤ 8 * w && 8 * w + 8 ≤ a + n))
/-- Whether a read meets a poisoned word. -/
def poisoned (p : List Nat) (a n : Nat) : Bool := p.any (fun w => 8 * w < a + n && a < 8 * w + 8)
/-- The same of memory, whose errors stand in HBM, in a cache or on a link: a whole write ends each. -/
def cured (p : List (Nat × MemSrc)) (a n : Nat) : List (Nat × MemSrc) :=
  p.filter (fun w => !(a ≤ 8 * w.1 && 8 * w.1 + 8 ≤ a + n))

/-- Whether an error is met by a read of a party on a die: one in HBM is, and one of its own die's cache or link. -/
def MemSrc.metBy (die : Nat) : MemSrc → Bool
  | .hbm => true
  | .cache d => d = die
  | .link d => d = die
/-- SUB of UNCORR for where an error stands (20 R415). -/
def MemSrc.sub : MemSrc → Nat
  | .hbm => 1
  | .cache _ => 2
  | .link _ => 8

/-- The errors of memory that a read meets from a die. -/
def State.memBad (s : State) (die a n : Nat) : List (Nat × MemSrc) :=
  s.poison.filter (fun w => w.2.metBy die && 8 * w.1 < a + n && a < 8 * w.1 + 8)
/-- The source of the first of them, as SUB of UNCORR names it; none where the bytes are good. -/
def State.memSub (s : State) (die a n : Nat) : Option Nat := (s.memBad die a n).head?.map (·.2.sub)
/-- An error on a link is one of the bytes that crossed it: once consumed it is gone (20 R416). -/
def State.spend (s : State) (die a n : Nat) : State :=
  { s with poison := s.poison.filter (fun w => !(w.2.sub = 8 && (s.memBad die a n).contains w)) }

/-- A write to HBM: in place, or, on a replicated page, to the update order (14 R310). -/
def State.physWrite (s : State) (lcore a : Nat) (bs : List Byte) (repl : Bool) : State :=
  if repl then { s with hub := { s.hub with updates := s.hub.updates ++ [{ addr := a, data := bs, lcore := lcore }] } }
  else { s with hbm := s.hbm.writeN a bs, poison := cured s.poison a bs.length }

/-- Updates that every die's replica has applied leave the list for HBM. -/
def State.settleUpdates (s : State) : State :=
  let k := (List.range 8).foldl (fun m d => min m (s.dieAt d).applied) s.hub.updates.length
  let done := s.hub.updates.take k
  let s1 := { s with hub := { s.hub with updates := s.hub.updates.drop k },
                     hbm := done.foldl (fun m u => m.writeN u.addr u.data) s.hbm,
                     poison := done.foldl (fun p u => if u.bad then p else cured p u.addr u.data.length) s.poison,
                     cluster := s.cluster.map (fun p => (p.1, { p.2 with relUpd := p.2.relUpd - k })) }
  (List.range 8).foldl (fun t d => let x := t.dieAt d; t.setDie d { x with applied := x.applied - k }) s1

/-- Whether one of a core's writes to the bytes is still on its way to it: the core's own replica lacks it, or it stands
behind a release (14 R308, R310). -/
def State.replLag (s : State) (lcore a n : Nat) : Bool :=
  let here (u : Update) : Bool := u.lcore = lcore && a < u.addr + u.data.length && u.addr < a + n
  (s.hub.updates.drop (s.dieAt (dieOf lcore)).applied).any here || s.hub.updates.any (fun u => u.plain && here u)

/-- Whether some replica still lacks a write that a core has made, or that the replica of its own die, which it reads, has
applied: a release of module or system scope waits (14 R304, R310). -/
def State.replPending (s : State) (lcore : Nat) : Bool :=
  (List.range 8).any (fun d => (s.dieAt d).applied < (s.dieAt (dieOf lcore)).applied ||
    (s.hub.updates.drop (s.dieAt d).applied).any (fun u => u.lcore = lcore))

/-- Whether the replica of a core's own die still lacks one of its writes: a release towards parties of the die waits, for
they read that replica (14 R304, R310). -/
def State.replOwn (s : State) (lcore : Nat) : Bool :=
  (s.hub.updates.drop (s.dieAt (dieOf lcore)).applied).any (fun u => u.lcore = lcore)

/-- Whether a release of a core's at a scope still waits for a replica (14 R310). -/
def State.relWaits (s : State) (lcore scope : Nat) : Bool := if 3 ≤ scope then s.replPending lcore else s.replOwn lcore

/-- A store that a release precedes: it takes its place behind the core's writes that some replica still lacks
(14 R308). -/
def State.relWrite (s : State) (lcore a : Nat) (bs : List Byte) (repl : Bool) : State :=
  if !repl && s.replPending lcore then
    { s with hub := { s.hub with updates := s.hub.updates ++ [{ addr := a, data := bs, lcore := lcore, plain := true }] } }
  else s.physWrite lcore a bs repl

/-! ## Page tables (19 R386-R390) -/

/-- What a translation comes to: a physical address with its leaf, a missing page with the level and the address of the
entry found clear, or a permission failure. -/
inductive Xl where
  | ok (pa : Nat) (ent : Word) (big : Bool)
  | missing (lvl : Nat) (eaddr : Nat)
  | perm
deriving DecidableEq, Repr

/-- The fields of an entry (19 R387). -/
def eV (e : Word) : Bool := e.getLsbD 0
def eLeaf (e : Word) : Bool := e.getLsbD 1
def eR (e : Word) : Bool := e.getLsbD 2
def eW (e : Word) : Bool := e.getLsbD 3
def eU (e : Word) : Bool := e.getLsbD 5
def ePfn (e : Word) : Nat := fld e 16 36
def eKind (e : Word) : Nat := fld e 60 2
def eRepl (e : Word) : Bool := e.getLsbD 62
/-- The reserved bits of an entry: 63, 59:52, 15:6 and 4. -/
def eReserved : Word := ones 63 1 ||| ones 52 8 ||| ones 6 10 ||| ones 4 1

/-- The checks of R389 that hold whatever the access is. -/
def leafOk (e : Word) (big : Bool) : Bool :=
  eKind e ≠ 3 && !(eRepl e && eKind e = 1) && !(eW e && !eR e) && eU e
    && (ePfn e * 65536 + (if big then 2 ^ 29 else 65536) ≤ Config.hbmBytes)

/-- The walk from a table page down (19 R388). -/
def walkFrom (rd : Nat → Word) (va : Nat) : Nat → Nat → Xl
  | lvl, t =>
    let a := t + 8 * (va / 2 ^ (16 + 13 * lvl) % 8192)
    let e := rd a
    if !eV e then .missing lvl a
    else if eLeaf e then
      if lvl = 2 ∨ (lvl = 1 ∧ ePfn e % 8192 ≠ 0) ∨ e &&& eReserved ≠ 0 then .perm
      else if leafOk e (lvl = 1) then .ok (ePfn e * 65536 + va % 2 ^ (16 + 13 * lvl)) e (lvl = 1)
      else .perm
    else if e &&& ~~~(ones 16 36 ||| 3) ≠ 0 then .perm
    else match lvl with
      | 0 => .perm
      | k + 1 => walkFrom rd va k (ePfn e * 65536)

/-- The walk of a virtual address under a root (19 R388). -/
def walk (s : State) (root va : Nat) : Xl :=
  walkFrom (fun a => BitVec.ofNat 64 (s.hbm.readWord a 8)) (va % 2 ^ 55) 2 root

/-- The access a translation is for. -/
structure Want where
  rd : Bool := false
  wr : Bool := false
deriving DecidableEq, Repr

/-- The checks of R389 that depend on the access. -/
def wantOk (e : Word) (w : Want) : Bool := (!w.rd || eR e) && (!w.wr || eW e)

/-- The TLB of a party: the control core's, or an engine's (19 R390). -/
def Core.tlb (c : Core) : Option Eng → List TlbEnt
  | none => c.tlbC
  | some .A => c.tlbA
  | some .M => c.tlbM
  | some .V => c.tlbV
  | some .X => c.tlbX
def Core.setTlb (c : Core) (p : Option Eng) (l : List TlbEnt) : Core :=
  match p with
  | none => { c with tlbC := l }
  | some .A => { c with tlbA := l }
  | some .M => { c with tlbM := l }
  | some .V => { c with tlbV := l }
  | some .X => { c with tlbX := l }
def tlbSize : Option Eng → Nat
  | none => 64
  | some _ => 32

def tlbHit (asid : BitVec 12) (va : Nat) (t : TlbEnt) : Bool :=
  t.asid = asid && t.page = va / (if t.big then 2 ^ 29 else 65536)

/-- Translation for a party: the TLB's leaf where it holds one, else a walk, whose leaf enters the TLB, the oldest entry
leaving a full one (the choice is not architectural). -/
def translateVa (s : State) (lcore : Nat) (p : Option Eng) (va : Nat) (w : Want) : State × Xl :=
  let c := s.coreAt lcore
  let asid : BitVec 12 := c.ptroot.extractLsb' 52 12
  if !c.ptroot.getLsbD 0 then (s, .perm)
  else match (c.tlb p).find? (tlbHit asid va) with
    | some t =>
      if wantOk t.ent w then (s, .ok (ePfn t.ent * 65536 + va % (if t.big then 2 ^ 29 else 65536)) t.ent t.big)
      else (s, .perm)
    | none =>
      match walk s (fld c.ptroot 16 36 * 65536) va with
      | .ok pa e big =>
        let t : TlbEnt := { asid := asid, page := va / (if big then 2 ^ 29 else 65536), big := big, ent := e }
        let l := c.tlb p
        let l := if l.length < tlbSize p then l else l.drop 1
        (s.setCore lcore (c.setTlb p (l ++ [t])), if wantOk e w then .ok pa e big else .perm)
      | x => (s, x)

/-! ## Accumulator SRAM windows (14 R309) -/

/-- The core and the offset that a window address names. -/
def windowOf (va : Nat) : Option (Nat × Nat) :=
  if Config.windowBase ≤ va ∧ va < Config.windowBase + Config.accBytes * Config.cores then
    some ((va - Config.windowBase) / Config.accBytes, (va - Config.windowBase) % Config.accBytes)
  else none

/-- Whether a core is one of those the scheduler has assigned to the job of the unit on another (18 R369; DEDUCED, log
entry 21: assigned means JLO ≤ LCORE < JHI). -/
def State.windowOk (s : State) (lcore target : Nat) : Bool :=
  match (s.coreAt lcore).unit with
  | none => (s.coreAt lcore).mode = .M
  | some u =>
    match SMap.find s.hub.jobs u.job with
    | none => false
    | some j => j.attr.jlo ≤ target && target < j.attr.jhi

/-- A write to a core's accumulator SRAM. Every reservation of its doublewords ends, but that of the control core that
writes it itself (14 R318). -/
def State.accWrite (s : State) (target off : Nat) (bs : List Byte) (writer : Option Nat) : State :=
  let s1 := s.updCore target (fun c => { c with acc := c.acc.writeN off bs, accBad := unpoison c.accBad off bs.length })
  let lo := Config.windowBase + Config.accBytes * target + off
  let hit (r : Nat) : Bool := lo < r + 8 && r < lo + bs.length
  { s1 with core := s1.core.map (fun p =>
      if some p.1 ≠ writer ∧ (p.2.resv.map hit).getD false then (p.1, { p.2 with resv := none }) else p) }

def State.accRead (s : State) (target off n : Nat) : List Byte := (s.coreAt target).acc.readN off n
/-- Whether bytes of accumulator SRAM carry an uncorrectable error (20 R416). -/
def State.accPoison (s : State) (target off n : Nat) : Bool := poisoned (s.coreAt target).accBad off n
/-- What consuming it raises; the address is the window's, whose core's die holds the bank (20 R410). -/
def accFault (target off : Nat) : Contained :=
  { code := 1, sub := 4, addr := BitVec.ofNat 64 (Config.windowBase + Config.accBytes * target + off) }

/-! ## The control core's own accesses (06 R113, 14 R305) -/

/-- What an access of the control core comes to. -/
inductive CAcc where
  | ok (s : State) (bs : List Byte)
  | trap (cause : Nat)
  | wait (s : State)
  /-- the data carries poison: consumed by the unit (20 R416), with the machine-check source -/
  | poison (sub : Nat) (pa : Nat)
deriving DecidableEq, Repr

/-- Where a control-core address lies. -/
inductive Place where
  | istore (a : Nat)
  | dstore (a : Nat)
  | window (core off : Nat)
  | mem (va : Nat)
deriving DecidableEq, Repr

/-- The map of the control core: the instruction store, the data store beside it (log entry 10), the windows, and
everything else: translated in user mode, physical in machine mode (19 R389). -/
def placeOf (va : Nat) : Place :=
  if va < Config.istoreBytes then .istore va
  else if Config.dstoreBase ≤ va ∧ va < Config.dstoreBase + Config.dstoreBytes then .dstore (va - Config.dstoreBase)
  else match windowOf va with
    | some (n, o) => .window n o
    | none => .mem va

/-- Performs every store that a control core has buffered, in order (14 R305). -/
def State.drainSbuf (s : State) (lcore : Nat) : State :=
  let c := s.coreAt lcore
  c.sbuf.foldl (fun t e => t.physWrite lcore e.addr e.data e.repl) (s.setCore lcore { c with sbuf := [] })

/-- A translation or physical address of the control core. -/
def ctlXlate (s : State) (lcore va : Nat) (w : Want) : State × Xl :=
  match (s.coreAt lcore).mode with
  | .M =>
    if va < Config.hbmBytes then (s, .ok va (BitVec.ofNat 64 0x2F) false) else (s, .perm)
  | .U => if va ≥ 2 ^ 55 then (s, .perm) else translateVa s lcore none va w

/-- A naturally aligned load of `n` bytes (06 R113): it sees the core's own buffered stores. On an SO page the buffered
stores are performed first, on every replica (14 R306, R310). On a replicated page a read of bytes that the core has stored
waits until its own replica has them (14 R310). -/
def ctlRead (s : State) (lcore va n : Nat) : CAcc :=
  if va % n ≠ 0 then .trap 4
  else match placeOf va with
    | .istore a => .ok s ((s.coreAt lcore).istore.readN a n)
    | .dstore a => .ok s ((s.coreAt lcore).dstore.readN a n)
    | .window t o =>
      if !s.windowOk lcore t then .trap 5
      else if s.accPoison t o n then .poison 4 (Config.windowBase + Config.accBytes * t + o)
      else .ok s (s.accRead t o n)
    | .mem va =>
      match ctlXlate s lcore va { rd := true } with
      | (_, .perm) => .trap 5
      | (_, .missing _ _) => .trap 13
      | (s1, .ok pa e _) =>
        let s2 := if eKind e = 1 then s1.drainSbuf lcore else s1
        if s2.replLag lcore pa n || (eKind e = 1 && s2.replPending lcore) then .wait s2
        else if eRepl e && (s2.coreAt lcore).sbuf.any (fun b => b.addr < pa + n && pa < b.addr + b.data.length) then
          .wait (s2.drainSbuf lcore)
        else match s2.memSub (dieOf lcore) pa n with
        | some sub => .poison sub pa
        | none => .ok s2 (overlay (s2.physRead (dieOf lcore) pa n) pa ((s2.coreAt lcore).sbuf.map (fun b => (b.addr, b.data))))

/-- A naturally aligned store (06 R113). A store to RC or UO memory enters the store buffer (14 R305); one to an SO page
is performed at once, after the earlier ones on every replica (14 R306, R310); one to a window is performed at its SRAM. -/
def ctlWrite (s : State) (lcore va : Nat) (bs : List Byte) : CAcc :=
  if va % bs.length ≠ 0 then .trap 6
  else match placeOf va with
    | .istore a =>
      match (s.coreAt lcore).mode with
      | .M => .ok (s.updCore lcore (fun c => { c with istore := c.istore.writeN a bs })) []
      | .U => .trap 7
    | .dstore a => .ok (s.updCore lcore (fun c => { c with dstore := c.dstore.writeN a bs })) []
    | .window t o => if s.windowOk lcore t then .ok (s.accWrite t o bs (some lcore)) [] else .trap 7
    | .mem va =>
      match ctlXlate s lcore va { wr := true } with
      | (_, .perm) => .trap 7
      | (_, .missing _ _) => .trap 15
      | (s1, .ok pa e _) =>
        if eKind e = 1 then
          let s2 := s1.drainSbuf lcore
          if s2.replPending lcore then .wait s2 else .ok (s2.physWrite lcore pa bs false) []
        else .ok (s1.updCore lcore (fun c => { c with sbuf := c.sbuf ++ [{ addr := pa, data := bs, repl := eRepl e }] })) []

/-- `n` doubleword loads from an aligned address, stopping at the first that fails (06 R117, 13 R295, 14 R320). -/
def ctlReadDws (s : State) (lcore va : Nat) : Nat → CAcc
  | 0 => .ok s []
  | n + 1 =>
    match ctlRead s lcore va 8 with
    | .ok s1 b =>
      match ctlReadDws s1 lcore (va + 8) n with
      | .ok s2 bs => .ok s2 (b ++ bs)
      | x => x
    | x => x

/-! ## Memory of a job, for the scheduler and wkld -/

/-- A job's table root as a physical address, and its bytes through it; none where a page is missing or forbidden. -/
def jobPa (s : State) (root va : Nat) (w : Want) : Option (Nat × Word) :=
  if va ≥ 2 ^ 55 then none
  else match walk s root va with
    | .ok pa e _ => if wantOk e w then some (pa, e) else none
    | _ => none

/-- Bytes of a job's memory, in 8-byte parts. -/
def jobRead (s : State) (root va : Nat) : Nat → Option (List Byte)
  | 0 => some []
  | n + 1 =>
    match jobPa s root va { rd := true }, jobRead s root (va + 1) n with
    | some (pa, _), some t => some ((s.physRead hubDie pa 1).getD 0 0 :: t)
    | _, _ => none

/-- A write of the module's own functions, which is no core's, and one with a release at module scope (18 R373): while some
replica lacks an earlier write, the bytes stand behind it in the update order (14 R308, R310). -/
def State.hubWrite (s : State) (rel : Bool) (a : Nat) (bs : List Byte) (repl : Bool) : State :=
  if rel && !repl && !s.hub.updates.isEmpty then
    { s with hub := { s.hub with updates := s.hub.updates ++ [{ addr := a, data := bs, lcore := Config.cores, plain := true }] } }
  else s.physWrite Config.cores a bs repl

/-- Writes to a job's memory, each aligned 8-byte part at once (14 R301); a part whose page is not there is dropped. -/
def jobPut (rel : Bool) (s : State) (root va : Nat) (bs : List Byte) : State :=
  (dwParts va (bs.map some)).foldl (fun t p =>
    match jobPa t root p.1 {} with
    | some (pa, e) => t.hubWrite rel pa p.2 (eRepl e)
    | none => t) s
def jobWrite (s : State) (root va : Nat) (bs : List Byte) : State := jobPut false s root va bs

end Sys2Proof.Machine
end

