-- ==== Sys2Proof/Machine/Phase.lean ====
section
/-! DEFINITION. Phases and the work hierarchy: the exchange, the drain, early commits, rollback, replay and cancel
(02 R28-R40, 20 R413-R418), and the ends of units, launches, graphs, stages and jobs (18 R373-R381). -/

namespace Sys2Proof.Machine

/-! ## Completion records (18 R373) -/

namespace St
def pending : Nat := 0
def running : Nat := 1
def complete : Nat := 2
def cancelled : Nat := 3
end St

/-- Writes a completion record of a job, with a release at module scope: COUNT and STATUS, then the LID of a launch or 0. -/
def writeRec (s : State) (job : Nat) (addr : Word) (count status : Nat) (lid : BitVec 32) : State :=
  match SMap.find s.hub.jobs job with
  | none => s
  | some j => jobPut true s j.root addr.toNat (leBytes 8 (count % 2 ^ 32 + status % 256 * 2 ^ 32) ++ leBytes 8 lid.toNat)

def State.jobAt (s : State) (n : Nat) : Option Job := SMap.find s.hub.jobs n
def State.setJob (s : State) (n : Nat) (j : Job) : State := { s with hub := { s.hub with jobs := SMap.put s.hub.jobs n j } }
def State.launchAt (s : State) (n : Nat) : Option Launch := SMap.find s.hub.launches n
def State.setLaunch (s : State) (n : Nat) (l : Launch) : State :=
  { s with hub := { s.hub with launches := SMap.put s.hub.launches n l } }
def State.instAt (s : State) (n : Nat) : Option Inst := SMap.find s.hub.insts n
def State.setInst (s : State) (n : Nat) (i : Inst) : State := { s with hub := { s.hub with insts := SMap.put s.hub.insts n i } }

/-- Units of a launch that are not complete. -/
def Launch.left (l : Launch) : Nat := (l.units.filter (fun p => p.2 ≠ .complete && p.2 ≠ .cancelled)).length
/-- A launch that is PENDING or RUNNING. -/
def Launch.live (l : Launch) : Bool := l.status < 2

def writeLaunchRec (s : State) (l : Launch) : State :=
  writeRec s l.job l.lstat (if l.live then l.left else 0) l.status l.lid

/-- Where a graph's or stage's record lies in its job's area. -/
def instAddr (j : Job) (i : Inst) : Word :=
  if i.isStage then j.attr.jstat + BitVec.ofNat 64 (16 * (1 + i.num)) else j.attr.jstat + BitVec.ofNat 64 (8192 + 16 * i.num)

def writeInstRec (s : State) (i : Inst) : State :=
  match s.jobAt i.job with
  | none => s
  | some j => writeRec s i.job (instAddr j i) i.count i.status 0

def writeJobRec (s : State) (n : Nat) : State :=
  match s.jobAt n with
  | none => s
  | some j => writeRec s n j.attr.jstat j.count j.status 0

/-- The end status of an instance (02 R29). -/
def endStatus (cancelled any : Bool) : Nat := if cancelled || any then St.cancelled else St.complete

/-- A job's count falls; with no member left and the job ended by its owner, its record reaches COMPLETE or CANCELLED. -/
def jobMemberEnds (s : State) (n : Nat) (c : Bool) : State :=
  match s.jobAt n with
  | none => s
  | some j =>
    let j1 := { j with count := j.count - 1, anyCancelled := j.anyCancelled || c }
    let j2 := if j1.count = 0 && j1.ended then { j1 with status := endStatus false j1.anyCancelled } else j1
    writeJobRec (s.setJob n j2) n

/-- A member of a stage or graph instance ends (18 R374): the count falls, and at zero the instance ends and its own
instance's count falls in the same step (02 R29). -/
def stageMemberEnds (s : State) (n : Nat) (c : Bool) : State :=
  match s.instAt n with
  | none => s
  | some i =>
    let i1 := { i with count := i.count - 1, anyCancelled := i.anyCancelled || c }
    if i1.count = 0 then
      let i2 := { i1 with isOpen := false, status := endStatus (i1.status = St.cancelled) i1.anyCancelled }
      jobMemberEnds (writeInstRec (s.setInst n i2) i2) i.job (i2.status = St.cancelled)
    else writeInstRec (s.setInst n i1) i1
def graphMemberEnds (s : State) (n : Nat) (c : Bool) : State :=
  match s.instAt n with
  | none => s
  | some i =>
    let i1 := { i with count := i.count - 1, anyCancelled := i.anyCancelled || c }
    if i1.count = 0 then
      let i2 := { i1 with isOpen := false, status := endStatus (i1.status = St.cancelled) i1.anyCancelled }
      stageMemberEnds (writeInstRec (s.setInst n i2) i2) i.parent (i2.status = St.cancelled)
    else writeInstRec (s.setInst n i1) i1

/-- NOTIFY's message type (21 R425). -/
def notifyType : BitVec 16 := 0x0080

/-- The TLBs of every core lose their copies of a job's translations: a copy that is not there is read again. -/
def dropCopies (s : State) (job : Nat) : State :=
  match s.jobAt job with
  | none => s
  | some j =>
    let keep (l : List TlbEnt) : List TlbEnt := l.filter (fun t => t.asid ≠ j.asid)
    { s with core := s.core.map (fun p => (p.1, { p.2 with
        tlbC := keep p.2.tlbC, tlbA := keep p.2.tlbA, tlbM := keep p.2.tlbM, tlbV := keep p.2.tlbV, tlbX := keep p.2.tlbX })) }

/-- The pages of a launch's windows get their own W bit back, but for a page that another live launch binds
(11 R241). -/
def restorePages (s : State) (n : Nat) (l : Launch) : State :=
  l.wpages.foldl (fun t pg =>
    if t.hub.launches.any (fun q => q.1 ≠ n && q.2.live && q.2.wpages.any (fun x => x.1 = pg.1)) then t
    else if pg.2 then { t with hbm := t.hbm.write pg.1 (t.hbm.read pg.1 ||| 8) } else t)
    (if l.wpages.isEmpty then s else dropCopies s l.job)

/-- Bytes of a list of doublewords. -/
def bytesOf (l : List Word) : List Byte := l.flatMap (fun w => leBytes 8 w.toNat)

/-- The launch signature (22 R437): SHAKE256 of the header's digest and the digests of the units' streams, 256 bits. -/
def launchSig (l : Launch) : List Byte :=
  shake256 (bytesOf ((List.range 4).map (fun k => SMap.get l.sigh k 0)) ++
    (List.range l.nunit).flatMap (fun u => shake256 (bytesOf (SMap.get l.sigs u [])) 32)) 32

/-- The signature of a launch that ends COMPLETE stands after its record (22 R437). -/
def writeSig (s : State) (l : Launch) : State :=
  match s.jobAt l.job with
  | none => s
  | some j => if l.status = St.complete then jobPut true s j.root (l.lstat.toNat + 16) (launchSig l) else s

/-- The owner now: its lease has not expired (21 R426). -/
def State.owner (s : State) : Option (BitVec 64) :=
  match s.hub.own with
  | .owned o t => if s.now < t then some o else none
  | _ => none

/-- A launch ends with a status (18 R373, R378): its record is written, its resources and add-write records are
released, its pages restored, the owner notified, and its graph's count falls. -/
def launchEnds (s : State) (n : Nat) (status : Nat) : State :=
  match s.launchAt n with
  | none => s
  | some l =>
    if !l.live then s
    else
      let l1 := { l with status := status }
      let s1 := s.setLaunch n l1
      let s1 := { s1 with cluster := s1.cluster.map (fun p => (p.1, { p.2 with adds := p.2.adds.filter (fun a => a.launch ≠ n) })) }
      let s1 := restorePages s1 n l1
      let s1 := writeSig (writeLaunchRec s1 l1) l1
      let s1 := match l.notify, s1.owner with
        | true, some o =>
          if s1.hub.conns.any (fun m => m.1 = o) then
            s1.send { dest := o, type := notifyType, id := 0, status := .ok,
                      body := [.word (l.lid.setWidth 64), .word (BitVec.ofNat 64 status)] }
          else s1
        | _, _ => s1
      graphMemberEnds s1 l.graphI (status = St.cancelled)

/-- Launches that wait on a launch that ended CANCELLED or was refused are cancelled without starting (18 R381). -/
def cascade (s : State) : Nat → State
  | 0 => s
  | fuel + 1 =>
    let bad (k : Nat) : Bool := match s.launchAt k with
      | some l => l.status ≥ 3
      | none => false
    match s.hub.launches.find? (fun p => p.2.status = St.pending && p.2.preds.any bad) with
    | none => s
    | some (n, l) =>
      cascade (launchEnds (s.setLaunch n { l with units := l.units.map (fun u => (u.1, .cancelled)), cancelled := true }) n St.cancelled) fuel

/-- Whether a launch is eligible: every launch that it waits for ended COMPLETE (18 R381). -/
def State.eligible (s : State) (l : Launch) : Bool :=
  l.preds.all (fun k => match s.launchAt k with
    | some p => p.status = St.complete
    | none => true)

/-- The units of every launch that has become eligible begin to wait for their cores (18 R381, R382). -/
def enlist (s : State) : State :=
  { s with hub := { s.hub with launches := s.hub.launches.map (fun p =>
      if p.2.live && s.eligible p.2 then
        (p.1, { p.2 with units := p.2.units.map (fun u => if u.2 = .pending then (u.1, .waiting s.now false) else u) })
      else p) } }

/-- A launch's end, with what it brings to the launches that wait for it. -/
def endLaunch (s : State) (n status : Nat) : State := enlist (cascade (launchEnds s n status) s.hub.launches.length)

/-! ## Leaving a core -/

/-- What a core holds once no unit runs on it: its registers stay as the unit left them, and everything of the unit's
commands, phase and engines is gone. The control core waits in the resident runtime, unless a handler is running. -/
def Core.vacate (c : Core) : Core :=
  { c with unit := none, cmds := [], log := [], ph := {}, flights := [], astores := [], q := {}, tok := {},
           lineA := {}, lineM := {}, lineV := {}, mwork := [], mirHits := [], iced := false, fwait := [],
           fbuf := c.fbuf.map (fun r => { r with void := true }), handling := [],
           gang := 0, gangord := 0, gangask := none, gangans := none, gangword := none, gangdone := false, preip := false, brstep := 0,
           resv := none, orphan := c.orphan || (c.mode = .M && c.unit.isSome),
           mode := .M, pc := if c.mode = .U then BitVec.ofNat 64 Config.runtimeTrap else c.pc }

/-- What a cluster keeps for a unit is released: its back store, its Almanac entries and its armed counters (18 R378,
13 R298). A saved unit's are kept under its core's number and `Config.cores` more. -/
def releaseAs (s : State) (k who : Nat) : State :=
  let cl := s.clusterAt k
  s.setCluster k { cl with backs := cl.backs.filter (fun b => b.1 ≠ who), dcWait := cl.dcWait.filter (fun p => p.2 ≠ who),
                           dues := cl.dues.filter (fun d => d.1 ≠ who),
                           alm := cl.alm.map (fun p => if p.2.live.owner = some who then (p.1, {}) else p) }
def releaseUnit (s : State) (lcore : Nat) : State := releaseAs s (clusterOf lcore) lcore

/-- The rings of a cluster that a unit alone used are free for another's (12 R270). -/
def freeRings (s : State) (k n idx : Nat) : State :=
  let cl := s.clusterAt k
  if cl.ring.any (fun p => p.2.user = some (n, idx)) then
    s.setCluster k { cl with ring := cl.ring.map (fun p => (p.1, if p.2.user = some (n, idx) then { p.2 with user := none } else p.2)) }
  else s

/-- The unit on a core ends (02 R29): the control core's buffered stores are performed, it leaves the core, and its launch's
count falls. -/
def unitEnds (s : State) (lcore : Nat) (cancelled : Bool) : State :=
  let s := s.drainSbuf lcore
  let c := s.coreAt lcore
  match c.unit with
  | none => s
  | some u =>
    let s1 := (freeRings (releaseUnit s lcore) (clusterOf lcore) u.launch u.idx).setCore lcore { c.vacate with gone := c.gone ++ (if cancelled then c.cmds.map (·.seq) else []) }
    match s1.launchAt u.launch with
    | none => s1
    | some l =>
      let l1 := { l with units := SMap.put l.units u.idx (if cancelled then .cancelled else .complete),
                         sigs := SMap.put l.sigs u.idx c.sig }
      let s2 := s1.setLaunch u.launch l1
      if l1.left = 0 then
        endLaunch s2 u.launch (endStatus l1.cancelled (l1.units.any (fun p => p.2 = .cancelled)))
      else writeLaunchRec s2 l1

/-! ## Rollback (02 R34, R39; 20 R417) -/

/-- A command as it stands before it starts. -/
def Cmd.rewind (m : Cmd) : Cmd :=
  { m with st := .queued, rows := 0, chain := none, rop := none, tent := [], began := [], ev := [], nest := none, ended := false }

/-- Order of sequence numbers, modulo 2^32 (06 R119). -/
def seqLt (a b : BitVec 32) : Bool := a ≠ b && (b - a).toNat < 2 ^ 31

def insertSeq (m : Cmd) : List Cmd → List Cmd
  | [] => [m]
  | k :: t => if seqLt m.seq k.seq then m :: k :: t else k :: insertSeq m t

/-- The commands of a core after a rewind: the replay logs and the queues, in sequence order. -/
def rewindCmds (log cmds : List Cmd) : List Cmd := (log ++ cmds).foldr (fun m l => insertSeq m.rewind l) []

/-- A buffer or bank cleared: every cell +0, tag NONE or MIRV clear. -/
def Core.clearUse (c : Core) : Nat → Core
  | 0 => { c with bufS := {} }
  | 1 => { c with bufF := {} }
  | 2 => { c with bufG := {} }
  | 3 => { c with mc0 := {} }
  | 4 => { c with mc1 := {} }
  | _ => { c with mpstat := 0x80008000 }

/-- What a word of engine M leaves behind that is stopped before its landing (09 R190, 10 R218): the destinations of an
array word or of a load, and MPSTAT at its reset value for every word of 10. A drain's bank stays, and so does the destination of
MTRANS, which neither rule names (log entry 22). -/
def MWork.spoils (m : MWork) : List Nat :=
  match m.i with
  | .accld _ => []
  | .mtrans _ => []
  | .mpstat _ => [5]
  | _ => m.wr

/-- The bank that a nest's step was writing when it was stopped (09 R190, R205). -/
def Core.spoilNest (c : Core) : Core :=
  c.cmds.foldl (fun d m => match m.nest with
    | some n => if c.vcycle < n.free then d.clearUse (3 + n.wb) else d
    | none => d) c

/-- The destinations of the words of M and of a nest's step that have not landed count as interrupted, past their busy time too
(DEDUCED, log entry 22). -/
def Core.spoil (c : Core) : Core := c.mwork.foldl (fun c m => m.spoils.foldl Core.clearUse c) c.spoilNest

/-- A phase as it starts (02 R32): the flags and the number. -/
def newPhase (c : Core) : Phase := { flags0 := c.fl, gang0 := c.gangord, num := c.ph.num + 1 }

/-- Discards the running phase of the unit on a core: back granules, held stores, flag and status sets, pending
changes, queues, tokens, results in flight, engine traps and stopped accesses; flags, ring counts and Almanac entries
return to their values at its start; the engines stop and the queues rewind. -/
def Core.rollback (c : Core) (run : Nat) : Core :=
  let c := c.spoil
  { c with
    ph := { newPhase c with num := c.ph.num, flags0 := c.ph.flags0, gang0 := c.ph.gang0, run := run, nonrepl := c.ph.nonrepl, pushed := c.ph.pushed,
                            cmds := c.ph.cmds.filter (fun k => k.entry = 0) },
    fl := c.ph.flags0, cmds := rewindCmds c.log c.cmds, log := [], flights := [], astores := [], q := {}, tok := {},
    lineA := {}, lineM := {}, lineV := {}, mwork := [], fwait := [], hits := [], mirHits := [], iced := false,
    fbuf := c.fbuf.map (fun r => { r with void := true }), handling := [], gangword := none, gangdone := false, gangord := c.ph.gang0,
    unit := c.unit.map (fun u => { u with specs := u.specs.filter (fun q => q.resolved && q.phase < c.ph.num) }) }

/-- A unit's requests to Wick are discarded (07 R158). -/
def dropWick (s : State) (lcore : Nat) : State :=
  let d := s.dieAt (dieOf lcore)
  if d.wick.isEmpty then s else s.setDie (dieOf lcore) { d with wick := d.wick.filter (fun w => w.lcore ≠ lcore) }

/-- The counters on which a WAITCOUNT of a core's queue is pending (12 R254). -/
def waitsOf (m : SMap Nat) (lcore : Nat) (cmds : List Cmd) : SMap Nat :=
  cmds.foldl (fun m k => if k.frame.kind = 8 then SMap.put m (fld k.frame.dw5 24 6) lcore else m) m

def rollback (s : State) (lcore run : Nat) : State :=
  let c := s.coreAt lcore
  let k := clusterOf lcore
  let cl := s.clusterAt k
  let ring := c.ph.rings0.foldl (fun m p =>
    let now := SMap.get m p.1 {}
    SMap.put m p.1 { p.2 with en := now.en, shared := now.shared, size2 := now.size2, base := now.base }) cl.ring
  let alm := cl.alm.map (fun p => if p.2.live.owner = some lcore then (p.1, { p.2 with live := p.2.start, spec := none, saved := [] }) else p)
  let s1 := (s.setCore lcore (c.rollback run)).setCluster k
    { cl with ring := ring, alm := alm, dues := cl.dues.filter (fun d => d.1 ≠ lcore), dcWait := waitsOf (cl.dcWait.filter (fun p => p.2 ≠ lcore)) lcore (rewindCmds c.log c.cmds) }
  dropWick s1 lcore

/-! ## Cancel (02 R30, R31; 20 R417) -/

/-- Gives a frame back. -/
def freeFrame (s : State) (a : Nat) : State :=
  let die := a / Config.dieHbm
  let d := s.dieAt die
  s.setDie die { d with used := d.used.filter (fun r => die * Config.dieHbm + r.1 * 65536 ≠ a) }

/-- What a saved unit left besides its image is dropped: the scheduler's copy, and the frames of an image that the runtime
made (log entry 43). -/
def dropSaved (s : State) (idx : Nat) (l : Launch) : State :=
  match SMap.find l.kept idx with
  | none => s
  | some c => if c.ctxrt then freeFrame s c.ctxptr.toNat else s

/-- Cancels the unit on a core, and no other: a commit whose exchange has begun completes first (R31); else the phase is rolled back
and the unit ends. -/
def cancelRunning (s : State) (lcore : Nat) : State :=
  let c := s.coreAt lcore
  match c.ph.stage with
  | .drain _ _ => s.setCore lcore { c with ph := { c.ph with ending := true } }
  | .run => unitEnds (rollback s lcore 1) lcore true

/-- The self-tests of a unit note that their command is cancelled (22 R435). -/
def stopTests (s : State) (die n idx : Nat) : State :=
  let d := s.dieAt die
  if d.lamp.any (fun t => t.unit = some (n, idx)) then
    s.setDie die { d with lamp := d.lamp.map (fun (t : Test) =>
      if t.unit = some (n, idx) && t.stopped.isNone then { t with stopped := some s.now } else t) }
  else s

/-- Cancels one unit of a launch, running or not (02 R30). -/
def cancelUnit (s : State) (n idx : Nat) : State :=
  match s.launchAt n with
  | none => s
  | some l =>
    if !l.live then s
    else match SMap.get l.units idx .complete with
      | .running => cancelRunning (stopTests s (dieOf (l.lc0 + idx)) n idx) (l.lc0 + idx)
      | .complete => s
      | .cancelled => s
      | _ =>
        let l1 := { l with units := SMap.put l.units idx .cancelled, kept := SMap.del l.kept idx }
        let k := clusterOf (l.lc0 + idx)
        let s0 := stopTests (dropSaved s idx l) (dieOf (l.lc0 + idx)) n idx
        let s1 := (freeRings (releaseAs s0 k (l.lc0 + idx + Config.cores)) k n idx).setLaunch n l1
        if l1.left = 0 then endLaunch s1 n St.cancelled else writeLaunchRec s1 l1

/-- Cancels a launch (02 R30): every unit inside it. -/
def cancelLaunch (s : State) (n : Nat) : State :=
  match s.launchAt n with
  | none => s
  | some l =>
    if !l.live then s
    else
      let s1 := s.setLaunch n { l with cancelled := true }
      (List.range l.nunit).foldl (fun t u => cancelUnit t n u) s1

/-! ## Contained faults (20 R415-R417) -/

/-- Handling of a record code (20 R415): 0 none, 1 replay, 2 cancel. -/
def handlingOf (code : Nat) : Nat :=
  if code = 5 then 0 else if code = 1 ∨ code = 3 ∨ code = 4 then 1 else 2

/-- The bank that a contained fault is logged in (20 R410, R415). The bank of UNCORR is its source's: `sub` names it. -/
def bankOf (lcore : Nat) (e : Eng) (f : Contained) : Nat × Nat :=
  let d := dieOf lcore
  let own : Nat := match e with | .A => 0 | .M => 1 | .V => 2 | .X => 3
  match f.bank with
  | some k => (d, k)
  | none =>
  match f.code with
  | 1 =>
    match f.sub with
    | 1 => (f.addr.toNat / Config.dieHbm % 8, if Config.hbmStack f.addr.toNat then 10 else 9)
    | 4 => (dieOf (((windowOf f.addr.toNat).map (·.1)).getD lcore), 5)
    | 2 => (d, 8) | 3 => (d, 4) | 5 => (d, 2) | 6 => (d, own) | 7 => (d, 3) | 8 => (d, 11) | 9 => (d, 7)
    | 10 => (d, 0) | _ => (d, own)
  | 3 => (d, own)
  | 4 => (d, 1)
  | 26 => (d, 1)
  | 5 => (d, own)
  | 6 => (d, 3)
  | _ => schedBank

/-- Logs a contained fault of a command of the unit on a core. -/
def logFault (s : State) (lcore : Nat) (eng : Nat) (bank : Nat × Nat) (seq : BitVec 32) (f : Contained) : State :=
  let lid := ((s.coreAt lcore).unit.map (·.lid)).getD 0
  s.log bank.1 bank.2 { cls := 2, lcore := some lcore, lcore2 := f.lcore2, eng := eng, sub := f.sub, code := f.code,
                        addr := f.addr, misc := f.misc.getD (miscOf lid seq) }

/-- What a record does to the unit on a core, after it is logged (20 R417): roll back and run again, at most three
runs in all, or roll back and cancel the launch. A fault met once the exchange has begun is deferred past the commit. -/
def dealWith (s : State) (lcore code : Nat) : State :=
  let c := s.coreAt lcore
  match c.unit with
  | none => s
  | some u =>
    match c.ph.stage with
    | .drain _ _ => if handlingOf code = 0 then s else s.setCore lcore { c with ph := { c.ph with doomed := true } }
    | .run =>
      match handlingOf code with
      | 0 => s
      | 1 => if c.ph.nonrepl || c.ph.run ≥ 3 then cancelLaunch (rollback s lcore 1) u.launch else rollback s lcore (c.ph.run + 1)
      | _ => cancelLaunch (rollback s lcore 1) u.launch

/-- Raises a contained fault of an engine's command against the unit on a core. -/
def raiseAt (s : State) (lcore : Nat) (e : Eng) (seq : BitVec 32) (f : Contained) : State :=
  dealWith (logFault s lcore (engCode e) (bankOf lcore e f) seq f) lcore f.code

/-- The command at work raises a contained fault: the record, then what R417 says of the phase. -/
def State.fault (s : State) (f : Contained) : Out :=
  .next { raiseAt s s.cur.lcore (f.eng.getD s.cur.eng) (if s.cur.entry then 0 else s.cur.seq) f with note := .fault f }

/-! ## The commit (02 R34, R37) -/

/-- A granule's bytes as one number, and back. -/
def granBytes (g : BitVec 512) : List Byte := leBytes 64 g.toNat
def granOf (bs : List Byte) : BitVec 512 := BitVec.ofNat 512 (leNat bs)

/-- Back granules that hold only work that is not tentative: those without a pre-image (13 R285). -/
def Phase.firm (p : Phase) : SMap Gran :=
  p.back.filter (fun g => !(p.held.any (fun h => h.pre.isSome && h.addr = g.1 * 64)))

/-- Whether some granule or held entry mixes tentative work with work that is not: an early commit waits (02 R37). -/
def Phase.mixed (p : Phase) : Bool :=
  p.held.any (fun h => match h.pre with
    | some x => x.2
    | none => h.tag.isSome && p.held.any (fun k => k.tag.isNone && k.pre.isNone && k.addr = h.addr))

/-- Events after a unit's pending changes. -/
def applyEv (ev set clr : Word) : Word := (ev &&& ~~~clr) ||| set

/-- The bit numbers set in a doubleword. -/
def bitsOf (w : Word) : List Nat := (List.range 64).filter (fun k => w.getLsbD k)

/-- A dependence counter's decrements; a counter at zero stays there, and the second result says that it was found there
(12 R257). -/
def decDc (v : BitVec 32) (k : Nat) : BitVec 32 × Bool :=
  if v.toNat < k then (0, true) else (v - BitVec.ofNat 32 k, false)

/-- Committed decrements of a cluster's counters. -/
def applyDecs (dc : SMap (BitVec 32)) (ds : SMap Nat) : SMap (BitVec 32) × Bool :=
  ds.foldl (fun acc d =>
    let (v, u) := decDc (SMap.get acc.1 d.1 0) d.2
    (SMap.put acc.1 d.1 v, acc.2 || u)) (dc, false)

/-- Records whose commit signalled events (14 R319). -/
def signalledBy (m : SMap (List (Nat × Nat × Nat))) (u : Option Run) (phase : Nat) (set : Word) : SMap (List (Nat × Nat × Nat)) :=
  match u with
  | none => m
  | some u => (bitsOf set).foldl (fun m n => SMap.put m n ((u.launch, u.idx, phase) :: SMap.get m n [])) m

/-- The poisoned 8-byte words of the back copy of a granule, by scratchpad offset divided by 8. -/
def Gran.badWords (g : Gran) (k : Nat) : List Nat := ((List.range 8).filter (fun j => g.bad.getLsbD j)).map (8 * k + ·)

/-- POISONOUT in a bank of the core's die: the launch is cancelled after the retirement (20 R418). -/
def poisonedOut (s : State) (lcore bank addr : Nat) : State :=
  (logFault s lcore 6 (dieOf lcore, bank) 0 { code := 6, addr := BitVec.ofNat 64 addr }).updCore lcore
    (fun c => { c with ph := { c.ph with doomed := true } })

/-- The exchange (02 R34 step 1): every firm back granule becomes the front granule, the flag and status sets merge
into FXFLAGS and ASTAT (04 R80, 11 R242), and pending events and decrements enter the committed ones (12 R256, R257), in
one step. The log empties. Tentative work stays back (R37). -/
def exchange (s : State) (lcore : Nat) : State :=
  let c := s.coreAt lcore
  let k := clusterOf lcore
  let cl := s.clusterAt k
  let firm := c.ph.firm
  let spad := firm.foldl (fun m g => m.writeN (g.1 * 64) (granBytes g.2.data)) cl.spad
  let pois := firm.foldl (fun p g => unpoison p (g.1 * 64) 64 ++ g.2.badWords g.1) cl.poison
  let dirty := firm.foldl (fun d g => d ||| ((1 : BitVec 512) <<< (g.1 / 64))) c.dirty
  let (dc, under) := applyDecs cl.dc c.ph.dec
  let by' := signalledBy (cl.evBy.filter (fun p => !c.ph.evClr.getLsbD p.1)) c.unit c.ph.num c.ph.evSet
  let held := c.ph.held
  let c1 := { c with fxflags := c.fxflags ||| c.ph.flags, astat := c.astat ||| c.ph.stat, dirty := dirty, log := [],
                     ph := { c.ph with back := c.ph.back.filter (fun g => held.any (fun h => h.pre.isSome && h.addr = g.1 * 64)),
                                       flags := 0, stat := 0, evSet := 0, evClr := 0, dec := [] } }
  let s1 := (s.setCore lcore c1).setCluster k { cl with spad := spad, poison := pois, ev := applyEv cl.ev c.ph.evSet c.ph.evClr,
                                                          evBy := by', dc := dc }
  let s2 := (firm.filter (fun g => g.2.bad ≠ 0)).foldl (fun t g => poisonedOut t lcore 4 (g.1 * 64)) s1
  if under then
    let s3 := logFault s2 lcore 6 schedBank 0 { code := 30 }
    s3.updCore lcore (fun c => { c with ph := { c.ph with doomed := true } })
  else s2

/-- What the phase held in a byte before the first of its ordered stores to it; none where no such store is there. -/
def beforeRels (rels : List SbEnt) (a : Nat) : Option (Option Byte) :=
  match rels with
  | [] => none
  | e :: t => if e.addr ≤ a ∧ a < e.addr + e.data.length then some (e.prev.getD (a - e.addr) none) else beforeRels t a

/-- The bytes of a held entry that come before the ordered stores of the phase. -/
def Held.unordered (h : Held) (rels : List SbEnt) : List (Option Byte) :=
  (List.range 64).map (fun j =>
    if h.mask.getLsbD j then (beforeRels rels (h.addr + j)).getD (some (h.data.extractLsb' (8 * j) 8)) else none)

/-- Held entries that carry an uncorrectable error are performed as poisoned words: POISONOUT, and the launch is cancelled
after the retirement (20 R418). -/
def poisonOut (s : State) (lcore : Nat) (held : List Held) : State :=
  (held.filter (·.bad)).foldl (fun t h =>
    let words := (List.range 8).filterMap (fun k => if h.mask.toNat / 2 ^ (8 * k) % 256 = 0 then none else some (h.addr / 8 + k))
    let ups := if h.repl then t.hub.updates.map (fun u => if u.lcore = lcore && words.contains (u.addr / 8) then { u with bad := true } else u)
      else t.hub.updates
    poisonedOut { t with poison := t.poison ++ words.map (fun w => (w, .hbm)), hub := { t.hub with updates := ups } } lcore 3 h.addr) s

/-- The drain (02 R34 step 2): the held stores that are not tentative are performed in the order that the phase's releases
require (12 R260, 14 R308): what comes before the ordered stores, then these in their order, each aligned 8-byte part at
once (14 R301). -/
def drain (s : State) (lcore : Nat) : State :=
  let c := s.coreAt lcore
  let go := c.ph.held.filter (fun h => h.tag.isNone && h.pre.isNone)
  let rs := (c.ph.rels.filter (fun r => r.2.isNone)).map (·.1)
  let kept := c.ph.held.filter (fun h => h.tag.isSome || h.pre.isSome)
  let s1 := s.setCore lcore { c with ph := { c.ph with held := kept, rels := c.ph.rels.filter (fun r => r.2.isSome) } }
  let s2 := go.foldl (fun t h => (dwParts h.addr (h.unordered rs)).foldl (fun t p => t.physWrite lcore p.1 p.2 h.repl) t) s1
  let s3 := rs.foldl (fun t e => t.relWrite lcore e.addr e.data e.repl) s2
  let s4 := poisonOut s3 lcore go
  s4.setCluster (clusterOf lcore) { s4.clusterAt (clusterOf lcore) with relUpd := s4.hub.updates.length }

/-- The phase of a portable kernel in which an address of its code lies (01 R21). -/
def Run.phaseAt (u : Run) (pc : Word) : Nat := (u.ends.filter (fun e => e.toNat ≤ pc.toNat)).length

/-- The control part of a portable kernel is about to run an instruction of another of its phases: what it left to the engines
before belongs to the phase that ends there, which wkld's commands commit (12 R253; DESIGN CHOICE, log entry 12). A called
function runs in the phase of its caller. -/
def Core.crossing (c : Core) : Bool :=
  c.mode = .U && (match c.unit with
    | none => false
    | some u => !u.ends.isEmpty && u.entry.toNat ≤ c.pc.toNat && c.pc.toNat < u.kend.toNat && u.phaseAt c.pc ≠ u.portPhase)

/-- The control part goes on in the phase that its pc lies in. -/
def Core.crossed (c : Core) : Core :=
  if c.crossing then { c with unit := c.unit.map (fun u => { u with portPhase := u.phaseAt c.pc }) } else c

/-- What a rollback after this moment returns to: the flags, rings and Almanac entries as they now stand. -/
def freshStart (s : State) (lcore : Nat) : State :=
  let k := clusterOf lcore
  let cl := s.clusterAt k
  let s1 := s.setCluster k { cl with alm := cl.alm.map (fun p =>
    if p.2.live.owner = some lcore && p.2.saved.isEmpty then (p.1, { p.2 with start := p.2.live }) else p) }
  s1.updCore lcore (fun c => { c with ph := { c.ph with flags0 := c.fl, gang0 := c.gangord, rings0 := [] } })

/-- An early commit (02 R37): exchange and drain of what is not tentative, and the phase is non-replayable from here. -/
def earlyCommit (s : State) (lcore : Nat) : State :=
  (freshStart (drain (exchange s lcore) lcore) lcore).updCore lcore (fun c => { c with ph := { c.ph with nonrepl := true } })

end Sys2Proof.Machine
end

