-- ==== Sys2Proof/Machine/Access.lean ====
section
/-! DEFINITION. Accesses by the engines of a unit: the command at work and its extents (02 R35), cluster scratchpad with
its front and back copies (02 R33), ring bytes (12 R270), Almanac regions (13 R278, R283), and virtual memory with the
held-store buffer (12 R260, R261) and the accesses of R37. -/

namespace Sys2Proof.Machine

/-! ## The command at work -/

def Core.cmdOf (c : Core) (e : Eng) (seq : BitVec 32) : Option Cmd :=
  c.cmds.find? (fun m => m.seq = seq && engOf m.frame.engCode = e)
def Core.updCmd (c : Core) (e : Eng) (seq : BitVec 32) (f : Cmd → Cmd) : Core :=
  { c with cmds := c.cmds.map (fun m => if m.seq = seq && engOf m.frame.engCode = e then f m else m) }

/-- The command at work. -/
def State.cmd (s : State) : Option Cmd := s.me.cmdOf s.cur.eng s.cur.seq
def State.updCmd (s : State) (g : Cmd → Cmd) : State := s.updMe (fun c => c.updCmd s.cur.eng s.cur.seq g)
/-- The frame at work: the command's, or that of the entry of its chain. -/
def State.frame (s : State) : Frame :=
  match s.cmd with
  | none => {}
  | some m => if s.cur.entry then ((m.chain.bind (·.cur)).map (·.frame)).getD {} else m.frame
/-- What the command captured (06 R117). A chain entry runs with its LINK's (12 R262). -/
def State.cap (s : State) : Captured := (s.cmd.map (·.cap)).getD {}
def State.fmode (s : State) : Word := s.cap.fmode
/-- The unit's launch id, L of 04 R77. -/
def State.lid (s : State) : BitVec 32 := (s.me.unit.map (·.lid)).getD 0
/-- The speculations that the command at work is tentative on (13 R284). -/
def State.tent (s : State) : List SpecId := (s.cmd.map (·.tent)).getD []
def State.isTent (s : State) : Bool := !s.tent.isEmpty

/-- Whether the command falls under the deterministic rules (12 R247). -/
def State.det (s : State) : Bool := s.frame.dw0.getLsbD 14 || Fmode.det s.fmode

/-! ## Completion (13 R284, R289) -/

/-- Completed tentatively (13 R284). -/
def Cmd.tentDone (m : Cmd) : Bool := m.st = .done && !m.tent.isEmpty

/-- A predecessor is satisfied once it has retired or completed tentatively (12 R255, 13 R284). -/
def Core.satisfied (c : Core) (p : BitVec 32) : Bool :=
  match c.cmds.find? (fun k => k.seq = p) with
  | none => true
  | some k => k.tentDone

/-- Speculations of the unit that are decided and whose producer has completed become due, behind those of the cluster that
became due before (13 R289). -/
def noteDues (s : State) : State :=
  let cl := s.myCluster
  let l := s.cur.lcore
  let new := (((s.me.unit.map (·.specs)).getD []).filter (fun q =>
    !q.resolved && q.ran.isSome && !cl.dues.contains (l, q.id) && s.me.satisfied q.id.2)).map (fun q => (l, q.id))
  if new.isEmpty then s else s.setMyCluster { cl with dues := cl.dues ++ new }

/-! ## Order of commands (18 R385) -/

/-- One relation of R385 from `x` to `y`. -/
def follows (x y : Checked) : Bool :=
  (y.entry > 0 && x.seq = y.seq && x.entry < y.entry) ||
  (x.entry = 0 && y.entry = 0 && (y.preds.contains x.seq || (x.eng = y.eng && seqLt x.seq y.seq))) ||
  (y.wait &&& x.signal) ≠ 0

/-- The commands that a list leads to in `n` steps. -/
def reach (cs : List Checked) : Nat → List Checked → List Checked
  | 0, l => l
  | n + 1, l => reach cs n (cs.filter (fun y => l.contains y || l.any (fun x => follows x y)))

/-- Whether `b` is ordered after `a`. -/
def orderedAfter (cs : List Checked) (a b : Checked) : Bool := a ≠ b && (reach cs cs.length [a]).contains b

/-- The place in its chain of the entry at work; 0 for a command itself. -/
def State.entryNo (s : State) : Nat :=
  if s.cur.entry then (s.me.ph.cmds.filter (fun k => k.seq = s.cur.seq)).foldl (fun m k => max m k.entry) 0 else 0

/-- The command or chain entry at work, as the author of its stores. -/
def State.author (s : State) : Author := (s.cur.seq, s.entryNo)
/-- The author of the Almanac's own writes, which every reader of its regions follows (13 R278). -/
def almAuthor : Author := (0, 2 ^ 32)

/-- The command or entry of an author among those of the phase. -/
def Phase.byAuthor (p : Phase) (a : Author) : Option Checked := p.cmds.find? (fun k => k.seq = a.1 && k.entry = a.2)

/-- Whether the command at work sees the phase's stores of some of their authors: it is one of them, or ordered after one
(02 R33, 12 R260). -/
def State.sees (s : State) (who : List Author) : Bool :=
  let me := s.author
  who.contains me || who.contains almAuthor ||
  (match s.me.ph.byAuthor me with
   | none => true
   | some y => who.any (fun a => match s.me.ph.byAuthor a with
     | none => true
     | some x => orderedAfter s.me.ph.cmds x y))

/-! ## Extents and regions -/

/-- An extent of a frame's dw13 or dw14: base and length (12 R249). -/
def extentOf (w : Word) : Nat × Nat := (fld w 0 21, fld w 32 32)
def inExtent (x : Nat × Nat) (o n : Nat) : Bool := x.1 ≤ o && o + n ≤ x.1 + x.2
def meets (a an b bn : Nat) : Bool := a < b + bn && b < a + an && an ≠ 0 && bn ≠ 0

/-- A range of bytes: its first, and the one past its last. -/
abbrev Span := Nat × Nat

/-- What is left of ranges once the bytes from `a` to `b` are taken out of them. -/
def cutOut (a b : Nat) (l : List Span) : List Span :=
  l.flatMap (fun r => [(r.1, min r.2 a), (max r.1 b, r.2)].filter (fun x => x.1 < x.2))

/-- Whether a byte range touches a back store of a running unit of the cluster (02 R33). -/
def Cluster.inBack (cl : Cluster) (o n : Nat) : Bool := cl.backs.any (fun b => meets o n b.2.1 b.2.2)

/-- The layout of an Almanac entry (13 R276, R277). -/
def AlmLive.dw (a : AlmLive) (k : Nat) : Word := SMap.get a.desc k 0
def AlmLive.rows (a : AlmLive) : Nat := fld (a.dw 0) 16 16
def AlmLive.cols (a : AlmLive) : Nat := fld (a.dw 0) 32 16
def AlmLive.ty (a : AlmLive) : Nat := fld (a.dw 0) 12 4
def AlmLive.order (a : AlmLive) : Nat := fld (a.dw 0) 10 2
def AlmLive.rb (a : AlmLive) : Nat := a.cols * width a.ty / 8
def AlmLive.size (a : AlmLive) : Nat := a.rows * a.rb
def AlmLive.home (a : AlmLive) : Nat := fld (a.dw 1) 0 21
def AlmLive.hpitch (a : AlmLive) : Nat := fld (a.dw 1) 32 32
def AlmLive.slot (a : AlmLive) (k : Nat) : Nat :=
  match k with
  | 0 => fld (a.dw 2) 0 21
  | 1 => fld (a.dw 2) 32 21
  | _ => fld (a.dw 3) 0 21
def AlmLive.pbuf (a : AlmLive) : Nat := fld (a.dw 3) 32 21
/-- The version slots and the prediction buffer. -/
def AlmLive.regions (a : AlmLive) : List Nat := [a.slot 0, a.slot 1, a.slot 2, a.pbuf]
/-- The tile row and column byte of a home-tile byte, if the byte is one. -/
def AlmLive.homeByte (a : AlmLive) (o : Nat) : Option Nat :=
  if o < a.home ∨ a.hpitch = 0 then none
  else
    let r := (o - a.home) / a.hpitch
    let k := (o - a.home) % a.hpitch
    if r < a.rows ∧ k < a.rb then some (r * a.rb + k) else none

/-- Declared entries of the cluster. -/
def Cluster.declared (cl : Cluster) : List (Nat × Alm) := cl.alm.filter (fun p => p.2.live.owner.isSome)

/-- Whether a range meets a version slot or prediction buffer of a declared entry (13 R278). -/
def Cluster.inAlm (cl : Cluster) (o n : Nat) : Bool :=
  cl.declared.any (fun p => p.2.live.regions.any (fun b => meets o n b p.2.live.size))

/-- What is left of ranges outside the regions of declared entries. -/
def Cluster.offAlm (cl : Cluster) (l : List Span) : List Span :=
  cl.declared.foldl (fun l p => p.2.live.regions.foldl (fun l b => cutOut b (b + p.2.live.size) l) l) l

/-! ## Rings (12 R269, R270) -/

def Ring.size (r : Ring) : Nat := 2 ^ r.size2.toNat
def pad8 (n : Nat) : Nat := (n + 7) / 8 * 8

/-- What is left of a range outside the bytes of enabled rings, which the checks of R35 pass over (12 R270). -/
def Cluster.offRings (cl : Cluster) (a b : Nat) : List Span :=
  cl.ring.foldl (fun l p => if p.2.en then cutOut p.2.base.toNat (p.2.base.toNat + p.2.size) l else l) (if a < b then [(a, b)] else [])

/-- A ring's published payloads: from a count on, the offset and length of each record (12 R270). -/
def published (rd : Nat → Nat) (base z : Nat) : Nat → Nat → Nat → List (Nat × Nat)
  | 0, _, _ => []
  | fuel + 1, at', left =>
    if left = 0 then []
    else
      let o := base + at' % z
      let len := rd o
      let n := 8 + pad8 len
      if n > left then [(o + 8, len)] else (o + 8, len) :: published rd base z fuel (at' + n) (left - n)

/-- The unit on the core whose turn it is, by launch and index; a core without one has none of a launch's. -/
def State.unitKey (s : State) : Nat × Nat := (s.me.unit.map (fun u => (u.launch, u.idx))).getD (0, s.cur.lcore)

/-- Whether a ring is another unit's: its parties have used it since it was enabled, or hold a claim of it (12 R270; DEDUCED,
log entry 30). -/
def ringForeign (s : State) (k : Nat) : Bool :=
  let r := SMap.get s.myCluster.ring k {}
  r.claims.any (fun c => c.core ≠ s.cur.lcore) || (r.user.map (fun u => decide (u ≠ s.unitKey))).getD false

/-! ## Cluster scratchpad -/

/-- What an access of an engine comes to. A fault and a wait keep the state that the access has come to: an early commit
that it made stands (02 R37). -/
inductive Acc where
  | ok (s : State) (bs : List Byte)
  | fault (s : State) (f : Contained)
  /-- a page that is not present: virtual address, level, entry's address (19 R392) -/
  | missing (s : State) (va lvl eaddr : Nat)
  | wait (s : State)
deriving DecidableEq, Repr

/-- A granule as a core's unit last wrote it: its back copy, or the front (02 R33). -/
def granule (c : Core) (cl : Cluster) (g : Nat) : Gran :=
  match SMap.find c.ph.back g with
  | some b => b
  | none => { data := granOf (cl.spad.readN (g * 64) 64) }

/-- Scratchpad bytes as a core's unit last wrote them: what a reader ordered after every store of the phase sees. -/
def spadBytes (c : Core) (cl : Cluster) (o n : Nat) : List Byte :=
  if c.ph.back.isEmpty then cl.spad.readN o n
  else (List.range n).map (fun k =>
    match SMap.find c.ph.back ((o + k) / 64) with
    | some b => b.data.extractLsb' (8 * ((o + k) % 64)) 8
    | none => cl.spad.read (o + k))

/-- The back copy that the command at work reads a byte from; none where it reads the front (02 R33). A ring's bytes reach
every party in the order of their publication (12 R274). -/
def State.backAt (s : State) (o : Nat) : Option Gran :=
  match SMap.find s.me.ph.back (o / 64) with
  | none => none
  | some b => if s.sees b.who || (s.myCluster.offRings o (o + 1)).isEmpty then some b else none

/-- Where the command at work reads a byte: in the prediction buffer, for a byte of a home tile on whose speculation it
started tentative (13 R283). -/
def State.sourceOf (s : State) (o : Nat) : Nat :=
  (((s.cmd.map (·.began)).getD []).foldl (fun x b =>
    match x with
    | some _ => x
    | none => (b.2.homeByte o).map (b.2.pbuf + ·)) none).getD o

/-- Bytes of scratchpad as the command at work reads them, and whether one of them carries poison (20 R416). -/
def State.padBytes (s : State) (o n : Nat) : List Byte × Bool :=
  let cl := s.myCluster
  if s.me.ph.back.isEmpty && ((s.cmd.map (·.began)).getD []).isEmpty then (cl.spad.readN o n, poisoned cl.poison o n)
  else
    let xs := (List.range n).map (fun k =>
      let a := s.sourceOf (o + k)
      match s.backAt a with
      | some b => (b.data.extractLsb' (8 * (a % 64)) 8, b.bad.getLsbD (a % 64 / 8))
      | none => (cl.spad.read a, poisoned cl.poison a 1))
    (xs.map (·.1), xs.any (·.2))

/-- The checks of range and back store (11 R232, R234). -/
def spadPlace (cl : Cluster) (o n : Nat) : Option Contained :=
  if o + n > Config.spadBytes then some { code := 17, sub := 1, addr := BitVec.ofNat 64 o }
  else if cl.inBack o n then some { code := 17, sub := 2, addr := BitVec.ofNat 64 o }
  else none

/-- The bytes of a ring that a core may read or write: the payload of a record that it has claimed and not published, or, for
a read, of a published record not yet freed or of a claim of its own (12 R270). -/
def ringAllows (c : Core) (cl : Cluster) (lcore : Nat) (r : Ring) (wr : Bool) : List (Nat × Nat) :=
  (r.claims.filter (fun k => k.core = lcore && (!wr || !k.pub))).map (fun k => (r.base.toNat + k.pos + 8, k.len)) ++
  (if wr then [] else published (fun a => leNat (spadBytes c cl a 4)) r.base.toNat r.size (r.size / 8) r.head.toNat (r.tail - r.head).toNat)

/-- An access to bytes of an enabled ring that breaks R270, or is made by another unit than that of a ring with SHARED clear
(12 R273). -/
def ringBreach (s : State) (o n : Nat) (wr : Bool) : Bool :=
  let cl := s.myCluster
  cl.ring.any (fun p =>
    let r := p.2
    let a := max o r.base.toNat
    let b := min (o + n) (r.base.toNat + r.size)
    r.en && a < b && ((!r.shared && ringForeign s p.1) ||
      !((ringAllows s.me cl s.cur.lcore r wr).foldl (fun l x => cutOut x.1 (x.1 + x.2) l) [(a, b)]).isEmpty))

/-- What a byte range breaks of the rules for ring bytes, regions and extents: `xs` are the extents that the access may use
(02 R35, 12 R270, 13 R278). -/
def setBad (s : State) (xs : List (Nat × Nat)) (o n : Nat) (wr : Bool) : Option Contained :=
  let cl := s.myCluster
  let rest := cl.offRings o (o + n)
  let rest := if wr then rest else cl.offAlm rest
  if ringBreach s o n wr then some { code := 31, addr := BitVec.ofNat 64 o }
  else if (wr && cl.inAlm o n) || !(xs.foldl (fun l x => cutOut x.1 (x.1 + x.2) l) rest).isEmpty then
    some { code := 19, addr := BitVec.ofNat 64 o }
  else none

/-- Whether a read meets a granule with another unit's back copy, which is an overlap under FMODE.DET (02 R35). -/
def otherBack (s : State) (o n : Nat) : Bool :=
  let rest := s.myCluster.offRings o (o + n)
  (List.range 4).any (fun k =>
    let q := clusterOf s.cur.lcore * 4 + k
    q ≠ s.cur.lcore && (s.coreAt q).ph.back.any (fun g => rest.any (fun r => meets r.1 (r.2 - r.1) (g.1 * 64) 64)))

/-- Reads scratchpad for a command (02 R33, R35). `xs` are the extents that the read may use. -/
def spadRead (s : State) (xs : List (Nat × Nat)) (o n : Nat) : Acc :=
  match spadPlace s.myCluster o n with
  | some f => .fault s f
  | none =>
    match setBad s xs o n false with
    | some f => .fault s f
    | none =>
      if Fmode.det s.fmode && otherBack s o n then .fault s { code := 18, addr := BitVec.ofNat 64 o }
      else
        let (bs, bad) := s.padBytes o n
        if bad then .fault s { code := 1, sub := 3, addr := BitVec.ofNat 64 o } else .ok s bs

/-- A byte of which a store keeps a half: no read of the command, which needs no extent for it. -/
def State.keptByte (s : State) (o : Nat) : Acc :=
  let (bs, bad) := s.padBytes o 1
  if bad then .fault s { code := 1, sub := 3, addr := BitVec.ofNat 64 o } else .ok s bs

/-- Whether a range, as the unit's last stores left it, has poison in it. -/
def readsPoison (c : Core) (cl : Cluster) (o n : Nat) : Bool :=
  (List.range n).any (fun k => match SMap.find c.ph.back ((o + k) / 64) with
    | some b => b.bad.getLsbD ((o + k) % 64 / 8)
    | none => poisoned cl.poison (o + k) 1)

/-- The held entries once the command tagged writes bytes (a mask) of a granule (13 R285): a tentative command's first
write saves the pre-image, and work that is not tentative marks the pre-images it meets. -/
def savePre (held : List Held) (tag : Option (BitVec 32)) (a : Nat) (mask : BitVec 64) (old : Gran) (backed : Bool) : List Held :=
  let here (h : Held) : Bool := h.pre.isSome && h.addr = a
  match tag with
  | none => held.map (fun h => if here h then { h with pre := h.pre.map (fun x => (x.1, true)) } else h)
  | some t =>
    if held.any (fun h => here h && h.tag = some t) then
      held.map (fun h => if here h && h.tag = some t then { h with mask := h.mask ||| mask } else h)
    else
      let firm := backed && (!held.any here || held.any (fun h => here h && (h.pre.map (·.2)).getD false))
      held ++ [{ addr := a, mask := mask, data := 0, tag := some t, pre := some (old, firm) }]

/-- An author's store of bytes, those with a mask bit, into the back copy of a granule; an 8-byte word that it replaces whole
carries no error any more (20 R416). -/
def Gran.store (g : Gran) (who : Author) (mask : BitVec 64) (new : BitVec 512) : Gran where
  data := new
  mask := g.mask ||| mask
  bad := (List.range 8).foldl (fun (b : BitVec 8) k =>
    if mask.toNat / 2 ^ (8 * k) % 256 = 255 then b &&& ~~~((1 : BitVec 8) <<< k) else b) g.bad
  who := if g.who.contains who then g.who else g.who ++ [who]

/-- Writes bytes into the back copies of a core's phase, granule by granule (02 R33). -/
def backWrite (c : Core) (cl : Cluster) (tag : Option (BitVec 32)) (who : Author) (o : Nat) (bs : List Byte) : Core :=
  let lo := o / 64
  let hi := (o + bs.length + 63) / 64
  (List.range (hi - lo)).foldl (fun c k =>
    let g := lo + k
    let old := granule c cl g
    let hit (j : Nat) : Bool := o ≤ g * 64 + j && g * 64 + j < o + bs.length
    let new := granOf ((granBytes old.data).mapIdx (fun j b => if hit j then bs.getD (g * 64 + j - o) b else b))
    let mask := (List.range 64).foldl (fun (m : BitVec 64) j => if hit j then m ||| ((1 : BitVec 64) <<< j) else m) 0
    let held := if tag.isNone && c.ph.held.isEmpty then c.ph.held
      else savePre c.ph.held tag (g * 64) mask old (SMap.find c.ph.back g).isSome
    { c with ph := { c.ph with back := SMap.put c.ph.back g (old.store who mask new), held := held } }) c

/-- The tag of held entries: the command, while it is tentative. -/
def State.tag (s : State) : Option (BitVec 32) := if s.isTent then some s.cur.seq else none

/-- Whether the unit's held entries leave room for `n` more (12 R260); else an early commit of the phase comes first, and
while any entry is tentative the store waits (12 R261). -/
def makeRoom (s : State) (n : Nat) : Option State :=
  if n = 0 || s.me.ph.held.length + n ≤ 2048 then some s
  else if s.me.ph.held.any (fun h => h.tag.isSome) then none
  else some (earlyCommit s s.cur.lcore)

/-- Pre-images that a command's tentative write of a range has still to save (13 R285). -/
def preNeed (held : List Held) (tag : BitVec 32) (o n : Nat) : Nat :=
  ((List.range ((o + n + 63) / 64 - o / 64)).filter (fun k =>
    !held.any (fun h => h.pre.isSome && h.addr = (o / 64 + k) * 64 && h.tag = some tag))).length

/-- Whether the first write of the phase to a granule copies a poisoned word that the write does not replace whole: the copy
is a use of it (20 R416). -/
def copiesPoison (s : State) (o n : Nat) : Bool :=
  (unpoison s.myCluster.poison o n).any (fun w =>
    n ≠ 0 && o / 64 ≤ w / 8 && w / 8 ≤ (o + n - 1) / 64 && (SMap.find s.me.ph.back (w / 8)).isNone)

/-- Writes scratchpad for a command (02 R33, R35; 13 R278, R283). -/
def spadWrite (s : State) (xs : List (Nat × Nat)) (o : Nat) (bs : List Byte) : Acc :=
  let cl := s.myCluster
  let n := bs.length
  match spadPlace cl o n with
  | some f => .fault s f
  | none =>
    match setBad s xs o n true with
    | some f => .fault s f
    | none =>
      if s.tent.any (fun t => (List.range n).any (fun k => ((SMap.get cl.alm t.1 {}).live.homeByte (o + k)).isSome)) then
        .fault s { code := 32, addr := BitVec.ofNat 64 o }
      else if copiesPoison s o n then .fault s { code := 1, sub := 3, addr := BitVec.ofNat 64 o }
      else
        match (if s.isTent then makeRoom s (preNeed s.me.ph.held s.cur.seq o n) else some s) with
        | none => .wait s
        | some s1 => .ok (s1.setMe (backWrite s1.me cl s1.tag s1.author o bs)) []

/-- The runs of bytes to write in a list, each with its offset. -/
def byteRuns : Nat → List (Option Byte) → List (Nat × List Byte)
  | _, [] => []
  | o, none :: t => byteRuns (o + 1) t
  | o, some b :: t =>
    match byteRuns (o + 1) t with
    | (p, bs) :: r => if p = o + 1 then (o, b :: bs) :: r else (o, [b]) :: (p, bs) :: r
    | [] => [(o, [b])]

/-- Writes the bytes of a list that are there. -/
def spadWriteSome (s : State) (xs : List (Nat × Nat)) : List (Nat × List Byte) → Acc
  | [] => .ok s []
  | (o, bs) :: t =>
    match spadWrite s xs o bs with
    | .ok s1 _ => spadWriteSome s1 xs t
    | x => x

/-- The read-set and write-set extents of the frame at work. -/
def State.rdExt (s : State) : List (Nat × Nat) := [extentOf s.frame.dw13]
def State.wrExt (s : State) : List (Nat × Nat) := [extentOf s.frame.dw14]

/-! ## Virtual memory -/

/-- Splits a range at 64 KiB boundaries (11 R233): address and length of each part. -/
def parts : Nat → Nat → Nat → List (Nat × Nat)
  | 0, _, _ => []
  | fuel + 1, a, n =>
    if n = 0 then []
    else
      let k := min n (65536 - a % 65536)
      (a, k) :: parts fuel (a + k) (n - k)

/-- A part of an engine's access once translated. -/
inductive Spot where
  | mem (pa : Nat) (kind : Nat) (repl : Bool)
  | win (core off : Nat)
deriving DecidableEq, Repr

/-- Translates every part of an access before any byte moves. -/
def spots (s : State) (e : Eng) (w : Want) : List (Nat × Nat) → Except Acc (State × List (Nat × Nat × Spot))
  | [] => .ok (s, [])
  | (a, n) :: t =>
    let here : Except Acc (State × Spot) :=
      match windowOf a with
      | some (k, o) =>
        if s.windowOk s.cur.lcore k && o + n ≤ Config.accBytes then .ok (s, .win k o)
        else .error (.fault s { code := 17, sub := 4, addr := BitVec.ofNat 64 a })
      | none =>
        match translateVa s s.cur.lcore (some e) a w with
        | (s1, .ok pa ent _) => .ok (s1, .mem pa (eKind ent) (eRepl ent))
        | (s1, .missing l ea) => .error (.missing s1 a l ea)
        | (_, .perm) => .error (.fault s { code := 17, sub := 4, addr := BitVec.ofNat 64 a })
    match here with
    | .error x => .error x
    | .ok (s1, p) =>
      match spots s1 e w t with
      | .error x => .error x
      | .ok (s2, ps) => .ok (s2, (a, n, p) :: ps)

/-- Whether an access meets an SO page. -/
def onSo (ps : List (Nat × Nat × Spot)) : Bool :=
  ps.any (fun p => match p.2.2 with
    | .mem _ k _ => k = 1
    | .win _ _ => false)
/-- Whether a write meets another core's SRAM. -/
def onOther (lcore : Nat) (ps : List (Nat × Nat × Spot)) : Bool :=
  ps.any (fun p => match p.2.2 with
    | .mem _ _ _ => false
    | .win t _ => t ≠ lcore)

/-- The early commit before an access to an SO page, a FENCEV SC, or a step of a shared ring, each of which makes what
came before it visible (12 R270, R274; 14 R306, R308): a tentative command, or mixed granules, wait (02 R37, 13 R286). -/
def beforeEarly (s : State) : Option State :=
  if s.isTent || s.me.ph.mixed then none
  else some ((earlyCommit s s.cur.lcore).updMe (fun c => { c with ph := { c.ph with acc37 := true } }))

/-- The place of an access to an SO page in the order of R306: the early commit, and then every replica has the unit's
earlier writes (14 R310). An error is a wait. -/
def beforeSo (s : State) : Except State State :=
  match beforeEarly s with
  | none => .error s
  | some s1 => if s1.replPending s.cur.lcore then .error s1 else .ok s1

/-- The early commit before the phase's first access of R37; a later access finds it made (02 R37). -/
def firstEarly (s : State) : Option State :=
  if s.isTent then none
  else if s.me.ph.acc37 then some s
  else beforeEarly s

/-- Whether a held entry of stores holds some of the bytes from `pa`, as a reader that sees its authors reads them. -/
def heldHere (s : State) (h : Held) (pa n : Nat) : Bool := h.pre.isNone && meets pa n h.addr 64 && s.sees h.who

/-- Held bytes over memory's, for the command at work (12 R260): the entries in order, the later over the earlier. -/
def heldOver (s : State) (pa : Nat) (bs : List Byte) : List Byte :=
  s.me.ph.held.foldl (fun bs h =>
    if !heldHere s h pa bs.length then bs
    else bs.mapIdx (fun k b =>
      if h.addr ≤ pa + k ∧ pa + k < h.addr + 64 ∧ h.mask.getLsbD (pa + k - h.addr) then h.data.extractLsb' (8 * (pa + k - h.addr)) 8 else b)) bs

/-- Whether bytes that the command at work reads stand in a held entry that carries an uncorrectable error (20 R416). -/
def heldBad (s : State) (pa n : Nat) : Bool :=
  s.me.ph.held.any (fun h => h.bad && heldHere s h pa n &&
    (List.range 64).any (fun j => h.mask.getLsbD j && pa ≤ h.addr + j && h.addr + j < pa + n))

/-- Reads the translated parts. -/
def readSpots (s : State) : List (Nat × Nat × Spot) → Acc
  | [] => .ok s []
  | (_, n, p) :: t =>
    let here : Acc := match p with
      | .win k o =>
        if s.accPoison k o n then .fault s (accFault k o) else .ok s (s.accRead k o n)
      | .mem pa _ _ =>
        if s.replLag s.cur.lcore pa n then .wait s
        else match s.memSub (dieOf s.cur.lcore) pa n with
        | some sub => .fault (s.spend (dieOf s.cur.lcore) pa n) { code := 1, sub := sub, addr := BitVec.ofNat 64 pa }
        | none =>
          if heldBad s pa n then .fault s { code := 1, sub := 7, addr := BitVec.ofNat 64 pa }
          else .ok s (heldOver s pa (s.physRead (dieOf s.cur.lcore) pa n))
    match here with
    | .ok _ bs =>
      match readSpots s t with
      | .ok s2 bs2 => .ok s2 (bs ++ bs2)
      | x => x
    | x => x

/-- Reads virtual memory or a window for an engine (11 R233). -/
def virtRead (s : State) (e : Eng) (a n : Nat) : Acc :=
  if a + n > 2 ^ 55 then .fault s { code := 17, sub := 1, addr := BitVec.ofNat 64 a }
  else match spots s e { rd := true } (parts (n / 65536 + 2) a n) with
    | .error x => x
    | .ok (s1, ps) =>
      if onSo ps then
        match beforeSo s1 with
        | .error s2 => .wait s2
        | .ok s2 => readSpots s2 ps
      else readSpots s1 ps

/-- Whether an access of engine A lies on an SO page, as far as its translation shows. -/
def State.soAt (s : State) (w : Want) (a n : Nat) : Bool :=
  match spots s .A w (parts (n / 65536 + 2) a n) with
  | .ok (_, ps) => onSo ps
  | .error _ => false

/-- The bytes of a list from an address, into one granule of a held entry. -/
def holdInto (h : Held) (pa : Nat) (bs : List (Option Byte)) : Held :=
  (List.range 64).foldl (fun (h : Held) j =>
    match (if pa ≤ h.addr + j ∧ h.addr + j < pa + bs.length then bs.getD (h.addr + j - pa) none else none) with
    | some b => { h with mask := h.mask ||| ((1 : BitVec 64) <<< j),
                         data := (h.data &&& ~~~((255 : BitVec 512) <<< (8 * j))) ||| (b.setWidth 512 <<< (8 * j)) }
    | none => h) h

/-- Whether a held entry takes stores with a tag to a granule. -/
def takesAt (tag : Option (BitVec 32)) (g : Nat) (h : Held) : Bool := h.addr = g && h.tag = tag && h.pre.isNone

/-- Adds bytes to the held-store buffer: they merge into the granule's entry with the same tag, which keeps its place, or
make a new one at the end (12 R260). -/
def holdBytes (held : List Held) (tag : Option (BitVec 32)) (who : List Author) (repl : Bool) (pa : Nat) (bs : List (Option Byte)) : List Held :=
  let lo := pa / 64
  let hi := (pa + bs.length + 63) / 64
  (List.range (hi - lo)).foldl (fun held k =>
    let g := (lo + k) * 64
    let join (h : Held) : Held := { h with who := h.who ++ who.filter (fun a => !h.who.contains a) }
    let new := holdInto { addr := g, mask := 0, data := 0, tag := tag, repl := repl, who := who } pa bs
    if new.mask = 0 then held
    else if held.any (takesAt tag g) then held.map (fun h => if takesAt tag g h then join (holdInto h pa bs) else h)
    else held ++ [new]) held

/-- Entries that a store still needs (12 R261). -/
def holdNeed (held : List Held) (tag : Option (BitVec 32)) (pa : Nat) (bs : List (Option Byte)) : Nat :=
  ((List.range ((pa + bs.length + 63) / 64 - pa / 64)).filter (fun k =>
    let g := (pa / 64 + k) * 64
    (holdInto { addr := g, mask := 0, data := 0 } pa bs).mask ≠ 0 && !held.any (takesAt tag g))).length

/-- The bytes of each part of a write; a part that holds no byte to write is no access. -/
def chunks : List (Nat × Nat) → List (Option Byte) → List (Nat × List (Option Byte))
  | [], _ => []
  | (a, n) :: t, bs =>
    let here := bs.take n
    if here.any (·.isSome) then (a, here) :: chunks t (bs.drop n) else chunks t (bs.drop n)

/-- The byte that the held entries hold at an address, for the command at work. -/
def State.heldByte (s : State) (a : Nat) : Option Byte :=
  s.me.ph.held.foldl (fun r h =>
    if heldHere s h a 1 && h.mask.getLsbD (a - h.addr) then some (h.data.extractLsb' (8 * (a - h.addr)) 8) else r) none

/-- The parts of a store that the phase's releases order: those of a release, every part after a FENCEV of engine A that
releases, and what meets the aligned 8-byte word of an ordered store, so that neither is seen torn (14 R301, R308). -/
def orderedParts (s : State) (rel repl : Bool) (pa : Nat) (bs : List (Option Byte)) : List (SbEnt × Option (BitVec 32)) :=
  ((dwParts pa bs).filter (fun p => rel || s.me.ph.fenced || s.me.ph.rels.any (fun r => r.1.addr / 8 = p.1 / 8))).map (fun p =>
    ({ addr := p.1, data := p.2, repl := repl, prev := (List.range p.2.length).map (fun k => s.heldByte (p.1 + k)) }, s.tag))

/-- Writes the translated parts; `none` leaves a byte as it is. -/
def writeSpots (s : State) (rel : Bool) : List (Nat × Nat × Spot) → List (List (Option Byte)) → State
  | (_, _, p) :: t, here :: rest =>
    let s1 := match p with
      | .win k o => (dwParts o here).foldl (fun s x => s.accWrite k x.1 x.2 none) s
      | .mem pa kind repl =>
        if kind = 1 then (dwParts pa here).foldl (fun s x => s.physWrite s.cur.lcore x.1 x.2 repl) s
        else
          let rels := orderedParts s rel repl pa here
          s.updMe (fun c => { c with ph := { c.ph with held := holdBytes c.ph.held s.tag [s.author] repl pa here, rels := c.ph.rels ++ rels } })
    writeSpots s1 rel t rest
  | _, _ => s

/-- New held entries that the parts of a write need. -/
def needOf (s : State) (ps : List (Nat × Nat × Spot)) (cs : List (List (Option Byte))) : Nat :=
  ((ps.zip cs).map (fun x => match x.1.2.2 with
    | .win _ _ => 0
    | .mem pa kind _ => if kind = 1 then 0 else holdNeed s.me.ph.held s.tag pa x.2)).foldl (· + ·) 0

/-- Writes virtual memory or a window for an engine (11 R231, R233): RC and UO stores are held, SO stores and stores to
another core's SRAM follow an early commit, and a tentative command's store to SRAM waits (13 R286). Bytes that are not
written are no access. `rel` says that the store is a release's. -/
def virtPut (s : State) (e : Eng) (rel : Bool) (a : Nat) (bs : List (Option Byte)) : Acc :=
  let n := bs.length
  let far := (bs.zipIdx).any (fun x => x.1.isSome && a + x.2 ≥ 2 ^ 55)
  if far then .fault s { code := 17, sub := 1, addr := BitVec.ofNat 64 a }
  else
    let cs := chunks (parts (n / 65536 + 2) a n) bs
    match spots s e { wr := true } (cs.map (fun c => (c.1, c.2.length))) with
    | .error x => x
    | .ok (s1, ps) =>
      let bytes := cs.map (·.2)
      let win := ps.any (fun p => match p.2.2 with
        | .win _ _ => true
        | .mem _ _ _ => false)
      let ready : Except State State :=
        if win && s.isTent then .error s1
        else if onSo ps then beforeSo s1
        else if onOther s.cur.lcore ps then (match firstEarly s1 with
          | none => .error s1
          | some s2 => .ok s2)
        else .ok s1
      match ready with
      | .error s2 => .wait s2
      | .ok s2 =>
        match makeRoom s2 (needOf s2 ps bytes) with
        | none => .wait s2
        | some s3 => .ok (writeSpots s3 rel ps bytes) []
def virtWrite (s : State) (e : Eng) (a : Nat) (bs : List (Option Byte)) : Acc := virtPut s e false a bs

/-- A whole list of bytes to write. -/
def all (bs : List Byte) : List (Option Byte) := bs.map some

/-! ## Stopped accesses (19 R392-R394) -/

/-- A line engine's or engine X's access stops at a missing page: its record is on its way to the fault buffer
(PAGE_FAULT_RECORD), and the party stays stopped. A scale read for engine V has engine A's record (ACC 3), and what engine A does
of its own, a trap that it stands at among it, is not changed by it (11 R245). -/
def Core.stopAt (c : Core) (r : FRec) : Core :=
  let c := { c with fwait := c.fwait ++ [r] }
  match r.eng with
  | .A => if r.acc = 3 then c else { c with lineA := { c.lineA with st := .faulted } }
  | .M => { c with lineM := { c.lineM with st := .faulted } }
  | .V => { c with lineV := { c.lineV with st := .faulted } }
  | .X => c

/-- The record of a stopped access (19 R393). -/
def faultRec (s : State) (e : Eng) (acc : Nat) (va lvl eaddr prog : Nat) : FRec where
  va := BitVec.ofNat 64 va
  gen := s.me.gen
  level := BitVec.ofNat 2 lvl
  acc := BitVec.ofNat 3 acc
  eng := e
  seq := if s.cur.entry then 0 else s.cur.seq
  prog := BitVec.ofNat 12 prog
  eaddr := BitVec.ofNat 64 eaddr
  cmd := s.cur.seq

/-- The records of stopped accesses that wait for service. -/
def Core.waiting (c : Core) : List FRec := (c.fwait ++ c.fbuf).filter (fun r => !r.void)

/-- A scale that engine V asked for stands at a missing page: engine A halts, and the execute domain with it (07 R156, 11 R245,
15 R326). -/
def Core.scaleMiss (c : Core) : Bool := c.waiting.any (fun r => r.eng = .A && r.acc = 3)

/-- Whether an engine's command waits at a missing page. -/
def Core.stopped (c : Core) (e : Eng) (seq : BitVec 32) : Bool :=
  c.waiting.any (fun r => r.eng = e && r.cmd = seq)

/-- The command at work stops at a missing page (11 R245, 19 R392). -/
def State.missing (s : State) (e : Eng) (acc : Nat) (va lvl eaddr prog : Nat) : Out :=
  let r := faultRec s e acc va lvl eaddr prog
  .next { s.updMe (fun c => c.stopAt r) with note := .missing r }

/-- How a word ends on an access that gave no data. A fault met after an early commit of the access is one of a phase that
is no longer replayable (02 R37, 20 R417). -/
def State.stopOn (s : State) (e : Eng) (acc prog : Nat) : Acc → Out
  | .ok s1 _ => s1.done
  | .fault s1 f => s1.fault { f with early := s1.me.ph.nonrepl && !s.me.ph.nonrepl }
  | .missing s1 va l ea => s1.missing e acc va l ea prog
  | .wait s1 => s1.waits

/-- How a word of engine V ends on a scale that it could not read (07 R156): engine A and its scale reads are one party, which
holds at most one record (19 R392). -/
def State.stopScale (s : State) (x : Acc) : Out :=
  match x with
  | .missing s1 va l ea => if s.me.waiting.any (fun r => r.eng = .A) then s1.waits else s1.missing .A 3 va l ea 0
  | x => s.stopOn .A 3 0 x

end Sys2Proof.Machine
end

