-- ==== Sys2Proof/Machine/Flags.lean ====
section
/-! DEFINITION. Where arithmetic flags and status bits go: the running phase's sets, tagged while their command is
tentative (04 R79, R80; 11 R242; 13 R285). -/

namespace Sys2Proof.Machine

/-- The speculations that a command of a core is tentative on. -/
def Core.tentOf (c : Core) (e : Eng) (seq : BitVec 32) : List SpecId := ((c.cmdOf e seq).map (·.tent)).getD []

/-- Flags and status bits enter the phase's sets, tagged with their command while it is tentative. -/
def Core.merge (c : Core) (e : Eng) (seq : BitVec 32) (fl : Flags) (st : BitVec 2) : Core :=
  if fl = 0 ∧ st = 0 then c
  else if (c.tentOf e seq).isEmpty then { c with ph := { c.ph with flags := c.ph.flags ||| fl, stat := c.ph.stat ||| st } }
  else { c with ph := { c.ph with tagged := c.ph.tagged ++ [(seq, fl, st)] } }

/-- The command at work sets flags. -/
def State.setFlags (s : State) (fl : Flags) : State := s.updMe (fun c => c.merge s.cur.eng s.cur.seq fl 0)
/-- The command at work sets bits of ASTAT (11 R242): bit 0 PWOOB, bit 1 TOLZ. -/
def State.setStat (s : State) (st : BitVec 2) : State := s.updMe (fun c => c.merge s.cur.eng s.cur.seq 0 st)

/-- The flags of a list of element results together. -/
def orFlags (l : List Flags) : Flags := l.foldl (· ||| ·) 0

/-- The integer comparison codes and the floating ones on patterns of a type (05 R108, 07 R147): the result and its
flags. -/
def compare (ty : Nat) (fm : Word) (c : Nat) (x y : Nat) : Bool × Flags :=
  match fmtOf ty with
  | some F => condNum c (operand F fm x) (operand F fm y)
  | none => (condInt c (intVal ty x) (intVal ty y), 0)

end Sys2Proof.Machine
end

