-- ==== Sys2Proof/Machine/Operands.lean ====
section
/-! DEFINITION. The operands of native words: legality at issue (05 R97, R110), renamed registers (07 R130, R131),
queues and tokens (02 R44, R46, 12 R265, 13 R287), literals (05 R94), grants (03 R56-R61), streams and scales
(03 R63, 04 R73, 07 R156), element results (07 R134), and the issue of a word of engine V, M or A. -/

namespace Sys2Proof.Machine

/-! ## Registers -/

/-- The physical register of vn (07 R130). -/
def vPhys (vrb n : Nat) : Nat := if n < 256 then n else 256 + (n - 256 + vrb) % 512
/-- The physical predicate of pn (07 R131). -/
def pPhys (prb n : Nat) : Nat := if n < 16 then n else 16 + (n - 16 + prb) % 48

def allOnes : Pred := ~~~0
def Core.vget (c : Core) (k : Nat) : Vec := SMap.get c.v k 0
def Core.vput (c : Core) (k : Nat) (v : Vec) : Core := { c with v := SMap.put c.v k v }
/-- A physical predicate; p0 reads all ones. -/
def Core.pget (c : Core) (k : Nat) : Pred := if k = 0 then allOnes else SMap.get c.p k 0
/-- Writes a physical predicate; p0 keeps its ones. -/
def Core.pput (c : Core) (k : Nat) (v : Pred) : Core := if k = 0 then c else { c with p := SMap.put c.p k v }
/-- g[n]; g0 reads zero (11 R225). -/
def Core.gget (c : Core) (n : Nat) : Word := if n = 0 then 0 else SMap.get c.g n 0
/-- Writes g[n]; a write of g0 is discarded. -/
def Core.gput (c : Core) (n : Nat) (v : Word) : Core := if n = 0 then c else { c with g := SMap.put c.g n v }
/-- An access predicate; p0 reads all ones, and none rotates (11 R225). -/
def Core.apget (c : Core) (n : Nat) : Pred := if n = 0 then allOnes else SMap.get c.ap n 0
def Core.apput (c : Core) (n : Nat) (v : Pred) : Core := if n = 0 then c else { c with ap := SMap.put c.ap n v }

/-- The line state and the micro-program counter of the engine at work. -/
def State.ln (s : State) : Line := s.me.line s.cur.eng
def State.updLn (s : State) (f : Line → Line) : State := s.updMe (fun c => c.updLine s.cur.eng f)
def State.vphys (s : State) (n : Nat) : Nat := vPhys s.ln.upc.vrb.toNat n
def State.pphys (s : State) (n : Nat) : Nat := pPhys s.ln.upc.prb.toNat n

/-- The guard's bits after any inversion (05 R92). -/
def State.guardBits (s : State) (w : NWord) : Pred :=
  let p := if s.cur.eng = .A then s.me.apget w.guard.toNat else s.me.pget (s.pphys w.guard.toNat)
  if w.ginv then ~~~p else p
/-- Whether the guard of a word that acts as a whole holds: container 0 (06 R123, 11 R226). -/
def State.guardHolds (s : State) (w : NWord) : Bool := (s.guardBits w).getLsbD 0

/-- The line address of the word at work, and with its slot. -/
def lineAddr (line : BitVec 49) : Word := line.setWidth 64 <<< 6
def State.lineAddr (s : State) : Word := Sys2Proof.Machine.lineAddr s.cur.line
def wordPlace (line : BitVec 49) (slot : BitVec 3) : Word := Sys2Proof.Machine.lineAddr line ||| (slot.setWidth 64 <<< 3)

/-! ## Queues -/

def Queues.at (q : Queues) : Nat → List QEnt
  | 0x300 => q.qa0
  | 0x301 => q.qa1
  | 0x302 => q.qa2
  | 0x303 => q.qa3
  | 0x304 => q.qd0
  | 0x305 => q.qd1
  | 0x306 => q.qx0
  | _ => []
def Queues.set (q : Queues) (code : Nat) (l : List QEnt) : Queues :=
  match code with
  | 0x300 => { q with qa0 := l }
  | 0x301 => { q with qa1 := l }
  | 0x302 => { q with qa2 := l }
  | 0x303 => { q with qa3 := l }
  | 0x304 => { q with qd0 := l }
  | 0x305 => { q with qd1 := l }
  | 0x306 => { q with qx0 := l }
  | _ => q

/-- Depth of every queue (02 R44, R46). -/
def qDepth : Nat := 16

def subset (a b : List SpecId) : Bool := a.all (fun x => b.contains x)

/-- Whether the command at work may pop an entry (13 R287). -/
def State.mayPop (s : State) (x : QEnt) : Bool :=
  let p := s.me.tentOf x.eng x.seq
  subset p s.tent && subset s.tent p

/-- The head of a queue, if there is one and it may be popped. -/
def State.head (s : State) (code : Nat) : Option QEnt :=
  match s.me.q.at code with
  | [] => none
  | x :: _ => if s.mayPop x then some x else none
/-- The state without the head of a queue. -/
def State.dropHead (s : State) (code : Nat) : State := s.updMe (fun c => { c with q := c.q.set code ((c.q.at code).drop 1) })
def State.pop (s : State) (code : Nat) : Option (State × QEnt) := (s.head code).map (fun x => (s.dropHead code, x))

def Core.room (c : Core) (code : Nat) : Bool := (c.q.at code).length < qDepth
def Core.push (c : Core) (code : Nat) (x : QEnt) : Core := { c with q := c.q.set code (c.q.at code ++ [x]) }
/-- The command at work pushes an entry. -/
def State.push (s : State) (code : Nat) (data : Vec) (mask : Pred) : State :=
  s.updMe (fun c => c.push code { data := data, mask := mask, eng := s.cur.eng, seq := s.cur.seq })

/-! ## Tokens (02 R46, 12 R265) -/

/-- A move of one token: its queue (am 0, ma 1, mv 2, vm 3, va 4, av 5), and whether it is a give. -/
structure Move where
  q    : Nat
  give : Bool
deriving DecidableEq, Repr

/-- The queue by which an engine gives to the previous or the next engine of the ring A, M, V. -/
def giveQ : Eng → Bool → Nat
  | .A, false => 5 | .A, true => 0
  | .M, false => 1 | .M, true => 2
  | .V, false => 3 | .V, true => 4
  | .X, _ => 6
/-- The queue by which an engine takes from the previous or the next engine. -/
def takeQ : Eng → Bool → Nat
  | .A, false => 4 | .A, true => 1
  | .M, false => 0 | .M, true => 3
  | .V, false => 2 | .V, true => 5
  | .X, _ => 6
/-- Who gives to a token queue. -/
def giver : Nat → Eng
  | 0 => .A | 1 => .M | 2 => .M | 3 => .V | 4 => .V | _ => .A

def Tokens.at (t : Tokens) : Nat → List (BitVec 32)
  | 0 => t.am | 1 => t.ma | 2 => t.mv | 3 => t.vm | 4 => t.va | _ => t.av
def Tokens.set (t : Tokens) (q : Nat) (l : List (BitVec 32)) : Tokens :=
  match q with
  | 0 => { t with am := l }
  | 1 => { t with ma := l }
  | 2 => { t with mv := l }
  | 3 => { t with vm := l }
  | 4 => { t with va := l }
  | _ => { t with av := l }

/-- One token move, or none while it cannot complete. -/
def State.move (s : State) (m : Move) : Option State :=
  let l := s.me.tok.at m.q
  if m.give then
    if l.length < qDepth then some (s.updMe (fun c => { c with tok := c.tok.set m.q (l ++ [s.cur.seq]) })) else none
  else
    match l with
    | [] => none
    | x :: t => if subset (s.me.tentOf (giver m.q) x) s.tent then some (s.updMe (fun c => { c with tok := c.tok.set m.q t })) else none

/-- Moves in order until one cannot complete: the state, how many were made, and whether all were. -/
def State.moves (s : State) : List Move → State × Nat × Bool
  | [] => (s, 0, true)
  | m :: t =>
    match s.move m with
    | none => (s, 0, false)
    | some s1 =>
      let (s2, n, ok) := s1.moves t
      (s2, n + 1, ok)

/-- The moves of a word's token bits (01 R26), takes first. -/
def bitMoves (e : Eng) (w : NWord) : List Move :=
  (if w.tkp then [⟨takeQ e false, false⟩] else []) ++ (if w.tkn then [⟨takeQ e true, false⟩] else []) ++
  (if w.gvp then [⟨giveQ e false, true⟩] else []) ++ (if w.gvn then [⟨giveQ e true, true⟩] else [])

/-- A word ends with its token moves, its own before those of its bits. They are made one at a time, and those already
made are not made again (12 R265); until the last has moved, nothing else of the word takes effect. -/
def State.finish (pre s : State) (ms : List Move) : Out :=
  let skip := min s.ln.moved ms.length
  let (s1, n, ok) := s.moves (ms.drop skip)
  if ok then (s1.updLn (fun l => { l with moved := l.moved - skip })).done
  else
    let (p1, _, _) := pre.moves (ms.drop skip)
    .next { p1.updLn (fun l => { l with moved := skip + n }) with note := .token }

/-! ## Legality at issue -/

/-- A word of the engines that reaches the control core (05 R88), or a legal word handed on. -/
def illegalPortable (i : Instr) (s : State) : Out := s.trap 2 ((encodePort i).getD 0)

/-- The DECODE fault of the word at work (05 R110): the address names the line and the slot (DEDUCED, log entry 23). -/
def decodeFault (s : State) (b : Bad) : Out :=
  s.fault { code := 16, sub := b.code, addr := wordPlace s.cur.line s.cur.slot }

/-- A native word about to issue: its row and fields where it is legal. An error on the engine's paths is met here, and the
rollback that it causes leaves none behind (20 R416). -/
def withNative (i : Instr) (s : State) (k : Row → NWord → Out) : Out :=
  match nativeRow i with
  | none => illegalPortable i s
  | some (r, w) =>
    match Bad.least (wordBad s.cur.eng r w) with
    | some b => decodeFault s b
    | none =>
      match s.me.hits.find? (fun h => h.1 = s.cur.eng) with
      | some h => s.fault { code := 1, sub := h.2 }
      | none => k r w

/-! ## Literals and sources -/

/-- Source field 0, 1 or 2 of a word, and its class. -/
def fieldOf (w : NWord) : Nat → BitVec 10
  | 0 => w.a
  | 1 => w.b
  | _ => w.c
def clsOf (r : Row) : Nat → Cls
  | 0 => r.a
  | 1 => r.b
  | _ => r.c

/-- Whether field `f` holds a literal. -/
def hasLit (r : Row) (w : NWord) (f : Nat) : Bool := (clsOf r f).takesLit && isLit (fieldOf w f)

/-- The literal of field `f` as 64 bits (05 R94). -/
def litWord (r : Row) (w : NWord) (f : Nat) : Word :=
  if fieldOf w f = 0x3E1 then w.lit
  else
    let k := ((List.range f).filter (hasLit r w)).length
    let x : BitVec 32 := if k = 0 then w.lit.setWidth 32 else w.lit.extractLsb' 32 32
    x.signExtend 64

/-- The width of a literal's element; that of a of a conversion or of VQUANT is its source type's, and that of c of VDEQ (its
position) and of VDOT (its addend) 32 bits, whatever the word's type (DEDUCED, log entry 121). -/
def litWidth (r : Row) (w : NWord) (f : Nat) : Nat :=
  if f = 0 then width (srcTy r w) else if f = 2 && (r.op = 0x75 || r.op = 0x2B) then 32 else width w.ty.toNat

/-- A `w`-bit pattern in every element of a register (04 R68). -/
def replicate (w x : Nat) : Vec :=
  if w = 0 then 0 else BitVec.ofNat 2048 (x % 2 ^ w * ((2 ^ 2048 - 1) / (2 ^ w - 1)))

/-- A source operand of an element word, with the state after its pop; none while it cannot be had. A field that is
no operand gives zeros. -/
def State.source (s : State) (r : Row) (w : NWord) (f : Nat) : Option (State × Vec) :=
  let x := fieldOf w f
  if hasLit r w f then some (s, replicate (litWidth r w f) (litWord r w f).toNat)
  else match clsOf r f with
    | .unused | .any | .stream | .predD | .predS | .pred8 | .count _ _ | .mode _ | .scoped _ => some (s, 0)
    | _ =>
      if isVreg x then some (s, s.me.vget (s.vphys x.toNat))
      else if isQa x then (s.pop x.toNat).map (fun p => (p.1, p.2.data))
      else some (s, 0)

/-! ## Grants -/

def shpClass (w : Word) : Nat := fld w 52 4
def shpTy (w : Word) : Nat := fld w 48 4
def shpD (w : Word) (k : Nat) : Nat := fld w (16 * k) 16
/-- The captured grant and request of the command at work. -/
def State.shp (s : State) (n : Nat) : Word := SMap.get s.cap.shp n 0
def State.shq (s : State) (n : Nat) : Word := SMap.get s.cap.shq n 0

/-- SHAPECHG (03 R61): the phase is rolled back and then the trap is pending; a non-replayable phase is cancelled with
the contained fault instead. -/
def shapeChg (s : State) (n : Nat) : Out :=
  let e := s.cur.eng
  if s.me.ph.nonrepl then s.fault { code := 22 }
  else
    let v : Word := BitVec.ofNat 64 (n + 256)
    let s1 := rollback s s.cur.lcore s.me.ph.run
    let s2 := s1.updMe (fun c => c.updLine e (fun l => { l with trap := some { cause := 31, val := v }, st := .trapped }))
    .next { s2 with note := .trap 31 v }

/-- The check of a grant before a word that reads it issues (03 R56, R61): none where it stands. -/
def grantCheck (s : State) (n cls : Nat) : Option Out :=
  if (s.shp n).getLsbD 58 then some (shapeChg s n)
  else if shpClass (s.shp n) ≠ cls then some (s.fault { code := 21 })
  else none

/-- Elements of width `w` under the captured vector grant (03 R57). -/
def State.elems (s : State) (w : Nat) : Nat :=
  let g := width (shpTy (s.shp 0))
  if w = 0 then 0 else min ((shpD (s.shp 0) 0 * g + w - 1) / w) (2048 / w)

/-- Whether element `i` of width `w` has its guard bit set: its container's, the lower one's for FP64 (04 R68). -/
def guarded (g : Pred) (w i : Nat) : Bool := g.getLsbD (i * w / 32)

/-- The word of a region that the command at work is to carry out (15 R333). -/
def State.step (s : State) : Option PStep := s.cmd.bind (fun m => m.steps[m.rows]?)

/-! ## Element results -/

def elem (v : Vec) (w i : Nat) : Nat := (v.extractLsb' (w * i) w).toNat

/-- What a word writes: elements by index with their patterns, as data and mask (07 R134). -/
def packElems (w : Nat) (xs : List (Nat × Nat)) : Vec × Vec :=
  (BitVec.ofNat 2048 (xs.foldl (fun a x => a ||| ((x.2 % 2 ^ w) <<< (w * x.1))) 0),
   BitVec.ofNat 2048 (xs.foldl (fun a x => a ||| ((2 ^ w - 1) <<< (w * x.1))) 0))

/-- The containers in which an element of the list lies (03 R59); an FP64 element lies in two (DEDUCED, log entry 24). -/
def contMask (w : Nat) (xs : List Nat) : Pred :=
  xs.foldl (fun a i => a ||| ((if w = 64 then 3 else 1 : Pred) <<< (i * w / 32))) 0

/-- The landing of element results in a destination of class vdst: a renamed register, or a queue entry whose other
bytes are zero and whose mask names the containers with an active element (07 R134). -/
def State.vland (s : State) (dst : BitVec 10) (w : Nat) (xs : List (Nat × Nat)) : List Landing :=
  let (d, m) := packElems w xs
  if isVreg dst then [.vreg (s.vphys dst.toNat) d m] else [.push dst.toNat d (contMask w (xs.map (·.1)))]

/-- True latencies (15 R324) of the words of engine V by op, and whether Wick serves the word (07 R157). -/
def wickWord (fm : Word) (r : Row) (w : NWord) : Bool :=
  r.engs = [.V] && ((0x58 ≤ r.op && r.op ≤ 0x5A) || (r.op = 0x28 && (w.ty = 13 || w.c.toNat % 16 = 13))
    || ((r.op = 0x16 || r.op = 0x17) && Fmode.exactds fm))
def trueLat (op : Nat) : Nat :=
  if op ≤ 0x02 ∨ (0x08 ≤ op ∧ op ≤ 0x0B) ∨ (0x28 ≤ op ∧ op ≤ 0x2A) ∨ op = 0x2C ∨ op = 0xEA then 2
  else if [0x10, 0x11, 0x14, 0x15].contains op then 3
  else if (0x03 ≤ op ∧ op ≤ 0x06) ∨ [0x12, 0x13, 0x75, 0x73, 0x2B].contains op then 4
  else if [0x70, 0x71, 0x72].contains op then 6
  else if op = 0x74 then 8
  else if op = 0x16 ∨ op = 0x17 then 12
  else 1

/-! ## Reads of pending registers (15 R328) -/

/-- The physical registers and predicates that a word of V or M reads as named by its fields. -/
def readsOf (s : State) (r : Row) (w : NWord) : List Nat × List Nat :=
  let regs := (List.range 3).filterMap (fun f => match clsOf r f with
    | .src | .srcOrNone | .strm | .vreg =>
      if isVreg (fieldOf w f) then some (s.vphys (fieldOf w f).toNat) else none
    | .free =>
      if (r.op = 0x28 || r.op = 0x29) && r.engs = [.V] && isVreg (fieldOf w f) then some (s.vphys (fieldOf w f).toNat) else none
    | _ => none)
  let preds := (List.range 3).flatMap (fun f => match clsOf r f with
    | .predS => [s.pphys (fieldOf w f).toNat]
    | .pred8 => (List.range 8).map (fun k => s.pphys ((fieldOf w f).toNat + k))
    | _ => [])
  (regs, if r.guard then s.pphys w.guard.toNat :: preds else preds)

/-- Whether a result marks its destinations pending for the word at work. A word of the other engine's bundle of the same virtual
cycle issues with it and marks nothing for it (DEDUCED, log entry 108). -/
def Flight.marks (f : Flight) (s : State) : Bool :=
  f.shrd && s.me.vcycle < f.due && !(f.eng ≠ s.cur.eng && f.issued = s.me.vcycle)

/-- Whether a word's source is marked pending. -/
def readsPending (s : State) (r : Row) (w : NWord) : Bool :=
  let (vs, ps) := readsOf s r w
  s.me.flights.any (fun f => f.marks s && f.lands.any (fun l => match l with
    | .vreg n _ _ => vs.contains n
    | .pred n _ _ => ps.contains n
    | _ => false))

/-- A portable word that the control core executes itself (05 R88), or the trap for one that it does not. -/
def withPort (i : Instr) (s : State) (k : PWord → Out) : Out :=
  match portRow i with
  | none => illegalPortable i s
  | some (r, p) => if controlForm i && r.ok p then k p else illegalPortable i s

/-- The end of a word of the control core: 8 bytes. -/
def State.retireP (s : State) (r : Reg) (v : Word) : Out := s.retire r v 8

/-- What waits while its command is tentative (13 R286). -/
def firmly (s : State) (r : Except Out State) : Except Out State := if s.isTent then .error s.waits else r

/-- The launch of the unit on the core whose turn it is. -/
def State.launch (s : State) : Option Launch := s.me.unit.bind (fun u => SMap.find s.hub.launches u.launch)
/-- Whether the unit's launch holds event, ring or counter n of the cluster, or Almanac entry n (18 R378). -/
def State.hasEvent (s : State) (n : Nat) : Bool := (s.launch.map (·.evs.getLsbD n)).getD false
def State.hasRing (s : State) (n : Nat) : Bool := (s.launch.map (·.rings.getLsbD n)).getD false
def State.hasDc (s : State) (n : Nat) : Bool := (s.launch.map (·.dcs.getLsbD n)).getD false
def State.hasAlm (s : State) (n : Nat) : Bool := (s.launch.map (·.alms.getLsbD n)).getD false

/-- An engine stops for a trap that the control core takes at its next boundary (20 R407). -/
def State.engineTrap (s : State) (cause : Nat) (val : Word) : Out :=
  let t : ETrap := { cause := BitVec.ofNat 64 cause, val := val }
  .next { s.updLn (fun l => { l with trap := some t, st := .trapped }) with note := .trap t.cause val }

/-- SHADOWREAD of the word at work, where its command asks for the check (15 R328). -/
def shadowRead (s : State) (r : Row) (w : NWord) : Bool := Fmode.shrd s.fmode && !s.ln.pass && readsPending s r w

/-! ## Issue of a word of engine V -/

/-- A word of V once its operands are had. -/
structure VCtx where
  s : State
  r : Row
  w : NWord
  a : Vec
  b : Vec
  c : Vec
  /-- the guard's bits. -/
  g : Pred

/-- Whether a word reads VL and so shp0 (03 R56). -/
def readsVL (op : Nat) : Bool := op ≤ 0x5F || (0x60 ≤ op && op ≤ 0x75) || op = 0x88 || op = 0xEA

/-- A write to accumulator SRAM. -/
def Landing.isAcc : Landing → Bool
  | .acc _ _ _ _ => true
  | _ => false

/-- The result of a word on its way to its landing: due after the word's delay nibble, available then unless the nibble
is below the true latency or Wick computes it (15 R324, R327, 07 R158). A write to accumulator SRAM is performed no earlier
than those from before a FENCEV of the engine (14 R313; DEDUCED, log entry 84). Where no FENCEV stands between, two writes of engine V to
the same bytes are ordered by their landings: "earlier" in R317 is read so (DESIGN CHOICE, log entry 128). -/
def State.fly (s : State) (w : NWord) (lat : Nat) (wick : Bool) (lands : List Landing) (fl : Flags) : State :=
  let own := s.me.vcycle + w.lat.toNat
  let due := if lands.any Landing.isAcc then max own s.ln.fence else own
  let f : Flight :=
    { eng := s.cur.eng, due := due, lands := lands, flags := fl, ready := !wick && lat ≤ w.lat.toNat, avail := s.now + lat, wick := wick,
      shchk := Fmode.shchk s.fmode, shrd := Fmode.shrd s.fmode, line := s.cur.line, slot := s.cur.slot, seq := s.cur.seq, issued := s.me.vcycle }
  s.updMe (fun c => { c with flights := c.flights ++ [f] })

/-- A request enters the die's Wick queue (07 R158). -/
def State.askWick (s : State) (w : NWord) : State :=
  let d := dieOf s.cur.lcore
  let x := s.dieAt d
  s.setDie d { x with wick := x.wick ++ [{ lcore := s.cur.lcore, seq := s.cur.seq, line := s.cur.line, slot := s.cur.slot,
                                            due := s.me.vcycle + w.lat.toNat }] }
def State.wickFull (s : State) : Bool := ((s.dieAt (dieOf s.cur.lcore)).wick.filter (fun q => !q.taken)).length ≥ 64

/-- The uncorrectable error that a word of V meets in a register or queue entry that it reads (20 R415, R416). -/
def State.operandBad (s : State) (r : Row) (w : NWord) : Option Contained :=
  let fs := (List.range 3).filter (fun f => !hasLit r w f)
  if (readsOf s r w).1.any (fun n => s.me.vBad.contains n) then some { code := 1, sub := 5 }
  else if fs.any (fun f => match clsOf r f with
      | .src | .srcOrNone | .free => isQa (fieldOf w f) && ((s.head (fieldOf w f).toNat).map (·.bad)).getD false
      | _ => false) then some { code := 1, sub := 6, bank := some 0 }
  else none

/-- What a word of V comes to once its operands are had. -/
inductive VRes where
  | ok (lands : List Landing) (fl : Flags)
  /-- the same, in the state that its own reads have left (07 R156). -/
  | okIn (s : State) (lands : List Landing) (fl : Flags)
  | bad (f : Contained)
  /-- a scale could not be read (07 R156). -/
  | acc (a : Acc)
  /-- a word of a tentative command that must wait (13 R286). -/
  | wait

/-- Issues an element word of engine V (07 R133, R134): checks, operands, its result in flight, its tokens. -/
def issueV (i : Instr) (s : State) (act : VCtx → VRes) : Out :=
  withNative i s fun r w =>
    if shadowRead s r w then s.engineTrap 30 (wordPlace s.cur.line s.cur.slot ||| 2)
    else match (if readsVL r.op then grantCheck s 0 1 else none) with
      | some o => o
      | none =>
        match s.operandBad r w with
        | some f => s.fault f
        | none =>
        match s.source r w 0 with
        | none => s.waits
        | some (s1, a) =>
          match s1.source r w 1 with
          | none => s.waits
          | some (s2, b) =>
            match s2.source r w 2 with
            | none => s.waits
            | some (s3, c) =>
              let wick := wickWord s.fmode r w
              if wick && s.wickFull then s.waits
              else
                let go (t : State) (lands : List Landing) (fl : Flags) : Out :=
                  let s4 := t.fly w (trueLat r.op) wick lands fl
                  State.finish s (if wick then s4.askWick w else s4) (bitMoves .V w)
                match act { s := s3, r := r, w := w, a := a, b := b, c := c, g := s.guardBits w } with
                | .bad f => s.fault f
                | .acc x => s.stopScale x
                | .wait => s.waits
                | .ok lands fl => go s3 lands fl
                | .okIn t lands fl => go t lands fl

/-- An element-wise word with sources and destination of one width: `f` gives the pattern and flags of an element. -/
def elementwise (sw dw : Nat) (f : VCtx → Nat → Nat → Nat → Nat × Flags) (x : VCtx) : VRes :=
  let n := x.s.elems dw
  let act := (List.range n).filter (guarded x.g dw)
  let res := act.map (fun i => (i, f x (elem x.a sw i) (elem x.b sw i) (elem x.c sw i)))
  .ok (x.s.vland x.w.dst dw (res.map (fun q => (q.1, q.2.1)))) (orFlags (res.map (fun q => q.2.2)))

def VCtx.ty (x : VCtx) : Nat := x.w.ty.toNat
def VCtx.fm (x : VCtx) : Word := x.s.fmode

/-! ## Streams and scales (03 R63, 04 R69-R73, 07 R156) -/

def stFmt (st : Word × Word) : Nat := fld st.1 0 4
def stKind (st : Word × Word) : Nat := fld st.1 4 4
def stBlk (st : Word × Word) : Nat := fld st.1 8 8
def stStride (st : Word × Word) : Nat := fld st.1 32 32
def stLoc (st : Word × Word) : Nat := fld st.2 62 2
def stBase (st : Word × Word) : Nat := fld st.2 0 55

/-- stN; its reset format is 15 (03 R62). -/
def Core.stream (c : Core) (n : Nat) : Word × Word := SMap.get c.st n (15, 0)

/-- A stream that may not be used: FMT 15, scales at a reserved SLOC (DEDUCED, log entry 36), or scales of kind 2 that are
not aligned (03 R63, 04 R73). -/
def streamBad (st : Word × Word) : Bool :=
  stFmt st = 15 || (stKind st ≠ 0 && 2 ≤ stLoc st) || (stKind st = 2 && (stBase st % 4 ≠ 0 || stStride st % 4 ≠ 0))

/-- Reads scale bytes for the word at work, through the stream TLB of engine `e` where they lie in virtual memory; what such
a read meets is that engine's (07 R156, 09 R187). -/
def scaleRead (s : State) (e : Eng) (st : Word × Word) (a n : Nat) : Acc :=
  if stLoc st = 0 then spadRead s s.rdExt a n
  else match virtRead s e a n with
    | .fault s1 f => .fault s1 { f with eng := some e }
    | x => x

/-- The scales of block `j` of tile row `r` (04 R73): the E8M0 byte, or the scale code and super-scale. -/
def scales (s : State) (e : Eng) (st : Word × Word) (r j : Nat) : Except Acc (State × Nat × Nat) :=
  let row := stBase st + r * stStride st
  match stKind st with
  | 1 =>
    match scaleRead s e st (row + j) 1 with
    | .ok s1 b => .ok (s1, leNat b, 0)
    | x => .error x
  | 2 =>
    match scaleRead s e st (row + 260 * (j / 256)) 4 with
    | .ok s1 b =>
      match scaleRead s1 e st (row + 260 * (j / 256) + 4 + j % 256) 1 with
      | .ok s2 c => .ok (s2, leNat c, leNat b)
      | x => .error x
    | x => .error x
  | _ => .ok (s, 0, 0)

/-- An element of a format, flushed and decoded, with no scale. -/
def plainElem (ty : Nat) (fm : Word) (x : Nat) : Num :=
  if ty = 7 then decodeE8 x
  else match fmtOf ty with
    | some F => operand F fm x
    | none => numOfInt (intVal ty x)

/-- A stream's element with its scales (04 R69-R72). -/
def scaledElem (st : Word × Word) (fm : Word) (x c S : Nat) : Num × Flags :=
  match stKind st with
  | 1 => (scaleE8 (plainElem (stFmt st) fm x) c, 0)
  | 2 => qn4 x c S
  | _ => (plainElem (stFmt st) fm x, 0)

/-- Decodes elements of one tile row: each with its row index and pattern. The scales are read block by block. -/
def decodeRow (s : State) (e : Eng) (st : Word × Word) (fm : Word) (r : Nat) :
    Option (Nat × Nat × Nat) → List (Nat × Nat) → Except Acc (State × List (Num × Flags))
  | _, [] => .ok (s, [])
  | have', (k, x) :: t =>
    let j := k / 2 ^ stBlk st
    let got : Except Acc (State × Nat × Nat) := match have' with
      | some (j0, c, S) => if j0 = j then .ok (s, c, S) else scales s e st r j
      | none => scales s e st r j
    match got with
    | .error a => .error a
    | .ok (s1, c, S) =>
      match decodeRow s1 e st fm r (some (j, c, S)) t with
      | .error a => .error a
      | .ok (s2, l) => .ok (s2, scaledElem st fm x c S :: l)

/-! ## Issue of a word of engine A -/

/-- The g register or literal of a field; zero for a field that holds none (11 R227). -/
def State.gOf (s : State) (r : Row) (w : NWord) (f : Nat) : Word :=
  let x := fieldOf w f
  if hasLit r w f then litWord r w f else if isG x then s.me.gget x.toNat else 0

/-- Issues a word of engine A (11 R226): where its guard fails only its token bits act; `act` is given the state, the
row and the word, and answers the state with the word's effect, or why it does not complete. -/
def issueA (i : Instr) (s : State) (act : Row → NWord → Except Out State) : Out :=
  withNative i s fun r w =>
    if !s.guardHolds w then State.finish s s (bitMoves .A w)
    else match act r w with
      | .error o => o
      | .ok s1 => State.finish s s1 (bitMoves .A w)

/-- A control word of any line engine (06 R123, 12 R264): its own token moves, then its bits'. -/
def issueC (i : Instr) (s : State) (own : NWord → List Move) (act : Row → NWord → Except Out State) : Out :=
  withNative i s fun r w =>
    if shadowRead s r w && s.cur.eng ≠ .A then
      s.engineTrap 30 (wordPlace s.cur.line s.cur.slot ||| BitVec.ofNat 64 (engCode s.cur.eng))
    else if r.guard && !s.guardHolds w then State.finish s s (bitMoves s.cur.eng w)
    else match act r w with
      | .error o => o
      | .ok s1 => State.finish s s1 (own w ++ bitMoves s.cur.eng w)

end Sys2Proof.Machine
end

