-- ==== Sys2Proof/Machine/AccessWords.lean ====
section
/-! DEFINITION. The words of engine A (11 R229-R244) but for those of group 4: address arithmetic, loads and stores,
indexed access, prefetch, parameters, spills and ANEST; and ACCESS_PERFORMED, by which a deferred store is made. -/

namespace Sys2Proof.Machine

/-! ## Address arithmetic (11 R229) -/

/-- A word that writes one g register. -/
def gWord (i : Instr) (s : State) (f : Word → Word → Word) : Out :=
  issueA i s fun r w => .ok (s.updMe (fun c => c.gput w.dst.toNat (f (s.gOf r w 0) (s.gOf r w 1))))

/-- GADD. -/
def execGadd (w : NWord) (s : State) : Out := gWord (.gadd w) s (· + ·)
/-- GSUB. -/
def execGsub (w : NWord) (s : State) : Out := gWord (.gsub w) s (· - ·)
/-- GMUL. -/
def execGmul (w : NWord) (s : State) : Out := gWord (.gmul w) s (· * ·)
/-- GSHL. -/
def execGshl (w : NWord) (s : State) : Out := gWord (.gshl w) s (fun a b => a <<< (b.toNat % 64))
/-- GSHR. -/
def execGshr (w : NWord) (s : State) : Out := gWord (.gshr w) s (fun a b => a >>> (b.toNat % 64))
/-- GAND. -/
def execGand (w : NWord) (s : State) : Out := gWord (.gand w) s (· &&& ·)
/-- GOR. -/
def execGor (w : NWord) (s : State) : Out := gWord (.gor w) s (· ||| ·)
/-- GLI: the literal. -/
def execGli (w : NWord) (s : State) : Out := gWord (.gli w) s (fun a _ => a)

/-- Container `k` of an entry. -/
def contOf (x : QEnt) (k : Nat) : Nat := elem x.data 32 k

/-- A queue entry that is popped with an uncorrectable error in it, whose source is the engine that pushed it (20 R410, R415,
R416; DEDUCED, log entry 86). -/
def QEnt.fault (x : QEnt) : Contained := { code := 1, sub := 6, bank := some (engCode x.eng) }

/-- GMOVX: container k of the qx0 head, which is popped; it waits while there is none (11 R238). -/
def execGmovx (w : NWord) (s : State) : Out :=
  issueA (.gmovx w) s fun _ w =>
    match s.pop 0x306 with
    | none => .error s.waits
    | some (s1, x) =>
      if x.bad then .error (s.fault x.fault)
      else .ok (s1.updMe (fun c => c.gput w.dst.toNat (BitVec.ofNat 64 (contOf x w.c.toNat))))

/-- GCMP: every bit of pD takes the condition on signed doublewords. -/
def execGcmp (w : NWord) (s : State) : Out :=
  issueA (.gcmp w) s fun r w =>
    let t := condInt w.c.toNat (s.gOf r w 0).toInt (s.gOf r w 1).toInt
    .ok (s.updMe (fun c => c.apput w.dst.toNat (if t then allOnes else 0)))

/-! ## Accesses (11 R230-R235) -/

/-- Bytes of `e` elements of a type. -/
def byteLen (ty e : Nat) : Nat := (e * width ty + 7) / 8

/-- Whether two byte ranges share a 64-byte granule. -/
def shareGran (a an b bn : Nat) : Bool :=
  an ≠ 0 && bn ≠ 0 && a / 64 ≤ (b + bn - 1) / 64 && b / 64 ≤ (a + an - 1) / 64

/-- The byte ranges that a deferred store may write. -/
def AStore.spans (x : AStore) : List (Nat × Nat) :=
  if x.cells.isEmpty then [(x.addr.toNat, byteLen x.ty x.e)] else x.cells.map (fun a => (a, 4))

/-- Whether a load of engine A waits for a store of the unit that has not yet written: one to a granule of the load (11
R235), or any where the load or the store lies on an SO page, which orders it with every access before and after it
(14 R306). -/
def State.behindStore (s : State) (va : Bool) (a n : Nat) : Bool :=
  s.me.astores.any (fun x => x.va = va && x.spans.any (fun p => shareGran a n p.1 p.2)) ||
  (!s.me.astores.isEmpty && ((va && s.soAt { rd := true } a n) ||
    s.me.astores.any (fun x => x.va && x.spans.any (fun p => s.soAt { wr := true } p.1 p.2))))

def access (sub : Nat) (a : Nat) : Contained := { code := 17, sub := sub, addr := BitVec.ofNat 64 a }

/-- The rules of R234 that an address alone can break, in the order of their subcodes. -/
def addrBad (s : State) (va : Bool) (a n align : Nat) : Option Contained :=
  if va then
    if a + n > 2 ^ 55 then some (access 1 a) else if a % align ≠ 0 then some (access 3 a) else none
  else match spadPlace s.myCluster a n with
    | some f => some f
    | none => if a % align ≠ 0 then some (access 3 a) else none

/-- A load of engine A: `n` bytes of virtual memory or scratchpad. -/
def loadA (s : State) (va : Bool) (a n align : Nat) : Acc :=
  match addrBad s va a n align with
  | some f => .fault s f
  | none =>
    if s.behindStore va a n then .wait s
    else if n = 0 then .ok s []
    else if va then virtRead s .A a n
    else spadRead s s.rdExt a n

/-- The entry that a load pushes: the bytes read, then zeros. -/
def vecOf (bs : List Byte) : Vec := BitVec.ofNat 2048 (leNat bs)

/-- The mask of a pushed entry; only the entries of qd carry a meaningful one (02 R44). -/
def fullMask : Pred := allOnes

/-- One load that pushes an entry onto a queue. -/
def loadPush (s : State) (va : Bool) (q a n align prog : Nat) : Except Out State :=
  if !s.me.room q then .error s.waits
  else match loadA s va a n align with
    | .ok s1 bs => .ok (s1.push q (vecOf bs) fullMask)
    | x => .error (s.stopOn .A 0 prog x)

/-- ALD and ALDS (11 R230). -/
def loadWord (i : Instr) (va : Bool) (s : State) : Out :=
  issueA i s fun r w =>
    match grantCheck s 0 1 with
    | some o => .error o
    | none =>
      let ty := w.ty.toNat
      loadPush s va w.dst.toNat (s.gOf r w 0 + s.gOf r w 1).toNat (byteLen ty (s.elems (width ty))) 4 0

/-- ALD (11 R230). -/
def execAld (f : Form) (s : State) : Out := loadWord (.ald f) true s
/-- ALDS (11 R230). -/
def execAlds (f : Form) (s : State) : Out := loadWord (.alds f) false s

/-- The bytes that a store of an entry writes: those of the elements below E whose container's mask bit is set. A last
element of 4 bits that ends inside a byte keeps the byte's other half, `old`. -/
def storeBytes (ty e : Nat) (x : QEnt) (old : Byte) : List (Option Byte) :=
  let bits := e * width ty
  (List.range (byteLen ty e)).map (fun k =>
    if x.mask.getLsbD (k / 4) then
      let b := BitVec.ofNat 8 (elem x.data 8 k)
      some (if 8 * k + 8 ≤ bits then b else (old &&& 0xF0) ||| (b &&& 0x0F))
    else none)

/-- The address of a store's last byte where the store writes only half of it. -/
def halfByte (ty e a : Nat) (x : QEnt) : Option Nat :=
  let n := byteLen ty e
  if e * width ty % 8 ≠ 0 && x.mask.getLsbD ((n - 1) / 4) then some (a + n - 1) else none

/-- The rules of R234 that the bytes of a store and its address can break: only a byte that is written is an access. -/
def storeBad (s : State) (va : Bool) (a align : Nat) (bs : List (Option Byte)) : Option Contained :=
  let place : Option Contained :=
    if va then (if (bs.zipIdx).any (fun x => x.1.isSome && a + x.2 ≥ 2 ^ 55) then some (access 1 a) else none)
    else ((byteRuns a bs).filterMap (fun r => spadPlace s.myCluster r.1 r.2.length)).head?
  match place with
  | some f => some f
  | none => if a % align ≠ 0 then some (access 3 a) else none

/-- A store of an entry's elements (11 R231). -/
def storeA (s : State) (va : Bool) (a ty e : Nat) (x : QEnt) : Acc :=
  match storeBad s va a 4 (storeBytes ty e x 0) with
  | some f => .fault s f
  | none =>
    let go (s : State) (old : Byte) : Acc :=
      let bs := storeBytes ty e x old
      if va then virtWrite s .A a bs else spadWriteSome s s.wrExt (byteRuns a bs)
    match halfByte ty e a x with
    | none => go s 0
    | some k =>
      match (if va then virtRead s .A k 1 else s.keptByte k) with
      | .ok s1 b => go s1 (b.getD 0 0)
      | y => y

/-- The containers of ASTX, ascending (11 R237). -/
def scatter (y : QEnt) : List (Nat × Nat) → State → Acc
  | [], s => .ok s []
  | (c, a) :: t, s =>
    match virtWrite s .A a (all (leBytes 4 (contOf y c))) with
    | .ok s1 _ => scatter y t s1
    | z => z

/-- What ASTX stores: each container of the entry below E whose mask bit is set (03 R59), at its address. Nothing is written unless all can
be: every address and every page is looked at first (11 R237). -/
def scatterA (s : State) (e : Nat) (cells : List Nat) (y : QEnt) : Acc :=
  let cs := ((cells.take e).zipIdx.filter (fun p => y.mask.getLsbD p.2)).map (fun p => (p.2, p.1))
  match (cs.filterMap (fun p => addrBad s true p.2 4 4)).head? with
  | some f => .fault s f
  | none =>
    match spots s .A { wr := true } (cs.map (fun p => (p.2, 4))) with
    | .error x => x
    | .ok (s1, _) => scatter y cs s1

/-- A register of VSPILL (11 R243): every byte of the entry. -/
def spillA (s : State) (a : Nat) (x : QEnt) : Acc :=
  match addrBad s true a 256 8 with
  | some f => .fault s f
  | none => virtWrite s .A a (all (leBytes 256 x.data.toNat))

/-- A store of engine A once its entry is there. -/
def AStore.make (p : AStore) (s : State) (x : QEnt) : Acc :=
  if x.bad then .fault s x.fault
  else if p.whole then spillA s p.addr.toNat x
  else if !p.cells.isEmpty then scatterA s p.e p.cells x
  else storeA s p.va p.addr.toNat p.ty p.e x

/-- A store of engine A (11 R235): it is made at once when its entry is there and no earlier store waits; else it keeps its
place, with its address known, until ACCESS_PERFORMED. `pre` is the state that a page fault leaves. -/
def storeOrKeep (pre s : State) (p : AStore) (prog : Nat) : Except Out State :=
  match (if s.me.astores.isEmpty then s.pop p.q else none) with
  | some (s1, x) =>
    match p.make s1 x with
    | .ok s2 _ => .ok s2
    | .missing _ v l ea => .error (pre.missing .A 1 v l ea prog)
    | y => .error (pre.stopOn .A 1 prog y)
  | none => .ok (s.updMe (fun c => { c with astores := c.astores ++ [p] }))

/-- AST and ASTS (11 R231). A misaligned address stops the word at its issue (R234), where no byte of it can break an
earlier rule of that table. -/
def storeWord (i : Instr) (va : Bool) (s : State) : Out :=
  issueA i s fun r w =>
    match grantCheck s 0 1 with
    | some o => .error o
    | none =>
      let ty := w.ty.toNat
      let a := s.gOf r w 0 + s.gOf r w 1
      let e := s.elems (width ty)
      let p : AStore := { q := w.c.toNat, addr := a, ty := ty, e := e, va := va, seq := s.cur.seq }
      match addrBad s va a.toNat (byteLen ty e) 4 with
      | some f =>
        if f.sub = 3 then .error (s.fault f) else storeOrKeep s s p 0
      | none => storeOrKeep s s p 0

/-- AST (11 R231). -/
def execAst (f : Form) (s : State) : Out := storeWord (.ast f) true s
/-- ASTS (11 R231). -/
def execAsts (f : Form) (s : State) : Out := storeWord (.asts f) false s

/-- Places in a store buffer of the stores that may be seen next: no earlier store is to a byte of theirs (14 R301, R305). -/
def freeStores (l : List SbEnt) : List Nat :=
  (l.zipIdx.filter (fun p => (l.take p.2).all (fun e => !meets e.addr e.data.length p.1.addr p.1.data.length))).map (·.2)

/-- ACCESS_PERFORMED: the oldest deferred store of engine A is made if its entry has arrived; else one of the stores that the
control core has buffered is performed, in any order that keeps those to one byte in order (11 R235, 14 R305). -/
def execAccessPerformed (s : State) : Out :=
  let buffered : Out :=
    let open' := freeStores s.me.sbuf
    match open'[Config.storePick s.draws % open'.length]? with
    | none => s.waits
    | some k =>
      match s.me.sbuf[k]? with
      | none => s.waits
      | some e => State.done { (s.updMe (fun c => { c with sbuf := c.sbuf.eraseIdx k })).physWrite s.cur.lcore e.addr e.data e.repl with
          draws := s.draws + 1 }
  -- engine A halts at a word; the stores before it complete, but the one that is itself stopped (11 R245)
  let held := (s.me.fwait ++ s.me.fbuf).any (fun r => !r.void && r.eng = .A && r.acc = 1)
  match (if held then [] else s.me.astores) with
  | [] => buffered
  | p :: t =>
    let s0 := { s with cur := { s.cur with eng := .A, seq := p.seq, entry := false } }
    match s0.pop p.q with
    | none => buffered
    | some (s1, x) =>
      match p.make s1 x with
      | .ok s2 _ => (s2.updMe (fun c => { c with astores := t })).done
      | .missing _ v l ea => s0.missing .A 1 v l ea 0
      | y => s0.stopOn .A 1 0 y

/-! ## Words of several entries: PROG counts the parts done (02 R47) -/

def State.prog (s : State) : Nat := s.ln.upc.prog.toNat
def State.setProg (s : State) (n : Nat) : State :=
  s.updLn (fun l => { l with upc := { l.upc with prog := BitVec.ofNat 12 n } })

/-- Runs the parts of a word from `k` on; the parts done stay done where the next one stops. -/
def partsFrom (step : State → Nat → Except Out State) (total : Nat) : Nat → Nat → State → Except Out State
  | 0, _, s => .ok (s.setProg 0)
  | fuel + 1, k, s =>
    if k ≥ total then .ok (s.setProg 0)
    else match step s k with
      | .ok s1 => partsFrom step total fuel (k + 1) (s1.setProg (k + 1))
      | .error o => .error o

def agenBad (s : State) : Out := s.fault { code := 27 }

/-- Signed product and sum of an address, modulo 2^64. -/
def strided (base : Word) (n : Nat) (stride : Word) : Word := base + BitVec.ofNat 64 n * stride

/-- The row of ALDX: poison under TOLERANT gives zeros, with POISONROW and TOLZ (11 R239). -/
def gatherRow (s : State) (q a n prog : Nat) : Except Out State :=
  if !s.me.room q then .error s.waits
  else match loadA s true a n 4 with
    | .ok s1 bs => .ok (s1.push q (vecOf bs) fullMask)
    | .fault s1 f =>
      if f.code = 1 && s.frame.dw0.getLsbD 13 then
        let s2 := logFault s1 s.cur.lcore 0 (dieOf s.cur.lcore, 0) s.cur.seq { code := 5, addr := BitVec.ofNat 64 a }
        .ok ((s2.setStat 2).push q 0 fullMask)
      else .error (s.stopOn .A 0 prog (.fault s1 f))
    | x => .error (s.stopOn .A 0 prog x)

/-- ALDX (11 R236). -/
def execAldx (w : NWord) (s : State) : Out :=
  issueA (.aldx w) s fun r w =>
    match grantCheck s 0 1 with
    | some o => .error o
    | none =>
      match s.head 0x306 with
      | none => .error s.waits
      | some x =>
        let cnt := (s.gOf r w 2).toNat
        if x.bad then .error (s.fault x.fault)
        else if cnt = 0 ∨ 64 < cnt then .error (agenBad s)
        else
          let n := byteLen w.ty.toNat (s.elems (width w.ty.toNat))
          let row (t : State) (k : Nat) : Except Out State :=
            gatherRow t w.dst.toNat (strided (s.gOf r w 0) (contOf x k) (s.gOf r w 1)).toNat n k
          match partsFrom row cnt 64 s.prog s with
          | .ok s1 => .ok (s1.dropHead 0x306)
          | .error o => .error o

/-- ASTX (11 R237): it needs the qx0 entry, which gives its addresses; its data may come later (R235). As a vector
store it takes VL from shp0 (03 R56, 11 R234), its elements being the containers. -/
def execAstx (w : NWord) (s : State) : Out :=
  issueA (.astx w) s fun r w =>
    match grantCheck s 0 1 with
    | some o => .error o
    | none =>
    match s.pop 0x306 with
    | none => .error s.waits
    | some (s1, x) =>
      if x.bad then .error (s.fault x.fault)
      else
        let cells := (List.range 64).map (fun c => (strided (s.gOf r w 0) (contOf x c) (s.gOf r w 1)).toNat)
        storeOrKeep s s1 { q := w.c.toNat, addr := 0, ty := 0, e := s.elems 32, va := true, seq := s.cur.seq, cells := cells } 0

/-- APREF changes nothing (11 R240). -/
def execApref (f : Form) (s : State) : Out := issueA (.apref f) s fun _ _ => .ok s

/-- The fault of R234 that a register of VSPILL meets wherever its pages are present: none of the word's bytes is written
before it. -/
def spillFault (s : State) (base : Word) (n : Nat) : Option Contained :=
  ((List.range n).filterMap (fun k =>
    let a := (base + BitVec.ofNat 64 (256 * k)).toNat
    match addrBad s true a 256 8 with
    | some f => some f
    | none => match spots s .A { wr := true } (parts 2 a 256) with
      | .error (.fault _ f) => some f
      | _ => none)).head?

/-- VSPILL (11 R243): below VSLIM it traps before it transfers anything. A register whose entry has not come keeps its place
(R235). -/
def execVspill (f : Form) (s : State) : Out :=
  issueA (.vspill f) s fun r w =>
    let base := s.gOf r w 0
    let n := w.c.toNat
    if s.prog = 0 && base < s.me.vslim then .error (s.engineTrap 27 base)
    else match (if s.prog = 0 then spillFault s base n else none) with
      | some f => .error (s.fault f)
      | none =>
        partsFrom (fun t k => storeOrKeep t t
          { q := w.b.toNat, addr := base + BitVec.ofNat 64 (256 * k), ty := 0, e := 64, va := true, seq := s.cur.seq, whole := true } k)
          n 1023 s.prog s

/-- VFILL (11 R243). -/
def execVfill (f : Form) (s : State) : Out :=
  issueA (.vfill f) s fun r w =>
    let base := s.gOf r w 0
    partsFrom (fun t k => loadPush t true w.dst.toNat (base + BitVec.ofNat 64 (256 * k)).toNat 256 8 k) w.c.toNat 1023 s.prog s

/-- ANEST (11 R244). -/
def execAnest (w : NWord) (s : State) : Out :=
  issueA (.anest w) s fun r w =>
    match grantCheck s 0 1 with
    | some o => .error o
    | none =>
      let d := w.b.toNat
      let ni := fld (s.me.gget d) 0 16
      let no := fld (s.me.gget d) 16 16
      if ni * no = 0 ∨ 4095 < ni * no then .error (agenBad s)
      else
        let n := byteLen w.ty.toNat (s.elems (width w.ty.toNat))
        let one (t : State) (k : Nat) : Except Out State :=
          let a := strided (strided (s.gOf r w 0) (k / ni) (s.me.gget (d + 2))) (k % ni) (s.me.gget (d + 1))
          loadPush t (w.c = 0) w.dst.toNat a.toNat n 4 k
        partsFrom one (ni * no) 4095 s.prog s

/-! ## Parameters (11 R241, R242) -/

def Core.wbaseAt (c : Core) (n : Nat) : Nat := (SMap.get c.wbase n 0).toNat
def Core.wsizeAt (c : Core) (n : Nat) : Nat := (SMap.get c.wsize n 0).toNat

/-- Bytes of the control core's reads of a parameter, one by one. -/
def ctlBytes (s : State) (lcore va : Nat) : Nat → CAcc
  | 0 => .ok s []
  | n + 1 =>
    match ctlRead s lcore va 1 with
    | .ok s1 b =>
      match ctlBytes s1 lcore (va + 1) n with
      | .ok s2 bs => .ok s2 (b ++ bs)
      | x => x
    | x => x

/-- The control core consumes poison: the unit's phase meets UNCORR, and the instruction has not completed (20 R416). -/
def ctlPoison (s : State) (sub pa : Nat) : Out :=
  let f : Contained := { code := 1, sub := sub, addr := BitVec.ofNat 64 pa }
  .next { dealWith (logFault s s.cur.lcore 4 (bankOf s.cur.lcore .A f) 0 f) s.cur.lcore 1 with note := .fault f }

/-- How a word of the control core ends on an access that gave no data. -/
def State.ctlStop (s : State) (va : Word) : CAcc → Out
  | .ok s1 _ => s1.done
  | .trap c => s.trap c va
  | .wait s1 => s1.waits
  | .poison sub pa => ctlPoison s sub pa

/-- PWLD (11 R241). -/
def execPwld (f : Form) (s : State) : Out :=
  match f with
  | .nat _ => issueA (.pwld f) s fun _ w =>
      let n := w.a.toNat % 8
      let size := 2 ^ (w.a.toNat / 8 % 4)
      let o := w.b.toNat * 1024 + w.c.toNat
      let give (t : State) (v : Nat) : State :=
        if isG w.dst then t.updMe (fun c => c.gput w.dst.toNat (BitVec.ofNat 64 v))
        else t.push w.dst.toNat (replicate (width w.ty.toNat) v) fullMask
      if !isG w.dst && !s.me.room w.dst.toNat then .error s.waits
      else if s.me.wsizeAt n = 0 then .error (s.engineTrap 28 (BitVec.ofNat 64 (n + 4096)))
      else if o + size > s.me.wsizeAt n then .ok (give (s.setStat 1) 0)
      else match loadA s true (s.me.wbaseAt n + o) size 1 with
        | .ok s1 bs => .ok (give s1 (leNat bs))
        | x => .error (s.stopOn .A 0 0 x)
  | .port _ => withPort (.pwld f) s fun p =>
      let n := p.vs1.toNat % 8
      let size := 2 ^ (p.imm18.toNat / 65536)
      let o := p.imm18.toNat % 65536
      if s.me.wsizeAt n = 0 then s.trap 28 (BitVec.ofNat 64 n)
      else if o + size > s.me.wsizeAt n then (s.updMe (fun c => { c with astat := c.astat ||| 1 })).retireP p.vd 0
      else match ctlBytes s s.cur.lcore (s.me.wbaseAt n + o) size with
        | .ok s1 bs => s1.retireP p.vd (BitVec.ofNat 64 (leNat bs))
        | x => s.ctlStop (BitVec.ofNat 64 (s.me.wbaseAt n + o)) x

end Sys2Proof.Machine
end

