-- ==== Sys2Proof/Machine/Landing.lean ====
section
/-! DEFINITION. Results landing (15 R327, R329; 07 R133), the add-writes of the deterministic rules (14 R319) with the
order of R385, and posts to a result FIFO (12 R258). -/

namespace Sys2Proof.Machine

/-! ## Add-writes (14 R319) -/

/-- Whether two add-writes belong to one command. -/
def sameCmd (a b : AddW) : Bool := a.launch = b.launch && a.idx = b.idx && a.phase = b.phase && a.seq = b.seq && a.entry = b.entry

/-- Whether the tracked orders place `a` before `b`, the add-write of the command at work: one phase of one unit in
either direction of R385, an earlier phase of the unit, or an event of a commit at or after a's phase that b's command
waited on. -/
def addOrdered (s : State) (a b : AddW) : Bool :=
  if a.launch = b.launch && a.idx = b.idx then
    if a.phase < b.phase then true
    else
      let cs := s.me.ph.cmds
      match cs.find? (fun k => k.seq = a.seq && k.entry = a.entry), cs.find? (fun k => k.seq = b.seq && k.entry = b.entry) with
      | some x, some y => orderedAfter cs x y || orderedAfter cs y x
      | _, _ => true
  else
    ((s.me.unit.map (·.heard)).getD []).any (fun h => h.1 = b.seq && h.2.1 = a.launch && h.2.2.1 = a.idx && a.phase ≤ h.2.2.2)

/-- The command at work makes an add-write to bytes of a core's accumulator SRAM: its identity is kept with every
granule, and a conflict is the contained fault DETADD. A pair conflicts when either of its commands falls under the
deterministic rules (DEDUCED, log entry 26). -/
def addWrite (s : State) (target off n : Nat) : Except Contained State :=
  match s.me.unit with
  | none => .ok s
  | some u =>
    (List.range ((off % 64 + n + 63) / 64)).foldl (fun acc k =>
      match acc with
      | .error f => .error f
      | .ok t =>
        let g := off / 64 + k
        let b : AddW := { core := target, gran := g, launch := u.launch, lid := u.lid, idx := u.idx, phase := s.me.ph.num,
                          lcore := s.cur.lcore, seq := s.cur.seq, entry := s.entryNo, det := s.det }
        let cl := t.clusterAt (clusterOf target)
        let here := cl.adds.filter (fun a => a.core = target && a.gran = g)
        match here.find? (fun a => a.launch = b.launch && !sameCmd a b && (a.det || b.det) && !addOrdered t a b) with
        | some a =>
          .error { code := 33, addr := BitVec.ofNat 64 (Config.windowBase + Config.accBytes * target + 64 * g),
                   misc := some (a.seq ++ b.seq), lcore2 := some a.lcore }
        | none =>
          if here.any (fun a => sameCmd a b) then .ok t
          else .ok (t.setCluster (clusterOf target) { cl with adds := cl.adds ++ [b] })) (.ok s)

/-- FP32 add of two patterns, rounded to nearest even, with R83's signs and R75's saturation (14 R315, 09 R198). -/
def addF32 (fm : Word) (flush : Bool) (old x : Nat) : Nat × Flags :=
  let d (v : Nat) : Num := if flush then operand fp32 fm v else decodeF fp32 v
  nanCase fp32 [d old, d x] (roundSum fp32 fm .rne [d old, d x])

/-- A word of accumulator SRAM under an add or an overwrite. -/
def accWord (m : AccMode) (old x : Nat) : Nat × Flags :=
  match m with
  | .ovw => (x, 0)
  | .addF flush fm => addF32 fm flush old x
  | .addI => ((old + x) % 2 ^ 32, 0)

/-- Changes the words of a row of a core's own accumulator SRAM whose containers are in the mask; two that make up an aligned
8-byte word replace it whole (20 R416). -/
def accRow (s : State) (row : Nat) (m : AccMode) (data : Vec) (mask : Pred) : State × Flags :=
  let new (c : Nat) : Nat × Flags := accWord m (leNat (s.accRead s.cur.lcore (256 * row + 4 * c) 4)) (elem data 32 c)
  let bs := (List.range 64).flatMap (fun c => if mask.getLsbD c then (leBytes 4 (new c).1).map some else List.replicate 4 none)
  ((dwParts (256 * row) bs).foldl (fun t p => t.accWrite s.cur.lcore p.1 p.2 none) s,
   (List.range 64).foldl (fun fl c => if mask.getLsbD c then fl ||| (new c).2 else fl) 0)

/-- Words of a row that the mask names, as runs of bytes for the deterministic rules. -/
def accRowAdds (s : State) (row : Nat) (mask : Pred) : Except Contained State :=
  (List.range 4).foldl (fun acc g =>
    match acc with
    | .error f => .error f
    | .ok t => if (mask >>> (16 * g)).setWidth 16 = (0 : BitVec 16) then .ok t else addWrite t s.cur.lcore (256 * row + 64 * g) 64) (.ok s)

/-! ## Result FIFOs (06 R118, 12 R258) -/

def Core.fifo (c : Core) : Eng → List Word
  | .A => c.fifoA | .M => c.fifoM | .V => c.fifoV | .X => c.fifoX
def Core.setFifo (c : Core) (e : Eng) (l : List Word) : Core :=
  match e with
  | .A => { c with fifoA := l } | .M => { c with fifoM := l } | .V => { c with fifoV := l } | .X => { c with fifoX := l }

/-- Posts an element to an engine's FIFO; none while it is full. -/
def Core.postTo (c : Core) (e : Eng) (w : Word) : Option Core :=
  if (c.fifo e).length < 16 then some (c.setFifo e (c.fifo e ++ [w])) else none

/-! ## One landing -/

/-- What a landing comes to: done, held back, or a contained fault. -/
inductive Landed where
  | ok (s : State) (fl : Flags)
  | blocked
  | bad (f : Contained)

/-- Bits of `old` replaced by those of `new` where the mask is set. -/
def mergeBits {n : Nat} (old new mask : BitVec n) : BitVec n := (old &&& ~~~mask) ||| (new &&& mask)

/-- One change of a result, made for the command at work. -/
def landOne (s : State) : Landing → Landed
  | .vreg n d m => .ok (s.updMe (fun c => { c.vput n (mergeBits (c.vget n) d m) with
      vBad := if m = ~~~0 then c.vBad.filter (· ≠ n) else c.vBad })) 0
  | .pred n d m => .ok (s.updMe (fun c => c.pput n (mergeBits (c.pget n) d m))) 0
  | .push q d m => if s.me.room q then .ok (s.push q d m) 0 else .blocked
  | .acc row mode d m =>
    let bad := mode ≠ .ovw && (List.range 64).any (fun c => m.getLsbD c && s.accPoison s.cur.lcore (256 * row + 4 * c) 4)
    match (if bad then Except.error (accFault s.cur.lcore (256 * row))
      else if mode = .ovw then Except.ok s else accRowAdds s row m) with
    | .error f => .bad f
    | .ok s1 =>
      let (s2, fl) := accRow s1 row mode d m
      .ok s2 fl
  | .bank n b => .ok (s.updMe (fun c => if n = 0 then { c with mc0 := b } else { c with mc1 := b })) 0
  | .clrRow n row keep =>
    let clr (b : Bank) : Bank := { b with
      cells := b.cells.filter (fun p => p.1 / 64 ≠ row), mir := b.mir.filter (fun p => p.1 / 64 ≠ row), mirv := b.mirv && keep }
    .ok (s.updMe (fun c => if n = 0 then { c with mc0 := clr c.mc0 } else { c with mc1 := clr c.mc1 })) 0
  | .flag n v => .ok (s.updMe (fun c => { c with fl := setFld c.fl n 1 (if v then 1 else 0) })) 0
  | .post r =>
    match s.me.postTo s.cur.eng ((s.me.vget r).setWidth 64) with
    | some c => .ok (s.setMe c) 0
    | none => .blocked
  | .buf n b => .ok (s.updMe (fun c => match n with
      | 0 => { c with bufS := b }
      | 1 => { c with bufF := b }
      | _ => { c with bufG := b })) 0
  | .mpstat v => .ok (s.updMe (fun c => { c with mpstat := v })) 0
  | .greg n v => .ok (s.updMe (fun c => c.gput n v)) 0

def landList (s : State) : List Landing → Landed
  | [] => .ok s 0
  | l :: t =>
    match landOne s l with
    | .ok s1 f1 =>
      match landList s1 t with
      | .ok s2 f2 => .ok s2 (f1 ||| f2)
      | x => x
    | x => x

/-- The state with a result's engine, command and word at work. -/
def State.asFlight (s : State) (f : Flight) : State :=
  { s with cur := { s.cur with eng := f.eng, seq := f.seq, entry := false, line := f.line, slot := f.slot } }

/-- One result lands; one of Wick's that carries an uncorrectable error is consumed instead (07 R159, 20 R416). -/
def Flight.land (f : Flight) (s : State) : Landed :=
  if f.bad then .bad { code := 1, sub := 9 } else landList (s.asFlight f) f.lands

/-- Lands results in issue order (07 R133); a result that cannot complete holds all of them (02 R45). Their flags enter
the phase's set (04 R80), and a word of MPOLY.T that stopped leaves POLYSTOP for the end of the bundle (10 R215). -/
def landAll (s : State) : List Flight → Landed
  | [] => .ok s 0
  | f :: t =>
    match f.land s with
    | .ok s1 fl =>
      let s2 := s1.updMe (fun c => c.merge f.eng f.seq (f.flags ||| fl) 0)
      let s3 := if f.stop then s2.updMe (fun c => { c with lineM := { c.lineM with post := some { cause := 26, val := c.mpstat } } }) else s2
      landAll s3 t
    | x => x

/-- The flight of a list whose landing raises a fault, for the record. -/
def badFlight (s : State) : List Flight → Option Flight
  | [] => none
  | f :: t =>
    match f.land s with
    | .ok s1 _ => badFlight s1 t
    | .blocked => none
    | .bad _ => some f

/-- A result's value is available: on time as declared, or arrived since (15 R324, R327, 07 R158). -/
def Flight.here (f : Flight) (now : Nat) : Bool := f.ready || (!f.wick && f.avail ≤ now)

/-- The trap SHADOWLATE for a late result (15 R327): raised once for what is late at this cycle, after which the domain waits
as under SHCHK 0. -/
def shadowLate (s : State) (f : Flight) : Out :=
  let t : ETrap := { cause := 29, val := wordPlace f.line f.slot ||| BitVec.ofNat 64 (engCode f.eng) }
  let s1 := s.updMe (fun c => { c.updLine f.eng (fun l => { l with trap := some t, st := .trapped }) with
    flights := c.flights.map (fun g => if g.due ≤ c.vcycle then { g with shchk := false } else g) })
  .next { s1 with note := .trap t.cause t.val }

/-- RESULT_LANDING: the results due at the core's virtual cycle land, all of them or none (02 R45, 07 R133, 15 R327). -/
def execResultLanding (s : State) : Out :=
  let due := s.me.flights.filter (fun f => f.due ≤ s.me.vcycle)
  match due.find? (fun f => !f.here s.now && f.shchk && !f.wick && (s.me.line f.eng).trap.isNone) with
  | some f => shadowLate s f
  | none =>
    if due.any (fun f => !f.here s.now) then s.waits
    else match landAll s due with
      | .blocked => s.waits
      | .bad x =>
        match badFlight s due with
        | some f => (s.asFlight f).fault x
        | none => s.fault x
      | .ok s1 _ =>
        let t := s.me.vcycle
        State.done { s1.updMe (fun c => { c with
          flights := c.flights.filter (fun f => t < f.due), mwork := c.mwork.filter (fun m => !(m.formed && m.due ≤ t)) }) with cur := s.cur }

end Sys2Proof.Machine
end

