-- ==== Sys2Proof/Machine/Matrix.lean ====
section
/-! DEFINITION. The words of engine M (09 R183-R202): their units and hazards, operands, loads, products, zeroing,
transposition and drains, and the native MNWAIT. -/

namespace Sys2Proof.Machine

/-! ## Units and hazards (09 R188, R189; 10 R217) -/

/-- What a word of M uses: the array unit or the load unit, and the buffers (0 S, 1 mf, 2 mg), banks (3, 4) and MPSTAT
(5) that it reads and writes. -/
structure MUse where
  array : Bool
  rd    : List Nat
  wr    : List Nat

/-- The uses of MPOLY by mode (10 R214, R217). -/
def polyUse (mode : Nat) : MUse :=
  if mode = 0 then { array := true, rd := [0, 1], wr := [0, 3, 4, 5] }
  else if mode = 1 then { array := true, rd := [0, 1], wr := [0, 4, 5] }
  else { array := true, rd := [0, 1, 2], wr := [0, 2, 3, 4, 5] }

def mUse (i : Instr) : Option MUse :=
  match i with
  | .mlds (.nat _) => some { array := false, rd := [], wr := [0] }
  | .mldf (.nat _) => some { array := false, rd := [], wr := [1] }
  | .mldg (.nat _) => some { array := false, rd := [], wr := [2] }
  | .mma (.nat w) =>
    let c := w.c.toNat
    some { array := true, wr := [3 + w.dst.toNat],
           rd := (if c % 4 = 1 then [0] else []) ++ (if c / 4 % 4 = 1 then [1] else if c / 4 % 4 = 2 then [2] else []) ++ [3 + w.dst.toNat] }
  | .mmas (.nat w) =>
    let c := w.c.toNat
    some { array := true, wr := [3 + w.dst.toNat],
           rd := (if c / 4 % 4 = 1 then [1] else if c / 4 % 4 = 2 then [2] else []) ++ [3 + w.dst.toNat] }
  | .mzero (.nat w) => some { array := true, rd := [], wr := if w.dst = 2 then [3, 4] else [3 + w.dst.toNat] }
  | .accld (.nat w) =>
    let b := 3 + w.c.toNat % 2
    some { array := false, rd := [b], wr := if w.c.toNat / 2 % 2 = 1 then [b] else [] }
  | .mtrans (.nat w) => some { array := true, rd := [w.c.toNat / 4 % 4], wr := [w.c.toNat % 4] }
  | .mprom (.nat w) => some { array := true, rd := [3 + w.c.toNat / 4 % 2, 5], wr := [w.c.toNat % 4, 5] }
  | .mpoly (.nat w) => some (polyUse (w.c.toNat % 4))
  | .mpolyT (.nat w) => some (polyUse (w.c.toNat % 4))
  | .mpstat (.nat w) => some { array := false, rd := [5], wr := if w.c.toNat % 2 = 1 then [5] else [] }
  | _ => none

def meetsList (a b : List Nat) : Bool := a.any (fun x => b.contains x)

/-- Whether a word of M idles (09 R189): its unit is busy, an earlier word that writes what it uses has not landed, or an
earlier word still reads a buffer that it writes. Words of the same bundle are not earlier. Native MNWAIT idles until
every earlier word has landed (09 R199). -/
def mIdle (c : Core) (i : Instr) : Bool :=
  let before := c.mwork.filter (fun m => m.t < c.vcycle)
  match i with
  | .mnwait _ => !before.isEmpty
  | i =>
    match mUse i with
    | none => false
    | some u =>
      before.any (fun m =>
        (m.array = u.array && c.vcycle < m.t + m.o)
        || (meetsList m.wr (u.rd ++ u.wr) && !(m.formed && m.due ≤ c.vcycle))
        || (meetsList (m.rd.filter (· < 3)) u.wr && c.vcycle < m.t + m.o))

/-! ## Operands (09 R184-R187) -/

def ceilDiv (a b : Nat) : Nat := (a + b - 1) / b

/-- Values of k per entry of an operand of a format. -/
def kpOf (fmt : Nat) : Nat := if width fmt = 0 then 1 else 32 / width fmt
/-- Cycles of `k` values for a width (09 R188). -/
def cyclesOf (w k : Nat) : Nat := if w = 32 then 4 * k else ceilDiv (k * w) 16
/-- The K-group size of the wider width (04 R81). -/
def groupOf (w : Nat) : Nat := if w = 32 then 1 else 128 / w

/-- The side code of the gang a core is bound to as a number: 1, 2 or 4. -/
def Core.side (c : Core) : Nat := 2 ^ c.gang.toNat

/-- An operand of a word: its format, its stream if it has one, and its entries, held or to be popped. -/
structure Opnd where
  fmt : Nat
  st  : Option (Word × Word) := none
  es  : List Vec := []
  q   : Option Nat := none
  /-- its scales, by row or column and block, where they have been read ahead. -/
  scl : List ((Nat × Nat) × (Nat × Nat)) := []

/-- Element k of row or column `x` of an operand in its entries. -/
def entElem (es : List Vec) (w x k : Nat) : Nat := elem (es.getD (k / (32 / w)) 0) w (k % (32 / w) * 64 + x)

/-- Entries from a pattern function of (x, k). -/
def entriesOf (fmt K : Nat) (f : Nat → Nat → Nat) : List Vec :=
  let kp := kpOf fmt
  (List.range (ceilDiv K kp)).map (fun e =>
    (packElems (width fmt) ((List.range (64 * kp)).filterMap (fun n =>
      let k := e * kp + n / 64
      if k < K then some (n, f (n % 64) k) else none))).1)

def shapeBad (s : State) : Out := s.fault { code := 21 }
/-- A buffer, bank or queue entry read with an uncorrectable error in it, and a vector register (20 R415, R416). -/
def arrayBad : Contained := { code := 1, sub := 6 }
def vregBad : Contained := { code := 1, sub := 5 }

def Core.bufAt (c : Core) : Nat → Buf
  | 0 => c.bufS
  | 1 => c.bufF
  | _ => c.bufG
def Core.bankAt (c : Core) (n : Nat) : Bank := if n = 0 then c.mc0 else c.mc1
def Buf.cell (b : Buf) (i j : Nat) : Nat := (SMap.get b.cells (64 * i + j) 0).toNat
def Bank.cell (b : Bank) (i j : Nat) : Nat := (SMap.get b.cells (64 * i + j) 0).toNat

/-- Bytes of each row of a scratchpad-direct operand, as the command's reads (09 R185). -/
def descRows (s : State) (dw0 dw1 : Word) (w n : Nat) : List Nat → Except Acc (State × List (List Byte))
  | [] => .ok (s, [])
  | r :: t =>
    let a := fld dw0 0 32 + r % 64 * fld dw0 32 16 + r / 64 * fld dw1 0 32
    match (if n = 0 then Acc.ok s [] else spadRead s s.rdExt a (ceilDiv (n * w) 8)) with
    | .ok s1 bs =>
      match descRows s1 dw0 dw1 w n t with
      | .ok (s2, l) => .ok (s2, bs :: l)
      | .error x => .error x
    | x => .error x

/-- A descriptor whose fields are not multiples of 4 (09 R185). -/
def descBad (dw0 dw1 : Word) : Bool := fld dw0 0 2 ≠ 0 || fld dw0 32 2 ≠ 0 || fld dw1 0 2 ≠ 0

/-- A scratchpad-direct operand: rows are x for the left operand and k for the right. -/
def descOpnd (s : State) (left : Bool) (fmt rows cols K : Nat) (dw0 dw1 : Word) : Except Out (State × Opnd) :=
  if descBad dw0 dw1 then .error (s.fault { code := 24 })
  else
    let w := width fmt
    match (if left then descRows s dw0 dw1 w K (List.range rows) else descRows s dw0 dw1 w cols (List.range K)) with
    | .error x => .error (s.stopOn .M 3 0 x)
    | .ok (s1, l) =>
      let at' (r c : Nat) : Nat := leNat (l.getD r []) / 2 ^ (w * c) % 2 ^ w
      .ok (s1, { fmt := fmt, es := entriesOf fmt K (fun x k =>
        if left then (if x < rows then at' x k else 0) else if x < cols then at' k x else 0) })

/-- The last vector register that an operand of the command at work may reach: v767, and v31 in a region of portable code, which
has no others (DEDUCED, log entry 128). -/
def State.lastVreg (s : State) : Nat := if (s.cmd.map (·.steps)).getD [] = [] then 767 else 31

/-- An operand whose `n` entries stand in vector registers from one on (09 R184). -/
def regOpnd (s : State) (x : Opnd) (field n : Nat) : Except Out (State × Opnd) :=
  if 16 < n ∨ s.lastVreg < field + n - 1 then .error (shapeBad s)
  else if (List.range n).any (fun e => s.me.vBad.contains (s.vphys (field + e))) then .error (s.fault vregBad)
  else .ok (s, { x with es := (List.range n).map (fun e => s.me.vget (s.vphys (field + e))) })

/-- An operand of a word (09 R184): `kind` 0 streamed, 1 the buffer `buf`, 2 through a descriptor. `Ke` is the number of
values of k that its entries hold. -/
def opndOf (s : State) (left : Bool) (kind buf ty rows cols Ke : Nat) (field : BitVec 10) : Except Out (State × Opnd) :=
  if kind = 1 then
    let b := s.me.bufAt buf
    if b.tag.toNat ≠ ty ∨ 64 < Ke then .error (shapeBad s)
    else if b.bad then .error (s.fault arrayBad)
    else .ok (s, { fmt := ty, es := entriesOf ty Ke (fun x k => if left then b.cell x k else b.cell k x) })
  else if kind = 2 then
    let v := s.me.vget (s.vphys field.toNat)
    if s.me.vBad.contains (s.vphys field.toNat) then .error (s.fault vregBad) else
    descOpnd s left ty rows cols Ke (BitVec.ofNat 64 (elem v 64 0)) (BitVec.ofNat 64 (elem v 64 1))
  else if isVreg field then
    regOpnd s { fmt := ty } field.toNat (ceilDiv Ke (kpOf ty))
  else if isStream field then
    let st := s.me.stream (field.toNat - 0x310)
    if streamBad st then .error (s.fault { code := 23 })
    else match s.cmd.bind (·.strm) with
      | some n => regOpnd s { fmt := stFmt st, st := some st } n (ceilDiv Ke (kpOf (stFmt st)))
      | none => .ok (s, { fmt := stFmt st, st := some st, q := some (0x300 + (field.toNat - 0x310) % 4) })
  else .ok (s, { fmt := ty, q := some field.toNat })

/-- Whether two formats may meet in the array (09 R186). -/
def pairOk (f g : Nat) : Bool :=
  ((f ≤ 6 && g ≤ 6) || ([10, 12].contains f && [10, 12].contains g)) && ((f = 0) == (g = 0))

/-- The pops of an operand that needs `ne` entries over `o` cycles from `t` (09 R188). -/
def popsOf (t o which : Nat) (x : Opnd) (ne : Nat) : List (Nat × Nat × Nat) :=
  match x.q with
  | none => []
  | some q => (List.range ne).map (fun e => (t + e * o / ne, q, which))

/-- Takes the pops that are due, in order; none where an entry is missing. -/
def takePops (s : State) (m : MWork) : List (Nat × Nat × Nat) → Option (State × MWork)
  | [] => some (s, { m with pops := [] })
  | (t, q, k) :: rest =>
    if s.me.vcycle < t then
      match takePops s m rest with
      | none => none
      | some (s1, m1) => some (s1, { m1 with pops := (t, q, k) :: m1.pops })
    else match s.pop q with
      | none => none
      | some (s1, x) =>
        takePops s1 (match k with
          | 0 => { m with opL := m.opL ++ [x.data] }
          | 1 => { m with opR := m.opR ++ [x.data] }
          | _ => { m with opX := m.opX ++ [x.data] }) rest

/-! ## Issue -/

/-- The grant of shp1 for a word of M: class, REGRANT, and the cap of the gang (03 R55, R56). -/
def matCheck (s : State) : Option Out :=
  match grantCheck s 1 2 with
  | some o => some o
  | none =>
    let cap := 64 * s.me.side
    if shpD (s.shp 1) 0 > cap ∨ shpD (s.shp 1) 1 > cap then some (shapeBad s) else none

/-- Ma and Na (09 R192), within the core's own array. -/
def State.ma (s : State) : Nat := min 64 (min (shpD (s.shq 1) 0) (shpD (s.shp 1) 0))
def State.na (s : State) : Nat := min 64 (min (shpD (s.shq 1) 1) (shpD (s.shp 1) 1))
def State.kk (s : State) : Nat := shpD (s.shp 1) 2

/-- Whether mirroring applies to a word that writes a bank under shp1 (09 R200). -/
def State.mirrors (s : State) (sparse : Bool) : Bool := Fmode.mirror s.fmode && ((s.shp 1).getLsbD 57 || sparse)

/-- A word of M at its issue. -/
def State.work (s : State) (i : Instr) (w : NWord) (o : Nat) : MWork :=
  let u := (mUse i).getD { array := false, rd := [], wr := [] }
  { i := i, line := s.cur.line, slot := s.cur.slot, seq := s.cur.seq, array := u.array, t := s.me.vcycle, o := o,
    due := s.me.vcycle + o - 1 + w.lat.toNat, rd := u.rd, wr := u.wr }

/-- True latency of a word of M, counted from the end of its busy interval (15 R324). -/
def trueLatM (array : Bool) (op : Nat) : Nat := if array && op ≠ 0x05 then 2 else 1

/-- A word's result in flight. -/
def MWork.fly (m : MWork) (s : State) (lands : List Landing) (fl : Flags) (stop : Bool) : Flight :=
  let (lat, nib) := match nativeRow m.i with
    | some (r, w) => (trueLatM m.array r.op, w.lat.toNat)
    | none => (0, 0)
  let ready : Bool := lat ≤ nib
  { eng := .M, due := m.due, lands := lands, flags := fl, ready := ready, avail := s.now + (m.t + m.o - 1 + lat - s.me.vcycle), shchk := Fmode.shchk s.fmode,
    shrd := Fmode.shrd s.fmode, stop := stop, line := m.line, slot := m.slot, seq := m.seq, issued := m.t }

/-- Whether a result's word issued after another's: by the virtual cycle, M's bundle before V's of one cycle (09 R189), and by slot. -/
def Flight.after (g f : Flight) : Bool :=
  f.issued < g.issued || (f.issued = g.issued && (if f.eng = g.eng then f.slot < g.slot else f.eng = .M))

/-- A result takes its place among those in flight, which stand in issue order. -/
def placeFlight (f : Flight) : List Flight → List Flight
  | [] => [f]
  | g :: t => if g.after f then f :: g :: t else g :: placeFlight f t

/-- A word whose result is formed. -/
def State.formed (s : State) (m : MWork) (lands : List Landing) (fl : Flags) (stop : Bool := false) : State :=
  s.updMe (fun c => { c with flights := c.flights ++ [m.fly s lands fl stop], mwork := c.mwork ++ [{ m with formed := true, pops := [] }] })

/-- The registers that a word of M reads, under SHRD (15 R328). -/
def mRegs (s : State) (i : Instr) : List Nat :=
  let regs (ty n K : Nat) : List Nat := (List.range (ceilDiv K (kpOf ty))).map (fun e => s.vphys (n + e))
  let opnd (kind ty K : Nat) (f : BitVec 10) : List Nat :=
    if !isVreg f then [] else if kind = 0 then regs ty f.toNat K else if kind = 2 then [s.vphys f.toNat] else []
  let c (w : NWord) : Nat := w.c.toNat
  match i with
  | .mlds (.nat w) | .mldf (.nat w) | .mldg (.nat w) => opnd (c w % 4) w.ty.toNat s.kk w.a
  | .mma (.nat w) => opnd (c w % 4) w.ty.toNat s.kk w.a ++ opnd (rKind (c w)) w.ty.toNat s.kk w.b
  | .mmas (.nat w) => opnd 0 w.ty.toNat (2 * ceilDiv s.kk 4) w.a ++ opnd (rKind (c w)) w.ty.toNat s.kk w.b
  | .mpoly (.nat w) | .mpolyT (.nat w) => if isVreg w.a then [s.vphys w.a.toNat] else []
  | _ => []

def shadowReadM (s : State) (i : Instr) : Bool :=
  let regs := mRegs s i
  Fmode.shrd s.fmode && !s.ln.pass && s.me.flights.any (fun f => f.marks s && f.lands.any (fun l => match l with
    | .vreg n _ _ => regs.contains n
    | _ => false))

/-- Issues a word of M: legality, the check of R328, the hazards of R189, and the word's own part, then its tokens. -/
def issueM (i : Instr) (s : State) (act : Row → NWord → Except Out State) : Out :=
  withNative i s fun r w =>
    if shadowReadM s i then s.engineTrap 30 (wordPlace s.cur.line s.cur.slot ||| 1)
    else if mIdle s.me i then s.waits
    else match act r w with
      | .error o => o
      | .ok s1 => State.finish s s1 (bitMoves .M w)

/-! ## Products (09 R193-R195; 04 R81, R82) -/

/-- The integer that a value of no fraction is. -/
def Num.int : Num → Int
  | .fin n m _ => if n then -(m : Int) else m
  | _ => 0

/-- One K-group of integers (09 R194). -/
def intGroup (fm : Word) (acc : Nat) (ab : List (Num × Num)) : Nat × Flags :=
  let v := ab.foldl (fun a p => a + p.1.int * p.2.int) (intVal 8 acc)
  if Fmode.sat fm then
    if v < -2147483648 then (0x80000000, Flag.satf) else if v > 2147483647 then (0x7FFFFFFF, Flag.satf) else (wrapInt 32 v, 0)
  else (wrapInt 32 v, 0)

/-- Groups of a cell in ascending order. -/
def runGroups (one : Nat → List (Num × Num) → Nat × Flags) : List (List (Num × Num)) → Nat → Flags → Nat × Flags
  | [], acc, fl => (acc, fl)
  | g :: t, acc, fl =>
    let (v, f) := one acc g
    runGroups one t v (fl ||| f)

/-- A list in chunks of `g`. -/
def chunksOf {α : Type} (g : Nat) : Nat → List α → List (List α)
  | 0, _ => []
  | fuel + 1, l => if l.isEmpty then [] else l.take g :: chunksOf g fuel (l.drop g)

/-- A row or column of an operand, decoded with its scales (04 R69-R73, R76). -/
def sideRow (s : State) (x : Opnd) (es : List Vec) (row K : Nat) : Except Acc (State × List (Num × Flags)) :=
  let xs := (List.range K).map (fun k => (k, entElem es (width x.fmt) row k))
  match x.st with
  | some st =>
    if x.scl.isEmpty then decodeRow s .M st s.fmode row none xs
    else
      let at' (k : Nat) : Nat × Nat := ((x.scl.find? (fun p => p.1 = (row, k / 2 ^ stBlk st))).map (·.2)).getD (0, 0)
      .ok (s, xs.map (fun p => scaledElem st s.fmode p.2 (at' p.1).1 (at' p.1).2))
  | none => .ok (s, xs.map (fun p => (plainElem x.fmt s.fmode p.2, 0)))

/-- All rows of an operand up to `n`. -/
def sideRows (s : State) (x : Opnd) (es : List Vec) (K : Nat) : List Nat → Except Acc (State × List (List (Num × Flags)))
  | [] => .ok (s, [])
  | r :: t =>
    match sideRow s x es r K with
    | .error a => .error a
    | .ok (s1, l) =>
      match sideRows s1 x es K t with
      | .error a => .error a
      | .ok (s2, ls) => .ok (s2, l :: ls)

/-- A bank with cells set; a cell that is +0 is not listed. -/
def setCells (cells : SMap Cell32) (xs : List (Nat × Nat)) : SMap Cell32 :=
  xs.foldl (fun m p => if p.2 = 0 then SMap.del m p.1 else SMap.put m p.1 (BitVec.ofNat 32 p.2)) cells

/-- Cells of a whole buffer by a pattern function. -/
def allCells (f : Nat → Nat → Nat) : SMap Cell32 :=
  (List.range 4096).filterMap (fun n => let v := f (n / 64) (n % 64); if v = 0 then none else some (n, BitVec.ofNat 32 v))

/-- The terms of one cell of MMAS (09 R195): for each value its k and its factors. -/
def sparseTerms (K : Nat) (vals : List (Num × Flags)) (col : List (Num × Flags)) (es : List Vec) (i : Nat) : List (Nat × Num × Num) :=
  (List.range (ceilDiv K 4)).flatMap (fun γ =>
    let nib := elem (es.getD (γ / 8) 0) 4 (γ % 8 * 64 + i)
    [(0, nib % 4), (1, nib / 4)].filterMap (fun p =>
      let k := 4 * γ + p.2
      if k < K then some (k, (vals.getD (2 * γ + p.1) (.fin false 0 0, 0)).1, (col.getD k (.fin false 0 0, 0)).1) else none))

/-- The product of a word once its entries are had: the new bank, with MIRV as R201 says, and the flags. While mirroring
applies and the bank's copies stand, the idle half of the array makes the same computation on them (09 R200). -/
def product (s : State) (bank : Bank) (ma na K : Nat) (l r : Opnd) (el er ex : List Vec) (sparse : Bool) :
    Except Acc (State × Bank × Flags) :=
  let Kl := if sparse then 2 * ceilDiv K 4 else K
  match sideRows s l el Kl (List.range ma) with
  | .error a => .error a
  | .ok (s1, rows) =>
    match sideRows s1 r er K (List.range na) with
    | .error a => .error a
    | .ok (s2, cols) =>
      let fm := s.fmode
      let g := groupOf (max (width l.fmt) (width r.fmt))
      let one := if [10, 12].contains l.fmt then intGroup fm else dotGroup fm
      let cell (cells : SMap Cell32) (i j : Nat) : Nat × Flags :=
        let row := rows.getD i []
        let col := cols.getD j []
        let groups : List (List (Num × Num)) :=
          if sparse then
            let ts := sparseTerms K row col ex i
            (List.range (ceilDiv K g)).map (fun q => (ts.filter (fun t => t.1 / g = q)).map (fun t => (t.2.1, t.2.2)))
          else (chunksOf g K (row.zip col)).map (fun c => c.map (fun p => (p.1.1, p.2.1)))
        runGroups one groups (SMap.get cells (64 * i + j) 0).toNat 0
      let half (cells : SMap Cell32) : List (Nat × Nat × Flags) :=
        (List.range ma).flatMap (fun i => (List.range na).map (fun j => (64 * i + j, cell cells i j)))
      let res := half bank.cells
      let mirv := bank.mirv && s.mirrors sparse
      let dec := orFlags ((rows ++ cols).flatMap (fun l => l.map (·.2)))
      .ok (s2, { cells := setCells bank.cells (res.map (fun p => (p.1, p.2.1))), mirv := mirv,
                 mir := if mirv then setCells bank.mir ((half bank.mir).map (fun p => (p.1, p.2.1))) else [], bad := bank.bad },
           orFlags (res.map (fun p => p.2.2)) ||| dec)

/-- The operands of a product's word as it issues, with the entries each needs. -/
structure MmaPlan where
  l  : Opnd
  r  : Opnd
  nl : Nat
  nr : Nat
  nx : Nat

def planMma (s : State) (w : NWord) (sparse : Bool) : Except Out (State × MmaPlan) :=
  let c := w.c.toNat
  let ty := w.ty.toNat
  let K := s.kk
  let Kl := if sparse then 2 * ceilDiv K 4 else K
  match opndOf s true (if sparse then 0 else c % 4) 0 ty s.ma s.na Kl w.a with
  | .error o => .error o
  | .ok (s1, l) =>
    match opndOf s1 false (rKind c) (if c / 4 % 4 = 1 then 1 else 2) ty s.ma s.na K w.b with
    | .error o => .error o
    | .ok (s2, r) =>
      if !pairOk l.fmt r.fmt then .error (shapeBad s)
      else .ok (s2, { l := l, r := r, nl := ceilDiv Kl (kpOf l.fmt), nr := ceilDiv K (kpOf r.fmt), nx := ceilDiv (ceilDiv K 4) 8 })

/-- A stream or plain operand as a formed word sees it: the entries come from the word. -/
def again (s : State) (ty : Nat) (field : BitVec 10) (kind : Nat) : Opnd :=
  if kind = 0 && isStream field then
    let st := s.me.stream (field.toNat - 0x310)
    { fmt := stFmt st, st := some st }
  else { fmt := ty }

/-- The operands of a product at work, as its formation sees them: whether the left one, the operand, its rows or columns and its
values of k. -/
def MWork.sides (s : State) (m : MWork) : List (Bool × Opnd × Nat × Nat) :=
  let pre (left : Bool) (x : Opnd) : Opnd := { x with scl := (m.scl.filter (fun p => p.1.1 = left)).map (fun p => (p.1.2, p.2)) }
  let both (w : NWord) (sparse : Bool) : List (Bool × Opnd × Nat × Nat) :=
    let c := w.c.toNat
    [(true, pre true (again s w.ty.toNat w.a (if sparse then 0 else c % 4)), s.ma, if sparse then 2 * ceilDiv s.kk 4 else s.kk),
     (false, pre false (again s w.ty.toNat w.b (rKind c)), s.na, s.kk)]
  match m.i with
  | .mma (.nat w) => both w false
  | .mmas (.nat w) => both w true
  | _ => []

/-- Reads scales ahead of the entries that they belong to. -/
def scalesAhead (s : State) (left : Bool) (st : Word × Word) :
    List (Nat × Nat) → Except Acc (State × List ((Bool × Nat × Nat) × (Nat × Nat)))
  | [] => .ok (s, [])
  | (r, j) :: t =>
    match scales s .M st r j with
    | .error a => .error a
    | .ok (s1, c, S) =>
      match scalesAhead s1 left st t with
      | .error a => .error a
      | .ok (s2, l) => .ok (s2, ((left, r, j), (c, S)) :: l)

/-- The scale reads of a word at work whose entries have not all come are made now. -/
def MWork.readAhead (s : State) (m : MWork) : Except Acc (State × MWork) :=
  if m.formed || !m.scl.isEmpty then .ok (s, m)
  else (m.sides s).foldl (fun acc x =>
    match acc, x.2.1.st with
    | .ok (t, k), some st =>
      if stKind st = 0 then acc
      else match scalesAhead t x.1 st ((List.range x.2.2.1).flatMap (fun r => (List.range (ceilDiv x.2.2.2 (2 ^ stBlk st))).map (fun j => (r, j)))) with
        | .ok (t1, l) => .ok (t1, { k with scl := k.scl ++ l })
        | .error a => .error a
    | _, _ => acc) (.ok (s, m))

/-- A FENCEV of engine M (14 R313): the scale reads of the words before it come before every access of the words after it. -/
def readsAhead (s : State) : List MWork → Except Out State
  | [] => .ok s
  | m :: t =>
    match m.readAhead s with
    | .error a => .error (s.stopOn .M 3 0 a)
    | .ok (s1, k) => readsAhead (s1.updMe (fun c => { c with mwork := c.mwork.map (fun x => if x = m then k else x) })) t

/-- Cells of a loaded buffer (09 R192). -/
def loadCells (s : State) (ty : Nat) (left : Bool) (es : List Vec) : SMap Cell32 :=
  let w := width ty
  allCells (fun i j =>
    if left then (if i < s.ma ∧ j < s.kk then entElem es w i j else 0)
    else if i < s.kk ∧ j < s.na then entElem es w j i else 0)

/-- Forms the result of a word whose entries have all come: what lands, and its flags. -/
def formWork (s : State) (m : MWork) : Except Acc (State × List Landing × Flags) :=
  let load (n : Nat) (left : Bool) (w : NWord) : Except Acc (State × List Landing × Flags) :=
    .ok (s, [.buf n { cells := loadCells s w.ty.toNat left (if left then m.opL else m.opR), tag := w.ty }], 0)
  let mma (w : NWord) (sparse : Bool) : Except Acc (State × List Landing × Flags) :=
    let side (left : Bool) : Opnd := (((m.sides s).find? (fun x => x.1 = left)).map (·.2.1)).getD { fmt := w.ty.toNat }
    if (s.me.bankAt w.dst.toNat).bad then .error (.fault s arrayBad) else
    match product s (s.me.bankAt w.dst.toNat) s.ma s.na s.kk (side true) (side false) m.opL m.opR m.opX sparse with
    | .error a => .error a
    | .ok (s1, b, fl) => .ok (s1, [.bank w.dst.toNat b], fl)
  match m.i with
  | .mlds (.nat w) => load 0 true w
  | .mldf (.nat w) => load 1 false w
  | .mldg (.nat w) => load 2 false w
  | .mma (.nat w) => mma w false
  | .mmas (.nat w) => mma w true
  | _ => .ok (s, [], 0)

/-- Whether an entry that a word at work is to take now carries an uncorrectable error. -/
def popsBad (s : State) (m : MWork) : Bool :=
  m.pops.any (fun p => p.1 ≤ s.me.vcycle && ((s.head p.2.1).map (·.bad)).getD false)

/-- A word of M with its entries, some still to come: it stays at work, or its result is formed at once. -/
def startWork (s : State) (m : MWork) : Except Out State :=
  if popsBad s m then .error (s.fault { arrayBad with bank := some 0 })
  else match takePops s m m.pops with
  | none => .error s.waits
  | some (s1, m1) =>
    if m1.pops.isEmpty then
      match formWork s1 m1 with
      | .error a => .error (s.stopOn .M 3 0 a)
      | .ok (s2, lands, fl) => .ok (s2.formed m1 lands fl)
    else .ok (s1.updMe (fun c => { c with mwork := c.mwork ++ [m1] }))

/-- The words at work whose pops are due at the core's virtual cycle take them, and those that have all their entries
form their results (09 R188). -/
def workOn (s : State) : List MWork → Except Out State
  | [] => .ok s
  | m :: t =>
    if m.formed then workOn s t
    else
      let s0 := { s with cur := { s.cur with eng := .M, seq := m.seq, entry := false, line := m.line, slot := m.slot } }
      if popsBad s0 m then .error (s0.fault { arrayBad with bank := some 0 })
      else match takePops s0 m m.pops with
      | none => .error s.waits
      | some (s1, m1) =>
        let put (s : State) (m2 : MWork) : State := s.updMe (fun c => { c with mwork := c.mwork.map (fun x => if x = m then m2 else x) })
        if m1.pops.isEmpty then
          match formWork s1 m1 with
          | .error a => .error (s0.stopOn .M 3 0 a)
          | .ok (s2, lands, fl) =>
            workOn (put (s2.updMe (fun c => { c with flights := placeFlight (m1.fly s2 lands fl false) c.flights })) { m1 with formed := true }) t
        else workOn (put s1 m1) t

/-! ## The words -/

/-- MLDS, MLDF, MLDG. -/
def loadM (i : Instr) (left : Bool) (s : State) : Out :=
  issueM i s fun _ w =>
    match matCheck s with
    | some o => .error o
    | none =>
      if 64 < s.kk then .error (shapeBad s)
      else match opndOf s left (w.c.toNat % 4) 0 w.ty.toNat s.ma s.na s.kk w.a with
        | .error o => .error o
        | .ok (s1, x) =>
          let ne := ceilDiv s.kk (kpOf w.ty.toNat)
          let m := s.work i w ne
          let m := if left then { m with opL := x.es } else { m with opR := x.es }
          startWork s1 { m with pops := popsOf m.t m.o (if left then 0 else 1) x ne }

/-- MLDS (09 R192). -/
def execMlds (f : Form) (s : State) : Out := loadM (.mlds f) true s
/-- MLDF (09 R192). -/
def execMldf (f : Form) (s : State) : Out := loadM (.mldf f) false s
/-- MLDG (09 R192). -/
def execMldg (f : Form) (s : State) : Out := loadM (.mldg f) false s

/-- The busy time of a product (09 R188). -/
def mmaBusy (s : State) (sparse : Bool) (l r : Nat) : Nat :=
  let w := max (width l) (width r)
  if sparse && !s.mirrors true then (if w = 32 then 2 * s.kk else ceilDiv (s.kk * w) 32) else cyclesOf w s.kk

/-- MMA and MMAS. Where two operands pop one queue, the entries of L that are due at a virtual cycle are taken before those of
R, and the metadata's after both (DESIGN CHOICE, log entry 128). -/
def mmaWord (i : Instr) (sparse : Bool) (s : State) : Out :=
  issueM i s fun _ w =>
    match matCheck s with
    | some o => .error o
    | none =>
      match planMma s w sparse with
      | .error o => .error o
      | .ok (s1, p) =>
        let m := s.work i w (mmaBusy s sparse p.l.fmt p.r.fmt)
        let pops := popsOf m.t m.o 0 p.l p.nl ++ popsOf m.t m.o 1 p.r p.nr
        let m := { m with opL := p.l.es, opR := p.r.es }
        if !sparse then startWork s1 { m with pops := pops }
        else match s.cmd.bind (·.strm) with
          | some n =>
            match regOpnd s1 { fmt := 0 } n p.nx with
            | .error o => .error o
            | .ok (s2, x) => startWork s2 { m with pops := pops, opX := x.es }
          | none => startWork s1 { m with pops := pops ++ popsOf m.t m.o 2 { fmt := 0, q := some (0x300 + w.c.toNat % 4) } p.nx }

/-- MMA (09 R193, R194). -/
def execMma (f : Form) (s : State) : Out := mmaWord (.mma f) false s
/-- MMAS (09 R195). -/
def execMmas (f : Form) (s : State) : Out := mmaWord (.mmas f) true s

/-- MZERO (09 R196): it reads of shp1 only MIRRORABLE, and only of a MAT grant (03 R56). -/
def execMzero (f : Form) (s : State) : Out :=
  issueM (.mzero f) s fun _ w =>
    if shpClass (s.shp 1) = 2 && (s.shp 1).getLsbD 58 then .error (shapeChg s 1)
    else
      let b : Bank := { mirv := Fmode.mirror s.fmode && shpClass (s.shp 1) = 2 && (s.shp 1).getLsbD 57 }
      let banks := if w.dst = 2 then [0, 1] else [w.dst.toNat]
      .ok (s.formed (s.work (.mzero f) w 1) (banks.map (fun n => .bank n b)) 0)

/-- MTRANS (09 R197). -/
def execMtrans (f : Form) (s : State) : Out :=
  issueM (.mtrans f) s fun _ w =>
    let b := s.me.bufAt (w.c.toNat / 4 % 4)
    if b.bad then .error (s.fault arrayBad) else
    .ok (s.formed (s.work (.mtrans f) w 64) [.buf (w.c.toNat % 4) { cells := allCells (fun x y => b.cell y x), tag := b.tag }] 0)

/-- The words of a row of a bank as a drain gives them (09 R198). -/
def drainRow (s : State) (b : Bank) (row : Nat) : Vec :=
  (packElems 32 ((List.range 64).map (fun j => (j, if j < s.na ∧ row < s.ma then b.cell row j else 0)))).1

/-- How a drain changes accumulator SRAM. -/
def drainMode (add : Bool) (ty : Nat) (fm : Word) : AccMode :=
  if !add then .ovw else if ty = 0 then .addF true fm else .addI

/-- MIRRORMISMATCH, with the row, the bank and the column (09 R202). -/
def mirrorFault (row n j : Nat) : Contained := { code := 4, addr := BitVec.ofNat 64 (row + 64 * n + 256 * j) }

/-- Mirror compare (09 R202): the fault of a drain that reads a row of a bank whose MIRV is set, where an active cell differs
from its copy. -/
def mirrorMiss (s : State) (n row : Nat) : Option Contained :=
  let b := s.me.bankAt n
  if !b.mirv || s.ma ≤ row then none
  else ((List.range s.na).find? (fun j => SMap.get b.cells (64 * row + j) 0 ≠ SMap.get b.mir (64 * row + j) 0)).map
    (fun j => mirrorFault row n j)

/-- What stops a drain of a row before anything of it lands: the mirror compare, or an error in the bank. -/
def drainBad (s : State) (n row : Nat) : Option Contained :=
  if (s.me.bankAt n).bad then some arrayBad else mirrorMiss s n row

/-- ACCLD (09 R198, R202). -/
def execAccld (f : Form) (s : State) : Out :=
  issueM (.accld f) s fun _ w =>
    match matCheck s with
    | some o => .error o
    | none =>
      let c := w.c.toNat
      let n := c % 2
      let row := w.a.toNat
      match drainBad s n row with
      | some f => .error (s.fault f)
      | none =>
      let x := drainRow s (s.me.bankAt n) row
      let dest := c / 4 % 4
      let clr : List Landing := if c / 2 % 2 = 1 then [.clrRow n row (s.mirrors false)] else []
      let m := s.work (.accld f) w 1
      if dest = 0 then .ok (s.formed m (.vreg (s.vphys w.dst.toNat) x (~~~0) :: clr) 0)
      else firmly s (.ok (s.formed { m with due := max m.due s.ln.fence } (.acc w.dst.toNat (drainMode (dest = 2) w.ty.toNat s.fmode) x allOnes :: clr) 0))

/-- Native MNWAIT (09 R199): it issues once every earlier word of M has landed, and its writes to accumulator SRAM are
then performed. -/
def execMnwait (w : NWord) (s : State) : Out :=
  withNative (.mnwait w) s fun _ w =>
    if mIdle s.me (.mnwait w) then s.waits else State.finish s s (bitMoves .M w)

end Sys2Proof.Machine
end

