-- ==== Sys2Proof/Machine/Sync.lean ====
section
/-! DEFINITION. Tokens, flags, events and posts of group 4 (12 R256, R264-R268, R258), native and on the control core. -/

namespace Sys2Proof.Machine

/-! ## Tokens -/

/-- The moves of TKGIVE or TKTAKE: count in a, direction in c. -/
def ownMoves (give : Bool) (e : Eng) (w : NWord) : List Move :=
  let q := if give then giveQ e (w.c = 1) else takeQ e (w.c = 1)
  List.replicate w.a.toNat ⟨q, give⟩

/-- TKGIVE (12 R265). -/
def execTkgive (w : NWord) (s : State) : Out :=
  issueC (.tkgive w) s (ownMoves true s.cur.eng) fun _ _ => .ok s

/-- TKTAKE (12 R265). -/
def execTktake (w : NWord) (s : State) : Out :=
  issueC (.tktake w) s (ownMoves false s.cur.eng) fun _ _ => .ok s

/-! ## Acting behind earlier words -/

/-- The virtual cycle by which every earlier word of an engine of the execute domain has landed. -/
def Core.lastDue (c : Core) (e : Eng) : Nat :=
  let a := (c.flights.filter (fun f => f.eng = e)).foldl (fun m f => max m f.due) 0
  if e = .M then c.mwork.foldl (fun m w => max m w.due) a else a

/-- A change that acts once every earlier word of the engine has landed and its accesses are performed (12 R267, R268):
engine A stalls for its pending stores; on M and V the change takes its place among the landings. -/
def actBehind (s : State) (l : Landing) : Except Out State :=
  let now : Except Out State := match landOne s l with
    | .ok s1 _ => .ok s1
    | _ => .error s.waits
  if s.cur.eng = .A then
    if s.me.astores.isEmpty then now else .error s.waits
  else
    let d := s.me.lastDue s.cur.eng
    if d ≤ s.me.vcycle then now
    else .ok (s.updMe (fun c => { c with flights := c.flights ++
      [{ eng := s.cur.eng, due := d, lands := [l], line := s.cur.line, slot := s.cur.slot, seq := s.cur.seq, issued := s.me.vcycle }] }))

/-! ## Flags (12 R267) -/

def Core.flagAt (c : Core) (n : Nat) : Bool := c.fl.getLsbD n
def Core.putFlag (c : Core) (n : Nat) (v : Bool) : Core := { c with fl := setFld c.fl n 1 (if v then 1 else 0) }

/-- imm18 bits 5:0 of a portable flag or event word. -/
def pnum (p : PWord) : Nat := p.imm18.toNat % 64

/-- FLSET or FLCLR, native; on the control core it releases its earlier stores at core scope. -/
def flagWord (i : Instr) (f : Form) (v : Bool) (s : State) : Out :=
  match f with
  | .nat _ => issueC i s (fun _ => []) fun _ w => firmly s (actBehind s (.flag w.a.toNat v))
  | .port _ => withPort i s fun p => ((s.drainSbuf s.cur.lcore).updMe (fun c => c.putFlag (pnum p) v)).retireP 0 0

/-- FLSET (12 R267). -/
def execFlset (f : Form) (s : State) : Out := flagWord (.flset f) f true s
/-- FLCLR (12 R267). -/
def execFlclr (f : Form) (s : State) : Out := flagWord (.flclr f) f false s

/-- FLWAIT: waits for the flag's value, and may clear it in the same step. -/
def flagWait (i : Instr) (f : Form) (v take : Bool) (s : State) : Out :=
  match f with
  | .nat _ => issueC i s (fun _ => []) fun _ w =>
      let n := w.a.toNat
      if s.me.flagAt n ≠ v then .error s.waits
      else if take then firmly s (.ok (s.updMe (fun c => c.putFlag n false))) else .ok s
  | .port _ => withPort i s fun p =>
      let n := pnum p
      if s.me.flagAt n ≠ v then s.waits
      else (if take then s.updMe (fun c => c.putFlag n false) else s).retireP 0 0

/-- FLWAIT.set (12 R267). -/
def execFlwaitSet (f : Form) (s : State) : Out := flagWait (.flwaitSet f) f true false s
/-- FLWAIT.clr (12 R267). -/
def execFlwaitClr (f : Form) (s : State) : Out := flagWait (.flwaitClr f) f false false s
/-- FLWAIT.take (12 R267). -/
def execFlwaitTake (f : Form) (s : State) : Out := flagWait (.flwaitTake f) f true true s

/-! ## Events (12 R256, R268) -/

/-- A change of events enters a unit's pending set. -/
def Phase.pendEvent (p : Phase) (n : Nat) (v : Bool) : Phase :=
  if v then { p with evSet := setFld p.evSet n 1 1, evClr := setFld p.evClr n 1 0 }
  else { p with evSet := setFld p.evSet n 1 0, evClr := setFld p.evClr n 1 1 }

/-- The core's own replica has applied every write that came before the last commit of its cluster: only then does a party
act on what that commit made known (14 R303, R310). -/
def State.heardAll (s : State) : Bool := s.myCluster.relUpd ≤ (s.dieAt (dieOf s.cur.lcore)).applied

/-- The events as a core's unit sees them. -/
def evView (c : Core) (cl : Cluster) : Word := applyEv cl.ev c.ph.evSet c.ph.evClr

/-- The command at work changes an event: pending, or deferred while it is tentative (13 R285). -/
def State.signal (s : State) (n : Nat) (v : Bool) : State :=
  if s.isTent then s.updMe (fun c => c.updCmd s.cur.eng s.cur.seq (fun m => { m with ev := m.ev ++ [(n, v)] }))
  else s.updMe (fun c => { c with ph := c.ph.pendEvent n v })

/-- The words that name an event or ring outside the launch's allocation (12 R264). -/
def allocBad (s : State) (i : Instr) : List Bad :=
  match nativeRow i with
  | none => []
  | some (r, w) =>
    if r.op = 0xD0 && w.c.toNat < 2 && !s.hasEvent w.a.toNat then [.operand]
    else if r.op = 0xD1 && !s.hasEvent w.a.toNat then [.operand]
    else if s.cur.eng = .A && 0xC8 ≤ r.op && r.op ≤ 0xCD && !s.hasRing w.c.toNat then [.operand]
    else []

/-- A word refused for its allocation, or the word. -/
def allocated (i : Instr) (s : State) (r : Except Out State) : Except Out State :=
  match allocBad s i with
  | b :: _ => .error (decodeFault s b)
  | [] => r

/-- EVSIG.set and EVSIG.clr. -/
def evsig (i : Instr) (f : Form) (v : Bool) (s : State) : Out :=
  match f with
  | .nat _ => issueC i s (fun _ => []) fun _ w => allocated i s (.ok (s.signal w.a.toNat v))
  | .port _ => withPort i s fun p =>
      if s.hasEvent (pnum p) then (s.updMe (fun c => { c with ph := c.ph.pendEvent (pnum p) v })).retireP 0 0
      else illegalPortable i s

/-- EVSIG.set (12 R268). -/
def execEvsigSet (f : Form) (s : State) : Out := evsig (.evsigSet f) f true s
/-- EVSIG.clr (12 R268). -/
def execEvsigClr (f : Form) (s : State) : Out := evsig (.evsigClr f) f false s

/-- EVSIG.post: posts a g register, or containers 1:0 of a vector register, to the engine's FIFO (12 R258, R268). The
portable form is not the control core's. -/
def execEvsigPost (f : Form) (s : State) : Out :=
  match f with
  | .nat _ => issueC (.evsigPost f) s (fun _ => []) fun _ w =>
      firmly s <|
        if s.cur.eng = .A then
          if !s.me.astores.isEmpty then .error s.waits
          else match s.me.postTo .A (s.me.gget w.a.toNat) with
            | some c => .ok (s.setMe c)
            | none => .error s.waits
        else actBehind s (.post (s.vphys w.a.toNat))
  | .port _ => illegalPortable (.evsigPost f) s

/-- EVWAIT, and EVWAIT.clr, which clears the event as a pending change in the same step. -/
def evwait (i : Instr) (f : Form) (clr : Bool) (s : State) : Out :=
  let seen (n : Nat) : Bool := (evView s.me s.myCluster).getLsbD n && s.heardAll
  match f with
  | .nat _ => issueC i s (fun _ => []) fun _ w => allocated i s <|
      if !seen w.a.toNat then .error s.waits else .ok (if clr then s.signal w.a.toNat false else s)
  | .port _ => withPort i s fun p =>
      if !s.hasEvent (pnum p) then illegalPortable i s
      else if !seen (pnum p) then s.waits
      else (if clr then s.updMe (fun c => { c with ph := c.ph.pendEvent (pnum p) false }) else s).retireP 0 0

/-- EVWAIT (12 R268). -/
def execEvwait (f : Form) (s : State) : Out := evwait (.evwait f) f false s
/-- EVWAIT.clr (12 R268). -/
def execEvwaitClr (f : Form) (s : State) : Out := evwait (.evwaitClr f) f true s

end Sys2Proof.Machine
end

