-- ==== Sys2Proof/Machine/Atomics.lean ====
section
/-! DEFINITION. Fences, ordered accesses and atomics of group 4 (14 R312-R319), native and on the control core; the
tagged remote atomics (14 R320-R323), as requester and as target; and the words of replicated pages. -/

namespace Sys2Proof.Machine

/-! ## The arithmetic of R315 -/

/-- The atomic operations in the order of their ops. -/
inductive Atom where
  | add | max | min | xchg | cas | or | and
deriving DecidableEq, Repr

/-- The new word and the flags of an atomic (14 R315); `cmp` is the compare value of ACAS. -/
def atomic (op : Atom) (ty : Nat) (fm : Word) (old v cmp : Nat) : Nat × Flags :=
  match op with
  | .add => if ty = 0 then addF32 fm true old v else ((old + v) % 2 ^ 32, 0)
  | .max => if ty = 0 then minMax fp32 true false (flushIn fp32 fm old) (flushIn fp32 fm v)
            else (if intVal ty old < intVal ty v then v else old, 0)
  | .min => if ty = 0 then minMax fp32 false false (flushIn fp32 fm old) (flushIn fp32 fm v)
            else (if intVal ty v < intVal ty old then v else old, 0)
  | .xchg => (v, 0)
  | .cas => (if old = cmp then v else old, 0)
  | .or => (old ||| v, 0)
  | .and => (old &&& v, 0)

/-- The old value as a register receives it. -/
def atomOld (ty old : Nat) : Word := if ty = 8 then (BitVec.ofNat 32 old).signExtend 64 else BitVec.ofNat 64 old

/-- A scope widened to the smallest that contains the issuer and the target core (14 R316). -/
def scopeTo (scope lcore target : Nat) : Nat :=
  max scope (if target = lcore then 0 else if clusterOf target = clusterOf lcore then 1 else if dieOf target = dieOf lcore then 2 else 3)

/-! ## Atomics -/

/-- An atomic word of engine A (14 R309, R315, R316). -/
def atomicA (i : Instr) (op : Atom) (s : State) : Out :=
  issueA i s fun r w =>
    let a := (s.gOf r w 0).toNat
    let rel := w.c.toNat / 16 % 2 = 1
    if (rel && !s.me.astores.isEmpty) || s.behindStore true a 4 then .error s.waits
    else match addrBad s true a 4 4 with
      | some f => .error (s.fault f)
      | none =>
        match windowOf a with
        | none => .error (s.fault (access 5 a))
        | some (t, o) =>
          if !s.windowOk s.cur.lcore t then .error (s.fault (access 4 a))
          else if s.isTent then .error s.waits
          else match (if t = s.cur.lcore then some s else firstEarly s) with
            | none => .error s.waits
            | some s1 =>
              if s1.accPoison t o 4 then .error (s1.fault (accFault t o)) else
              match (if op = .add then addWrite s1 t o 4 else Except.ok s1) with
              | .error f => .error (s1.fault f)
              | .ok s2 =>
                let ty := w.ty.toNat
                let old := leNat (s2.accRead t o 4)
                let (new, fl) := atomic op ty s.fmode old (fld (s.gOf r w 1) 0 32) (fld (s.me.gget w.dst.toNat) 0 32)
                let s3 := (s2.accWrite t o (leBytes 4 new) none).setFlags fl
                .ok (s3.updMe (fun c => c.gput w.dst.toNat (atomOld ty old)))

/-- An access of the control core to a word of a window: the core and the offset, or the trap (06 R113, 14 R316). -/
def ctlWindow (s : State) (a n align cause : Nat) : Except Nat (Nat × Nat) :=
  if a % n ≠ 0 then .error align
  else match windowOf a with
    | none => .error cause
    | some (t, o) => if s.windowOk s.cur.lcore t then .ok (t, o) else .error cause

/-- A release of the control core at a scope: its buffered stores are performed, and applied by every replica that parties
within the scope read; the state after, and whether it is complete. -/
def ctlRelease (s : State) (scope : Nat) : State × Bool :=
  let s1 := s.drainSbuf s.cur.lcore
  (s1, !s1.relWaits s.cur.lcore scope)

/-- An atomic of the control core: it uses the current FMODE and sets no flag. With REL its earlier stores are performed
first, on every replica where the scope asks for it. -/
def atomicC (i : Instr) (op : Atom) (s : State) : Out :=
  withPort i s fun p =>
    let a := s.x p.vs1
    match ctlWindow s a.toNat 4 6 7 with
    | .error c => s.trap c a
    | .ok (t, o) =>
      let rel := p.imm18.toNat / 16 % 2 = 1
      let (s1, ok) := if rel then ctlRelease s (scopeTo (p.imm18.toNat % 8) s.cur.lcore t) else (s, true)
      if !ok then s1.waits
      else if s1.accPoison t o 4 then ctlPoison s1 4 (Config.windowBase + Config.accBytes * t + o)
      else
        let ty := p.ty.toNat
        let old := leNat (s1.accRead t o 4)
        let (new, _) := atomic op ty s.me.fmode old (fld (s.x p.vs2) 0 32) (fld (s.x p.vd) 0 32)
        (s1.accWrite t o (leBytes 4 new) (some s.cur.lcore)).retireP p.vd (atomOld ty old)

def atomicWord (i : Instr) (f : Form) (op : Atom) (s : State) : Out :=
  match f with
  | .nat _ => atomicA i op s
  | .port _ => atomicC i op s

/-- AADD (14 R315). -/
def execAadd (f : Form) (s : State) : Out := atomicWord (.aadd f) f .add s
/-- AMAX (14 R315). -/
def execAmax (f : Form) (s : State) : Out := atomicWord (.amax f) f .max s
/-- AMIN (14 R315). -/
def execAmin (f : Form) (s : State) : Out := atomicWord (.amin f) f .min s
/-- AXCHG (14 R315). -/
def execAxchg (f : Form) (s : State) : Out := atomicWord (.axchg f) f .xchg s
/-- ACAS (14 R315). -/
def execAcas (f : Form) (s : State) : Out := atomicWord (.acas f) f .cas s
/-- AOR (14 R315). -/
def execAor (f : Form) (s : State) : Out := atomicWord (.aor f) f .or s
/-- AAND (14 R315). -/
def execAand (f : Form) (s : State) : Out := atomicWord (.aand f) f .and s

/-- VADDM (14 R317): adds into a row of the core's own accumulator SRAM, at its landing. -/
def execVaddm (f : Form) (s : State) : Out :=
  issueV (.vaddm f) s fun v =>
    if v.s.isTent then .wait
    else
      let act := (List.range (v.s.elems 32)).filter (guarded v.g 32)
      let mode : AccMode := if v.ty = 0 then .addF true v.fm else .addI
      .ok [.acc v.w.dst.toNat mode v.a (contMask 32 act)] 0

/-! ## Fences and ordered accesses (14 R313, R314) -/

/-- A FENCEV of a line engine; `rel` says that it releases. On engine A the phase's later stores take effect after its earlier ones (14 R308); on engine M or
V the writes to accumulator SRAM of later words are performed after those that are in flight (14 R313; DEDUCED, log entry 84),
and engine M's words at work make the scale reads that they still owe. -/
def fenceLine (s : State) (rel : Bool) : Except Out State :=
  if s.cur.eng = .A then .ok (if rel then s.updMe (fun c => { c with ph := { c.ph with fenced := true } }) else s)
  else match (if s.cur.eng = .M then readsAhead s s.me.mwork else .ok s) with
    | .error o => .error o
    | .ok s =>
      let due := (s.me.flights.filter (fun f => f.eng = s.cur.eng && f.lands.any Landing.isAcc)).foldl (fun m f => max m f.due) 0
      .ok (if rel then s.updLn (fun l => { l with fence := max l.fence due }) else s)

/-- FENCEV ACQ or REL: the accesses of each party are made in its order, and a line engine's release takes effect at the
drain step (14 R308). -/
def fenceWord (i : Instr) (f : Form) (rel : Bool) (s : State) : Out :=
  match f with
  | .nat _ => issueC i s (fun _ => []) fun _ _ => fenceLine s rel
  | .port _ => withPort i s fun p =>
      if !rel then s.retireP 0 0
      else
        let (s1, ok) := ctlRelease s (p.imm18.toNat % 8)
        if ok then s1.retireP 0 0 else s1.waits

/-- FENCEV ACQ (14 R313). -/
def execFencevAcq (f : Form) (s : State) : Out := fenceWord (.fencevAcq f) f false s
/-- FENCEV REL (14 R313). -/
def execFencevRel (f : Form) (s : State) : Out := fenceWord (.fencevRel f) f true s
/-- FENCEV SC (14 R308, R313): on a line engine, at cluster scope or wider, an early commit comes first, and what it released
of replicated pages is applied by every replica within the scope. -/
def execFencevSc (f : Form) (s : State) : Out :=
  match f with
  | .nat _ => issueC (.fencevSc f) s (fun _ => []) fun _ w =>
      if s.cur.eng = .A && !s.me.astores.isEmpty then .error s.waits
      else if w.c.toNat % 8 = 0 then fenceLine s true
      else match beforeEarly s with
        | some s1 => if s1.relWaits s.cur.lcore (w.c.toNat % 8) then .error s1.waits else fenceLine s1 true
        | none => .error s.waits
  | .port _ => fenceWord (.fencevSc f) f true s

/-- LDACQ (14 R314). -/
def execLdacq (f : Form) (s : State) : Out :=
  match f with
  | .nat _ => issueA (.ldacq f) s fun r w =>
      match loadA s true (s.gOf r w 0).toNat 8 8 with
      | .ok s1 bs => .ok (s1.updMe (fun c => c.gput w.dst.toNat (BitVec.ofNat 64 (leNat bs))))
      | x => .error (s.stopOn .A 0 0 x)
  | .port _ => withPort (.ldacq f) s fun p =>
      match ctlRead s s.cur.lcore (s.x p.vs1).toNat 8 with
      | .ok s1 bs => s1.retireP p.vd (BitVec.ofNat 64 (leNat bs))
      | x => s.ctlStop (s.x p.vs1) x

/-- STREL (14 R314): the earlier stores are made first. -/
def execStrel (f : Form) (s : State) : Out :=
  match f with
  | .nat _ => issueA (.strel f) s fun r w =>
      let a := (s.gOf r w 0).toNat
      if !s.me.astores.isEmpty then .error s.waits
      else match addrBad s true a 8 8 with
        | some x => .error (s.fault x)
        | none =>
          match virtPut s .A true a (all (leBytes 8 (s.gOf r w 1).toNat)) with
          | .ok s1 _ => .ok s1
          | x => .error (s.stopOn .A 1 0 x)
  | .port _ => withPort (.strel f) s fun p =>
      let (s1, ok) := ctlRelease s (p.imm18.toNat % 8)
      if (s.x p.vs1).toNat % 8 ≠ 0 then s.trap 6 (s.x p.vs1)
      else if !ok then s1.waits
      else match ctlWrite s1 s.cur.lcore (s.x p.vs1).toNat (leBytes 8 (s.x p.vs2).toNat) with
        | .ok s2 _ => s2.retireP 0 0
        | x => s.ctlStop (s.x p.vs1) x

/-! ## Tagged remote atomics (14 R320-R323) -/

def msToCycles (n : Nat) : Nat := n * Config.cyclesPerMs

/-- The module's identity in its requests (DEDUCED from the serial number, log entry 32). -/
def selfModule : BitVec 64 := Config.serial.setWidth 64

/-- The reserved bits of a request block (14 R320). -/
def blockBad (b : List Word) : Bool :=
  (b.getD 0 0).toNat / 2 ^ 16 ≠ 0 || (b.getD 5 0) ≠ 0 || (b.getD 6 0) ≠ 0 || (b.getD 7 0) ≠ 0

/-- A remote atomic ends with its status; the old value is extended as R315 says. -/
def rmtDone (s : State) (p : PWord) (old : Nat) (status : Nat) : Out :=
  (s.updMe (fun c => { (c.wx (p.vd + 1) (BitVec.ofNat 64 status)) with rmt := none, rmtans := none })).retireP p.vd (atomOld p.ty.toNat old)

/-- The unit's early commit before a remote atomic: none while it must wait. -/
def rmtCommit (s : State) : Option State :=
  match s.me.unit with
  | none => some s
  | some _ =>
    if s.me.ph.stage ≠ .run then none
    else if s.me.ph.acc37 then some s
    else if s.me.ph.mixed then none
    else some ((earlyCommit s s.cur.lcore).updMe (fun c => { c with ph := { c.ph with acc37 := true } }))

/-- A remote form: the answer if it has come, a wait while it is out, or the checks and the send. -/
def rmtWord (i : Instr) (op : Nat) (s : State) : Out :=
  withPort i s fun p =>
    match s.me.rmtans, s.me.rmt with
    | some (old, st), _ => rmtDone s p (if st = 0 then old.toNat else 0) st.toNat
    | none, some _ => s.waits
    | none, none =>
      let a := s.x p.vs1
      if a.toNat % 64 ≠ 0 then s.trap 4 a
      else match ctlReadDws s s.cur.lcore a.toNat 8 with
        | .ok s1 bs =>
          let b := wordsOf 8 bs
          let peer := (s.me.unit.bind (fun u => SMap.find s.hub.jobs u.job)).bind (fun j => SMap.find j.peers (fld (b.getD 0 0) 0 16))
          match peer with
          | none => rmtDone s1 p 0 3
          | some (gid, qp, valid) =>
            if blockBad b || !valid then rmtDone s1 p 0 3
            else
              let tag := b.getD 4 0
              let first := (s.hub.tags.find? (fun t => t.1 = tag && s.now - t.2 < msToCycles 1000)).map (·.2)
              if (first.map (fun t => decide (s.now - t > msToCycles 100))).getD false then rmtDone s1 p 0 2
              else if !s.isReady Ready.rdma then s.waits
              else match rmtCommit s1 with
                | none => s.waits
                | some s2 =>
                  let (s3, ok) := ctlRelease s2 4
                  if !ok then s3.waits
                  else
                    let r : RmtReq := { module := selfModule, tag := tag, op := BitVec.ofNat 3 op, ty := p.ty, raddr := b.getD 1 0,
                                        opnd := (b.getD 2 0).setWidth 32, cmp := (b.getD 3 0).setWidth 32 }
                    let tags := if first.isSome then s.hub.tags else s.hub.tags.filter (fun t => t.1 ≠ tag) ++ [(tag, s.now)]
                    let s4 := { s3 with hub := { s3.hub with tags := tags, pkts := s3.hub.pkts ++ [Sent.mk gid qp (.request r)] } }
                    (s4.updMe (fun c => { c with rmt := some (tag, s.now) })).waits
        | x => s.ctlStop a x

/-- AADD.RMT. -/
def execAaddRmt (p : PWord) (s : State) : Out := rmtWord (.aaddRmt p) 0 s
/-- AMAX.RMT. -/
def execAmaxRmt (p : PWord) (s : State) : Out := rmtWord (.amaxRmt p) 1 s
/-- AMIN.RMT. -/
def execAminRmt (p : PWord) (s : State) : Out := rmtWord (.aminRmt p) 2 s
/-- AXCHG.RMT. -/
def execAxchgRmt (p : PWord) (s : State) : Out := rmtWord (.axchgRmt p) 3 s
/-- ACAS.RMT. -/
def execAcasRmt (p : PWord) (s : State) : Out := rmtWord (.acasRmt p) 4 s
/-- AOR.RMT. -/
def execAorRmt (p : PWord) (s : State) : Out := rmtWord (.aorRmt p) 5 s
/-- AAND.RMT. -/
def execAandRmt (p : PWord) (s : State) : Out := rmtWord (.aandRmt p) 6 s

def atomOf (op : Nat) : Option Atom :=
  match op with
  | 0 => some .add | 1 => some .max | 2 => some .min | 3 => some .xchg | 4 => some .cas | 5 => some .or | 6 => some .and
  | _ => none

/-- Sends a response on the connection of a request (21 R430). -/
def respond (s : State) (q : QPair) (r : RmtReq) (old status : Nat) : State :=
  let p : Sent := { gid := q.gid, qp := q.peer, body := .response r.tag (BitVec.ofNat 32 old) (BitVec.ofNat 3 status) }
  { s with hub := { s.hub with pkts := s.hub.pkts ++ [p] } }

/-- Whether a remote target word exists for a job: in a window, aligned, its core the job's. -/
def rmtTarget (s : State) (job a : Nat) : Option (Nat × Nat) :=
  match s.jobAt job, windowOf a with
  | some j, some (t, o) => if a % 4 = 0 ∧ j.attr.jlo ≤ t ∧ t < j.attr.jhi then some (t, o) else none
  | _, _ => none

/-- A remote atomic of a connection (14 R321, R322): a key that the replay table holds is answered from it; else the atomic is
performed once and recorded. -/
def rmtPerform (r : RmtReq) (q : QPair) (s : State) : Out :=
  match s.hub.replays.find? (fun x => x.req.module = r.module && x.req.tag = r.tag && s.now - x.time < msToCycles 150) with
    | some x => (if x.req = r then respond s q r x.old.toNat 0 else respond s q r 0 4).done
    | none =>
      match rmtTarget s q.job r.raddr.toNat, atomOf r.op.toNat with
      | some (t, o), some op =>
        let old := leNat (s.accRead t o 4)
        let (new, _) := atomic op r.ty.toNat Config.remoteFmode old r.opnd.toNat r.cmp.toNat
        let s1 := s.accWrite t o (leBytes 4 new) none
        let s2 := { s1 with hub := { s1.hub with replays := s1.hub.replays ++ [{ req := r, old := BitVec.ofNat 32 old, time := s.now }] } }
        (respond s2 q r old 0).done
      | _, _ => (respond s q r 0 3).done

/-- REMOTE_ATOMIC_REQUEST (14 R321, R322): a packet older than 25 ms is discarded, and one on a queue pair that is not connected;
without the RDMA engine and its replay table none is taken (21 R421). -/
def execRemoteAtomicRequest (r : RmtReq) (ageMs : Nat) (qp : BitVec 24) (s : State) : Out :=
  if 25 < ageMs then s.done
  else if s.hub.st ≠ .up || !s.isReady Ready.rdma then s.waits
  else match SMap.find s.hub.qps qp.toNat with
    | none => s.done
    | some q => rmtPerform r q s

/-- REMOTE_ATOMIC_RESPONSE (14 R321, R322): the answer to the request in flight of the core; any other is dropped, and so is
a packet older than 25 ms. -/
def execRemoteAtomicResponse (tag : Word) (ans : RmtAns) (ageMs : Nat) (s : State) : Out :=
  if 25 < ageMs then s.done
  else match s.me.rmt with
  | some (t, _) => (if t = tag && s.me.rmtans.isNone then s.updMe (fun c => { c with rmtans := some (ans.old, ans.status) }) else s).done
  | none => s.done

/-- REMOTE_ATOMIC_TIMEOUT (14 R321): 20 ms without a response. -/
def execRemoteAtomicTimeout (s : State) : Out :=
  match s.me.rmt with
  | some (_, t) =>
    if s.now - t ≥ msToCycles 20 && s.me.rmtans.isNone then (s.updMe (fun c => { c with rmtans := some (0, 1) })).done else s.waits
  | none => s.waits

/-- REPLAY_TABLE_EXPIRY (14 R322): 150 ms after application. -/
def execReplayTableExpiry (s : State) : Out :=
  State.done { s with hub := { s.hub with replays := s.hub.replays.filter (fun x => s.now - x.time < msToCycles 150) } }

/-- TAG_RECORD_LAPSE (14 R322): 1 s after the first send. -/
def execTagRecordLapse (s : State) : Out :=
  State.done { s with hub := { s.hub with tags := s.hub.tags.filter (fun t => s.now - t.2 < msToCycles 1000) } }

/-! ## Replicated pages (14 R310) -/

/-- REPL_UPDATE_APPLY: a die's replica applies the next update of the update order, once the sequencer is ready (21 R421). -/
def execReplUpdateApply (die : BitVec 3) (s : State) : Out :=
  let d := s.dieAt die.toNat
  -- a store behind a release of the order is passed once every replica has what came before it (R308)
  if !s.isReady Ready.seq || (s.hub.updates.take d.applied).any (·.plain) then s.waits
  else if d.applied < s.hub.updates.length then ((s.setDie die.toNat { d with applied := d.applied + 1 }).settleUpdates).done else s.waits

end Sys2Proof.Machine
end

