-- ==== Sys2Proof/Machine/Poly.lean ====
section
/-! DEFINITION. Promotion, matrix polynomials and gangs (10 R208-R224), and the run of a nest (09 R205). -/

namespace Sys2Proof.Machine

/-! ## Blocks of a gang (10 R220) -/

/-- The members of the gang that a core is bound to, in LCORE order; a core that is not bound is alone. -/
def gangOf (code : BitVec 2) (lcore : Nat) : List Nat :=
  match code.toNat with
  | 1 => (List.range 4).map (fun k => lcore / 4 * 4 + k)
  | 2 => (List.range 16).map (fun k => lcore / 16 * 16 + k)
  | _ => [lcore]

/-- Block row and column of a member. -/
def blockOf (code : BitVec 2) (lcore : Nat) : Nat × Nat :=
  match code.toNat with
  | 1 => (lcore % 4 / 2, lcore % 2)
  | 2 => (lcore / 4 % 4, lcore % 4)
  | _ => (0, 0)

/-! ## MPSTAT (10 R209) -/

def statReset : Word := 0x80008000
/-- A signed 16-bit field. -/
def s16 (w : Word) (lo : Nat) : Int := (w.extractLsb' lo 16).toInt
def putS16 (w : Word) (lo : Nat) (v : Int) : Word := setFld w lo 16 (v % 65536).toNat

/-! ## Whole matrices -/

/-- A matrix of patterns, cell (i, j) at key 256·i + j; an unlisted cell is +0. -/
abbrev Mat := SMap Cell32
def Mat.at (m : Mat) (i j : Nat) : Nat := (SMap.get m (256 * i + j) 0).toNat

/-- Flags by block, at key 4·r + c. -/
abbrev BFlags := SMap Flags
def BFlags.add (b : BFlags) (i j : Nat) (f : Flags) : BFlags :=
  if f = 0 then b else let k := 4 * (i / 64) + j / 64; SMap.put b k (SMap.get b k 0 ||| f)

/-- What a polynomial word is given: type, launch id, the order n_r (of a gang, the largest among its members), its growth limit,
the FMODE, SRSEED and order of the member whose array holds a block (06 R117), and the upsets that its promotions meet where
mirroring applies (10 R219). Members that requested different orders act each on the cells of its own block below its own
(DEDUCED, log entry 59). -/
structure PCtx where
  ty   : Nat
  own  : Nat × Nat → Word × Word × Nat
  lid  : BitVec 32
  n    : Nat
  glim : Option Int
  hits : List (Nat × Nat × Nat) := []

/-- FMODE, SRSEED and order of the member that holds a cell of the whole matrix, and whether the cell is active. -/
def PCtx.fm (x : PCtx) (i j : Nat) : Word := (x.own (i / 64, j / 64)).1
def PCtx.seed (x : PCtx) (i j : Nat) : Word := (x.own (i / 64, j / 64)).2.1
def PCtx.order (x : PCtx) (i j : Nat) : Nat := (x.own (i / 64, j / 64)).2.2
def PCtx.active (x : PCtx) (i j : Nat) : Bool := i < x.order i j && j < x.order i j

/-- The active cells of the whole matrix, row by row. -/
def PCtx.cells (x : PCtx) : List (Nat × Nat) :=
  ((List.range x.n).flatMap (fun i => (List.range x.n).map (fun j => (i, j)))).filter (fun p => x.active p.1 p.2)

/-- A matrix whose active cells are computed, each with its flags and the cells to whose members they belong. -/
def PCtx.buildAt (x : PCtx) (fl : BFlags) (f : Nat → Nat → Nat × List (Nat × Nat × Flags)) : Mat × BFlags :=
  let rs := x.cells.map (fun p => (p, f p.1 p.2))
  (rs.filterMap (fun r => if r.2.1 = 0 then none else some (256 * r.1.1 + r.1.2, BitVec.ofNat 32 r.2.1)),
   rs.foldl (fun b r => r.2.2.foldl (fun b y => b.add y.1 y.2.1 y.2.2) b) fl)

/-- A matrix whose active cells are computed, with the flags of the members that hold them. -/
def PCtx.build (x : PCtx) (fl : BFlags) (f : Nat → Nat → Nat × Flags) : Mat × BFlags :=
  x.buildAt fl (fun i j => let r := f i j; (r.1, [(i, j, r.2)]))

/-- The array while a polynomial runs, over the whole matrix. -/
structure PSt where
  sM   : Mat
  /-- the tag that a promotion wrote, if one did -/
  sTag : Option (BitVec 4) := none
  gM   : Mat
  gTag : Option (BitVec 4) := none
  c0   : Mat
  c1   : Mat
  stat : Word
  fl   : BFlags := []
  stop : Bool := false
  /-- a promoted value differs from its copy: the row, the bank and the column (10 R219). -/
  miss : Option (Nat × Nat × Nat) := none

/-- floor(log2 |y|) of a pattern that is finite and not zero. -/
def expOf (F : Fmt) (y : Nat) : Option Int :=
  match decodeF F y with
  | .fin _ m e => if m = 0 then none else some (ilog2 m + e)
  | _ => none

def notFinite (F : Fmt) (y : Nat) : Bool :=
  match decodeF F y with
  | .fin _ _ _ => false
  | _ => true

/-- A promotion's rounding of a bank, its exponent and MPSTAT (10 R208): the rounded matrix, MPSTAT, the flags, and
whether it stops. `off` are the global coordinates of the matrix's first cell. -/
def promoteMat (x : PCtx) (T : Nat) (off : Nat × Nat) (active : Nat → Nat → Bool) (b : Mat) (stat : Word) (fl : BFlags) : Mat × Word × BFlags × Bool :=
  match fmtOf x.ty with
  | none => (b, stat, fl, true)
  | some F =>
    let one (i j : Nat) : Nat × Flags :=
      if active i j then
        let fm := x.fm i j
        let m := if Fmode.sr fm then RMode.sr (srBits x.lid (x.seed i j) (BitVec.ofNat 16 T) (BitVec.ofNat 32 (off.1 + i)) (BitVec.ofNat 32 (off.2 + j))) else rmode fm
        match operand fp32 fm (b.at i j) with
        | .nan sig => (F.cnan, flagIf sig Flag.nv)
        | v => roundTo F fm m v
      else (0, 0)
    let (y, fl) := x.build fl one
    let ys := y.map (fun p => p.2.toNat)
    let e := (ys.filterMap (expOf F)).foldl (fun a v => if a < v then v else a) (-32768 : Int)
    let st := putS16 stat 0 e
    let st := putS16 st 16 (if s16 stat 16 < e then e else s16 stat 16)
    let st := setFld st 32 8 (min 255 (fld stat 32 8 + 1))
    if ys.any (notFinite F) then (y, setFld st 62 1 1, fl, true)
    else if (x.glim.map (fun g => decide (g < e))).getD false then (y, setFld st 61 1 1, fl, true)
    else (y, st, fl, false)

/-- promote(mc`b`, S or mg) as promotion `psub` of a step. Where mirroring applies each active promoted value is compared with its
copy first, and one that differs ends the word (10 R219). -/
def PSt.promote (x : PCtx) (p : PSt) (toS : Bool) (b : Nat) (psub : Nat) : PSt :=
  let num := fld p.stat 32 8
  let bank := if b = 0 then p.c0 else p.c1
  if p.stop then p
  else match x.hits.find? (fun h => h.1 = num && x.active h.2.1 h.2.2) with
  | some h => { p with stop := true, miss := some (h.2.1, b, h.2.2) }
  | none =>
    let (y, st, fl, stop) := promoteMat x (0xFF00 + num % 256) (0, 0) (fun _ _ => true) bank p.stat p.fl
    if stop then { p with stat := setFld st 56 2 psub, fl := fl, stop := true }
    else if toS then { p with sM := y, sTag := some (BitVec.ofNat 4 x.ty), stat := st, fl := fl }
    else { p with gM := y, gTag := some (BitVec.ofNat 4 x.ty), stat := st, fl := fl }

/-- prod(B, L, F) (10 R214, R224): the loop of R193 from +0 over K-groups of global k. The groups of k in 64b .. 64b + 63
are those of the member that holds block (b, c) of F: they take its FMODE and its order, and their flags are its own. -/
def prodMat (x : PCtx) (l f : Mat) (fl : BFlags) : Mat × BFlags :=
  let g := groupOf (width x.ty)
  x.buildAt fl (fun i j =>
    (List.range (ceilDiv x.n 64)).foldl (fun acc b =>
      let fm := x.fm (64 * b) j
      let d (v : Nat) : Num := plainElem x.ty fm v
      let ks := (List.range (min 64 (x.order (64 * b) j - 64 * b))).map (fun k => (d (l.at i (64 * b + k)), d (f.at (64 * b + k) j)))
      let r := runGroups (dotGroup fm) (chunksOf g 64 ks) acc.1 0
      (r.1, acc.2 ++ [(64 * b, j, r.2)])) (0, []))

/-- One exact expression rounded once to FP32 (10 R214); `none` is an invalid operation. -/
def roundExpr (fm : Word) (ops : List Num) (v : Option Num) : Nat × Flags :=
  nanCase fp32 ops (match v with
    | none => (fp32.cnan, Flag.nv)
    | some y => roundTo fp32 fm .rne y)

/-- c·δ over the active cells, a product: off the diagonal its zero has the sign of c (DEDUCED, log entry 81). -/
def scaledId (x : PCtx) (c : Nat) (fl : BFlags) : Mat × BFlags :=
  x.build fl (fun i j =>
    let v := operand fp32 (x.fm i j) c
    roundExpr (x.fm i j) [v] (mulNum v (if i = j then .fin false 1 0 else .fin false 0 0)))

/-- k·δ − b, times 2^h. -/
def idMinus (x : PCtx) (k : Nat) (h : Int) (b : Mat) (fl : BFlags) : Mat × BFlags :=
  x.build fl (fun i j =>
    let v := operand fp32 (x.fm i j) (b.at i j)
    roundExpr (x.fm i j) [v] ((sumNum false [.fin false (if i = j then k else 0) 0, v.neg]).map (fun y => y.scale h)))

/-- One step of a mode, step number `k` of `nit`, with its coefficients; it ends at a promotion that stops. -/
def PSt.step (x : PCtx) (mode nit : Nat) (cs : List Nat) (a : Mat) (p : PSt) (k : Nat) : PSt :=
  if p.stop then p
  else
    let done (q : PSt) : PSt := if q.stop then q else { q with stat := setFld q.stat 40 8 k }
    let prod (q : PSt) (l f : Mat) (put : PSt → Mat → PSt) : PSt :=
      if q.stop then q else let (m, fl) := prodMat x l f q.fl; put { q with fl := fl } m
    let to0 (q : PSt) (m : Mat) : PSt := { q with c0 := m }
    let to1 (q : PSt) (m : Mat) : PSt := { q with c1 := m }
    let c (fm : Word) (n : Nat) : Num := operand fp32 fm (cs.getD n 0)
    match mode with
    | 0 =>
      let q := prod p p.sM a to0
      let q := q.promote x true 0 0
      if q.stop then q
      else
        let (m, fl) := x.build q.fl (fun i j =>
          dotGroup (x.fm i j) (q.c1.at i j) [(c (x.fm i j) k, operand fp32 (x.fm i j) (q.c0.at i j))])
        done { q with c1 := m, fl := fl }
    | 1 =>
      let q := prod p p.sM a to1
      let (m, fl) := x.build q.fl (fun i j =>
        if i = j then dotGroup (x.fm i j) (q.c1.at i j) [(c (x.fm i j) (nit - k), .fin false 1 0)] else (q.c1.at i j, 0))
      let q := { q with c1 := m, fl := fl }
      done (q.promote x true 1 0)
    | 2 =>
      let q := prod p p.sM a to0
      let (m, fl) := idMinus x 2 0 q.c0 q.fl
      let q := { q with c0 := m, fl := fl }
      let q := q.promote x false 0 0
      let q := prod q q.sM q.gM to1
      done (q.promote x true 1 1)
    | _ =>
      let q := prod p p.sM a to0
      let q := q.promote x false 0 0
      let q := prod q q.sM q.gM to0
      if q.stop then q
      else
        let (m, fl) := idMinus x 3 (-1) q.c0 q.fl
        let q := { q with c0 := m, fl := fl }
        let q := q.promote x false 0 1
        let q := prod q q.sM q.gM to1
        done (q.promote x true 1 2)

/-- MPOLY (10 R214) from the matrices as they stand, with the cells that are not active already cleared. -/
def polyRun (x : PCtx) (mode nit : Nat) (cs : List Nat) (a : Mat) (p : PSt) : PSt :=
  let p := { p with stat := setFld (setFld statReset 63 1 1) 58 2 mode }
  let p :=
    if mode = 0 then
      let one := match fmtOf x.ty with
        | some F => (roundTo F 0 .rne (.fin false 1 0)).1
        | none => 0
      let (s, _) := x.build [] (fun i j => if i = j then (one, 0) else (0, 0))
      let (m, fl) := scaledId x (cs.getD 0 0) p.fl
      { p with sM := s, sTag := some (BitVec.ofNat 4 x.ty), c1 := m, fl := fl }
    else
      let (m, fl) := scaledId x (cs.getD (if mode = 1 then nit else 0) 0) p.fl
      PSt.promote x { p with c1 := m, fl := fl } true 1 3
  (List.range nit).foldl (fun q k => q.step x mode nit cs a (k + 1)) p

/-! ## Issue -/

def State.polyN (s : State) : Nat := shpD (s.shq 2) 0
/-- The checks of R211: class and REGRANT, type, cap, and mf's tag. -/
def polyCheck (s : State) (ty : Option Nat) (needF : Bool) : Option Out :=
  match grantCheck s 2 3 with
  | some o => some o
  | none =>
    if (ty.map (fun t => decide (shpTy (s.shp 2) ≠ t))).getD false then some (shapeBad s)
    else if shpD (s.shp 2) 0 > 64 * s.me.side then some (shapeBad s)
    else if needF && some s.me.bufF.tag.toNat ≠ ty then some (shapeBad s)
    else none

/-- Whether the polynomial words of a core are ganged (10 R223). -/
def State.ganged (s : State) : Bool := s.me.gang ≠ 0 && shpD (s.shp 2) 1 = s.me.side

/-- P, Q and O of R217. -/
def polyBusy (s : State) (ty mode nit : Nat) : Nat :=
  let sd := shpD (s.shp 2) 1
  let w := width ty
  let P := if sd = 1 then cyclesOf w (shpD (s.shp 2) 0) else (2 * sd - 1) * cyclesOf w 64 + 16 * (sd - 1)
  let Q := if sd = 1 then 2 else 10
  2 + Q + nit * (if mode ≤ 1 then P + Q + 1 else if mode = 2 then 2 * P + 2 * Q + 1 else 3 * P + 3 * Q + 1)

/-- The active cells of a whole matrix from the blocks of the members of a gang. -/
def gather (s : State) (members : List Nat) (code : BitVec 2) (x : PCtx) (cells : Core → SMap Cell32) : Mat :=
  x.cells.filterMap (fun p =>
    match members.find? (fun l => blockOf code l = (p.1 / 64, p.2 / 64)) with
    | none => none
    | some l =>
      let v := SMap.get (cells (s.coreAt l)) (64 * (p.1 % 64) + p.2 % 64) 0
      if v = 0 then none else some (256 * p.1 + p.2, v))

/-- A member's block of a whole matrix. -/
def blockCells (m : Mat) (b : Nat × Nat) : SMap Cell32 :=
  m.filterMap (fun p =>
    let i := p.1 / 256
    let j := p.1 % 256
    if i / 64 = b.1 ∧ j / 64 = b.2 then some (64 * (i % 64) + j % 64, p.2) else none)

/-- The coefficients that a word reads (10 R213). -/
def polyCoefs (s : State) (mode : Nat) (ctl : Word) : Acc :=
  let n := if mode ≤ 1 then fld ctl 48 5 + 1 else 1
  spadRead s s.rdExt (fld ctl 0 32) (4 * n)

/-- The coefficients of a read. -/
def coefsOf (bs : List Byte) : List Nat := (List.range (bs.length / 4)).map (fun k => leNat ((bs.drop (4 * k)).take 4))

/-- Whether mirroring applies to a word of shp2 (10 R219). -/
def State.mirrorsPoly (s : State) : Bool := Fmode.mirror s.fmode && (s.shp 2).getLsbD 57

/-- What lands for a core when a polynomial has run (10 R214, R219). Where mirroring applies the idle half has made every step too,
and its copies land with the banks. -/
def polyLands (s : State) (mode : Nat) (q : PSt) (b : Nat × Nat) : List Landing :=
  let mirv := s.mirrorsPoly
  let bank (n : Nat) (m : Mat) : Landing :=
    let cells := blockCells m b
    .bank n { cells := cells, mirv := mirv, mir := if mirv then cells else [] }
  [.buf 0 { cells := blockCells q.sM b, tag := q.sTag.getD s.me.bufS.tag }] ++
  (if mode ≥ 2 then [.buf 2 { cells := blockCells q.gM b, tag := q.gTag.getD s.me.bufG.tag }] else []) ++
  (if mode ≠ 1 then [bank 0 q.c0] else []) ++ [bank 1 q.c1, .mpstat q.stat]

/-- The control value's own fields and mode of a polynomial word. -/
def polyMode (i : Instr) : Option (Bool × NWord) :=
  match i with
  | .mpoly (.nat w) => some (false, w)
  | .mpolyT (.nat w) => some (true, w)
  | _ => none

/-- The state of another member, as its word at wait sees it. -/
def State.asMember (s : State) (l : Nat) : State := { s with cur := { s.cur with lcore := l, seq := (s.coreAt l).lineM.seq } }

/-- What the members of a polynomial give it: a member's FMODE, SRSEED and order for its block, none beyond the blocks. -/
def polyCtx (s : State) (members : List Nat) (code : BitVec 2) (ty : Nat) (glim : Int) : PCtx :=
  let at' (l : Nat) : State := if l = s.cur.lcore then s else s.asMember l
  { ty := ty, lid := s.lid, glim := some glim
    own := fun b => match members.find? (fun l => blockOf code l = b) with
      | some l => ((at' l).fmode, (at' l).cap.srseed, (at' l).polyN)
      | none => (s.fmode, s.cap.srseed, 0)
    n := members.foldl (fun n l => max n (min (at' l).polyN (64 * 2 ^ code.toNat))) 0
    hits := if s.mirrorsPoly then s.me.mirHits else [] }

/-- The array when a polynomial has run over the blocks of the given members. -/
def polyEnd (s : State) (members : List Nat) (code : BitVec 2) (w : NWord) (nit : Nat) (glim : Int) (cs : List Nat) : PSt :=
  let x := polyCtx s members code w.ty.toNat glim
  let mat (f : Core → SMap Cell32) : Mat := gather s members code x f
  let p : PSt := { sM := mat (·.bufS.cells), gM := mat (·.bufG.cells),
                   c0 := mat (·.mc0.cells), c1 := mat (·.mc1.cells), stat := statReset }
  polyRun x (w.c.toNat % 4) nit cs (mat (·.bufF.cells)) p

/-- Runs a polynomial over the blocks of the given members and puts each member's results in flight: each as its own word
declares them, and rounded as its own command captured. A promoted value that differs from its copy is MIRRORMISMATCH, and
nothing lands (10 R219). -/
def polyAll (s : State) (members : List Nat) (code : BitVec 2) (i : Instr) (w : NWord) (stopT : Bool) (nit : Nat) (glim : Int) (cs : List Nat) :
    Except Out State :=
  let mode := w.c.toNat % 4
  let q := polyEnd s members code w nit glim cs
  match q.miss with
  | some m => .error (s.fault (mirrorFault m.1 m.2.1 m.2.2))
  | none =>
  let halt := stopT && (fld q.stat 61 2 ≠ 0)
  .ok (members.foldl (fun t l =>
    let c := s.coreAt l
    let me := l = s.cur.lcore
    let (i1, w1, slot) : Instr × NWord × BitVec 3 := match (if me then none else c.gangword) with
      | some (g, _, k) => (g, ((polyMode g).map (·.2)).getD w, k)
      | none => (i, w, s.cur.slot)
    let t0 := if me then t
      else { t with cur := { t.cur with lcore := l, seq := c.lineM.seq, line := c.lineM.upc.line, slot := slot } }
    let b := blockOf code l
    let t1 := t0.formed (t0.work i1 w1 (polyBusy t0 w.ty.toNat mode nit)) (polyLands t0 mode q b) (SMap.get q.fl (4 * b.1 + b.2) 0) halt
    let t2 := t1.updCore l (fun c => { c with gangword := none, gangdone := !me })
    { t2 with cur := s.cur }) s)

/-- GANGMISMATCH at every member (10 R223). -/
def gangMismatch (s : State) (members : List Nat) : Out :=
  let t := (members.filter (· ≠ s.cur.lcore)).foldl (fun t l => raiseAt t l .M (t.coreAt l).lineM.seq { code := 26 }) s
  t.fault { code := 26 }

/-- What the members of a gang must agree on: op, type, mode, NIT, GLIM and the coefficients. -/
def agreeKey (s : State) (i : Instr) (ctl : Word) : Option (Bool × Nat × Nat × Nat × Nat × List Nat) :=
  match polyMode i with
  | none => none
  | some (t, w) =>
    match polyCoefs s (w.c.toNat % 4) ctl with
    | .ok _ bs => some (t, w.ty.toNat, w.c.toNat % 4, fld ctl 48 5, fld ctl 32 16, coefsOf bs)
    | _ => none

/-- The early commits before a ganged word, one for each member (10 R223); none while one must wait (02 R37). -/
def gangCommit (s : State) : List Nat → Option State
  | [] => some s
  | l :: t =>
    match beforeEarly (s.asMember l) with
    | none => none
    | some s1 => gangCommit { s1 with cur := s.cur } t

/-- The control value of a polynomial word, with the state after its pop (10 R212). -/
def polyCtl (s : State) (w : NWord) : Option (State × Word) :=
  if isVreg w.a then some (s, BitVec.ofNat 64 (elem (s.me.vget (s.vphys w.a.toNat)) 64 0))
  else (s.pop w.a.toNat).map (fun p => (p.1, BitVec.ofNat 64 (elem p.2.data 64 0)))

/-- A buffer or bank of a core, by the numbers of its uses, holds an uncorrectable error. -/
def Core.useBad (c : Core) (n : Nat) : Bool := if n < 3 then (c.bufAt n).bad else n < 5 && (c.bankAt (n - 3)).bad

/-- What a word of this chapter reads of the array holds an uncorrectable error (20 R416). -/
def State.readBad (s : State) (i : Instr) : Bool := ((mUse i).map (fun u => u.rd.any s.me.useBad)).getD false

/-- MPOLY and MPOLY.T. Where shp2.DIM1 is not the bound side the core runs the word alone, over the cells of its own array that
lie below the order (10 R223 speaks of DIM1 = s alone; DESIGN CHOICE, log entry 59). -/
def polyWord (i : Instr) (stopT : Bool) (s : State) : Out :=
  issueM i s fun r w =>
    match polyCheck s (some w.ty.toNat) true with
    | some o => .error o
    | none =>
      match s.operandBad r w with
      | some f => .error (s.fault f)
      | none =>
      match polyCtl s w with
      | none => .error s.waits
      | some (s1, ctl) =>
        if s.me.gangdone then .ok (s1.updMe (fun c => { c with gangdone := false, gangword := none }))
        else if fld ctl 0 2 ≠ 0 then .error (s.fault { code := 24 })
        else if s.readBad i then .error (s.fault arrayBad)
        else match polyCoefs s1 (w.c.toNat % 4) ctl with
          | .ok s2 bs =>
            let nit := fld ctl 48 5
            let glim := s16 ctl 32
            if !s.ganged then polyAll s2 [s.cur.lcore] 0 i w stopT nit glim (coefsOf bs)
            else
              let ms := gangOf s.me.gang s.cur.lcore
              let here := agreeKey s2 i ctl
              let others := (ms.filter (· ≠ s.cur.lcore)).map (fun l => ((s.coreAt l).gangword.map (fun g => agreeKey (s.asMember l) g.1 g.2.1)))
              let waiting := s.updMe (fun c => { c with gangword := some (i, ctl, s.cur.slot) })
              if others.any (fun o => o == none || o == some none) then .error waiting.waits
              else if others.any (fun o => o != some here) then .error (gangMismatch s ms)
              else match gangCommit s2 ms with
                | none => .error waiting.waits
                | some s3 => polyAll s3 ms s.me.gang i w stopT nit glim (coefsOf bs)
          | x => .error (s.stopOn .M 3 0 x)

/-- MPOLY (10 R212-R214). -/
def execMpoly (f : Form) (s : State) : Out := polyWord (.mpoly f) false s
/-- MPOLY.T (10 R215). -/
def execMpolyT (f : Form) (s : State) : Out := polyWord (.mpolyT f) true s

/-- MPROM (10 R216): one promotion of the core's own block. -/
def execMprom (f : Form) (s : State) : Out :=
  issueM (.mprom f) s fun _ w =>
    match polyCheck s (some w.ty.toNat) false with
    | some o => .error o
    | none =>
      if s.readBad (.mprom f) then .error (s.fault arrayBad) else
      let d := w.c.toNat % 4
      let b := if s.ganged then blockOf s.me.gang s.cur.lcore else (0, 0)
      let n := s.polyN
      let x : PCtx := { ty := w.ty.toNat, own := fun _ => (s.fmode, s.cap.srseed, min 64 n), lid := s.lid, n := min 64 n, glim := none }
      let active (i j : Nat) : Bool := 64 * b.1 + i < n && 64 * b.2 + j < n
      let bank : Mat := (s.me.bankAt (w.c.toNat / 4 % 2)).cells.map (fun p => (256 * (p.1 / 64) + p.1 % 64, p.2))
      let (y, st, fl, stop) := promoteMat x 0xFE00 (64 * b.1, 64 * b.2) active bank s.me.mpstat []
      let st := setFld st 63 1 1
      let buf : List Landing := if stop then [] else [.buf d { cells := blockCells y (0, 0), tag := w.ty }]
      .ok (s.formed (s.work (.mprom f) w 2) (buf ++ [.mpstat st]) (SMap.get fl 0 0))

/-- MPSTAT (10 R216). -/
def execMpstat (f : Form) (s : State) : Out :=
  issueM (.mpstat f) s fun _ w =>
    match polyCheck s none false with
    | some o => .error o
    | none =>
      let v := BitVec.ofNat 2048 (s.me.mpstat.toNat + shpD (s.shp 2) 0 * 2 ^ 64 + shpD (s.shp 2) 1 * 2 ^ 96)
      let clr : List Landing := if w.c.toNat % 2 = 1 then [.mpstat statReset] else []
      .ok (s.formed (s.work (.mpstat f) w 1) (.vreg (s.vphys w.dst.toNat) v (~~~0) :: clr) 0)

/-- Whether a member of a gang has reached its n-th native MGANG since the binding (10 R222). -/
def Core.reached (c : Core) (n : Nat) : Bool :=
  n ≤ c.gangord.toNat + (match c.gangword with
    | some (.mgang _, _, _) => 1
    | _ => 0)

/-- Native MGANG (10 R222): a barrier for engine M of a bound core. -/
def execMgang (w : NWord) (s : State) : Out :=
  withNative (.mgang w) s fun _ w =>
    if s.me.gang = 0 then State.finish s s (bitMoves .M w)
    else
      let n := s.me.gangord.toNat + 1
      let ms := (gangOf s.me.gang s.cur.lcore).filter (· ≠ s.cur.lcore)
      if ms.all (fun l => (s.coreAt l).reached n) then
        State.finish s (s.updMe (fun c => { c with gangord := c.gangord + 1, gangword := none })) (bitMoves .M w)
      else (s.updMe (fun c => { c with gangword := some (.mgang w, 0, s.cur.slot) })).waits

/-! ## Nests (09 R203-R205) -/

/-- The table that MNGO captured, by CSR number from 0x820. -/
def State.tab (s : State) (k : Nat) : Word := SMap.get ((s.cap.nest).getD []) k 0

/-- A nest's operand format: a stream's or its own. -/
def nestFmt (s : State) (left : Bool) : Nat × Option (Word × Word) :=
  let c := s.tab 0
  if c.getLsbD (if left then 26 else 31) then
    let st := s.me.stream (fld c (if left then 22 else 27) 4)
    (stFmt st, some st)
  else (fld c (if left then 14 else 18) 4, none)

/-- The index point of a step: level 0 outermost. -/
def nestPoint (counts : List Nat) (n : Nat) : List Nat :=
  (counts.foldr (fun k acc => ((acc.1 / k), acc.1 % k :: acc.2)) (n, [])).2

/-- A stride of a nest, signed 32-bit; the spec says so of NLSTR alone (DEDUCED, log entry 122). -/
def sgn32 (w : Word) : Int := (w.extractLsb' 0 32).toInt

/-- A base moved by the strides of a point. -/
def nestBase (s : State) (base first : Nat) (pt : List Nat) (use : Nat → Bool) : Int :=
  (List.range 6).foldl (fun a l => if use l then a + (pt.getD l 0 : Int) * sgn32 (s.tab (first + l)) else a) (base : Int)

/-- A descriptor with its base replaced, or none where the base falls below 0. -/
def withBase (dw0 : Word) (b : Int) : Word := setFld dw0 0 32 (b % 2 ^ 32).toNat

/-- The drains of a tile (09 R205): its rows, each of which may go on from virtual cycle `t`. -/
def nestRows (s : State) (t b : Nat) (o : Int) : List (Nat × Nat × Nat × Nat) :=
  (List.range (min 64 (shpD (s.shp 1) 0))).map (fun r => (t, b, r, o.toNat / 256 + r))

/-- The nest command at work, with its progress. -/
def State.nestAt (s : State) : NestRun := ((s.cmd.bind (·.nest))).getD { free := s.me.vcycle }
def State.putNest (s : State) (n : NestRun) : State := s.updCmd (fun m => { m with nest := some n })

/-- How many index points the captured loops have, and their counts. -/
def State.nestCounts (s : State) : List Nat := (List.range 6).map (fun l => fld (s.tab (1 + l)) 0 16)
def State.nestTotal (s : State) : Nat := s.nestCounts.foldl (· * ·) 1

/-- One step of a nest, at an index point: zeroing at the first point of a tile, the product, and at the last point of a tile
that is drained its rows to drain, or NESTBAD before any of them (09 R205). -/
def nestStep (s : State) (n : NestRun) : Except Out (State × NestRun) :=
  let c := s.tab 0
  let counts := s.nestCounts
  let pt := nestPoint counts n.k
  let b := n.b
  let red (l : Nat) : Bool := c.getLsbD (8 + l)
  let first := (List.range 6).all (fun l => !red l || pt.getD l 0 = 0)
  let last := (List.range 6).all (fun l => !red l || pt.getD l 0 + 1 = counts.getD l 1)
  let put (t : State) (k : Bank) : State := t.updMe (fun d => if b = 0 then { d with mc0 := k } else { d with mc1 := k })
  let (lf, lst) := nestFmt s true
  let (rf, rst) := nestFmt s false
  let bad (st : Option (Word × Word)) : Bool := (st.map streamBad).getD false
  if bad lst || bad rst then .error (s.fault { code := 23 })
  else if !pairOk lf rf then .error (shapeBad s)
  else
  let s := if first then put s { mirv := s.mirrors false } else s
  if (s.me.bankAt b).bad then .error (s.fault arrayBad) else
  let K := s.kk
  let rsrc := fld c 6 2
  match descOpnd s true lf s.ma s.na K (withBase (s.tab 7) (nestBase s (fld (s.tab 7) 0 32) 12 pt (fun _ => true))) (s.tab 8) with
  | .error o => .error o
  | .ok (s1, l) =>
    let right : Except Out (State × Opnd) :=
      if rsrc = 0 then
        descOpnd s1 false rf s.ma s.na K (withBase (s.tab 9) (nestBase s (fld (s.tab 9) 0 32) 18 pt (fun _ => true))) (s.tab 10)
      else opndOf s1 false 1 rsrc rf s.ma s.na K 0
    match right with
    | .error o => .error o
    | .ok (s2, r) =>
      match product s2 (s2.me.bankAt b) s.ma s.na K { fmt := lf, st := lst } { fmt := rf, st := rst } l.es r.es [] false with
      | .error a => .error (s2.stopOn .M 3 0 a)
      | .ok (s3, bank, fl) =>
        let s4 := (put s3 bank).updMe (fun d => d.merge .M s.cur.seq fl 0)
        let free := s.me.vcycle + mmaBusy s false lf rf
        let n1 := { n with k := n.k + 1, wb := b, free := free }
        if !last then .ok (s4, n1)
        else if !c.getLsbD 4 then .ok (s4, { n1 with b := 1 - b })
        else
          let o := nestBase s (fld (s.tab 11) 0 18) 24 pt (fun l => !red l)
          if o < 0 ∨ o + 256 * shpD (s.shp 1) 0 > Config.accBytes then .error (s.fault { code := 25 })
          else .ok (s4, { n1 with b := 1 - b, drains := n1.drains ++ nestRows s free b o })

/-- One row of a nest's drain (09 R198, R202, R205). -/
def nestDrain (s : State) (b row acc : Nat) : Except Out State :=
  match drainBad s b row with
  | some f => .error (s.fault f)
  | none =>
    let ty := if [10, 12].contains (nestFmt s true).1 then 8 else 0
    match landOne s (.acc acc (drainMode ((s.tab 0).getLsbD 5) ty s.fmode) (drainRow s (s.me.bankAt b) row) allOnes) with
    | .ok s1 fl => .ok (s1.updMe (fun c => c.merge .M s.cur.seq fl 0))
    | .bad f => .error (s.fault f)
    | .blocked => .error s.waits

/-- The load unit's part of a virtual cycle: the next row to drain, once it may be, and no two in one cycle. A drain of a tentative
nest freezes the domain until the nest is firm (13 R286). -/
def nestLoad (s : State) (n : NestRun) : Except Out (State × NestRun) :=
  match n.drains with
  | (t, b, row, acc) :: rest =>
    if s.me.vcycle < t then .ok (s, n)
    else if s.isTent then .error s.waits
    else match nestDrain s b row acc with
      | .error o => .error o
      | .ok s1 => .ok (s1, { n with drains := rest.map (fun d => (max d.1 (s.me.vcycle + 1), d.2)) })
  | [] => .ok (s, n)

/-- The array unit's part: the next index point once the unit is free, and once the bank that it would write has been
drained. -/
def nestArray (s : State) (n : NestRun) : Except Out (State × NestRun) :=
  if n.k < s.nestTotal ∧ n.free ≤ s.me.vcycle ∧ n.drains.all (fun d => d.2.1 ≠ n.b) then nestStep s n else .ok (s, n)

/-- The nest has run all its points and performed its last drain. -/
def State.nestOver (s : State) (n : NestRun) : Bool := s.nestTotal ≤ n.k && n.drains.isEmpty && n.free ≤ s.me.vcycle

/-- NEST_RUN (09 R205): a virtual cycle of the nest command at work. Its drains run on the load unit while its steps busy the
array unit as MMA does. -/
def execNestRun (s : State) : Out :=
  if (s.cmd.map (·.st)) ≠ some .running then s.waits
  else match matCheck s with
  | some o => o
  | none =>
    match nestLoad s s.nestAt with
    | .error o => o
    | .ok (s1, n1) =>
      match nestArray s1 n1 with
      | .error o => o
      | .ok (s2, n2) =>
        let s3 := s2.putNest n2
        (if s3.nestOver n2 then noteDues (s3.updCmd (fun m => { m with st := .done })) else s3).done

end Sys2Proof.Machine
end

