-- ==== Sys2Proof/Machine/Grants.lean ====
section
/-! DEFINITION. Shape requests and their grants (03 R51-R55), and stream registers as SETSTREAM stores them (03 R62,
R63). -/

namespace Sys2Proof.Machine

/-- A value rounded up to a multiple. -/
def upTo (v m : Nat) : Nat := (v + m - 1) / m * m

/-- A shape register's doubleword (03 R51), REGRANT clear. -/
def packShape (cls ty d0 d1 d2 : Nat) (tail mirr : Bool) : Word :=
  BitVec.ofNat 64 (d0 + d1 * 2 ^ 16 + d2 * 2 ^ 32 + ty * 2 ^ 48 + cls * 2 ^ 52
    + (if tail then 2 ^ 56 else 0) + (if mirr then 2 ^ 57 else 0))

/-- A request as SHQn holds it: bits 63:56 are RZ (03 R52). -/
def asRequest (q : Word) : Word := q &&& ones 0 56

/-- The gang side of a binding (03 R55, 10 R220). -/
def sideOf (gang : BitVec 2) : Nat := 2 ^ gang.toNat

/-- The grant of a request under a gang side (03 R53-R55); 0, CLASS NONE, for a refused one. -/
def grantOf (side : Nat) (q : Word) : Word :=
  let ty := shpTy q
  let d0 := shpD q 0
  let d1 := shpD q 1
  let d2 := shpD q 2
  match shpClass q with
  | 1 => if ty = 15 ∨ d0 = 0 then 0 else packShape 1 ty (min d0 (2048 / width ty)) 0 0 false false
  | 2 =>
    if !(List.contains [0, 1, 2, 3, 4, 5, 6, 10, 12] ty) ∨ d0 = 0 ∨ d1 = 0 ∨ d2 = 0 then 0
    else
      let m := min (upTo d0 8) (64 * side)
      let n := min (upTo d1 8) (64 * side)
      let k := min d2 4096
      packShape 2 ty m n k (m > d0 || n > d1 || k > d2) (m ≤ 32 || n ≤ 32)
  | 3 =>
    let n := upTo d0 (8 * side)
    if 4 < ty ∨ d0 = 0 ∨ 64 * side < n then 0
    else packShape 3 ty n side 0 (n > d0) (side = 1 && n ≤ 32)
  | _ => 0

/-- The short condition (03 R52): a used dimension of the request exceeds its grant. -/
def shortGrant (q g : Word) : Bool :=
  match shpClass g with
  | 1 => shpD q 0 > shpD g 0
  | 2 => shpD q 0 > shpD g 0 || shpD q 1 > shpD g 1 || shpD q 2 > shpD g 2
  | 3 => shpD q 0 > shpD g 0
  | _ => false

/-- The combinations of R63 that are valid. -/
def streamOk (fmt kind blk sup : Nat) : Bool :=
  match fmt with
  | 5 => kind = 1 && blk = 2 && sup = 0
  | 6 => kind = 2 && blk = 6 && sup = 8
  | 3 => (kind = 0 && blk = 0 && sup = 0) || (kind = 1 && blk = 5 && sup = 0)
  | 4 => (kind = 0 && blk = 0 && sup = 0) || (kind = 1 && blk = 5 && sup = 0)
  | 1 => kind = 0 && blk = 0 && sup = 0
  | 2 => kind = 0 && blk = 0 && sup = 0
  | 10 => kind = 0 && blk = 0 && sup = 0
  | 12 => kind = 0 && blk = 0 && sup = 0
  | _ => false

/-- What a stream register holds after SETSTREAM writes two doublewords (03 R62, R63): RZ bits are zero, and a combination
that is not valid stores FMT 15. A reserved SLOC makes a combination that R63 does not list (DEDUCED, log entry 36). -/
def streamOf (d0 d1 : Word) : Word × Word :=
  let d0 := d0 &&& ~~~(ones 24 8)
  let d1 := d1 &&& ~~~(ones 55 7)
  if streamOk (fld d0 0 4) (fld d0 4 4) (fld d0 8 8) (fld d0 16 8) then (d0, d1)
  else (setFld d0 0 4 15, d1)

end Sys2Proof.Machine
end

