-- ==== Sys2Proof/Machine/Enqueue.lean ====
section
/-! DEFINITION. Enqueue: the checks of CMDPUSH, MNGO and chained frames (12 R254, R262, R281, 22 R433), the determinism
checker (18 R385), the records of the reproducibility signature (22 R437), and the capture (06 R117). -/

namespace Sys2Proof

open Machine

/-! ## Fields of a frame (12 R247-R249) -/

def Frame.pri (f : Frame) : Nat := fld f.dw0 24 4
def Frame.pvalid (f : Frame) (k : Nat) : Bool := f.dw0.getLsbD (28 + k)
def Frame.predNo (f : Frame) (k : Nat) : BitVec 32 :=
  match k with
  | 0 => f.dw1.setWidth 32
  | 1 => f.dw1.extractLsb' 32 32
  | 2 => f.dw2.setWidth 32
  | _ => f.dw2.extractLsb' 32 32
def Frame.preds (f : Frame) : List (BitVec 32) := ((List.range 4).filter f.pvalid).map f.predNo
def Frame.res (f : Frame) : Bool := f.dw0.getLsbD 16
def Frame.spec (f : Frame) : Bool := f.dw0.getLsbD 15
def Frame.tolerant (f : Frame) : Bool := f.dw0.getLsbD 13
def Frame.phaseEnd (f : Frame) : Bool := f.dw0.getLsbD 12
def Frame.nonreplay (f : Frame) : Bool := f.dw0.getLsbD 11
def Frame.rop (f : Frame) : Nat := fld f.dw5 0 2
def Frame.ringNo (f : Frame) : Nat := fld f.dw5 16 6
def Frame.dcn (f : Frame) : Nat := fld f.dw5 24 6
def Frame.dcpost (f : Frame) : Bool := f.dw5.getLsbD 31
def Frame.ptag (f : Frame) : Nat := fld f.dw5 40 24
def Frame.ssp (f : Frame) : Bool := f.dw12.getLsbD 0
def Frame.dsp (f : Frame) : Bool := f.dw12.getLsbD 1
def Frame.cmask (f : Frame) : Nat := fld f.dw12 8 4
def Frame.ety (f : Frame) : Nat := fld f.dw12 28 4
def Frame.tile (f : Frame) : Nat := fld f.dw15 4 4
def Frame.pslot (f : Frame) : Nat := fld f.dw15 2 2
def Frame.opportunistic (f : Frame) : Bool := f.dw15.getLsbD 1
def Frame.next (f : Frame) : Nat := fld f.dw15 0 55
/-- d0 to d3; a GATHERROWS takes d2 and d3 as 1 (12 R251). -/
def Frame.dim (f : Frame) (k : Nat) : Nat := if f.kind = 5 && 2 ≤ k then 1 else fld f.dw6 (16 * k) 16
def Frame.strideWord (f : Frame) (k : Nat) : Word := match k with | 1 => f.dw7 | 2 => f.dw8 | _ => f.dw9
end Sys2Proof

namespace Sys2Proof.Machine

/-- The transfer kinds. -/
def isTransfer (kind : Nat) : Bool := 2 ≤ kind && kind ≤ 6

/-- Kinds and the engines that accept them (12 R250). -/
def kindOk (kind eng : Nat) : Bool :=
  match kind with
  | 1 => eng < 3
  | 7 => true
  | 12 => true
  | k => (2 ≤ k && k ≤ 6 || 8 ≤ k && k ≤ 10) && eng = 3

/-- Doublewords 6 to 14 that a kind uses (12 R250, 22 R432). -/
def usesOf (kind : Nat) : List Nat :=
  match kind with
  | 1 => [10, 13, 14]
  | 2 => [6, 10, 11, 12, 13, 14]
  | 3 => [6, 7, 8, 9, 10, 11, 12, 13, 14]
  | 4 => [6, 10, 11, 12, 13, 14]
  | 5 => [6, 7, 9, 10, 11, 12, 13, 14]
  | 6 => [6, 7, 8, 9, 10, 11, 12, 13, 14]
  | 8 => [11, 13, 14]
  | 9 => [10, 13, 14]
  | 10 => [10, 11]
  | _ => [13, 14]

/-- An address of a transfer with bits that its space does not have (12 R249). -/
def addrRz (spad : Bool) (a : Word) : Bool := if spad then a.toNat ≥ 2 ^ 21 else a.toNat ≥ 2 ^ 55

/-- A reserved bit of the frame is nonzero (12 R246-R249). -/
def reservedBad (f : Frame) (chain : Bool) : Bool :=
  let k := f.kind
  f.dw0 &&& (ones 17 7 ||| ones 10 1) ≠ 0 ||
  f.dw5 &&& (ones 32 8 ||| ones 30 1 ||| ones 22 2 ||| ones 2 14) ≠ 0 ||
  (List.range 15).any (fun n => 6 ≤ n && !(usesOf k).contains n && f.dws.getD n 0 ≠ 0) ||
  f.dw12 &&& (ones 32 32 ||| ones 12 16 ||| ones 2 6) ≠ 0 ||
  (k ≠ 6 && f.ety ≠ 0) || (k ≠ 4 && f.cmask ≠ 0) ||
  f.dw13 &&& ones 21 11 ≠ 0 || f.dw14 &&& ones 21 11 ≠ 0 ||
  (k = 5 && (f.dw6 &&& ones 32 32 ≠ 0 || f.dw9 &&& ones 21 43 ≠ 0)) ||
  (k = 8 && f.dw11 &&& ones 32 32 ≠ 0) ||
  ((k = 1 || k = 9) && addrRz false f.dw10) ||
  (k = 10 && (f.dw10 &&& (ones 11 53 ||| ones 6 2) ≠ 0 || addrRz false f.dw11)) ||
  (isTransfer k && f.rop ≠ 2 && addrRz f.ssp f.dw10) ||
  (isTransfer k && k ≠ 4 && f.rop ≠ 1 && addrRz (f.dsp && k ≠ 6) f.dw11) ||
  (if chain then f.dw15.toNat ≥ 2 ^ 55
   else if f.spec then f.dw15 &&& ~~~(ones 1 7) ≠ 0 else f.dw15 ≠ 0)

/-- ROP on a kind, or with an operation, that it does not act on (12 R272). -/
def ropBad (f : Frame) : Bool :=
  match f.rop with
  | 0 => false
  | 1 => !(List.contains [2, 3, 5] f.kind)
  | 2 => !(List.contains [2, 3, 4, 6] f.kind)
  | _ => true

/-- The Lamplighter bit of a die in READYMAP (21 R421). -/
def lampBit (die : Nat) : Nat := 34 + die

/-- The checks of R433 on a SELFTEST that a core of a cluster pushes. -/
def testBad (s : State) (lcore : Nat) (f : Frame) : Bool :=
  let cl := fld f.dw10 0 6
  fld f.dw10 8 3 = 0 || Config.clustersPerDie ≤ cl || cl = clusterOf lcore % Config.clustersPerDie || f.dw11.toNat % 64 ≠ 0 ||
  !(s.hub.ready.getLsbD (lampBit (dieOf lcore)))

/-- The checks of R254 that a frame fails, by reason. `det` says whether it falls under the deterministic rules. -/
def failedChecks (s : State) (f : Frame) (chain det : Bool) : List Nat :=
  let k := f.kind
  let c := s.me
  let cl := s.myCluster
  let ext (w : Word) : Bool := let x := extentOf w; x.1 + x.2 > Config.spadBytes || cl.inBack x.1 x.2
  let dims := if isTransfer k then (List.range 4).map f.dim else []
  let strides := (List.range 3).flatMap (fun n => let w := f.strideWord (n + 1); [fld w 0 32, fld w 32 32])
  let alm := SMap.get cl.alm f.tile {}
  let has (p : Bool) (n : Nat) : List Nat := if p then [n] else []
  has (!kindOk k f.engCode) 1 ++
  has (reservedBad f chain) 2 ++
  has (f.pri > 11) 3 ++
  has (!chain && f.preds.any (fun p => let d := (c.seqno - p).toNat; d = 0 || 2 ^ 31 ≤ d)) 4 ++
  has (ext f.dw13 || ext f.dw14) 5 ++
  has (dims.contains 0 ||
    (k = 6 && (f.dim 0 % 4 ≠ 0 || f.dw11.toNat % 4 ≠ 0 || strides.any (fun x => x % 4 ≠ 0) || (f.ety ≠ 0 && f.ety ≠ 8) || f.dsp))) 6 ++
  has ((k = 1 && f.dw10.toNat % 64 ≠ 0) || (k = 9 && f.dw10.toNat % 128 ≠ 0) || (chain && f.next % 128 ≠ 0)) 7 ++
  has (f.spec && (!f.pvalid f.pslot || f.nonreplay || f.rop ≠ 0 || (f.opportunistic && det) ||
    !(List.contains [1, 2, 3, 5] k) || f.phaseEnd || f.dcpost ||
    (s.hasAlm f.tile && alm.live.owner ≠ some s.cur.lcore))) 8 ++
  has ((bitsOf (f.dw3 ||| f.dw4)).any (fun n => !s.hasEvent n) || ((f.dcpost || k = 8) && !s.hasDc f.dcn) ||
    (f.rop ≠ 0 && (!s.hasRing f.ringNo || !(SMap.get cl.ring f.ringNo {}).en)) || (f.spec && !s.hasAlm f.tile)) 9 ++
  has (k = 10 && !chain && c.mode = .U) 10 ++
  has ((k = 12 && !f.phaseEnd) || (k = 8 && (f.dcpost || (SMap.find cl.dcWait f.dcn).isSome)) || ropBad f) 11 ++
  has (k = 10 && testBad s s.cur.lcore f) 12 ++
  has (chain && ((List.range 4).any f.pvalid || f.spec || f.phaseEnd || !(isTransfer k || k = 7 || k = 8))) 13

/-- The reason that is reported: the lowest-numbered. -/
def enqueueReason (s : State) (f : Frame) (chain det : Bool) : Option Nat := (failedChecks s f chain det).head?

/-! ## The determinism checker (18 R385) -/

/-- The commands of the last phase that a list holds: those after its last phase-ending command. -/
def lastPhase (l : List Checked) : List Checked := (l.reverse.takeWhile (fun k => !k.pend)).reverse
/-- The commands of the running phase: up to its phase-ending command. -/
def firstPhase : List Checked → List Checked
  | [] => []
  | k :: t => if k.pend then [k] else k :: firstPhase t

/-- Two extents that share a byte that is not a ring's: those are exempt (12 R270). -/
def xMeets (cl : Cluster) (a b : Nat × Nat) : Bool :=
  meets a.1 a.2 b.1 b.2 && !(cl.offRings (max a.1 b.1) (min (a.1 + a.2) (b.1 + b.2))).isEmpty
/-- Neither command's write set may overlap the other's read or write set (02 R35). -/
def overlaps (cl : Cluster) (a b : Checked) : Bool := xMeets cl a.wr b.rd || xMeets cl a.wr b.wr || xMeets cl b.wr a.rd

/-- Whether a new command overlaps one of its phase that is not ordered with it. The commands of one phase of a native
kernel are not compared with each other (DEDUCED, log entry 33). -/
def overlapBad (cl : Cluster) (cs : List Checked) (b : Checked) : Bool :=
  cs.any (fun a => overlaps cl a b && !(a.group.isSome && a.group = b.group) &&
    !orderedAfter (cs ++ [b]) a b && !orderedAfter (cs ++ [b]) b a)

/-- What the checker keeps of a frame. -/
def checkedOf (f : Frame) (seq : BitVec 32) (entry : Nat) (group : Option Nat) : Checked where
  seq := seq
  eng := engOf f.engCode
  preds := if entry = 0 then f.preds else []
  wait := f.dw3
  signal := f.dw4
  rd := extentOf f.dw13
  wr := extentOf f.dw14
  entry := entry
  pend := f.phaseEnd
  group := group

/-! ## Signature records (22 R437) -/

/-- The record of a command: dw0 without SEQ and PRI, four predecessor distances, and dw3 to dw6. -/
def cmdRecord (f : Frame) (seq : BitVec 32) : List Word :=
  let dist (k : Nat) : Nat := if f.pvalid k then min (seq - f.predNo k).toNat 65535 else 0
  [f.dw0 &&& ~~~(ones 32 32 ||| ones 24 4),
   BitVec.ofNat 64 (dist 0 + dist 1 * 2 ^ 16 + dist 2 * 2 ^ 32 + dist 3 * 2 ^ 48), f.dw3, f.dw4, f.dw5, f.dw6]

/-- The record of a grant. -/
def grantRecord (n : Nat) (g : Word) : List Word := [BitVec.ofNat 64 (n * 256), g, 0, 0, 0, 0]

def State.absorb (s : State) (r : List Word) : State := s.updMe (fun c => { c with sig := c.sig ++ r })

/-! ## Enqueue (06 R117) -/

/-- What the control core captures with a command (03 R58, 06 R117). -/
def Core.capture (c : Core) : Captured where
  shp := (List.range 3).foldl (fun m n => SMap.put m n (SMap.get c.shp n 0)) []
  shq := (List.range 3).foldl (fun m n => SMap.put m n (SMap.get c.shq n 0)) []
  fmode := c.fmode
  srseed := c.srseed

/-- TOL of the launch sets TOLERANT in every command and chain entry (18 R379). -/
def tolerate (s : State) (f : Frame) : Frame :=
  if (s.launch.map (·.tol)).getD false then { f with dw0 := f.dw0 ||| ones 13 1 } else f

/-- What an enqueue comes to. -/
inductive Enq where
  | ok (s : State) (seq : BitVec 32)
  | bad (reason : Nat)
  | full
  | fault (o : Out)

/-- A WAITCOUNT sets its counter at enqueue and is pending on it (12 R254, R257). -/
def armCount (s : State) (f : Frame) : State :=
  if f.kind = 8 then
    let cl := s.myCluster
    (s.setMyCluster { cl with dc := SMap.put cl.dc f.dcn (f.dw11.setWidth 32), dcWait := SMap.put cl.dcWait f.dcn s.cur.lcore }).updMe
      (fun c => { c with ph := { c.ph with dec := SMap.del c.ph.dec f.dcn } })
  else s

/-- Enqueues a frame for the core at work: its checks, room, and then the steps of R117. `nest` holds a nest's table. -/
def enqueue (s : State) (f : Frame) (nest : Option (SMap Word)) (group : Option Nat) : Enq :=
  let f := tolerate s f
  let e := engOf f.engCode
  match enqueueReason s f false (f.dw0.getLsbD 14 || Fmode.det s.me.fmode) with
  | some r => .bad r
  | none =>
    if 64 ≤ (s.me.cmds.filter (fun m => engOf m.frame.engCode = e)).length then .full
    else
      let seq := s.me.seqno
      let f := { f with dw0 := seq ++ f.dw0.setWidth 32 }
      let k := checkedOf f seq 0 group
      if overlapBad s.myCluster (lastPhase s.me.ph.cmds) k then
        let x : Contained := { code := 18 }
        .fault (.next { dealWith (logFault s s.cur.lcore (engCode e) schedBank seq x) s.cur.lcore 18 with note := .fault x })
      else
        let s1 := armCount (s.drainSbuf s.cur.lcore) f
        let m : Cmd := { frame := f, seq := seq, cap := { s.me.capture with nest := nest } }
        let here := s.me.ph.cmds.all (fun k => !k.pend)
        let s2 := s1.updMe (fun c => { c with
          cmds := c.cmds ++ [m], seqno := seq + 1, nests := if nest.isSome then c.nests ++ [seq] else c.nests,
          ph := { c.ph with cmds := c.ph.cmds ++ [k], pushed := !(f.kind = 12), nonrepl := c.ph.nonrepl || (here && f.nonreplay) } })
        .ok (s2.absorb (cmdRecord f seq)) seq

end Sys2Proof.Machine
end

