-- ==== Sys2Proof/Machine/Translate.lean ====
section
/-! DEFINITION. The portable meaning of the words that R88 leaves to the engines, as wkld's lines carry it out (15 R333-R335;
08 R160, R161, 09 R184, R191, 10 R210, R212, 11 R228, 12 R264, 14 R312, 16 R343). Each such word is a region of its own: no two of its accesses
are merged, split or reordered with another's. Its commands hold the native words that give its meaning, with the x
registers as they are when the bridge pushes them. The portable registers stand in the native ones of their numbers (DESIGN
CHOICE, log entry 12). -/

namespace Sys2Proof.Machine

/-- A command of a region: its engine, its words, whether they move whole registers, and where the entries of a stream operand or of
MMAS's metadata begin. -/
structure PCmd where
  eng   : Eng
  steps : List PStep
  whole : Bool := false
  strm  : Option Nat := none
deriving DecidableEq, Repr

/-! ## Fields (05 R86, R87, R93) -/

/-- A portable field as an operand code. -/
def fieldCode (k : PCls) (x : Reg) : BitVec 10 :=
  match k with
  | .z => 0x3FF
  | .st => 0x310 + x.setWidth 10
  | _ => x.setWidth 10

/-- The native word with its unused fields empty and the guard of a portable one. -/
def blankWord (p : PWord) : NWord where
  ty := p.ty
  stop := true
  tkp := false
  tkn := false
  gvp := false
  gvn := false
  guard := p.pg.setWidth 6
  ginv := p.pinv
  dst := 0x3FF
  a := 0x3FF
  b := 0x3FF
  c := 0x3FF
  lit := 0
  lat := 1

/-- IMM16's bits 9:0, for a mode, a selector, an index or a count. -/
def imm10 (p : PWord) : BitVec 10 := p.imm18.setWidth 10
/-- The XS flag (08 R160). -/
def xsFlag (p : PWord) : Bool := p.imm18.getLsbD 15

/-- Whether an optional source b is there: CRD of a conversion, BN clear of a slide (07 R135). -/
def hasB (p : PWord) (k : PImm) : Bool :=
  match k with
  | .cvt => p.imm18.getLsbD 7
  | .slide => !p.imm18.getLsbD 14
  | _ => true

/-- The native fields of a word of engine V (07 R135, 08 R160, 14 R312). -/
def vecWord (r : PRow) (p : PWord) : NWord :=
  { blankWord p with
    dst := if r.imm = .row then imm10 p else fieldCode r.vd p.vd
    a := fieldCode r.vs1 p.vs1
    b := if hasB p r.imm then fieldCode r.vs2 p.vs2 else 0x3FF
    c := if r.vs3 ≠ .z then fieldCode r.vs3 p.vs3 else match r.imm with
      | .zero | .sv2 | .xs | .row => 0x3FF
      | _ => imm10 p }

/-! ## Engine V -/

/-- A word of V that Wick may serve is declared with the default nibble (15 R324). -/
def vecLat (op : Nat) (w : NWord) : BitVec 4 :=
  if (0x58 ≤ op && op ≤ 0x5A) || (op = 0x28 && (w.ty = 13 || w.c.toNat % 16 = 13)) then 15 else BitVec.ofNat 4 (trueLat op)

/-- The register in which wkld's lines hold a value of their own: v256, and v257 for a second one. -/
def tempReg (k : Nat) : Nat := 256 + k

/-- An x value as PTAIL's count, within the signed 32 bits that the native word reads (08 R161, R180). -/
def countOf (x : Word) : Nat := if x.toInt < 0 then 0 else min x.toNat (2 ^ 31 - 1)

/-- The step of a word of V; under XS an x value is a literal, PTAIL's count stands in a register, and VEXTR's element goes
to a g register (08 R161). -/
def vecStep (x : Reg → Word) (r : PRow) (p : PWord) (op : Nat) (mk : NWord → Instr) : PStep :=
  let w := vecWord r p
  let w := { w with lat := vecLat op w }
  if r.grp = 1 && xsFlag p then
    match r.op with
    | 0x07 => { i := mk { w with dst := BitVec.ofNat 10 (tempReg 0), c := imm10 p }, out := some p.vd.toNat }
    | 0x28 => { i := mk { w with a := BitVec.ofNat 10 (tempReg 0) }, temps := [(tempReg 0, BitVec.ofNat 2048 (countOf (x p.vs1)))] }
    | _ => { i := mk { w with a := 0x3E0, lit := BitVec.ofNat 64 ((x p.vs1).toNat % 2 ^ width p.ty.toNat) } }
  else { i := mk w }

/-! ## Engine M (09 R184, R191) -/

/-- The descriptor in the pair x[n], x[n+1] as a register holds it. -/
def pairVec (x : Reg → Word) (n : Reg) : Vec := BitVec.ofNat 2048 ((x n).toNat + 2 ^ 64 * (x (n + 1)).toNat)

/-- An operand field by its kind: a register or a stream, none, or a descriptor in wkld's register `k`. -/
def matField (kind : Nat) (sv : Bool) (n : Reg) (k : Nat) : BitVec 10 :=
  match kind with
  | 0 => if sv then 0x310 + n.setWidth 10 else n.setWidth 10
  | 2 => BitVec.ofNat 10 (tempReg k)
  | _ => 0x3FF
def matTemp (x : Reg → Word) (kind : Nat) (n : Reg) (k : Nat) : List (Nat × Vec) := if kind = 2 then [(tempReg k, pairVec x n)] else []

/-- The step of a word of M. -/
def matStep (x : Reg → Word) (r : PRow) (p : PWord) (mk : NWord → Instr) : PStep :=
  let w := blankWord p
  let m := p.imm18.toNat % 32
  let mode : BitVec 10 := BitVec.ofNat 10 m
  let array := [0x03, 0x04, 0x05, 0x07, 0x20, 0x21, 0x22].contains r.op
  let w := { w with lat := BitVec.ofNat 4 (trueLatM array r.op) }
  match r.op with
  | 0x03 =>
    { i := mk { w with dst := p.vd.setWidth 10, a := matField (m % 4) (p.imm18.getLsbD 16) p.vs1 0,
                       b := matField (rKind m) (p.imm18.getLsbD 17) p.vs2 1, c := BitVec.ofNat 10 (m % 16) }
      temps := matTemp x (m % 4) p.vs1 0 ++ matTemp x (rKind m) p.vs2 1 }
  | 0x04 =>
    { i := mk { w with dst := p.vd.setWidth 10, a := p.vs1.setWidth 10, b := matField (rKind m) false p.vs2 1, c := mode }
      temps := matTemp x (rKind m) p.vs2 1 }
  | 0x05 => { i := mk { w with dst := p.vd.setWidth 10 } }
  | 0x06 =>
    { i := mk { w with dst := if m / 4 = 0 then p.vd.setWidth 10 else (x p.vs2).setWidth 10, a := BitVec.ofNat 10 (p.imm18.toNat / 32 % 64),
                       c := mode } }
  | 0x07 => { i := mk { w with c := mode } }
  | 0x20 => { i := mk { w with c := mode } }
  | 0x21 | 0x22 =>
    { i := mk { w with a := BitVec.ofNat 10 (tempReg 0), c := mode }, temps := [(tempReg 0, BitVec.ofNat 2048 (x p.vs1).toNat)] }
  | 0x23 => { i := mk { w with dst := p.vd.setWidth 10, c := mode } }
  | _ => { i := mk { w with a := matField (m % 4) false p.vs1 0, c := mode }, temps := matTemp x (m % 4) p.vs1 0 }

/-! ## Engine A with engine V (11 R228, 16 R343) -/

/-- A word of A at an address in g31; its guard is that of the word of V beside it. -/
def memStep (mk : NWord → Instr) (w : NWord) (a : Word) : PStep :=
  { i := mk { w with guard := 0, ginv := false, a := 31, lat := 0 }, gset := [(31, a)] }

/-- A move on engine V between a register and a queue. -/
def moveStep (w : NWord) (dst a : BitVec 10) : PStep := { i := .vmov (.nat { w with dst := dst, a := a }) }

/-- The commands of a memory word. A load's entry goes to the active elements of its register, a store's comes from them. -/
def memCmds (x : Reg → Word) (r : PRow) (p : PWord) (mk : NWord → Instr) : List PCmd :=
  let w := blankWord p
  let a := x p.vs1 + p.imm18.signExtend 64
  let spillAt (k : Nat) : Word := x p.vs1 + (p.imm18.extractLsb' 6 12).signExtend 64 * 256 + BitVec.ofNat 64 (256 * k)
  let n := p.imm18.toNat % 64
  let parts : List (Nat × Nat) := (if n ≤ 16 then [(0, n)] else [(0, 16), (16, n - 16)])
  match r.op with
  | 0x10 | 0x14 => [{ eng := .A, steps := [memStep mk { w with dst := 0x300 } a] },
                    { eng := .V, steps := [moveStep w (p.vd.setWidth 10) 0x300] }]
  | 0x12 | 0x15 => [{ eng := .V, steps := [moveStep w 0x304 (p.vs2.setWidth 10)] },
                    { eng := .A, steps := [memStep mk { w with c := 0x304 } a] }]
  | 0x16 => [{ eng := .A, steps := [memStep mk { w with b := 0x3E1, lit := x p.vs2 } a] }]
  | 0x20 => parts.flatMap (fun (k, m) =>
      [{ eng := .V, whole := true, steps := (List.range m).map (fun j => moveStep w 0x304 (BitVec.ofNat 10 (p.vs2.toNat + k + j))) },
       { eng := .A, steps := [memStep mk { w with b := 0x304, c := BitVec.ofNat 10 m } (spillAt k)] }])
  | _ => parts.flatMap (fun (k, m) =>
      [{ eng := .A, steps := [memStep mk { w with dst := 0x300, c := BitVec.ofNat 10 m } (spillAt k)] },
       { eng := .V, whole := true, steps := (List.range m).map (fun j => moveStep w (BitVec.ofNat 10 (p.vd.toNat + k + j)) 0x300) }])

/-! ## Engine A alone (12 R264) -/

/-- A ring word or EVSIG.post on engine A: its x registers stand in the g registers of their numbers, and its guard is container 0 of
the portable one. -/
def ringStep (x : Reg → Word) (r : PRow) (p : PWord) (mk : NWord → Instr) : PStep :=
  let code (k : PCls) (n : Reg) : BitVec 10 := if k = .z then 0x3FF else n.setWidth 10
  let ins := (if r.vs1 = .z then [] else [p.vs1]) ++ (if r.vs2 = .z then [] else [p.vs2])
  { i := mk { blankWord p with guard := if p.pg = 0 then 0 else 1, dst := code r.vd p.vd, a := code r.vs1 p.vs1, b := code r.vs2 p.vs2,
                               c := if r.op = 0x10 then 2 else BitVec.ofNat 10 (p.imm18.toNat % 64), lat := 0 }
    gset := ins.map (fun n => (n.toNat, x n)), guard := if p.pg = 0 then none else some p.pg.toNat }

/-! ## A region -/

/-- The commands of a portable word, for given x registers: none for a word that the control core executes itself. -/
def portCmds (x : Reg → Word) (i : Instr) : List PCmd :=
  if controlForm i then []
  else match portRow i with
    | none => []
    | some (r, p) =>
      match r.grp with
      | 2 => ((ctorM r.op (p.imm18.setWidth 10)).map (fun mk => { eng := .M, steps := [matStep x r p mk], strm := some p.vs3.toNat : PCmd })).toList
      | 3 => ((ctorA r.op 0).map (memCmds x r p)).getD []
      | 4 =>
        let mk := ctorS (r.op + 0xC0) (if r.op = 0x10 then 2 else 0)
        if r.op = 0x2A then (mk.map (fun mk => { eng := .V, steps := [vecStep x r p (r.op + 0xC0) mk] : PCmd })).toList
        else (mk.map (fun mk => { eng := .A, steps := [ringStep x r p mk] : PCmd })).toList
      | g =>
        let op := if g = 0 then r.op else r.op + 0x60
        ((ctorV op (imm10 p)).map (fun mk => { eng := .V, steps := [vecStep x r p op mk] : PCmd })).toList

/-- The x registers that a word reads, and those that it writes. -/
def portReads (i : Instr) : List Reg :=
  match portRow i with
  | none => []
  | some (r, p) =>
    let m := p.imm18.toNat
    let pair (kind : Nat) (n : Reg) : List Reg := if kind = 2 then [n, n + 1] else []
    match r.grp with
    | 1 => if xsFlag p && r.op ≠ 0x07 then [p.vs1] else []
    | 2 =>
      if r.op ≤ 0x02 then pair (m % 4) p.vs1
      else if r.op = 0x03 then pair (m % 4) p.vs1 ++ pair (rKind m) p.vs2
      else if r.op = 0x04 then pair (rKind m) p.vs2
      else if r.op = 0x06 then (if m / 4 % 4 = 0 then [] else [p.vs2])
      else if r.op = 0x21 ∨ r.op = 0x22 then [p.vs1] else []
    | 3 => if r.op = 0x16 then [p.vs1, p.vs2] else [p.vs1]
    | 4 => if r.op = 0x2A then [] else (if r.vs1 = .z then [] else [p.vs1]) ++ (if r.vs2 = .z then [] else [p.vs2])
    | _ => []
def portWrites (i : Instr) : List Reg :=
  match portRow i with
  | some (r, p) =>
    if r.grp = 1 && r.op = 0x07 && xsFlag p then [p.vd]
    else if r.grp = 4 && r.op = 0x0A then [p.vd, p.vd + 1]
    else if r.grp = 4 && (r.op = 0x08 || r.op = 0x0D) then [p.vd]
    else []
  | none => []

/-- A set of registers as GIN or GOUT; bit 0 stays clear (15 R334). -/
def regSet (l : List Reg) : BitVec 32 := l.foldl (fun (m : BitVec 32) (k : Reg) => if k = 0 then m else m ||| ((1 : BitVec 32) <<< k.toNat)) 0

/-- The grant under which whole registers move: 64 elements of FP32. -/
def wholeGrant : Word := BitVec.ofNat 64 (2 ^ 52 + 64)

/-- A pushed command takes its part of a region. -/
def Cmd.asPart (m : Cmd) (p : PCmd) : Cmd :=
  { m with steps := p.steps, strm := p.strm
           cap := if p.whole then { m.cap with shp := SMap.put m.cap.shp 0 wholeGrant, shq := SMap.put m.cap.shq 0 wholeGrant } else m.cap }

/-- The state in which a word of a region issues: what wkld's lines hold for it stands in its registers. -/
def State.stepped (s : State) (p : PStep) : State :=
  s.updMe (fun c =>
    let c0 := p.gset.foldl (fun c t => c.gput t.1 t.2) c
    let c1 := match p.guard with
      | some n => c0.apput 1 (if (c.pget n).getLsbD 0 then allOnes else 0)
      | none => c0
    p.temps.foldl (fun c t => c.vput t.1 t.2) c1)

/-- The number of words of the command of a region at work, and of those that have issued. -/
def State.stepCount (s : State) : Nat := (s.cmd.map (·.steps.length)).getD 0
def State.stepNow (s : State) : Nat := (s.cmd.map (·.rows)).getD 0

/-- Words of a command of a region in one line. -/
def lineSteps : Nat := 6

/-- Lines that a command's words take. -/
def linesOf (steps : Nat) : Nat := (max steps 1 + lineSteps - 1) / lineSteps

/-- The link word of a line of a command of a region: its engine's, the next line, or the chain's end, on which engines M and V
end a segment (15 R333). -/
def portLink (e : Eng) (last : Bool) : Nat :=
  engCode e * 2 ^ 28 + (if !last then 16 else if e = .A then 4 else 12)

/-- The check word of a command's segment (05 R96): a virtual cycle for each word, and no control word. -/
def portCheck (steps : Nat) : Word := crcFinal 0xFFFFFFFF ++ BitVec.ofNat 32 steps

/-- The line of a command of `n` words in which word `k` stands, as far as the model gives it: what the words' own slots hold is
wkld's (log entry 12). -/
def portLine (e : Eng) (k n : Nat) : List Word :=
  let last := k / lineSteps + 1 = linesOf n
  BitVec.ofNat 64 (portLink e last) :: List.replicate 6 0 ++ [if last && e ≠ .A then portCheck n else 0]

/-- The slot after word `k` of `n`: the line is left behind its last word. -/
def portAfter (k n : Nat) : Nat := if k + 1 = n ∨ k % lineSteps + 1 = lineSteps then 7 else k % lineSteps + 1

end Sys2Proof.Machine
end

