-- ==== Sys2Proof/Machine/Control.lean ====
section
/-! DEFINITION. The control core's own words (06 R114-R122, 09 R204, R206, 10 R221, 15 R334): shapes, streams, commands,
results, cancels, TRAPV, bridges, nests and gangs. -/

namespace Sys2Proof.Machine

/-! ## Shapes and streams -/

/-- The request that SETSHAPE carries (06 R114). -/
def requestOf (s : State) (p : PWord) : Word :=
  let i := p.imm18.toNat
  let low := i % 65536 * 32768 + p.vs3.toNat * 1024 + p.vs2.toNat * 32 + p.vs1.toNat
  match i / 65536 with
  | 0 => asRequest (s.x p.vs1)
  | 2 => packShape 2 p.ty.toNat (low % 512) (low / 2 ^ 9 % 64 + low / 2 ^ 28 % 8 * 64) (low / 2 ^ 15 % 8192) false false
  | c => packShape c p.ty.toNat (i % 65536) 0 0 false false

/-- SETSHAPE (06 R114): the request and its grant, in one step; the unit's stream takes a grant record (22 R437). A
literal word that is a launch-time request as well executes where it stands (DEDUCED, log entry 120). -/
def execSetshape (p : PWord) (s : State) : Out :=
  withPort (.setshape p) s fun p =>
    let n := p.vd.toNat % 8
    let q := requestOf s p
    let g := grantOf (sideOf s.me.gang) q
    ((s.updMe (fun c => { c with shq := SMap.put c.shq n q, shp := SMap.put c.shp n g })).absorb (grantRecord n g)).retireP 0 0

/-- GETSHAPE (06 R115). -/
def execGetshape (p : PWord) (s : State) : Out :=
  withPort (.getshape p) s fun p =>
    let n := p.vs1.toNat % 8
    let g := SMap.get s.me.shp n 0
    let q := SMap.get s.me.shq n 0
    s.retireP p.vd (match p.imm18.toNat with
      | 0 => g
      | 1 => q
      | _ => if shortGrant q g then 1 else 0)

/-- SETSTREAM (06 R116): it waits until every CODE command pushed before it has retired. -/
def execSetstream (p : PWord) (s : State) : Out :=
  withPort (.setstream p) s fun p =>
    if s.me.cmds.any (fun m => m.frame.kind = 1) then s.waits
    else (s.updMe (fun c => { c with st := SMap.put c.st (p.vd.toNat % 16) (streamOf (s.x p.vs1) (s.x p.vs2)) })).retireP 0 0

/-! ## Commands -/

/-- CMDPUSH of the frame at an address: its reads, checks and enqueue (06 R117). `form` is what a bridge fills in. -/
def pushAt (s : State) (a : Word) (group : Option Nat) (form : Frame → Frame := id) : Except Out (State × BitVec 32) :=
  if a.toNat % 128 ≠ 0 then .error (s.trap 4 a)
  else match ctlReadDws s s.cur.lcore a.toNat 16 with
    | .ok s1 bs =>
      match enqueue s1 (form (Frame.ofList (wordsOf 16 bs))) none group with
      | .ok s2 q => .ok (s2, q)
      | .bad r => .error (s.trap 25 (a ||| BitVec.ofNat 64 r))
      | .full => .error s.waits
      | .fault o => .error o
    | x => .error (s.ctlStop a x)

/-- CMDPUSH (06 R117). -/
def execCmdpush (p : PWord) (s : State) : Out :=
  withPort (.cmdpush p) s fun p =>
    match pushAt s (s.x p.vs1) none with
    | .error o => o
    | .ok (s1, q) => s1.retireP p.vd (q.setWidth 64)

/-- RESPOP (06 R118): the oldest element of an engine's FIFO. -/
def execRespop (p : PWord) (s : State) : Out :=
  withPort (.respop p) s fun p =>
    let e := engOf p.imm18.toNat
    match s.me.fifo e with
    | [] => s.waits
    | x :: t => (s.updMe (fun c => c.setFifo e t)).retireP p.vd x

/-- How a sequence number stands (06 R119): not issued, pending, discarded, or retired. -/
inductive SeqSt where
  | notIssued | pending | discarded | retired
deriving DecidableEq, Repr

def Core.seqSt (c : Core) (q : BitVec 32) : SeqSt :=
  if 2 ^ 31 ≤ (c.seqno - 1 - q).toNat then .notIssued
  else if c.cmds.any (fun m => m.seq = q) then .pending
  else if c.gone.contains q then .discarded
  else .retired

/-- The end of WAITSEQ, and of MNWAIT for a nest. -/
def waitEnd (s : State) (p : PWord) : Out :=
  match s.me.seqSt ((s.x p.vs1).setWidth 32) with
  | .notIssued => s.retireP p.vd 2
  | .pending => s.waits
  | .discarded => s.retireP p.vd 1
  | .retired => s.retireP p.vd 0

/-- WAITSEQ (06 R119). -/
def execWaitseq (p : PWord) (s : State) : Out := withPort (.waitseq p) s (waitEnd s)

/-- MNWAIT on the control core (09 R206). -/
def execMnwaitControl (p : PWord) (s : State) : Out :=
  withPort (.mnwaitControl p) s fun p =>
    let q := (s.x p.vs1).setWidth 32
    if s.me.seqSt q ≠ .notIssued && !s.me.nests.contains q then s.retireP p.vd 3 else waitEnd s p

/-! ## Cancels (02 R30, 06 R120, 18 R375) -/

/-- The most recent launch of a job, or of the module, with an id; a refused launch is no instance of it. -/
def findLaunch (s : State) (job : Option Nat) (lid : BitVec 32) : Option (Nat × Launch) :=
  (s.hub.launches.filter (fun l => l.2.lid = lid && l.2.status < 16 && (job.all (fun j => l.2.job = j)))).getLast?

/-- The open instance of a graph or stage number, or an ended one. -/
def findInst (s : State) (job : Option Nat) (stage : Bool) (num : Nat) : Option (Nat × Inst) :=
  let l := s.hub.insts.filter (fun i => i.2.isStage = stage && i.2.num = num && (job.all (fun j => i.2.job = j)))
  match l.find? (fun i => i.2.isOpen) with
  | some i => some i
  | none => l.getLast?

/-- What a cancel names: the status it reports, and the request where it is accepted (06 R120). -/
def resolveCancel (s : State) (job : Option Nat) (issuer : Option Nat) (level : Level) (sel : Word) : Nat × CancelReq :=
  let none' : Nat × CancelReq := (2, { level := level, n := 0, idx := 0 })
  let req (st n idx : Nat) : Nat × CancelReq := (st, { level := level, n := n, idx := idx })
  match level with
  | .unit =>
    match findLaunch s job (sel.extractLsb' 32 32) with
    | none => none'
    | some (n, l) =>
      let u := fld sel 0 11
      if l.nunit ≤ u then none'
      else match SMap.get l.units u .complete with
        | .complete => req 1 n u
        | .cancelled => req 1 n u
        | _ => req (if l.live then 0 else 1) n u
  | .launch =>
    match findLaunch s job (sel.setWidth 32) with
    | none => none'
    | some (n, l) => req (if l.live then 0 else 1) n 0
  | .job =>
    match issuer with
    | none => none'
    | some j =>
      match s.jobAt j with
      | none => none'
      | some b => req (if b.status < 2 then 0 else 1) j 0
  | lv =>
    match findInst s job (lv = .stage) (fld sel 0 12) with
    | none => none'
    | some (n, i) => req (if i.isOpen then 0 else 1) n 0

/-- The launches that an instance holds. -/
def launchesOf (s : State) (r : CancelReq) : List Nat :=
  let stageOf (l : Launch) : Nat := ((s.instAt l.graphI).map (·.parent)).getD 0
  (s.hub.launches.filter (fun l => match r.level with
    | .unit => l.1 = r.n
    | .launch => l.1 = r.n
    | .graph => l.2.graphI = r.n
    | .stage => stageOf l.2 = r.n
    | .job => l.2.job = r.n)).map (·.1)

/-- An accepted cancel takes its place in the scheduler's order: from here the instance ends CANCELLED (18 R375). -/
def acceptCancel (s : State) (r : CancelReq) : State :=
  let s1 := (launchesOf s r).foldl (fun t n => match t.launchAt n with
    | some l => if l.live then t.setLaunch n { l with cancelled := true } else t
    | none => t) s
  let s2 := match r.level, s1.instAt r.n, s1.jobAt r.n with
    | .graph, some i, _ => s1.setInst r.n { i with anyCancelled := true }
    | .stage, some i, _ => s1.setInst r.n { i with anyCancelled := true }
    | .job, _, some j => s1.setJob r.n { j with anyCancelled := true }
    | _, _, _ => s1
  { s2 with hub := { s2.hub with cancels := s2.hub.cancels ++ [r] } }

/-- Acts on every unit inside the instance of a cancel (02 R30). -/
def applyCancel (s : State) (r : CancelReq) : State :=
  match r.level with
  | .unit => cancelUnit s r.n r.idx
  | _ => (launchesOf s r).foldl cancelLaunch s

/-- Applies every cancel accepted so far, in order. -/
def applyCancels (s : State) : State :=
  s.hub.cancels.foldl applyCancel { s with hub := { s.hub with cancels := [] } }

/-- Whether an instance holds the unit on the core at work. -/
def holdsMe (s : State) (r : CancelReq) : Bool :=
  match s.me.unit with
  | none => false
  | some u => (launchesOf s r).contains u.launch && (r.level ≠ .unit || r.idx = u.idx)

def levelOf : Nat → Level
  | 0 => .unit | 1 => .launch | 2 => .graph | 3 => .stage | _ => .job

/-- CANCEL (06 R120): from user mode within the issuer's job, from machine mode in the module, the issuer's job first. A
cancel of the issuing unit does not return: the core is left to the resident runtime (log entry 8). -/
def execCancel (p : PWord) (s : State) : Out :=
  withPort (.cancel p) s fun p =>
    let issuer := s.me.unit.map (·.job)
    let level := levelOf p.imm18.toNat
    let sel := s.x p.vs1
    let here := resolveCancel s issuer issuer level sel
    let (st, r) := if s.me.mode = .M && here.1 = 2 then resolveCancel s none issuer level sel
      else if s.me.mode = .U && issuer.isNone then (2, here.2) else here
    if st ≠ 0 then s.retireP p.vd (BitVec.ofNat 64 st)
    else if holdsMe s r then
      let s1 := applyCancels (acceptCancel s r)
      if s1.me.unit.isSome then s1.waits
      else (s1.updMe (fun c => { c with mode := .M, pc := BitVec.ofNat 64 Config.runtimeTrap, orphan := false })).done
    else (acceptCancel s r).retireP p.vd 0

/-- CANCEL_APPLY (02 R30): the scheduler applies the oldest cancel that it has accepted. -/
def execCancelApply (s : State) : Out :=
  match s.hub.cancels with
  | [] => s.waits
  | r :: t => (applyCancel { s with hub := { s.hub with cancels := t } } r).done

/-- TRAPV (06 R122), portable. -/
def execTrapv (p : PWord) (s : State) : Out :=
  withPort (.trapv p) s fun p => s.trap 24 (p.imm18.setWidth 64)

/-! ## Bridges (15 R334) -/

/-- The kernel of the unit on the core at work. -/
def State.kernel (s : State) : Option Kernel :=
  s.launch.bind (fun l =>
    (s.jobAt l.job).bind (fun j =>
      let n := l.handle.toNat / 65536
      if n = 0 then none else (j.loads[n - 1]?).bind (fun d => d.kernels[l.handle.toNat % 65536]?)))

/-- The valid bytes of QIN, in order: queue and x register. -/
def qinOf (w : Word) : List (Nat × Reg) :=
  (List.range 4).filterMap (fun k =>
    let b := fld w (8 * k) 8
    if 128 ≤ b then some (b / 32 % 4, BitVec.ofNat 5 b) else none)

/-- The portable word of a region of the unit's job, where wkld cut it from TEXT. -/
def State.portAt (s : State) (r : Nat) : Option Instr :=
  s.launch.bind (fun l => (s.jobAt l.job).bind (fun j => SMap.find j.ports r))

/-- The phase of the kernel in which a command runs that is pushed now. -/
def Core.phaseNow (c : Core) : Nat := c.ph.num + (c.ph.cmds.filter (·.pend)).length

/-- The extents of a kernel's phase as a doubleword of a frame. -/
abbrev Extents := (Nat × Nat) × (Nat × Nat)
def extWord (x : Nat × Nat) : Word := if x.2 ≤ x.1 then 0 else BitVec.ofNat 64 (x.1 + (x.2 - x.1) * 2 ^ 32)

/-- The smallest extent that holds some extents. -/
def coverAll (l : List (Nat × Nat)) : Nat × Nat :=
  match l.filter (fun x => x.1 < x.2) with
  | [] => (0, 0)
  | x :: t => (t.foldl (fun m y => min m y.1) x.1, t.foldl (fun m y => max m y.2) x.2)

/-- The extents that the launch evaluated for the phase at work (01 R21, R22): for a word of portable code those of the phase in
whose text its kernel's control part is. Where the load's supply did not say where the phases lie, a word of a kernel of several
takes the cover of them all (DESIGN CHOICE, log entry 12). -/
def State.extentsNow (s : State) (port : Bool) : Extents :=
  let xs := (s.launch.map (·.extents)).getD []
  let none' : Extents := ((0, 0), (0, 0))
  if !port then xs.getD (min s.me.phaseNow (xs.length - 1)) none'
  else match s.me.unit with
    | some u => if u.ends.isEmpty then (coverAll (xs.map (·.1)), coverAll (xs.map (·.2))) else xs.getD u.portPhase none'
    | none => none'

/-- A frame of wkld as a bridge pushes it: a CODE frame carries the extents of the kernel's phase (01 R21, R22, 17 R444), and
one of a portable word names the latest such command of the phase as its predecessor (15 R334; log entry 12). -/
def State.bridgeFrame (s : State) (port : Bool) (f : Frame) : Frame :=
  let x := s.extentsNow port
  let f1 := if f.kind = 1 then { f with dw13 := extWord x.1, dw14 := extWord x.2 } else f
  match (lastPhase s.me.ph.cmds).reverse.find? (fun k => port && k.part) with
  | some k => { f1 with dw0 := f1.dw0 ||| ones 28 1, dw1 := k.seq.setWidth 64 }
  | none => f1

/-- The command pushed last is one of a region of portable code. -/
def Core.pushedPart (c : Core) (p : PCmd) : Core :=
  let q := c.seqno - 1
  { c with cmds := c.cmds.map (fun m => if m.seq = q then m.asPart p else m)
           ph := { c.ph with cmds := c.ph.cmds.map (fun k => if k.seq = q && k.entry = 0 then { k with part := true } else k) } }

/-- What the bridge at the pc has done so far: nothing, or its registers handed over and so many queue entries and frames
pushed since. It is kept with the pc, for a word that waits and is executed again. -/
def Core.bridgeAt (c : Core) : Nat := if c.brstep / 64 = c.pc.toNat then c.brstep % 64 else 0
def Core.bridged (c : Core) (n : Nat) : Core := { c with brstep := 64 * c.pc.toNat + n }

/-- A trap that one of a bridge's pushes raises: BRSEQ.V stays clear, and the resident runtime cancels the launch. -/
def bridgeTrap (t : State) : State :=
  let t1 := t.updMe (fun c => { c with brstep := 0 })
  match t.me.unit with
  | some u => if t.me.resident then { cancelLaunch t1 u.launch with note := t.note } else t1
  | none => t1

/-- The next thing that a bridge hands over or pushes; none once all of it is done. A push that waits leaves what went before it
done, so that the word goes on from there. -/
def bridgeNext (s : State) (r : Nat) (d : List Word) : Option (Except Out State) :=
  let gin := fld (d.getD 1 0) 0 32
  let ins := qinOf (d.getD 2 0)
  let k := s.me.bridgeAt - 1
  let f := k - ins.length
  if s.me.bridgeAt = 0 then
    if s.me.cmds.any (fun m => engOf m.frame.engCode = .A) then some (.error s.waits)
    else some (.ok (s.updMe (fun c => Core.bridged ((List.range 32).foldl (fun c k =>
      if gin / 2 ^ k % 2 = 1 then c.gput k (c.xr (BitVec.ofNat 5 k)) else c) c) 1)))
  else match ins[k]? with
    | some q =>
      let code := 0x300 + q.1
      if !s.me.room code then some (.error s.waits)
      else some (.ok (s.updMe (fun c => (c.push code
        { data := Sys2Proof.Machine.replicate 64 (c.xr q.2).toNat, mask := fullMask, eng := .A, seq := c.seqno - 1 }).bridged (k + 2))))
    | none =>
      if fld (d.getD 0 0) 58 5 ≤ f then none
      else
        let port := s.portAt r
        let isNative := (s.kernel.map (fun k => k.native && k.entry = s.me.pc)).getD false
        let s1 := if f = 0 then s.updMe (fun c => { c with brseq := BitVec.ofNat 64 (c.pc.toNat % 65536 * 2 ^ 32 + c.seqno.toNat) }) else s
        match pushAt s1 (BitVec.ofNat 64 (fld (d.getD 0 0) 0 55 + 128 * f)) (if isNative then some s1.me.phaseNow else none)
            (s1.bridgeFrame port.isSome) with
        | .ok (s2, _) =>
          let part := port.bind (fun i => (portCmds s.x i)[f]?)
          some (.ok (s2.updMe (fun c => ((part.map c.pushedPart).getD c).bridged (k + 2))))
        | .error (.next t) => some (.error (match t.note with
          | .trap _ _ => .next (bridgeTrap t)
          | _ => .next t))
        | .error o => some (.error o)

/-- The start of a bridge, as far as it comes: registers and queue entries handed over, and the frames pushed. -/
def bridgeStart (r : Nat) (d : List Word) : Nat → State → Except Out State
  | 0, s => .error s.waits
  | fuel + 1, s =>
    match bridgeNext s r d with
    | none => .ok (s.updMe (fun c => { c with brseq := c.brseq ||| ones 63 1, brstep := 0 }))
    | some (.ok s1) => bridgeStart r d fuel s1
    | some (.error o) => .error o

/-- Things that a bridge hands over or pushes, at most: its registers, four queue entries and 31 frames. -/
def bridgeFuel : Nat := 37

/-- Whether a bridge's pushes are made and its wait is pending at the pc. -/
def Core.bridging (c : Core) : Bool := c.brseq.getLsbD 63 && fld c.brseq 32 16 = c.pc.toNat

/-- The end of a bridge: registers handed back, and the exit that g31 names. -/
def bridgeEnd (s : State) (d : List Word) : Out :=
  let gout := fld (d.getD 1 0) 32 32
  let n := fld (s.me.gget 31) 0 3
  let exit := fld (d.getD (3 + n / 4) 0) (16 * (n % 4)) 16
  (s.updMe (fun c =>
    let c1 := (List.range 32).foldl (fun c k => if gout / 2 ^ k % 2 = 1 then c.wx (BitVec.ofNat 5 k) (c.gget k) else c) c
    Core.counted { c1 with brseq := c1.brseq &&& ~~~(ones 63 1), pc := BitVec.ofNat 64 exit })).done

/-- BRIDGE (15 R334). -/
def execBridge (p : PWord) (s : State) : Out :=
  withPort (.bridge p) s fun p =>
    let a := s.me.brtab + BitVec.ofNat 64 (64 * p.imm18.toNat)
    match ctlReadDws s s.cur.lcore a.toNat 8 with
    | .ok s1 bs =>
      let d := wordsOf 8 bs
      let go (t : State) : Out :=
        let q0 : BitVec 32 := t.me.brseq.setWidth 32
        if t.me.cmds.any (fun m => !seqLt m.seq q0) then State.waits t else bridgeEnd t d
      if s1.me.bridging then go s1
      else match bridgeStart p.imm18.toNat d bridgeFuel s1 with
        | .error o => o
        | .ok s2 => go s2
    | x => s.ctlStop a x

/-! ## Nests (09 R204) -/

/-- Scratchpad bytes that a descriptor operand of a nest reads: from its least base, over its rows. -/
def nestSpan (tab : Nat → Word) (desc first rows bytes : Nat) : Int × Int :=
  let d0 := tab desc
  let d1 := tab (desc + 1)
  let off (pick : Int → Int) : Int := (List.range 6).foldl (fun a l =>
    a + pick (((fld (tab (1 + l)) 0 16 : Int) - 1) * sgn32 (tab (first + l)))) (fld d0 0 32 : Int)
  let row (r : Nat) : Nat := r % 64 * fld d0 32 16 + r / 64 * fld d1 0 32
  (off (min 0), off (max 0) + ((List.range rows).foldl (fun m r => max m (row r)) 0 + bytes : Nat))

/-- Scratchpad bytes of a stream's scales over tile rows of K elements. -/
def scaleSpan (st : Word × Word) (rows K : Nat) : Option (Int × Int) :=
  if stKind st = 0 ∨ stLoc st ≠ 0 ∨ rows = 0 ∨ K = 0 then none
  else
    let j := (K - 1) / 2 ^ stBlk st
    let last := if stKind st = 1 then j else 260 * (j / 256) + 4 + j % 256
    some ((stBase st : Int), (stBase st + (rows - 1) * stStride st + last + 1 : Nat))

/-- The smallest extent that covers every scratchpad byte the nest reads (09 R204); one with no index point reads none. -/
def nestExtent (c : Core) : Int × Int :=
  let tab (k : Nat) : Word := SMap.get c.nest k 0
  let q := SMap.get c.shq 1 0
  let g := SMap.get c.shp 1 0
  let ma := min 64 (min (shpD q 0) (shpD g 0))
  let na := min 64 (min (shpD q 1) (shpD g 1))
  let K := shpD g 2
  let w := tab 0
  let fmt (left : Bool) : Nat × Option (Word × Word) :=
    if w.getLsbD (if left then 26 else 31) then
      let st := c.stream (fld w (if left then 22 else 27) 4)
      (stFmt st, some st)
    else (fld w (if left then 14 else 18) 4, none)
  let bytes (f n : Nat) : Nat := (n * width f + 7) / 8
  let spans : List (Int × Int) :=
    [nestSpan tab 7 12 ma (bytes (fmt true).1 K)] ++
    (if fld w 6 2 = 0 then [nestSpan tab 9 18 K (bytes (fmt false).1 na)] else []) ++
    ((fmt true).2.bind (fun st => scaleSpan st ma K)).toList ++ ((fmt false).2.bind (fun st => scaleSpan st na K)).toList
  if (List.range 6).any (fun l => fld (tab (1 + l)) 0 16 = 0) then (0, 0)
  else (spans.foldl (fun m x => min m x.1) (spans.headD (0, 0)).1, spans.foldl (fun m x => max m x.2) 0)

/-- The refusals of R204's own list, reason 64. -/
def nestBad (c : Core) : Bool :=
  let tab (k : Nat) : Word := SMap.get c.nest k 0
  let w := tab 0
  let side (left : Bool) : Option Nat :=
    if w.getLsbD (if left then 26 else 31) then
      let st := c.stream (fld w (if left then 22 else 27) 4)
      if !streamOk (stFmt st) (stKind st) (stBlk st) (fld st.1 16 8) then none else some (stFmt st)
    else
      let t := fld w (if left then 14 else 18) 4
      if [0, 1, 2, 3, 4, 10, 12].contains t then some t else none
  (List.range 6).any (fun l => fld (tab (1 + l)) 0 16 = 0) || fld w 6 2 = 3 || fld (tab 11) 0 18 % 256 ≠ 0 ||
  (List.range 6).any (fun l => fld (tab (24 + l)) 0 32 % 256 ≠ 0) ||
  (match side true, side false with
   | some a, some b => !pairOk a b
   | _, _ => true)

/-- MNGO (09 R204): a nest command on engine M. Its frame is that of a CODE command (DESIGN CHOICE, log entry 34). -/
def execMngo (p : PWord) (s : State) : Out :=
  withPort (.mngo p) s fun p =>
    let (lo, hi) := nestExtent s.me
    let wide := lo < 0 || (Config.spadBytes : Int) < hi
    let ext : Word := BitVec.ofNat 64 (lo.toNat + (hi - lo).toNat * 2 ^ 32)
    let f : Frame := { dw0 := 0x101, dw3 := s.x p.vs1, dw4 := s.x p.vs2, dw13 := if wide then 0 else ext }
    if wide then s.trap 25 5
    else match enqueueReason s f false false with
      | some r => s.trap 25 (BitVec.ofNat 64 r)
      | none =>
        if nestBad s.me then s.trap 25 64
        else match enqueue s f (some s.me.nest) none with
          | .ok s1 q => s1.retireP p.vd (q.setWidth 64)
          | .bad r => s.trap 25 (BitVec.ofNat 64 r)
          | .full => s.waits
          | .fault o => o

/-! ## Gangs (10 R221) -/

/-- Binds a core, or releases it, and starts its count of barriers anew. -/
def Core.bind (c : Core) (code : BitVec 2) (st : BitVec 2) : Core :=
  let c := { c with gangask := none, gangans := some st }
  if st = 0 then { c with gang := code, gangord := 0, ph := { c.ph with gang0 := 0 } } else c

/-- MGANG on the control core (10 R221). The last member to come answers for all. Code 0 names the gang that the core is bound to; on a core
that is not bound it names the core alone, which answers DONE at once: the spec is silent there (DESIGN CHOICE, log entry 59). -/
def execMgangControl (p : PWord) (s : State) : Out :=
  withPort (.mgangControl p) s fun p =>
    match s.me.gangans with
    | some st => (s.updMe (fun c => { c with gangans := none })).retireP p.vd (st.setWidth 64)
    | none =>
      let x := s.x p.vs1
      let code : BitVec 2 := x.setWidth 2
      if 3 ≤ x.toNat then s.retireP p.vd 1
      else if code ≠ 0 && (s.launch.map (·.gang)).getD 0 ≠ code.toNat then s.retireP p.vd 3
      else
        let ms := gangOf (if code = 0 then s.me.gang else code) s.cur.lcore
        let s1 := s.updMe (fun c => { c with gangask := some code })
        if ms.all (fun n => (s1.coreAt n).gangask.isSome) then
          let st : BitVec 2 := if ms.all (fun n => (s1.coreAt n).gangask = some code) then 0 else 2
          let s2 := ms.foldl (fun t n => t.updCore n (fun c => c.bind code st)) s1
          (s2.updMe (fun c => { c with gangans := none })).retireP p.vd (st.setWidth 64)
        else s1.waits

end Sys2Proof.Machine
end

