-- ==== Sys2Proof/Machine/Rings.lean ====
section
/-! DEFINITION. Byte rings (12 R269-R274): claims, publication, filling and freeing, shared by the ring words and by
transfers with ROP, and the ring words of engine A. -/

namespace Sys2Proof.Machine

/-- What a ring operation comes to. -/
inductive RingRes (α : Type) where
  | ok (s : State) (v : α)
  | wait
  /-- skips were freed, and the wait goes on. -/
  | freed (s : State)
  | bad
  /-- the record's header, at an offset, carries an uncorrectable error (20 R416). -/
  | poison (o : Nat)

def State.ring (s : State) (k : Nat) : Ring := SMap.get s.myCluster.ring k {}
def State.setRing (s : State) (k : Nat) (r : Ring) : State :=
  let cl := s.myCluster
  s.setMyCluster { cl with ring := SMap.put cl.ring k r }

/-- A party comes to a ring: EN must be set, a ring with SHARED clear is one unit's, and its counts are kept for a
rollback. -/
def touchRing (s : State) (k : Nat) : Option State :=
  let r := s.ring k
  if !r.en then none
  else if r.shared then some s
  else if ringForeign s k then none
  else
    let s1 := if r.user.isSome then s else s.setRing k { r with user := some s.unitKey }
    if (SMap.find s.me.ph.rings0 k).isSome then some s1
    else some (s1.updMe (fun c => { c with ph := { c.ph with rings0 := SMap.put c.ph.rings0 k r } }))

/-- A publication or a free of a shared ring is an access of R37 (12 R270). -/
def ringEarly (s : State) (k : Nat) : Option State := if (s.ring k).shared then beforeEarly s else some s

/-- Writes a record's header: on a shared ring it is made in place, after the early commit; else in the phase. -/
def putHeader (s : State) (k o : Nat) (w : Word) : State :=
  let bs := leBytes 8 w.toNat
  if (s.ring k).shared then
    let cl := s.myCluster
    s.setMyCluster { cl with spad := cl.spad.writeN o bs, poison := unpoison cl.poison o 8 }
  else s.setMe (backWrite s.me s.myCluster s.tag s.author o bs)

/-- Where the record at a count lies. -/
def Ring.place (r : Ring) (count : BitVec 32) : Nat := r.base.toNat + count.toNat % r.size

/-- The header of the record at a count, as the unit reads it. -/
def headerAt (s : State) (k : Nat) (count : BitVec 32) : Word :=
  BitVec.ofNat 64 (leNat (spadBytes s.me s.myCluster ((s.ring k).place count) 8))

/-- TAIL passes over every leading published claim. -/
def Ring.advance (r : Ring) : List Claim → Ring
  | [] => { r with claims := [] }
  | c :: t => if c.pub then Ring.advance { r with tail := r.tail + BitVec.ofNat 32 c.size } t else { r with claims := c :: t }

/-- Bytes from HEAD to CLM. -/
def Ring.used (r : Ring) : Nat := (r.clm - r.head).toNat

/-- RCLAIM's claim of a record of `len` bytes: its payload's offset, or none where it would cross the wrap point. Claims are
outstanding until TAIL has passed over them (DESIGN CHOICE, log entry 30). -/
def ringClaim (s : State) (k len : Nat) : RingRes (Option Nat) :=
  match touchRing s k with
  | none => .bad
  | some s1 =>
    let r := s1.ring k
    let n := 8 + pad8 len
    if n > r.size then .bad
    else
      let pos := r.clm.toNat % r.size
      if pos + n > r.size then .ok s1 none
      else if r.used + n > r.size ∨ r.claims.length ≥ 8 then .wait
      else
        .ok (s1.setRing k { r with clm := r.clm + BitVec.ofNat 32 n,
                                   claims := r.claims ++ [{ pos := pos, len := len, core := s.cur.lcore, size := n }] })
            (some (r.base.toNat + pos + 8))

/-- RSKIP: the bytes skipped. -/
def ringSkip (s : State) (k : Nat) : RingRes Nat :=
  match touchRing s k with
  | none => .bad
  | some s1 =>
    let r := s1.ring k
    let pos := r.clm.toNat % r.size
    if pos = 0 then .ok s1 0
    else
      let n := r.size - pos
      if r.used + n > r.size then .wait
      else match ringEarly s1 k with
        | none => .wait
        | some s2 =>
          let s3 := putHeader s2 k (r.base.toNat + pos) (BitVec.ofNat 64 (n - 8 + 2 ^ 32))
          let r1 := { r with clm := r.clm + BitVec.ofNat 32 n }
          .ok (s3.setRing k (r1.advance (r.claims ++ [{ pos := pos, len := n - 8, core := s.cur.lcore, size := n, pub := true }]))) n

/-- RPUB of the claim whose payload is at an offset, with a tag. -/
def ringPub (s : State) (k payload : Nat) (tag : Nat) : RingRes Unit :=
  match touchRing s k with
  | none => .bad
  | some s1 =>
    let r := s1.ring k
    match r.claims.find? (fun c => c.core = s.cur.lcore && !c.pub && r.base.toNat + c.pos + 8 = payload) with
    | none => .bad
    | some c =>
      match ringEarly s1 k with
      | none => .wait
      | some s2 =>
        let h : Word := BitVec.ofNat 64 (c.len + (if c.len = 0 then 2 else 0) * 2 ^ 32 + tag % 2 ^ 24 * 2 ^ 40)
        let s3 := putHeader s2 k (r.base.toNat + c.pos) h
        .ok (s3.setRing k (r.advance (r.claims.map (fun x => if x = c then { x with pub := true } else x)))) ()

/-- RWFILL: skips are freed, and the record at HEAD is filled; its payload's offset and its header. -/
def ringFill (k : Nat) : Nat → State → RingRes (Nat × Word)
  | 0, s => .freed s
  | fuel + 1, s =>
    match touchRing s k with
    | none => .bad
    | some s1 =>
      let r := s1.ring k
      if (r.tail - r.head).toNat < 8 || (r.shared && !s1.heardAll) then .wait
      else if readsPoison s1.me s1.myCluster (r.place r.head) 8 then .poison (r.place r.head)
      else
        let h := headerAt s1 k r.head
        if fld h 32 8 = 1 then
          match ringEarly s1 k with
          | none => .wait
          | some s2 =>
            let s3 := s2.setRing k { s2.ring k with head := r.head + BitVec.ofNat 32 (8 + fld h 0 32) }
            match ringFill k fuel s3 with
            | .wait => .freed s3
            | x => x
        else .ok (s1.setRing k { r with filled := some (8 + pad8 (fld h 0 32)) }) (r.place r.head + 8, h)

/-- RCONS: the filled record is freed. -/
def ringCons (s : State) (k : Nat) : RingRes Unit :=
  match touchRing s k with
  | none => .bad
  | some s1 =>
    match (s1.ring k).filled with
    | none => .bad
    | some n =>
      match ringEarly s1 k with
      | none => .wait
      | some s2 =>
        let r := s2.ring k
        .ok (s2.setRing k { r with head := r.head + BitVec.ofNat 32 n, filled := none }) ()

/-- Skips that one RWFILL frees are at most a ring's worth of records. -/
def fillFuel : Nat := 131073

def ringBad (s : State) : Out := s.fault { code := 31 }
/-- The header of a record is read with an uncorrectable error (20 R416). -/
def ringPoison (s : State) (o : Nat) : Out := s.fault { code := 1, sub := 3, addr := BitVec.ofNat 64 o }

/-- A ring word of engine A: refused outside the launch's rings (12 R264), and waiting while its command is tentative
(13 R286). -/
def ringWord (i : Instr) (s : State) (act : Row → NWord → Except Out State) : Out :=
  issueA i s fun r w => allocated i s (firmly s (act r w))

/-- How a ring word ends. -/
def ringEnd {α : Type} (s : State) (k : State → α → State) : RingRes α → Except Out State
  | .ok s1 v => .ok (k s1 v)
  | .wait => .error s.waits
  | .freed s1 => .error s1.waits
  | .bad => .error (ringBad s)
  | .poison o => .error (ringPoison s o)

def ringNo (w : NWord) : Nat := w.c.toNat

/-- RCLAIM (12 R271). -/
def execRclaim (f : Form) (s : State) : Out :=
  ringWord (.rclaim f) s fun r w =>
    ringEnd s (fun t v => t.updMe (fun c => c.gput w.dst.toNat (match v with
      | some a => BitVec.ofNat 64 a
      | none => ~~~0))) (ringClaim s (ringNo w) (s.gOf r w 0).toNat)

/-- RSKIP (12 R271). -/
def execRskip (f : Form) (s : State) : Out :=
  ringWord (.rskip f) s fun _ w =>
    ringEnd s (fun t n => t.updMe (fun c => c.gput w.dst.toNat (BitVec.ofNat 64 n))) (ringSkip s (ringNo w))

/-- RPUB (12 R271): it waits for engine A's earlier stores. -/
def execRpub (f : Form) (s : State) : Out :=
  ringWord (.rpub f) s fun r w =>
    if !s.me.astores.isEmpty then .error s.waits
    else ringEnd s (fun t _ => t) (ringPub s (ringNo w) (s.gOf r w 0).toNat (fld (s.gOf r w 1) 0 24))

/-- RWFILL (12 R271). -/
def execRwfill (f : Form) (s : State) : Out :=
  ringWord (.rwfill f) s fun _ w =>
    ringEnd s (fun t v => t.updMe (fun c => (c.gput w.dst.toNat (BitVec.ofNat 64 v.1)).gput (w.dst.toNat + 1) v.2))
      (ringFill (ringNo w) fillFuel s)

/-- RCONS (12 R271): it waits for engine A's earlier accesses. -/
def execRcons (f : Form) (s : State) : Out :=
  ringWord (.rcons f) s fun _ w =>
    if !s.me.astores.isEmpty then .error s.waits
    else ringEnd s (fun t _ => t) (ringCons s (ringNo w))

/-- RWFREE (12 R271): waits for room. -/
def execRwfree (f : Form) (s : State) : Out :=
  ringWord (.rwfree f) s fun r w =>
    match touchRing s (ringNo w) with
    | none => .error (ringBad s)
    | some s1 =>
      let k := s1.ring (ringNo w)
      let n := (s.gOf r w 0).toNat
      if n > k.size then .error (ringBad s)
      else if k.size - k.used ≥ n then .ok s1 else .error s.waits

end Sys2Proof.Machine
end

