-- ==== Sys2Proof/Machine/Commands.lean ====
section
/-! DEFINITION. Commands from their start to their retirement (02 R40, R42, 12 R250-R263, R272, 13 R282, R284, R288),
and the commit of a phase (02 R34, 12 R253). -/

namespace Sys2Proof.Machine

/-! ## The command or chain entry at work -/

def State.updEnt (s : State) (g : ChainEnt → ChainEnt) : State :=
  s.updCmd (fun m => { m with chain := m.chain.map (fun h => { h with cur := h.cur.map g }) })
/-- The entry of the chain at work. -/
def State.ent (s : State) : Option ChainEnt := s.cmd.bind (fun m => m.chain.bind (·.cur))

/-- How far the command or entry at work has come; none where there is none. -/
def State.itemSt (s : State) : Option CmdSt := if s.cur.entry then s.ent.map (·.st) else s.cmd.map (·.st)
def State.itemRows (s : State) : Nat := if s.cur.entry then (s.ent.map (·.rows)).getD 0 else (s.cmd.map (·.rows)).getD 0
def State.itemRop (s : State) : Option RopRec := if s.cur.entry then s.ent.bind (·.rop) else s.cmd.bind (·.rop)
def State.setItemSt (s : State) (x : CmdSt) : State :=
  if s.cur.entry then s.updEnt (fun e => { e with st := x }) else s.updCmd (fun m => { m with st := x })
def State.setRows (s : State) (n : Nat) : State :=
  if s.cur.entry then s.updEnt (fun e => { e with rows := n }) else s.updCmd (fun m => { m with rows := n })
def State.setRop (s : State) (r : Option RopRec) : State :=
  if s.cur.entry then s.updEnt (fun e => { e with rop := r }) else s.updCmd (fun m => { m with rop := r })

/-- A unit's engine has retired a command or completed a transfer: the watchdog starts anew (02 R50). -/
def State.progressed (s : State) : State :=
  s.updMe (fun c => { c with unit := c.unit.map (fun u => { u with progress := s.now }) })

/-! ## Start conditions (12 R255, R256, R259) -/

def Cmd.eng (m : Cmd) : Eng := engOf m.frame.engCode

/-- The unit's commands before one. -/
def Core.earlier (c : Core) (m : Cmd) : List Cmd := c.cmds.takeWhile (fun k => k.seq ≠ m.seq)

/-- Whether a command has reached the head of its engine's queue: on a line engine every earlier command of the engine
has retired or completed tentatively (02 R42, 13 R284); on engine X every earlier one has started, no PSWAP stands
before it, and fewer than four run (R253, R259). -/
def Core.atHead (c : Core) (m : Cmd) : Bool :=
  let es := (c.earlier m).filter (fun k => k.eng = m.eng)
  if m.eng = .X then
    es.all (fun k => k.st ≠ .queued && k.frame.kind ≠ 12) && (es.filter (fun k => !k.tentDone)).length < 4
  else es.all (·.tentDone)

/-- The dependence counter as the unit sees it (12 R257). -/
def dcView (c : Core) (cl : Cluster) (n : Nat) : Nat := (SMap.get cl.dc n 0).toNat - SMap.get c.ph.dec n 0

/-- Conditions of R256 that a frame alone sets: its wait events, and for a WAITCOUNT its counter. -/
def frameReady (s : State) (f : Frame) : Bool :=
  (f.dw3 &&& ~~~(evView s.me s.myCluster) = 0) && (f.kind ≠ 8 || dcView s.me s.myCluster f.dcn = 0) &&
  ((f.dw3 = 0 && f.kind ≠ 8) || s.heardAll)

/-- Conditions that do not concern predecessors. -/
def placeReady (s : State) (m : Cmd) : Bool :=
  s.me.ph.stage = .run && s.me.atHead m && (s.me.earlier m).all (fun k => !k.frame.phaseEnd) && frameReady s m.frame &&
  (m.frame.kind ≠ 12 || (s.me.earlier m).isEmpty)

/-! ## Speculation of a command (13 R281-R288) -/

/-- The speculation that a command's frame names. -/
def Cmd.specId (m : Cmd) : SpecId := (m.frame.tile, m.frame.predNo m.frame.pslot)
def Core.spec (c : Core) (i : SpecId) : Option Spec := c.unit.bind (fun u => u.specs.find? (fun q => q.id = i))

/-- What a speculative command does about its producer. -/
inductive SpecWay where
  /-- behind the producer, as an ordinary command. -/
  | plain
  /-- on the prediction of a started speculation. -/
  | join
  /-- no decision has been made. -/
  | undecided
deriving DecidableEq, Repr

def specWay (c : Core) (m : Cmd) : SpecWay :=
  if !m.frame.spec then .plain
  else match c.spec m.specId with
    | none => .undecided
    | some q => if q.resolved || q.ran = some false then .plain else if q.ran = some true then .join else .undecided

/-- Predecessors that must be satisfied: all, or all but the producer. -/
def predsOf (m : Cmd) (all : Bool) : List (BitVec 32) :=
  ((List.range 4).filter (fun k => m.frame.pvalid k && (all || k ≠ m.frame.pslot))).map m.frame.predNo

def union (a b : List SpecId) : List SpecId := a ++ b.filter (fun x => !a.contains x)

/-- The tentative commands that one starts after: named predecessors that completed tentatively, and for CODE the
earlier commands of its line engine (13 R284). -/
def tentBefore (c : Core) (m : Cmd) : List Cmd :=
  c.cmds.filter (fun k => k.tentDone && m.frame.preds.contains k.seq) ++
  (if m.frame.kind = 1 && m.eng ≠ .X then (c.earlier m).filter (fun k => k.eng = m.eng && k.tentDone) else [])

/-- What the producer of a command's speculation is tentative on. A member that runs on the prediction is tentative on
those as well, whether or not the producer has completed (13 R288; DEDUCED, log entry 37). -/
def producerTent (c : Core) (m : Cmd) : List SpecId :=
  ((c.cmds.find? (fun k => k.seq = m.specId.2)).map (·.tent)).getD []

/-- The speculations that a command is tentative on if it starts now. -/
def tentAtStart (c : Core) (m : Cmd) (joins : Bool) : List SpecId :=
  (tentBefore c m).foldl (fun l k => union l k.tent) (if joins then union [m.specId] (producerTent c m) else [])

/-- What never starts tentative (13 R284). -/
def neverTent (f : Frame) : Bool := [4, 6, 8, 9, 10, 12].contains f.kind || f.phaseEnd || f.nonreplay || f.rop ≠ 0

/-- Whether a command that may not start tentative must wait for an earlier command of its line engine. -/
def behindTent (c : Core) (m : Cmd) : Bool := m.eng ≠ .X && (c.earlier m).any (fun k => k.eng = m.eng)

/-- The speculations on which a command may start tentative now, or none while it may not start (12 R256, 13 R282,
R284, R288). -/
def startTent (s : State) (m : Cmd) : Option (List SpecId) :=
  let c := s.me
  let way := specWay c m
  if !placeReady s m || way = .undecided || !(predsOf m (way ≠ .join)).all c.satisfied then none
  else
    let t := tentAtStart c m (way = .join)
    if neverTent m.frame && (!t.isEmpty || behindTent c m) then none
    else if 2 < t.length then none
    else some t

/-! ## Rings of transfers (12 R272) -/

/-- Bytes of a transfer's rows together. -/
def rowBytes (f : Frame) : Nat := f.dim 0 * f.dim 1 * f.dim 2 * f.dim 3

/-- What the ring wait of a start comes to. -/
inductive RopStart where
  | ok (s : State) (r : Option RopRec)
  | stop (o : Out)

/-- PRODUCE's claim; a record that would cross the wrap point is preceded by a skip. -/
def produceClaim (s : State) (k n : Nat) : RopStart :=
  match ringClaim s k n with
  | .ok s1 (some a) => .ok s1 (some { ring := k, count := (s.ring k).clm, addr := a, len := n })
  | .ok s1 none =>
    match ringSkip s1 k with
    | .ok s2 _ =>
      match ringClaim s2 k n with
      | .ok s3 (some a) => .ok s3 (some { ring := k, count := (s2.ring k).clm, addr := a, len := n })
      | .bad => .stop (ringBad s)
      | _ => .stop s2.waits
    | .bad => .stop (ringBad s)
    | _ => .stop s.waits
  | .bad => .stop (ringBad s)
  | _ => .stop s.waits

/-- CONSUME's filling: the record's length is the transfer's total. -/
def consumeFill (s : State) (k n : Nat) : RopStart :=
  match ringFill k fillFuel s with
  | .ok s1 (a, h) =>
    if fld h 0 32 ≠ n then .stop (ringBad s) else .ok s1 (some { ring := k, count := (s1.ring k).head, addr := a, len := n })
  | .freed s1 => .stop s1.waits
  | .wait => .stop s.waits
  | .bad => .stop (ringBad s)
  | .poison o => .stop (ringPoison s o)

def ropStart (s : State) (f : Frame) : RopStart :=
  match f.rop with
  | 1 => produceClaim s f.ringNo (rowBytes f)
  | 2 => consumeFill s f.ringNo (rowBytes f)
  | _ => .ok s none

/-- At retirement a PRODUCE's record is published and a CONSUME's freed. -/
def ropEnd (s : State) (f : Frame) : RingRes Unit :=
  match f.rop, s.itemRop with
  | 1, some r => ringPub s r.ring r.addr f.ptag
  | 2, some r => ringCons s r.ring
  | _, _ => .ok s ()

/-! ## Start -/

/-- Commits of units whose signals a command starts after (14 R319). -/
def heardOf (cl : Cluster) (seq : BitVec 32) (wait : Word) : List (BitVec 32 × Nat × Nat × Nat) :=
  (bitsOf wait).flatMap (fun n => (SMap.get cl.evBy n []).map (fun x => (seq, x.1, x.2.1, x.2.2)))

def State.hear (s : State) (f : Frame) : State :=
  let h := heardOf s.myCluster s.cur.seq f.dw3
  if h.isEmpty then s else s.updMe (fun c => { c with unit := c.unit.map (fun u => { u with heard := u.heard ++ h }) })

/-- Whether the queued command or entry at work is eligible (12 R256). -/
def eligibleItem (s : State) : Bool :=
  let ring : Bool := match ropStart s s.frame with
    | .ok _ _ => true
    | .stop _ => false
  ring && (if s.cur.entry then s.me.ph.stage = .run && frameReady s s.frame
    else (s.cmd.map (fun m => (startTent s m).isSome)).getD false)

/-- The queued commands and chain entries of engine X: priority, sequence number, and whether it is an entry. -/
def Core.itemsX (c : Core) : List (Nat × BitVec 32 × Bool) :=
  c.cmds.flatMap (fun m => if m.eng ≠ .X then [] else
    (if m.st = .queued then [(m.frame.pri, m.seq, false)] else []) ++
    (match m.chain.bind (·.cur) with
     | some e => if e.st = .queued then [(e.frame.pri, m.seq, true)] else []
     | none => []))

/-- Whether another eligible command or chain entry of the core goes before the one at work on engine X: PRI orders them, and
the older goes first among equals (12 R247). -/
def outranked (s : State) : Bool :=
  s.cur.eng = .X && s.me.itemsX.any (fun x =>
    (x.1 < s.frame.pri || (x.1 = s.frame.pri && seqLt x.2.1 s.cur.seq)) &&
    eligibleItem { s with cur := { s.cur with seq := x.2.1, entry := x.2.2 } })

/-- The command or entry at work starts if it may (12 R256, R262). -/
def start (s : State) : Except Out State :=
  match s.itemSt with
  | some .queued =>
    if outranked s then .error s.waits else
    let go (f : Frame) (t : State) : Except Out State :=
      match ropStart t f with
      | .stop o => .error o
      | .ok t1 r => .ok (((t1.setItemSt .running).setRop r).hear f)
    if s.cur.entry then
      if s.me.ph.stage = .run && frameReady s s.frame then go s.frame s else .error s.waits
    else match s.cmd with
      | none => .error s.waits
      | some m =>
        match startTent s m with
        | none => .error s.waits
        | some t =>
          match go m.frame s with
          | .error o => .error o
          | .ok s1 => .ok (s1.updCmd (fun m => { m with
              tent := t, began := t.map (fun i => (i, (SMap.get s1.myCluster.alm i.1 {}).live)) }))
  | some .running => .ok s
  | _ => .error s.waits

/-- A command whose work is one step: it starts and is done. -/
def atOnce (s : State) : Out :=
  match start s with
  | .error o => o
  | .ok s1 => (noteDues (s1.setItemSt .done)).done

/-- SIGNAL (12 R252). -/
def execSignal (_ : Frame) (s : State) : Out := atOnce s
/-- WAITCOUNT (12 R257). -/
def execWaitcount (_ : Frame) (s : State) : Out := atOnce s
/-- PSWAP (12 R253). -/
def execPswap (_ : Frame) (s : State) : Out := atOnce s

/-- CODE_START (02 R47): the engine's micro-program counter takes the command's first line, and what the last bundle of the
engine's command before it left of a NOPV is still to pass (06 R124). A nest command of engine M starts without a line
(09 R204). An engine that stands at a trap starts nothing before the trap's handler returns (20 R407). -/
def execCodeStart (f : Frame) (s : State) : Out :=
  if s.itemSt ≠ some .queued || s.ln.trap.isSome || s.ln.st = .trapped then s.waits
  else match start s with
    | .error o => o
    | .ok s1 =>
      let next : Line → Line := fun l => { upc := l.upc, seq := s.cur.seq, next := l.next, fence := l.fence }
      if ((s.cmd.bind (·.cap.nest)).isSome) then (s1.updLn next).done
      else (s1.updLn (fun l => { next l with upc := { line := BitVec.ofNat 49 (f.dw10.toNat / 64) }, st := .run })).done

/-- LINK (12 R262): its chain starts at dw10. -/
def execLink (f : Frame) (s : State) : Out :=
  if s.itemSt ≠ some .queued then s.waits
  else match start s with
    | .error o => o
    | .ok s1 => (s1.updCmd (fun m => { m with chain := some { next := some f.dw10 } })).done

/-! ## Chains (12 R262) -/

/-- A chain entry takes its place among the checked commands of the running phase. -/
def insertChecked (k : Checked) : List Checked → List Checked
  | [] => [k]
  | h :: t => if h.pend then k :: h :: t else h :: insertChecked k t

/-- What stops the reading of a chain's frame names a chain entry (19 R393, 20 R412). -/
def State.asEntry (s : State) : State := { s with cur := { s.cur with entry := true } }

/-- CHAIN_FRAME_READ (12 R262): the next frame of the LINK at work is read and checked. -/
def execChainFrameRead (s : State) : Out :=
  match s.cmd.bind (fun m => m.chain.map (fun h => (m, h))) with
  | some (m, { next := some a, cur := none }) =>
    if s.cur.entry || s.me.stopped .X s.cur.seq then s.waits
    else match virtRead s .X a.toNat 128 with
      | .ok s1 bs =>
        let f := tolerate s1 (Frame.ofList (wordsOf 16 bs))
        match enqueueReason s1 f true (f.dw0.getLsbD 14 || Fmode.det s.fmode) with
        | some r => s1.asEntry.fault { code := 29, sub := r, addr := a }
        | none =>
          let n := (s.me.ph.cmds.filter (fun k => k.seq = m.seq)).foldl (fun x k => max x k.entry) 0 + 1
          let k := checkedOf f m.seq n none
          if overlapBad s1.myCluster (firstPhase s1.me.ph.cmds) k then s1.asEntry.fault { code := 18 }
          else
            let s2 := armCount s1 f
            let s3 := if m.seen.contains a then s2 else s2.absorb (cmdRecord f 0)
            let s4 := s3.updMe (fun c => { c with ph := { c.ph with
              cmds := insertChecked k c.ph.cmds, nonrepl := c.ph.nonrepl || f.nonreplay } })
            (s4.updCmd (fun m => { m with
              seen := if m.seen.contains a then m.seen else m.seen ++ [a],
              chain := some { next := if f.next = 0 then none else some (BitVec.ofNat 64 f.next), cur := some { frame := f, addr := a } } })).done
      | .missing s1 va l ea => s1.asEntry.missing .X 5 va l ea 0
      | x => s.asEntry.stopOn .X 5 0 x
  | _ => s.waits

/-! ## Retirement (12 R256-R258) -/

/-- Nothing of a line engine's command is still under way (12 R250). -/
def Core.settled (c : Core) (m : Cmd) : Bool :=
  m.ended && (c.line m.eng).st = .idle &&
  (match m.eng with
   | .A => c.astores.isEmpty
   | e => !(c.flights.any (fun f => f.eng = e)) && !(e = .M && !c.mwork.isEmpty))

/-- Whether a command's work is done (12 R250, R253). -/
def Core.workDone (c : Core) (m : Cmd) : Bool :=
  if m.frame.kind = 1 && m.cap.nest.isNone then m.st = .done || (m.st = .running && c.settled m) else m.st = .done

/-- The element that RES posts (12 R258); a chain entry has no sequence number. -/
def resElement (kind : Nat) (seq : BitVec 32) : Word := BitVec.ofNat 64 (seq.toNat + kind % 256 * 2 ^ 32)

/-- A frame's signals, DCPOST and post, in that order. -/
def applyEnd (s : State) (f : Frame) (e : Eng) (seq : BitVec 32) : State :=
  s.updMe (fun c =>
    let ph := (bitsOf f.dw4).foldl (fun p n => p.pendEvent n true) c.ph
    let ph := if f.dcpost then { ph with dec := SMap.put ph.dec f.dcn (SMap.get ph.dec f.dcn 0 + 1) } else ph
    let c := { c with ph := ph }
    if f.res then c.setFifo e (c.fifo e ++ [resElement f.kind seq]) else c)

/-- Events that a command changed while it was tentative enter the pending set when it retires (13 R285). -/
def applyDeferred (s : State) (m : Cmd) : State :=
  if m.ev.isEmpty then s
  else s.updMe (fun c => { c with ph := m.ev.foldl (fun p x => p.pendEvent x.1 x.2) c.ph })

/-- A FIFO has room for the element that a frame posts, if it posts one. -/
def Core.postRoom (c : Core) (f : Frame) (e : Eng) : Bool := !f.res || (c.fifo e).length < 16

/-- The command of an engine that stands at the head of its queue with its work done, and whose post waits for its FIFO
(12 R258). A tentative command makes no post before it is firm (13 R285). -/
def Core.postWaits (c : Core) (e : Eng) : Bool :=
  ((c.cmds.find? (fun m => m.eng = e)).map (fun m =>
    m.tent.isEmpty && c.workDone m && !m.frame.phaseEnd && !c.postRoom m.frame e)).getD false

/-- The execute domain is stopped: an engine of it stands at a trap or at a missing page, or a scale that engine V asked for
does, or a command's post waits (02 R45, 11 R245, 12 R258, 15 R326). -/
def Core.frozen (c : Core) : Bool :=
  [Eng.M, Eng.V].any (fun e => (c.line e).st = .trapped || (c.line e).st = .faulted || c.postWaits e) || c.scaleMiss

/-- A WAITCOUNT no longer waits on its counter. -/
def disarm (s : State) (f : Frame) : State :=
  if f.kind = 8 then
    let cl := s.myCluster
    s.setMyCluster { cl with dcWait := SMap.del cl.dcWait f.dcn }
  else s

/-- Room in the replay log of an engine: a 257th entry calls for an early commit (02 R40). -/
def logRoom (s : State) (e : Eng) : Option State :=
  if (s.me.log.filter (fun k => k.eng = e)).length < 256 then some s
  else if s.me.ph.mixed then none
  else some (earlyCommit s s.cur.lcore)

/-- Retires a command of the unit that does not end its phase. -/
def retireCmd (s : State) (m : Cmd) : Out :=
  let f := m.frame
  if !s.me.postRoom f m.eng then s.waits
  else match ropEnd s f with
    | .bad => ringBad s
    | .ok s0 _ =>
      if f.dcpost && dcView s0.me s0.myCluster f.dcn = 0 then s0.fault { code := 30 }
      else match logRoom s0 m.eng with
        | none => s.waits
        | some s1 =>
          let s2 := disarm (applyEnd (applyDeferred s1 m) f m.eng m.seq) f
          (State.progressed (noteDues (s2.updMe (fun c => { c with
            cmds := c.cmds.filter (fun k => k.seq ≠ m.seq), log := c.log ++ [m],
            unit := c.unit.map (fun u => { u with heard := u.heard.filter (fun h => h.1 ≠ m.seq) }) })))).done
    | _ => s.waits

/-- Retires the chain entry at work; after the last entry the LINK's work is done (12 R263). -/
def retireEntry (s : State) (e : ChainEnt) : Out :=
  let f := e.frame
  if !s.me.postRoom f .X then s.waits
  else match ropEnd s f with
    | .bad => ringBad s
    | .ok s0 _ =>
      if f.dcpost && dcView s0.me s0.myCluster f.dcn = 0 then s0.fault { code := 30 }
      else
        let s1 := disarm (applyEnd s0 f .X 0) f
        (State.progressed (s1.updCmd (fun m => { m with
          chain := m.chain.map (fun h => { h with cur := none }),
          st := if (m.chain.bind (·.next)).isNone then .done else m.st }))).done
    | _ => s.waits

/-- COMMAND_RETIRE (12 R256): a command whose work is done retires, or completes tentatively (13 R284). One that ends
its phase retires with the commit. -/
def execCommandRetire (s : State) : Out :=
  if s.me.ph.stage ≠ .run then s.waits
  else match s.cmd with
    | none => s.waits
    | some m =>
      if s.cur.entry then
        match s.ent with
        | some e => if e.st = .done then retireEntry s e else s.waits
        | none => s.waits
      else if !s.me.workDone m || m.frame.phaseEnd || m.frame.kind = 10 then s.waits
      else if m.tent.isEmpty then retireCmd s m
      else if m.st = .done then s.waits
      else (noteDues (s.setItemSt .done)).done

/-! ## The commit of a phase (02 R34, 12 R253) -/

/-- Queues or token queues hold entries (02 R38). -/
def Core.queued (c : Core) : Bool := c.q ≠ {} || c.tok ≠ {}

/-- The command whose work begins the commit: the unit's oldest command, where it ends its phase and its work is done;
or, for a unit that has no command left and whose control part has ended, an implied PSWAP (02 R32), or has come to another phase
of a portable kernel, wkld's phase-ending command. -/
def commitBy (c : Core) (due : Bool) : Option (BitVec 32 × Eng) :=
  if due then none
  else match c.cmds with
  | [] => if c.unit.isSome && ((c.unit.map (·.ctlDone)).getD false || c.crossing) then some (c.seqno, .X) else none
  | m :: _ => if m.frame.phaseEnd && c.workDone m then some (m.seq, m.eng) else none

/-- A speculation of the core's unit is due and not resolved. -/
def State.isDue (s : State) : Bool := s.myCluster.dues.any (fun d => d.1 = s.cur.lcore)

/-- COMMIT_EXCHANGE (02 R34 steps 1 and 2): the exchange, and the release of the held stores. -/
def execCommitExchange (s : State) : Out :=
  match s.me.ph.stage, commitBy s.me s.isDue with
  | .run, some (q, e) =>
    let s0 := { s with cur := { s.cur with eng := e, seq := q, entry := false } }
    if s.me.queued then s0.fault { code := 20 }
    else
      let s1 := drain (exchange s s.cur.lcore) s.cur.lcore
      (s1.updMe (fun c => { c with ph := { c.ph with stage := .drain q e } })).done
  | _, _ => s.waits

/-- The phase after a commit: what stays is the commands of later phases, what has been pushed (13 R296), and the changes of
events that the control core has made since the exchange (12 R256). -/
def Core.nextPhase (c : Core) : Core :=
  let cmds := (c.ph.cmds.dropWhile (fun k => !k.pend)).drop 1
  let here := (firstPhase cmds).map (·.seq)
  { c with ph := { newPhase c with
      cmds := cmds, pushed := c.ph.pushed, evSet := c.ph.evSet, evClr := c.ph.evClr,
      nonrepl := c.cmds.any (fun m => here.contains m.seq && m.frame.nonreplay) } }

/-- A phase-ending command's own signals and DCPOST enter the committed bits at its retire step (12 R256, R257); a
counter at zero is DEPUNDER, and the launch is cancelled after the retirement. -/
def commitSignals (s : State) (m : Cmd) : State :=
  let cl := s.myCluster
  let f := m.frame
  let under := f.dcpost && SMap.get cl.dc f.dcn 0 = 0
  let cl1 := { cl with ev := cl.ev ||| f.dw4, evBy := signalledBy cl.evBy s.me.unit s.me.ph.num f.dw4,
                       dc := if f.dcpost && !under then SMap.put cl.dc f.dcn (SMap.get cl.dc f.dcn 0 - 1) else cl.dc }
  let s1 := s.setMyCluster cl1
  if under then
    (logFault s1 s.cur.lcore (engCode m.eng) schedBank m.seq { code := 30 }).updMe (fun c => { c with ph := { c.ph with doomed := true } })
  else s1

/-- After the retire step: the next phase begins, a unit with nothing left ends, and a cancel that waited acts, on the launch
or on the unit alone (02 R29-R31, 20 R418). -/
def afterCommit (s : State) : State :=
  let doomed := s.me.ph.doomed
  let ending := s.me.ph.ending
  let last := (s.me.unit.map (·.ctlDone)).getD false && s.me.cmds.isEmpty && s.me.ph.cmds.all (fun k => !k.pend)
  let s1 := freshStart (s.updMe (fun c => c.nextPhase.crossed)) s.cur.lcore
  if doomed then
    match s.me.unit with
    | some u => cancelLaunch s1 u.launch
    | none => s1
  else if ending then cancelRunning s1 s.cur.lcore
  else if last then unitEnds s1 s.cur.lcore false
  else s1

/-- The ring record of a phase-ending transfer is published or freed at its retirement, behind the phase's exchange
(12 R272): what it writes of the scratchpad is exchanged at once. A ring that no longer allows it is RINGBAD, for which the
launch is cancelled once the command has retired (20 R418). None while it must wait. -/
def commitRop (s : State) (m : Cmd) : Option State :=
  let s0 := { s with cur := { s.cur with eng := m.eng, seq := m.seq, entry := false } }
  if m.frame.rop = 0 then some s
  else match ropEnd s0 m.frame with
    | .ok s1 _ =>
      -- the events that the control core has pended since the exchange are the next phase's
      let p := s1.me.ph
      let s2 := exchange (s1.updMe (fun c => { c with ph := { c.ph with evSet := 0, evClr := 0 } })) s.cur.lcore
      some { s2.updMe (fun c => { c with ph := { c.ph with evSet := p.evSet, evClr := p.evClr } }) with cur := s.cur }
    | .bad => some ((logFault s s.cur.lcore (engCode m.eng) schedBank m.seq { code := 31 }).updMe
        (fun c => { c with ph := { c.ph with doomed := true } }))
    | _ => none

/-- COMMIT_RETIRE (02 R34 step 3): once every drained store is visible the phase-ending command retires, waiting for
its FIFO (12 R258). -/
def execCommitRetire (s : State) : Out :=
  match s.me.ph.stage with
  | .run => s.waits
  | .drain q e =>
    if s.replPending s.cur.lcore then s.waits
    else match s.me.cmdOf e q with
      | none => (afterCommit s).done
      | some m =>
        if !s.me.postRoom m.frame e then s.waits
        else match commitRop s m with
        | none => s.waits
        | some s0 =>
          let s1 := disarm (commitSignals s0 m) m.frame
          let s2 := s1.updMe (fun c =>
            let c1 := if m.frame.res then c.setFifo e (c.fifo e ++ [resElement m.frame.kind q]) else c
            { c1 with cmds := c1.cmds.filter (fun k => k.seq ≠ q),
                      unit := c1.unit.map (fun u => { u with progress := s.now, heard := u.heard.filter (fun h => h.1 ≠ q) }) })
          (afterCommit s2).done

end Sys2Proof.Machine
end

