-- ==== Sys2Proof/Machine/Frames.lean ====
section
/-! DEFINITION. Frames of the dies' HBM and the tables of jobs, as the hub firmware keeps them (21 R445, 19 R387, 14 R310,
R311). Which free frame is taken is the firmware's choice: the lowest that fits (log entry 5). -/

namespace Sys2Proof.Machine

/-- Frames of 64 KiB in a die's HBM. -/
def dieFrames : Nat := Config.dieHbm / 65536

/-- The lowest aligned run of `n` frames that meets no run in use; the list of runs rises. -/
def firstFit (n : Nat) : Nat → List (Nat × Nat) → Option Nat
  | lo, [] => if lo + n ≤ dieFrames then some lo else none
  | lo, (b, k) :: t => if lo + n ≤ b then some lo else firstFit n (max lo (upTo (b + k) n)) t

/-- A run takes its place in the rising list. -/
def insertRun (b k : Nat) : List (Nat × Nat) → List (Nat × Nat)
  | [] => [(b, k)]
  | (c, j) :: t => if b < c then (b, k) :: (c, j) :: t else (c, j) :: insertRun b k t

/-- HBM bytes from an address on are zero, and no poison is left there. -/
def State.zeroHbm (s : State) (a n : Nat) : State :=
  { s with hbm := s.hbm.filter (fun c => c.1 < a || a + n ≤ c.1), poison := cured s.poison a n }

/-- Takes a frame of `n` × 64 KiB of a die, zeroed; none where no free run holds it, or the die's HBM is not ready (21 R421). -/
def allocFrame (s : State) (die n : Nat) : Option (State × Nat) :=
  let d := s.dieAt die
  match (if s.hbmReady die then firstFit n 0 d.used else none) with
  | none => none
  | some b =>
    let a := die * Config.dieHbm + b * 65536
    some ((s.setDie die { d with used := insertRun b n d.used }).zeroHbm a (n * 65536), a)

/-- Takes a page's frames: one on its home die, and with REPL one on every other die (14 R310). -/
def allocPage (s : State) (home n : Nat) (repl : Bool) : Option (State × Nat) :=
  match allocFrame s home n with
  | none => none
  | some (s1, a) =>
    if !repl then some (s1, a)
    else
      let r := ((List.range 8).filter (· ≠ home)).foldl (fun (acc : Option (State × List Nat)) d =>
        acc.bind (fun (t, l) => (allocFrame t d n).map (fun (t1, b) => (t1, l ++ [b])))) (some (s1, []))
      r.map (fun (s2, l) => ({ s2 with hub := { s2.hub with replicas := SMap.put s2.hub.replicas a l } }, a))

/-- Gives a page's frames back. -/
def freePage (s : State) (a : Nat) : State :=
  let s1 := (SMap.get s.hub.replicas a []).foldl freeFrame s
  freeFrame { s1 with hub := { s1.hub with replicas := SMap.del s1.hub.replicas a } } a

/-! ## Tables -/

/-- The entries of a table page that are not zero: index and entry. -/
def tableEntries (m : Mem) (t : Nat) : List (Nat × Word) :=
  let cells := m.filter (fun c => t ≤ c.1 && c.1 < t + 65536)
  let idx := (cells.map (fun c => (c.1 - t) / 8)).eraseDups
  idx.map (fun i => (i, BitVec.ofNat 64 (Mem.readWord cells (t + 8 * i) 8)))

/-- A present leaf of a job's tables: first virtual address, size, the entry and its address. -/
structure Leaf where
  va    : Nat
  size  : Nat
  ent   : Word
  eaddr : Nat
deriving DecidableEq, Repr

/-- Bytes that an entry of a level covers. -/
def lvlSize (lvl : Nat) : Nat := 2 ^ (16 + 13 * lvl)

/-- The present leaves under a table page. -/
def leavesOf (m : Mem) : Nat → Nat → Nat → List Leaf
  | lvl, t, base =>
    (tableEntries m t).flatMap (fun (i, e) =>
      if !eV e then []
      else if eLeaf e then [{ va := base + i * lvlSize lvl, size := lvlSize lvl, ent := e, eaddr := t + 8 * i }]
      else match lvl with
        | 0 => []
        | k + 1 => leavesOf m k (ePfn e * 65536) (base + i * lvlSize (k + 1)))

/-- The leaves of a job that cover a byte of a range. -/
def leavesIn (s : State) (root va n : Nat) : List Leaf :=
  (leavesOf s.hbm 2 root 0).filter (fun l => l.va < va + n && va < l.va + l.size)

/-- The table pages of a job, its root among them. -/
def tablesOf (m : Mem) : Nat → Nat → List Nat
  | lvl, t =>
    t :: (tableEntries m t).flatMap (fun (_, e) =>
      if !eV e || eLeaf e then []
      else match lvl with
        | 0 => []
        | k + 1 => tablesOf m k (ePfn e * 65536))

/-- Writes a leaf at its level, with the table pages that it needs, which lie on the home die. A table page whose place a
512 MiB leaf takes is freed. None where the die has no free frame. -/
def placeLeaf (die va target : Nat) (leaf : Word) : Nat → Nat → State → Option State
  | lvl, t, s =>
    let a := t + 8 * (va / lvlSize lvl % 8192)
    let e : Word := BitVec.ofNat 64 (s.hbm.readWord a 8)
    if lvl = target then
      let s1 := if eV e && !eLeaf e then freeFrame s (ePfn e * 65536) else s
      some { s1 with hbm := s1.hbm.writeWord a 8 leaf.toNat }
    else match lvl with
      | 0 => none
      | k + 1 =>
        if eV e && !eLeaf e then placeLeaf die va target leaf k (ePfn e * 65536) s
        else match allocFrame s die 1 with
          | none => none
          | some (s1, p) =>
            placeLeaf die va target leaf k p { s1 with hbm := s1.hbm.writeWord a 8 (p + 1) }

/-- A leaf entry (19 R387): present, readable, user. -/
def leafEntry (pa : Nat) (kind : Nat) (repl w : Bool) : Word :=
  BitVec.ofNat 64 (pa + 0x27 + (if w then 8 else 0) + kind % 4 * 2 ^ 60 + (if repl then 2 ^ 62 else 0))

/-- Maps one page of a job to a fresh frame; none where frames are lacking. -/
def mapPage (s : State) (root home va : Nat) (big : Bool) (kind : Nat) (repl w : Bool) : Option State :=
  match allocPage s home (if big then 8192 else 1) repl with
  | none => none
  | some (s1, a) => placeLeaf home va (if big then 1 else 0) (leafEntry a kind repl w) 2 root s1

/-- The frames of `n` pages. -/
def takePages (home : Nat) (big repl : Bool) : Nat → State → Option (State × List Nat)
  | 0, s => some (s, [])
  | n + 1, s =>
    match allocPage s home (if big then 8192 else 1) repl with
    | none => none
    | some (s1, a) => (takePages home big repl n s1).map (fun x => (x.1, a :: x.2))

/-- The leaves of pages from a virtual address on, one for each frame. -/
def placePages (root home : Nat) (big : Bool) (kind : Nat) (repl w : Bool) : List Nat → Nat → State → Option State
  | [], _, s => some s
  | a :: t, va, s =>
    (placeLeaf home va (if big then 1 else 0) (leafEntry a kind repl w) 2 root s).bind
      (placePages root home big kind repl w t (va + (if big then 2 ^ 29 else 65536)))

/-- Maps `n` pages from a virtual address on. Their frames are taken before any table page is, which needs no aligned run: so none is
lacking while the die's free HBM holds them all (21 R445). -/
def mapPages (root home : Nat) (big : Bool) (kind : Nat) (repl w : Bool) (n va : Nat) (s : State) : Option State :=
  (takePages home big repl n s).bind (fun x => placePages root home big kind repl w x.2 va x.1)

/-! ## Invalidation (19 R391) -/

/-- Removes from every TLB of a core the entries that a test names. -/
def Core.dropTlb (c : Core) (hit : TlbEnt → Bool) : Core :=
  let f (l : List TlbEnt) := l.filter (fun t => !hit t)
  { c with tlbC := f c.tlbC, tlbA := f c.tlbA, tlbM := f c.tlbM, tlbV := f c.tlbV, tlbX := f c.tlbX }

/-- The same for the cores of a scope: one core, or all. -/
def dropTlbs (s : State) (only : Option Nat) (hit : TlbEnt → Bool) : State :=
  { s with core := s.core.map (fun p => if only.all (· = p.1) then (p.1, p.2.dropTlb hit) else p) }

/-- A TLB's entry for a page that shares an address with a range of an address space. -/
def tlbOn (asid : BitVec 12) (va n : Nat) (t : TlbEnt) : Bool :=
  let sz := if t.big then 2 ^ 29 else 65536
  t.asid = asid && meets (t.page * sz) sz va n

/-! ## Stack pages (16 R341, R345) -/

/-- Makes a leaf RC and writable; a page of a live launch's window stays read-only until that launch ends (11 R241), and then
takes the W bit. -/
def makeRc (s : State) (asid : BitVec 12) (l : Leaf) : State :=
  let bound (p : Nat × Launch) : Bool := p.2.live && p.2.wpages.any (fun x => x.1 = l.eaddr)
  let held := s.hub.launches.any bound
  let e := setFld l.ent 60 2 0
  let e := if held then e else setFld e 3 1 1
  if e = l.ent && !held then s
  else
    let note (p : Nat × Launch) : Nat × Launch :=
      (p.1, { p.2 with wpages := p.2.wpages.map (fun x => if x.1 = l.eaddr then (x.1, true) else x) })
    dropTlbs { s with hbm := s.hbm.writeWord l.eaddr 8 e.toNat,
                      hub := { s.hub with launches := s.hub.launches.map (fun p => if bound p then note p else p) } }
      none (tlbOn asid l.va l.size)

/-- Maps the 64 KiB pages of a range RC and writable: those that are not mapped yet get a frame, and the others keep theirs. -/
def mapMissing (asid : BitVec 12) (root home va n : Nat) (s : State) : Option State :=
  (List.range (if n = 0 then 0 else (va + n + 65535) / 65536 - va / 65536)).foldl (fun (acc : Option State) k =>
    acc.bind (fun t =>
      let p := (va / 65536 + k) * 65536
      match leavesIn t root p 65536 with
      | [] => mapPage t root home p false 0 false true
      | l :: _ => some (makeRc t asid l))) (some s)

/-- Whether a held store of some unit, or a store of some control core that is not yet performed, lies in a frame. -/
def frameBusy (s : State) (a n : Nat) : Bool :=
  s.core.any (fun p => p.2.ph.held.any (fun h => h.pre.isNone && h.addr < a + n && a < h.addr + 64)
    || p.2.sbuf.any (fun e => e.addr < a + n && a < e.addr + e.data.length)) ||
  s.hub.updates.any (fun u => u.addr < a + n && a < u.addr + u.data.length) ||
  s.hub.launches.any (fun l => l.2.kept.any (fun p => p.2.ph.held.any (fun h => h.pre.isNone && h.addr < a + n && a < h.addr + 64)))

/-! ## Pages of windows (11 R241) -/

/-- The pages that hold a byte of a launch's bound windows become read-only; their W bits are noted, as another launch that
binds them has noted them, or as this one did before. -/
def protectWindows (s : State) (j : Job) (n : Nat) (l : Launch) : State :=
  let ls := (l.windows.filter (fun w => w.2 ≠ 0)).flatMap (fun w => leavesIn s j.root w.1.toNat w.2.toNat)
  let noted (a : Nat) : Option Bool :=
    (l.wpages :: (s.hub.launches.filter (fun p => p.1 ≠ n && p.2.live && p.2.job = l.job)).map (·.2.wpages)).findSome?
      (fun ps => (ps.find? (fun x => x.1 = a)).map (·.2))
  let pages := (ls.map (fun f => (f.eaddr, (noted f.eaddr).getD (eW f.ent)))).eraseDups
  let s1 := { s with hbm := pages.foldl (fun m p => m.write p.1 (m.read p.1 &&& 0xF7)) s.hbm }
  let s2 := dropTlbs s1 none (fun t => ls.any (fun f => tlbOn j.asid f.va f.size t))
  s2.setLaunch n { l with wpages := pages }

/-- After a change of a job's map, the windows of its launches that have begun to run bind the pages that now hold them. -/
def rebindWindows (s : State) (job : Nat) : State :=
  s.hub.launches.foldl (fun t p =>
    match t.jobAt job, t.launchAt p.1 with
    | some j, some l => if l.job = job && l.status = 1 then protectWindows t j p.1 l else t
    | _, _ => t) s

/-! ## Migration (14 R311) -/

/-- Moves the bytes and the poison of a frame. -/
def moveFrame (s : State) (old new n : Nat) : State :=
  let cells := s.hbm.filter (fun c => old ≤ c.1 && c.1 < old + n)
  let bad := s.poison.filter (fun w => old ≤ 8 * w.1 && 8 * w.1 < old + n)
  let s1 := s.zeroHbm new n
  { s1 with hbm := cells.foldl (fun m c => m.write (c.1 - old + new) c.2) s1.hbm,
            poison := s1.poison ++ bad.map (fun w => (w.1 - old / 8 + new / 8, w.2)) }

/-- PAGE_MIGRATION (14 R311): once no write to the old frame is on its way, the frame is copied, the entry switched and
every TLB that holds it invalidated, in one step. The new frame is the firmware's choice; one that is not free, or not
aligned to the page, moves nothing. -/
def execPageMigration (job : Nat) (va : Word) (frame : Nat) (s : State) : Out :=
  match s.jobAt job with
  | none => s.waits
  | some j =>
    match leavesIn s j.root va.toNat 1 with
    | [] => s.waits
    | l :: _ =>
      let old := ePfn l.ent * 65536
      let n := l.size / 65536
      let die := frame / Config.dieHbm
      let b := frame % Config.dieHbm / 65536
      let d := s.dieAt die
      if frame % l.size ≠ 0 ∨ Config.hbmBytes ≤ frame ∨ d.used.any (fun r => r.1 < b + n && b < r.1 + r.2) ∨
          frameBusy s old l.size then s.waits
      else
        let s1 := moveFrame (s.setDie die { d with used := insertRun b n d.used }) old frame l.size
        let s2 := freeFrame { s1 with hbm := s1.hbm.writeWord l.eaddr 8 (setFld l.ent 16 36 (frame / 65536)).toNat,
                                      hub := { s1.hub with replicas := match SMap.find s1.hub.replicas old with
                                        | some r => SMap.put (SMap.del s1.hub.replicas old) frame r
                                        | none => s1.hub.replicas } } old
        (dropTlbs s2 none (tlbOn j.asid l.va l.size)).done

end Sys2Proof.Machine
end

