-- ==== Sys2Proof/Machine/Owner.lean ====
section
/-! DEFINITION. Masters, ownership, readiness and replies: what every message of the control channel goes through
(21 R421, R423, R425-R427). -/

namespace Sys2Proof.Machine

/-! ## Readiness -/

def State.setReady (s : State) (bit : Nat) (v : Bool) : State :=
  let h := s.hub
  { s with hub := { h with
    ready := setFld h.ready bit 1 (if v then 1 else 0)
    cleared := if v then h.cleared else h.cleared ||| (h.ready &&& ones bit 1) } }

/-! ## Masters -/

/-- A master's identity: the first 64 bits of its public key's SHAKE256 digest, little-endian (21 R423). -/
def identityOf (key : List Byte) : BitVec 64 := BitVec.ofNat 64 (leNat (shake256 key 8))

/-- The connection of a master: identity, OWNER right, management port, anchor. -/
def State.conn (s : State) (m : BitVec 64) : Option (BitVec 64 × Bool × Bool × Option (BitVec 64)) := s.hub.conns.find? (fun c => c.1 = m)

def State.owns (s : State) (m : BitVec 64) : Bool := s.owner = some m

/-- The lease of R426, 5 s. -/
def leaseCycles : Nat := 5000 * Config.cyclesPerMs
/-- The election window of R426, 100 ms. -/
def windowCycles : Nat := 100 * Config.cyclesPerMs

/-! ## Answers (21 R425): those of one connection leave in the order of its requests -/

/-- A connection owes no earlier answer. -/
def State.settledWith (s : State) (m : BitVec 64) : Bool := s.hub.answers.all (fun a => a.req.master ≠ m)

/-- The answers of a connection that are formed and have none before them that is not: they leave; the others stay. -/
def leaving (m : BitVec 64) : List Answer → List Msg × List Answer
  | [] => ([], [])
  | a :: t =>
    if a.req.master ≠ m then ((leaving m t).1, a :: (leaving m t).2)
    else match a.msg with
      | some x => (x :: (leaving m t).1, (leaving m t).2)
      | none => ([], a :: t)

/-- What may leave on a connection is sent. -/
def State.flush (s : State) (m : BitVec 64) : State :=
  { s with hub := { s.hub with answers := (leaving m s.hub.answers).2, out := s.hub.out ++ (leaving m s.hub.answers).1 } }

/-- A reply's message. -/
def replyMsg (r : Req) (type : BitVec 16) (status : Reply) (body : List Item) : Msg :=
  { dest := r.master, type := type, id := r.id, status := status, body := body }

/-- A reply to a request that arrives now: it is sent, or waits for the answers that its connection owes before it. -/
def State.reply (s : State) (r : Req) (type : BitVec 16) (status : Reply) (body : List Item := []) : State :=
  let m := replyMsg r type status body
  if s.settledWith r.master then s.send m
  else { s with hub := { s.hub with answers := s.hub.answers ++ [{ req := r, type := type, msg := some m }] } }

/-- The answer to a request comes later. -/
def State.defer (s : State) (r : Req) (type : BitVec 16) : State :=
  { s with hub := { s.hub with answers := s.hub.answers ++ [{ req := r, type := type }] } }

/-- The first open answer to a request takes its message. -/
def fillAnswer (m : Msg) (r : Req) (type : BitVec 16) : List Answer → List Answer
  | [] => []
  | a :: t => if a.req = r && a.type = type && a.msg.isNone then { a with msg := some m } :: t else a :: fillAnswer m r type t

/-- A deferred answer is formed; one whose connection was lost goes nowhere. -/
def State.answer (s : State) (r : Req) (type : BitVec 16) (status : Reply) (body : List Item := []) : State :=
  State.flush { s with hub := { s.hub with answers := fillAnswer (replyMsg r type status body) r type s.hub.answers } } r.master

/-- A request of a connected master reaches its function. A request that no connection carries does not arrive. In
recovery the port takes none but those of `recov`; a function that is not ready answers NOTREADY (log entry 40). -/
def withMaster (r : Req) (type : BitVec 16) (need : List Nat) (recov : Bool) (s : State)
    (go : BitVec 64 × Bool × Bool × Option (BitVec 64) → Out) : Out :=
  match s.conn r.master with
  | none => s.waits
  | some c =>
    match s.hub.st with
    | .inReset => s.waits
    | .stopped => s.waits
    | .recovery => if recov then go c else (s.reply r type .notReady).done
    | .up => if need.all s.isReady then go c else (s.reply r type .notReady).done

/-- A request of the owner's; from any other master NOTOWNER, with no effect (21 R423, R427). -/
def withOwner (r : Req) (type : BitVec 16) (need : List Nat) (s : State) (go : Out) : Out :=
  withMaster r type need false s fun _ => if s.owns r.master then go else (s.reply r type .notOwner).done

/-- A job that requests may name: one that its owner has not ended. -/
def State.openJob (s : State) (n : Nat) : Option Job := (s.jobAt n).bind (fun j => if j.status < 2 && !j.ended then some j else none)

end Sys2Proof.Machine
end

