-- ==== Sys2Proof/Machine/Flow.lean ====
section
/-! DEFINITION. Native control flow (06 R122-R129): NOPV, PBR, BR, BRL, RET, LOOP, HALT and native TRAPV. A word changes
the line's goto, stop or post; the bundle that holds it acts on them at its end. -/

namespace Sys2Proof.Machine

/-- Reads a line of an engine's path through its stream TLB (05 R98). -/
def fetchLine (s : State) (e : Eng) (line : BitVec 49) : Acc := virtRead s e (line.toNat * 64) 64

/-- The doublewords of the line that an engine is in: read once, at its entry, and kept until the engine leaves it (05 R97,
R98). -/
def enteredLine (s : State) (e : Eng) (line : BitVec 49) : Except Acc (State × List Word) :=
  let l := (s.me.line e).buf
  if l.isEmpty then
    match fetchLine s e line with
    | .ok s1 bs => .ok (s1.updMe (fun c => c.updLine e (fun l => { l with buf := wordsOf 8 bs })), wordsOf 8 bs)
    | x => .error x
  else .ok (s, l)

def Upc.target (u : Upc) (n : Nat) : BitVec 49 × Bool := SMap.get u.bt n (0, false)
def Upc.setTarget (u : Upc) (n : Nat) (l : BitVec 49) (v : Bool) : Upc := { u with bt := SMap.put u.bt n (l, v) }

def noMoves : NWord → List Move := fun _ => []

/-- NOTARGET (06 R129). -/
def noTarget (s : State) : Out := s.fault { code := 28, addr := s.lineAddr }

/-- NOPV n: the engine's next bundle issues n virtual cycles later; the bundle that holds another word takes at least
one (06 R124). -/
def execNopv (w : NWord) (s : State) : Out :=
  issueC (.nopv w) s noMoves fun _ w =>
    if s.cur.eng = .A then .ok s else .ok (s.updLn (fun l => { l with next := s.me.vcycle + w.c.toNat }))

/-- PBR (06 R125). -/
def execPbr (w : NWord) (s : State) : Out :=
  issueC (.pbr w) s noMoves fun _ w =>
    let off : BitVec 20 := w.b ++ w.c
    .ok (s.updLn (fun l =>
      let u := l.upc.setTarget w.dst.toNat (s.cur.line + off.signExtend 49) true
      { l with upc := if w.a = 0 then u else { u with lc := w.a.setWidth 32 } }))

/-- Goes on at a target, or NOTARGET. -/
def branchTo (s : State) (n : Nat) (f : Line → Line) : Except Out State :=
  let (line, v) := s.ln.upc.target n
  if v then .ok (s.updLn (fun l => { f l with goto := some line })) else .error (noTarget s)

/-- BR (06 R126). -/
def execBr (w : NWord) (s : State) : Out :=
  issueC (.br w) s noMoves fun _ w => branchTo s w.a.toNat id

/-- BRL: as BR, with btL at the line that NEXT names (06 R126, R129). -/
def execBrl (w : NWord) (s : State) : Out :=
  issueC (.brl w) s noMoves fun _ w =>
    match enteredLine s s.cur.eng s.cur.line with
    | .ok (s1, line) =>
      let dw0 := line.getD 0 0
      if chainEnd dw0 then .error (noTarget s)
      else branchTo s1 w.a.toNat (fun l =>
        { l with upc := l.upc.setTarget w.dst.toNat (s.cur.line + (nextOf dw0).signExtend 49) true })
    | .error x => .error (s.stopOn s.cur.eng 4 0 x)

/-- RET: as BR, and the target's BTV is cleared (06 R126). -/
def execRet (w : NWord) (s : State) : Out :=
  issueC (.ret w) s noMoves fun _ w =>
    branchTo s w.a.toNat (fun l => { l with upc := l.upc.setTarget w.a.toNat (l.upc.target w.a.toNat).1 false })

/-- LOOP (06 R127). -/
def execLoop (w : NWord) (s : State) : Out :=
  issueC (.loop w) s noMoves fun _ w =>
    let turn (l : Line) : Line :=
      let u := { l.upc with lc := if l.upc.lc = 0 then 0 else l.upc.lc - 1 }
      let u := if s.cur.eng = .A then u
        else { u with vrb := if u.vrb = 0 then 511 else u.vrb - 1, prb := if u.prb = 0 then 47 else u.prb - 1 }
      { l with upc := u }
    if s.ln.upc.lc.toNat ≤ 1 then .ok (s.updLn turn) else branchTo s w.a.toNat turn

/-- A word that leaves its line by a target that is not set, or links where the chain ends: its bundle must not issue
(06 R129). -/
def targetBad (s : State) (line : List Word) (i : Instr) : Bool :=
  let unset (n : Nat) : Bool := !(s.ln.upc.target n).2
  match i with
  | .br w => s.guardHolds w && unset w.a.toNat
  | .brl w => s.guardHolds w && (chainEnd (line.getD 0 0) || unset w.a.toNat)
  | .ret w => s.guardHolds w && unset w.a.toNat
  | .loop w => s.guardHolds w && 1 < s.ln.upc.lc.toNat && unset w.a.toNat
  | _ => false

/-- VIGIL, with the line and the counted values (15 R332). -/
def vigilFault (s : State) : Out :=
  s.fault { code := 3, addr := s.lineAddr, misc := some (crcFinal s.ln.segcrc ++ s.ln.segvc) }

/-- HALT: the engine's part of its command ends after this bundle; inside a Vigil segment it is VIGIL's error (06 R128). Cycles of
idling since the last check count as much as bundles: 15 R332 speaks of anything accumulated, 06 R128 of a bundle issued (DEDUCED,
log entry 128). -/
def execHalt (w : NWord) (s : State) : Out :=
  issueC (.halt w) s noMoves fun _ _ =>
    if s.ln.checked && (s.ln.since || s.ln.segvc ≠ 0) then .error (vigilFault s) else .ok (s.updLn (fun l => { l with stop := true }))

/-- Native TRAPV: the trap that the engine raises once its bundle is complete (06 R122). -/
def execTrapvNative (w : NWord) (s : State) : Out :=
  issueC (.trapvNative w) s noMoves fun _ w =>
    let v : Word := BitVec.ofNat 64 (w.c.toNat + 1024 * engCode s.cur.eng + 4096)
    .ok (s.updLn (fun l => { l with post := some { cause := 24, val := v } }))

end Sys2Proof.Machine
end

