-- ==== Sys2Proof/Machine/Paging.lean ====
section
/-! DEFINITION. The fault buffer and its flush (19 R392-R395), TLB invalidation (R391), and the micro-program counters
as the machine CSRs show them (02 R47, 19 R398). -/

namespace Sys2Proof.Machine

/-- An access to a machine-level CSR (19 R397): from user mode it is the illegal-instruction trap, with the CSR's number as
its value where the access is no CSR instruction. -/
def machineOnly (n : Nat) (s : State) (go : Out) : Out :=
  match s.me.mode with
  | .U => s.trap 2 (BitVec.ofNat 64 n)
  | .M => go

/-! ## Fault records -/

/-- What an engine does once nothing stops it: it runs the CODE command whose chain has not ended, or idles. -/
def Core.resumeSt (c : Core) (e : Eng) : EngSt :=
  if c.cmds.any (fun k => k.eng = e && k.st = .running && k.frame.kind = 1 && k.cap.nest.isNone && !k.ended) then .run else .idle

/-- The handler that returns resumes the engine whose trap it handled (20 R407). -/
def Core.popHandling (c : Core) : Core :=
  match c.handling with
  | [] => c
  | h :: t =>
    let c1 := { c with handling := t }
    match h with
    | none => c1
    | some e => if (c1.line e).st = .trapped then c1.updLine e (fun l => { l with st := c1.resumeSt e }) else c1

/-- The party of a record tries its walk again; a scale read of engine V's does so with its word. -/
def Core.retry (c : Core) (r : FRec) : Core :=
  if r.void || (r.eng = .A && r.acc = 3) then c
  else if (c.line r.eng).st = .faulted then c.updLine r.eng (fun l => { l with st := c.resumeSt r.eng }) else c

/-- PAGE_FAULT_RECORD (19 R394): the oldest stopped access enters the buffer; one whose walk began under an earlier
generation is discarded, and the walk runs again. -/
def execPageFaultRecord (s : State) : Out :=
  match s.me.fwait with
  | [] => s.waits
  | r :: t =>
    if r.gen ≠ s.me.gen then (s.updMe (fun c => ({ c with fwait := t }).retry r)).done
    else if s.me.fbuf.length < 16 then (s.updMe (fun c => { c with fwait := t, fbuf := c.fbuf ++ [r] })).done
    else s.waits

/-- The flush of a batch of `n` records (19 R395), once the control core's earlier stores are performed at module scope;
none while they are not. -/
def flushBatch (s : State) (n : Nat) : Option State :=
  let s1 := s.drainSbuf s.cur.lcore
  if s1.replPending s.cur.lcore then none
  else some (s1.updMe (fun c =>
    let k := min n c.fbuf.length
    (c.fbuf.take k).foldl Core.retry { c with fbuf := c.fbuf.drop k, gen := c.gen + 1, fbn := BitVec.ofNat 5 n }))

/-- FBFLUSH (19 R395). -/
def execFbflush (n : BitVec 5) (s : State) : Out :=
  machineOnly 0x7C7 s
    (match flushBatch s n.toNat with
     | some s1 => s1.done
     | none => (s.drainSbuf s.cur.lcore).waits)

/-! ## Invalidation (19 R391) -/

/-- Whether an invalidation of a mode takes an entry. -/
def tlbMatch (mode : Nat) (asid : BitVec 12) (va : Nat) (t : TlbEnt) : Bool :=
  match mode with
  | 0 => t.asid = asid
  | 1 => t.asid = asid && t.page = va / (if t.big then 2 ^ 29 else 65536)
  | _ => true

/-- Starts an invalidation; none while one is in progress or an earlier store of the control core is not performed. -/
def startInval (s : State) (mode : Nat) (wide : Bool) : Option State :=
  let s1 := s.drainSbuf s.cur.lcore
  if s.me.tlbbusy || s1.replPending s.cur.lcore then none
  else some (s1.updMe (fun c => { c with
    tlbbusy := true, tlbwide := wide, tlbmode := BitVec.ofNat 2 mode,
    tlbkey := (c.ptroot.extractLsb' 52 12, c.tlbva.toNat) }))

def tlbinv (mode : Nat) (wide : Bool) (s : State) : Out :=
  machineOnly 0x7C8 s
    (match startInval s mode wide with
     | some s1 => s1.done
     | none => (s.drainSbuf s.cur.lcore).waits)

/-- TLBINV, MODE 0. -/
def execTlbinvAsid (wide : Bool) (s : State) : Out := tlbinv 0 wide s
/-- TLBINV, MODE 1. -/
def execTlbinvVa (wide : Bool) (s : State) : Out := tlbinv 1 wide s
/-- TLBINV, MODE 2. -/
def execTlbinvAll (wide : Bool) (s : State) : Out := tlbinv 2 wide s

/-- TLBINV_DONE: no TLB of the scope holds a matching entry, and BUSY clears. -/
def execTlbinvDone (s : State) : Out :=
  if !s.me.tlbbusy then s.waits
  else
    let c := s.me
    let s1 := dropTlbs s (if c.tlbwide then none else some s.cur.lcore) (tlbMatch c.tlbmode.toNat c.tlbkey.1 c.tlbkey.2)
    (s1.updMe (fun c => { c with tlbbusy := false })).done

/-! ## Micro-program counters (02 R47, 19 R398) -/

/-- A counter as six doublewords. -/
def Upc.words (u : Upc) : List Word :=
  [u.line ++ u.slot ++ u.prog, u.lc ++ u.vrb ++ u.prb ++ (0 : BitVec 17)] ++
  (List.range 4).map (fun k => let (l, v) := u.target k; l ++ (0 : BitVec 14) ++ (if v then 1#1 else 0#1))

/-- A counter with one doubleword written; RZ bits are dropped, and engine A's rotation bases stay 0. -/
def Upc.setWord (u : Upc) (e : Eng) (k : Nat) (w : Word) : Upc :=
  match k with
  | 0 => { u with line := w.extractLsb' 15 49, slot := w.extractLsb' 12 3, prog := w.setWidth 12 }
  | 1 =>
    if e = .A then { u with lc := w.extractLsb' 32 32 }
    else { u with lc := w.extractLsb' 32 32, vrb := w.extractLsb' 23 9, prb := w.extractLsb' 17 6 }
  | n => if n < 6 then u.setTarget (n - 2) (w.extractLsb' 15 49) (w.getLsbD 0) else u

/-- The engine that UPCSEL names. -/
def Core.upcEng (c : Core) : Eng := engOf c.upcsel.toNat

/-- Whether an engine is halted or frozen: it is stopped or idle, engine A halts for a scale of engine V's, or the execute domain
is frozen by any cause of 15 R326. -/
def Core.halted (c : Core) (e : Eng) : Bool :=
  (c.line e).st ≠ .run || (if e = .A then c.scaleMiss else c.frozen || c.iced)

/-- Engine A leaves a bundle that it has begun: what its completed words wrote stands (11 R226, R245). -/
def Core.leaveBundle (c : Core) (e : Eng) : Core :=
  let l := c.line e
  let c1 := if e = .A then l.pnew.foldl (fun c p => c.apput p.1 p.2) (l.gnew.foldl (fun c p => c.gput p.1 p.2) c) else c
  c1.updLine e (fun l => { l with moved := 0, done := 0, gnew := [], pnew := [] })

/-- A write of the selected counter: it takes effect only while the engine is halted, frozen or saved. One that moves the engine to
another bundle leaves what it has begun of the old one. -/
def Core.writeUpc (c : Core) (k : Nat) (v : Word) : Core :=
  let e := c.upcEng
  if c.halted e then
    let u := (c.line e).upc.setWord e k v
    let moves := u.line ≠ (c.line e).upc.line || u.slot ≠ (c.line e).upc.slot
    (if moves then c.leaveBundle e else c).updLine e (fun l => { l with upc := u, buf := [], resumed := true })
  else c

/-- UPC_WRITE (19 R398). -/
def execUpcWrite (k : BitVec 3) (v : Word) (s : State) : Out :=
  machineOnly (0x7D1 + k.toNat) s (s.updMe (fun c => c.writeUpc k.toNat v)).done

end Sys2Proof.Machine
end

