-- ==== Sys2Proof/Machine/Csr.lean ====
section
/-! DEFINITION. The control core's CSRs: which exist, who reaches them, what they read, and what a write does (00 R10,
02 R47, 03 R51, R64, 04 R80, 09 R203, 11 R241-R243, 12 R269, 15 R325, R334, 18 R376, 19 R386-R400, 20 R411, R412,
21 R421, 22 R436, R440; the machine's standard registers from the RISC-V privileged architecture, log entry 9). -/

namespace Sys2Proof.Machine

/-- Writable bits of the loop-nest table (09 R203): index from CSR 0x820. -/
def nestMask (k : Nat) : Word :=
  if k = 0 then ones 4 28
  else if k ≤ 6 then ones 0 16
  else if k = 7 ∨ k = 9 then ones 0 48
  else if k = 8 ∨ k = 10 then ones 0 36
  else if k = 11 then ones 0 18
  else if k ≤ 29 then ones 0 32
  else 0

/-- The captured copies of a shape register lose REGRANT with it (03 R61; DEDUCED). -/
def Core.clearRegrant (c : Core) (n : Nat) : Core :=
  let off (m : SMap Word) : SMap Word := if (SMap.find m n).isSome then SMap.put m n (setFld (SMap.get m n 0) 58 1 0) else m
  let cap (k : Cmd) : Cmd := { k with cap := { k.cap with shp := off k.cap.shp } }
  { c with shp := off c.shp, cmds := c.cmds.map cap, log := c.log.map cap }

/-! ## Interrupts pending (19 R395, R399, 20 R406) -/

/-- mip as it reads: the standard bits that State holds, and the three that the module computes. -/
def State.mipNow (s : State) (lcore : Nat) : Word :=
  let c := s.coreAt lcore
  let b (v : Bool) (k : Nat) : Word := if v then ones k 1 else 0
  (c.mip &&& (ones 3 1 ||| ones 7 1 ||| ones 11 1)) ||| b (c.fbuf.length > 0) 16 ||| b c.preip 17 ||| b (s.mcip lcore) 18

/-! ## Rings (12 R269) -/

/-- RINGCFG as it reads. -/
def Ring.cfg (r : Ring) : Word :=
  BitVec.ofNat 64 ((if r.shared then 2 ^ 30 else 0) + (if r.en then 2 ^ 29 else 0) + r.size2.toNat * 2 ^ 24 + r.base.toNat)

/-- What a ring must satisfy to be enabled. -/
def Ring.legal (r : Ring) : Bool :=
  let z := 2 ^ r.size2.toNat
  12 ≤ r.size2.toNat && r.size2.toNat ≤ 20 && r.base.toNat % z = 0 &&
  r.head.toNat % 8 = 0 && r.tail.toNat % 8 = 0 && r.clm.toNat % 8 = 0 &&
  (r.tail - r.head).toNat ≤ (r.clm - r.head).toNat && (r.clm - r.head).toNat ≤ z

/-- A write of RINGCFG. Clearing EN and setting the ring up again leaves its claims and its filled record as they are, and ends
the hold of the unit that used it (DESIGN CHOICE, log entry 30). -/
def Ring.writeCfg (r : Ring) (v : Word) : Ring :=
  if r.en then { r with en := v.getLsbD 29 }
  else
    let r1 := { r with user := none, shared := v.getLsbD 30, size2 := v.extractLsb' 24 5, base := v.setWidth 21 }
    { r1 with en := v.getLsbD 29 && r1.legal }

/-- A write of HEAD (0), TAIL (1) or CLM (2): ignored while the ring is enabled. -/
def Ring.writeCount (r : Ring) (k : Nat) (v : BitVec 32) : Ring :=
  if r.en then r
  else match k with
    | 0 => { r with head := v }
    | 1 => { r with tail := v }
    | _ => { r with clm := v }

/-- A CSR write changes the selected ring, and what a rollback of the core's phase returns it to. -/
def State.writeRing (s : State) (f : Ring → Ring) : State :=
  let k := s.me.ringsel.toNat
  let s1 := s.setRing k (f (s.ring k))
  if (SMap.find s.me.ph.rings0 k).isSome then
    s1.updMe (fun c => { c with ph := { c.ph with rings0 := SMap.put c.ph.rings0 k (f (SMap.get c.ph.rings0 k {})) } })
  else s1

/-! ## Fault records (19 R393) -/

/-- A record as four doublewords. -/
def FRec.words (r : FRec) : List Word :=
  [ r.va &&& ones 0 55,
    BitVec.ofNat 64 (r.gen.toNat * 2 ^ 48 + (if r.void then 2 ^ 47 else 0) + r.level.toNat * 2 ^ 10 + r.acc.toNat * 2 ^ 7 + engCode r.eng),
    BitVec.ofNat 64 (r.seq.toNat * 2 ^ 32 + r.prog.toNat),
    r.eaddr &&& ones 0 52 ]

/-! ## Machine-check banks (20 R411, R412) -/

/-- The bank that MCBSEL names, if it names one: MC14 and MC15 read zero. -/
def Core.mcSel (c : Core) : Option (Nat × Nat) :=
  let d := c.mcbsel.toNat / 16
  let b := c.mcbsel.toNat % 16
  if d ≤ 8 ∧ b < 14 then some (d, b) else none

/-- A write of MCSTATUS: bits 63 and 62 are W1C. -/
def McBank.clear (b : McBank) (v : Word) : McBank := { b with status := b.status &&& ~~~(v &&& ones 62 2) }
/-- CLRCNT. -/
def McBank.clearCount (b : McBank) : McBank := { b with status := setFld b.status 30 8 0 }
/-- A write of MCCTL. -/
def McBank.control (b : McBank) (v : Word) : McBank :=
  let b1 := if v.getLsbD 2 then b.clearCount else b
  { b1 with ceint := v.getLsbD 1, cnint := v.getLsbD 0 }

/-- A change of the selected bank. -/
def State.updSelBank (s : State) (f : McBank → McBank) : State :=
  match s.me.mcSel with
  | some (d, b) => s.setBank d b (f (s.bankAt d b))
  | none => s

/-! ## Reading -/

/-- mcycle: the register's offset and the cycles since reset, unless it is inhibited. -/
def State.mcycleNow (s : State) (c : Core) : Word :=
  if c.mcountinhibit.getLsbD 0 then c.mcycle else c.mcycle + BitVec.ofNat 64 s.now

/-- misa: RV64 with A, C, I, M and U (06 R112). -/
def misaValue : Word := BitVec.ofNat 64 (2 * 2 ^ 62 + 2 ^ 0 + 2 ^ 2 + 2 ^ 8 + 2 ^ 12 + 2 ^ 20)

/-- The value of a machine-level standard CSR, if it exists. mhartid reads LCORE, and mvendorid, marchid, mimpid and mconfigptr read
0 (DESIGN CHOICE, log entry 9). -/
def stdCsr (s : State) (n : Nat) : Option Word :=
  let c := s.me
  match n with
  | 0x300 => some (c.mstatus ||| BitVec.ofNat 64 (2 * 2 ^ 32))
  | 0x301 => some misaValue
  | 0x304 => some c.mie
  | 0x305 => some c.mtvec
  | 0x306 => some c.mcounteren
  | 0x30A => some c.menvcfg
  | 0x320 => some c.mcountinhibit
  | 0x340 => some c.mscratch
  | 0x341 => some c.mepc
  | 0x342 => some c.mcause
  | 0x343 => some c.mtval
  | 0x344 => some (s.mipNow s.cur.lcore)
  | 0xB00 => some (s.mcycleNow c)
  | 0xB02 => some c.minstret
  | 0xF11 => some 0
  | 0xF12 => some 0
  | 0xF13 => some 0
  | 0xF14 => some (BitVec.ofNat 64 s.cur.lcore)
  | 0xF15 => some 0
  | _ => if (0xB03 ≤ n ∧ n ≤ 0xB1F) ∨ (0x323 ≤ n ∧ n ≤ 0x33F) then some 0 else none

/-- The module's energy over cycles since reset: 0 at reset, and never falling (22 R440). -/
def energyTo : Nat → Nat
  | 0 => 0
  | n + 1 => energyTo n + Config.energyIn n
/-- ENERGY now, in millijoules. -/
def State.energy (s : State) : Word := BitVec.ofNat 64 (energyTo s.now)

/-- The value of a user-level CSR of the spec, if the core may reach it. -/
def unitCsr (s : State) (n : Nat) : Option Word :=
  let c := s.me
  let ring (f : Ring → Word) : Option Word := if s.hasRing c.ringsel.toNat then some (f (s.ring c.ringsel.toNat)) else none
  match n with
  | 0x800 => some c.fmode
  | 0x801 => some c.srseed
  | 0x802 => some (c.seqno.setWidth 64)
  | 0x803 => some (c.fxflags.setWidth 64)
  | 0x804 => some (c.astat.setWidth 64)
  | 0x805 => some c.brseq
  | 0x850 => some c.vslim
  | 0x860 => some (c.ringsel.setWidth 64)
  | 0x861 => ring Ring.cfg
  | 0x862 => ring (fun r => r.head.setWidth 64)
  | 0x863 => ring (fun r => r.tail.setWidth 64)
  | 0x864 => ring (fun r => r.clm.setWidth 64)
  | 0x870 => some (c.thsel.setWidth 64)
  | 0xCC0 => some (BitVec.ofNat 64 c.vcycle)
  | 0xCC1 => some (BitVec.ofNat 64 s.cur.lcore)
  | 0xCC2 => some (BitVec.ofNat 64 (clusterOf s.cur.lcore))
  | 0xCC8 => some s.hub.ready
  | 0xCC9 => some c.brtab
  | 0xCD1 => some (if c.thsel.toNat ≤ 8 then (if c.thsel.toNat = 8 then SMap.get s.hub.thermal 0 0 else (s.dieAt c.thsel.toNat).thstat) else 0)
  | 0xCD2 => some (if c.thsel.toNat ≤ 8 then (if c.thsel.toNat = 8 then SMap.get s.hub.thermal 1 0 else (s.dieAt c.thsel.toNat).thrcnt) else 0)
  | 0xCD3 => some s.energy
  | _ =>
    if 0x810 ≤ n ∧ n ≤ 0x817 then some (SMap.get c.shp (n - 0x810) 0)
    else if 0x818 ≤ n ∧ n ≤ 0x81F then some (SMap.get c.shq (n - 0x818) 0)
    else if 0x820 ≤ n ∧ n ≤ 0x83F then some (SMap.get c.nest (n - 0x820) 0)
    else if 0x840 ≤ n ∧ n ≤ 0x84F then some (if n % 2 = 0 then SMap.get c.wbase ((n - 0x840) / 2) 0 else SMap.get c.wsize ((n - 0x840) / 2) 0)
    else if 0xCC4 ≤ n ∧ n ≤ 0xCC7 then some (SMap.get c.sigh (n - 0xCC4) 0)
    else none

/-- The value of a machine-level CSR of 19 R397, if its number is listed. -/
def machCsr (s : State) (n : Nat) : Option Word :=
  let c := s.me
  let bank (f : McBank → Word) : Option Word := some (match c.mcSel with
    | some (d, b) => f (s.bankAt d b)
    | none => 0)
  match n with
  | 0x7C0 => some c.ptroot
  | 0x7C1 => some (c.gen ++ (0 : BitVec 43) ++ BitVec.ofNat 5 c.fbuf.length)
  | 0x7C2 => some (c.fbsel.setWidth 64)
  | 0x7C7 => some (c.fbn.setWidth 64)
  | 0x7C8 => some (BitVec.ofNat 64 ((if c.tlbbusy then 2 ^ 63 else 0) + (if c.tlbwide then 4 else 0) + c.tlbmode.toNat))
  | 0x7C9 => some c.tlbva
  | 0x7D0 => some (c.upcsel.setWidth 64)
  | 0x7E0 => some (BitVec.ofNat 64 ((if c.ctxbusy then 2 ^ 63 else 0) + c.ctxstat.toNat * 2 ^ 60))
  | 0x7E1 => some c.ctxptr
  | 0x7E2 => some (c.ctxlen.setWidth 64)
  | 0x7F0 => some (c.mcbsel.setWidth 64)
  | 0x7F1 => bank (·.status)
  | 0x7F2 => bank (·.addr)
  | 0x7F3 => bank (·.misc)
  | 0x7F4 => bank (fun b => BitVec.ofNat 64 ((if b.ceint then 2 else 0) + (if b.cnint then 1 else 0)))
  | 0x7F5 => bank (·.phys)
  | _ =>
    if 0x7C3 ≤ n ∧ n ≤ 0x7C6 then some (match c.fbuf[c.fbsel.toNat]? with
      | some r => r.words.getD (n - 0x7C3) 0
      | none => 0)
    else if 0x7D1 ≤ n ∧ n ≤ 0x7D6 then some ((c.line c.upcEng).upc.words.getD (n - 0x7D1) 0)
    else none

/-- What a CSR number reads in a mode: none where the access is illegal. -/
def csrGet (s : State) (m : Mode) (n : Nat) : Option Word :=
  if m = .U ∧ n / 256 % 4 ≠ 0 then none
  else if 0x7C0 ≤ n ∧ n ≤ 0x7FF then machCsr s n
  else match unitCsr s n with
    | some v => some v
    | none => stdCsr s n

/-! ## Writing -/

/-- What a CSR write comes to. -/
inductive CsrRes where
  | ok (s : State)
  | wait (s : State)
deriving DecidableEq, Repr

/-- A write of a machine-level standard CSR. -/
def Core.setStd (c : Core) (now : Nat) (n : Nat) (v : Word) : Core :=
  match n with
  | 0x300 =>
    let m := ones 3 1 ||| ones 7 1 ||| ones 21 1
    let m := if fld v 11 2 = 0 ∨ fld v 11 2 = 3 then m ||| ones 11 2 else m
    { c with mstatus := blend c.mstatus v m }
  | 0x304 => { c with mie := v &&& (ones 3 1 ||| ones 7 1 ||| ones 11 1 ||| ones 16 3) }
  | 0x305 => { c with mtvec := v &&& ~~~(2 : Word) }
  | 0x306 => { c with mcounteren := v &&& ones 0 3 }
  | 0x30A => { c with menvcfg := v &&& 1 }
  | 0x320 =>
    let total := if c.mcountinhibit.getLsbD 0 then c.mcycle else c.mcycle + BitVec.ofNat 64 now
    { c with
        mcycle := if v.getLsbD 0 then total else total - BitVec.ofNat 64 now
        mcountinhibit := v &&& 5 }
  | 0x340 => { c with mscratch := v }
  | 0x341 => { c with mepc := v &&& ~~~(1 : Word) }
  | 0x342 => { c with mcause := v }
  | 0x343 => { c with mtval := v }
  | 0xB00 => { c with mcycle := if c.mcountinhibit.getLsbD 0 then v else v - BitVec.ofNat 64 now }
  | 0xB02 => { c with minstret := v }
  | _ => c

/-- FMODE's writable bits; SUB 11 leaves the field unchanged (03 R64). -/
def fmodeWrite (old v : Word) : Word :=
  let v := v &&& ones 0 11
  if fld v 3 2 = 3 then setFld v 3 2 (fld old 3 2) else v

/-- A write of a user-level CSR of the spec. -/
def setUnit (s : State) (n : Nat) (v : Word) : State :=
  match n with
  | 0x800 => s.updMe (fun c => { c with fmode := fmodeWrite c.fmode v })
  | 0x801 => s.updMe (fun c => { c with srseed := v })
  | 0x803 => s.updMe (fun c => { c with fxflags := c.fxflags &&& ~~~(v.setWidth 6) })
  | 0x804 => s.updMe (fun c => { c with astat := c.astat &&& ~~~(v.setWidth 2) })
  | 0x850 => s.updMe (fun c => { c with vslim := v &&& ones 0 55 })
  | 0x860 => s.updMe (fun c => { c with ringsel := v.setWidth 6 })
  | 0x861 => s.writeRing (fun r => r.writeCfg v)
  | 0x862 => s.writeRing (fun r => r.writeCount 0 (v.setWidth 32))
  | 0x863 => s.writeRing (fun r => r.writeCount 1 (v.setWidth 32))
  | 0x864 => s.writeRing (fun r => r.writeCount 2 (v.setWidth 32))
  | 0x870 => s.updMe (fun c => { c with thsel := v.setWidth 4 })
  | _ =>
    if 0x810 ≤ n ∧ n ≤ 0x817 then (if v.getLsbD 58 then s.updMe (fun c => c.clearRegrant (n - 0x810)) else s)
    else if 0x820 ≤ n ∧ n ≤ 0x83D then s.updMe (fun c => { c with nest := SMap.put c.nest (n - 0x820) (v &&& nestMask (n - 0x820)) })
    else s

/-- CTXCTL (19 R400). -/
def Core.writeCtxctl (c : Core) (v : Word) : Core :=
  if c.ctxbusy then c
  else match v.getLsbD 1, v.getLsbD 0 with
    | false, true => { c with ctxbusy := true, ctxsave := true, ctxrt := false, preip := false }
    | true, false => { c with ctxbusy := true, ctxsave := false, ctxrt := false }
    | _, _ => c

/-- A write of a machine-level CSR of 19 R397. -/
def setMach (s : State) (n : Nat) (v : Word) : CsrRes :=
  match n with
  | 0x7C0 => .ok (s.updMe (fun c => { c with ptroot := v &&& (ones 16 48 ||| 1) }))
  | 0x7C2 => .ok (s.updMe (fun c => { c with fbsel := v.setWidth 4 }))
  | 0x7C7 =>
    if v.getLsbD 63 then
      match flushBatch s (fld v 0 5) with
      | some s1 => .ok s1
      | none => .wait (s.drainSbuf s.cur.lcore)
    else .ok (s.updMe (fun c => { c with fbn := v.setWidth 5 }))
  | 0x7C8 =>
    if fld v 0 2 = 3 then .ok s
    else match startInval s (fld v 0 2) (v.getLsbD 2) with
      | some s1 => .ok s1
      | none => .wait (s.drainSbuf s.cur.lcore)
  | 0x7C9 => .ok (s.updMe (fun c => { c with tlbva := v &&& ones 0 55 }))
  | 0x7D0 => .ok (if fld v 0 2 = 3 then s else s.updMe (fun c => { c with upcsel := v.setWidth 2 }))
  | 0x7E0 => .ok (s.updMe (fun c => c.writeCtxctl v))
  | 0x7E1 => .ok (s.updMe (fun c => { c with ctxptr := v &&& ones 6 46 }))
  | 0x7E2 => .ok (s.updMe (fun c => { c with ctxlen := v.setWidth 32 }))
  | 0x7F0 => .ok (s.updMe (fun c => { c with mcbsel := v.setWidth 8 }))
  | 0x7F1 => .ok (s.updSelBank (fun b => b.clear v))
  | 0x7F4 => .ok (s.updSelBank (fun b => b.control v))
  | _ => if 0x7D1 ≤ n ∧ n ≤ 0x7D6 then .ok (s.updMe (fun c => c.writeUpc (n - 0x7D1) v)) else .ok s

/-- A write of a CSR that the mode may write: none where the access is illegal. -/
def csrSet (s : State) (m : Mode) (n : Nat) (v : Word) : Option CsrRes :=
  if n / 1024 = 3 ∨ (csrGet s m n).isNone then none
  else if 0x7C0 ≤ n ∧ n ≤ 0x7FF then some (setMach s n v)
  else if (unitCsr s n).isSome then some (.ok (setUnit s n v))
  else some (.ok (s.updMe (fun c => c.setStd s.now n v)))

/-! ## Operations of the table -/

/-- A write that an operation makes for the core: an access that the core's mode may not make is the illegal-instruction
trap, with the CSR number as its value. -/
def csrOp (n : Nat) (v : Word) (s : State) : Out :=
  match csrSet s s.me.mode n v with
  | some (.ok s1) => s1.done
  | some (.wait s1) => s1.waits
  | none => s.trap 2 (BitVec.ofNat 64 n)

/-- CSR_WRITE (00 R10). -/
def execCsrWrite (num : BitVec 12) (v : Word) (s : State) : Out := csrOp num.toNat v s
/-- RINGCFG_WRITE (12 R269). -/
def execRingcfgWrite (v : Word) (s : State) : Out := csrOp 0x861 v s
/-- MCCTL_CLRCNT (20 R412): CLRCNT alone; CEINT and CNINT stay as they stand. -/
def execMcctlClrcnt (s : State) : Out := machineOnly 0x7F4 s (s.updSelBank McBank.clearCount).done

end Sys2Proof.Machine
end

