-- ==== Sys2Proof/Machine/Sched.lean ====
section
/-! DEFINITION. The launch scheduler: acceptance of launches (18 R370-R374, R381, 22 R436), placement, resources and unit
start (R376-R382), the watchdog (02 R50) and pre-emption (R383, R384). -/

namespace Sys2Proof.Machine

/-! ## Extents of a kernel (17 R355) -/

/-- Evaluates an expression's items on a stack; none for a division by zero, or for a run that is no expression. -/
def evalItems (param : Word → Word) : List Word → List Word → Option Word
  | [], _ => none
  | i :: t, st =>
    let c := i.toNat % 256
    match c, st with
    | 0, [v] => some v
    | 1, _ => evalItems param t (BitVec.ofInt 64 (i.toInt / 256) :: st)
    | 2, _ => evalItems param t (param i :: st)
    | 3, b :: a :: r => evalItems param t ((a + b) :: r)
    | 4, b :: a :: r => evalItems param t ((a - b) :: r)
    | 5, b :: a :: r => evalItems param t ((a * b) :: r)
    | 6, b :: a :: r => if b = 0 then none else evalItems param t ((a / b) :: r)
    | _, _ => none

/-- The smallest extent that holds a list's nonempty ones (01 R21): none for an expression without a value or an extent
outside R249's bounds. -/
def coverOf (param : Word → Word) (l : List (List Word × List Word)) : Option (Nat × Nat) :=
  l.foldl (fun (acc : Option (Nat × Nat)) e =>
    match acc, evalItems param e.1 [], evalItems param e.2 [] with
    | some (lo, hi), some b, some n =>
      if n = 0 then some (lo, hi)
      else if Config.spadBytes < b.toNat + n.toNat then none
      else if lo = hi then some (b.toNat, b.toNat + n.toNat)
      else some (min lo b.toNat, max hi (b.toNat + n.toNat))
    | _, _, _ => none) (some (0, 0))

/-- The read and write extents of each phase of a kernel. -/
def extentsOf (param : Word → Word) (k : Kernel) : Option (List Extents) :=
  k.phases.mapM (fun p => (coverOf param p.1).bind (fun a => (coverOf param p.2).map (fun b => (a, b))))

/-- The back store that a kernel needs: its largest write set in whole granules (02 R33). -/
def backOf (xs : List Extents) : Nat :=
  xs.foldl (fun m x => max m (if x.2.1 = x.2.2 then 0 else (x.2.2 + 63) / 64 * 64 - x.2.1 / 64 * 64)) 0

/-- A PARAM item at acceptance: the parameter of a bound window, 0 past its size (11 R241). -/
def paramAt (s : State) (root : Nat) (windows : List (Word × Word)) (i : Word) : Word :=
  let w := windows.getD (fld i 8 3) (0, 0)
  let n := 2 ^ fld i 11 2
  let o := fld i 13 16
  if w.2.toNat < o + n then 0
  else match jobRead s root (w.1.toNat + o) n with
    | some bs => BitVec.ofNat 64 (leNat bs)
    | none => BitVec.ofNat 64 ((Config.unreadParam s.draws i).toNat % 2 ^ (8 * n))

/-! ## Acceptance (18 R372) -/

namespace Refuse
def badDesc : Nat := 16
def noKernel : Nat := 17
def shape : Nat := 18
def extentBad : Nat := 19
def backStore : Nat := 20
def placement : Nat := 21
def dupLid : Nat := 22
def priority : Nat := 23
def stageMix : Nat := 24
end Refuse

/-- A kernel handle of a job (17 R363): the load and the kernel. -/
def kernelOf (j : Job) (h : BitVec 32) : Option (Load × Kernel) :=
  let n := h.toNat / 65536
  if n = 0 then none
  else (j.loads[n - 1]?).bind (fun d => (d.kernels[h.toNat % 65536]?).map (fun k => (d, k)))

/-- The windows of a descriptor. -/
def descWindows (dw : List Word) : List (Word × Word) :=
  (List.range 8).map (fun n => (dw.getD (16 + 2 * n) 0, dw.getD (17 + 2 * n) 0))

/-- The first BADDESC check: reserved fields, GANG 3, sizes and alignments. -/
def launchBad (dw : List Word) : Bool :=
  let d (k : Nat) : Word := dw.getD k 0
  let nunit := fld (d 1) 32 11
  fld (d 0) 0 20 ≠ 0 || d 1 &&& ~~~(ones 0 11 ||| ones 32 11) ≠ 0 || fld (d 2) 32 32 ≠ 0 || fld (d 3) 11 53 ≠ 0 ||
  d 5 &&& ~~~(ones 0 8 ||| ones 16 12) ≠ 0 || fld (d 8) 55 9 ≠ 0 || fld (d 8) 0 4 ≠ 0 || fld (d 0) 26 2 = 3 ||
  nunit = 0 || Config.cores < nunit || fld (d 13) 0 16 ≠ 0 || fld (d 14) 0 16 ≠ 0 || fld (d 15) 0 4 ≠ 0 ||
  (descWindows dw).any (fun w => fld w.1 55 9 ≠ 0 || 65536 < w.2.toNat)

/-- A launch as its descriptor gives it, before its kernel is known. -/
def launchOf (job : Nat) (dw : List Word) : Launch :=
  let d (k : Nat) : Word := dw.getD k 0
  let w := d 12
  { job := job
    lid := (d 0).extractLsb' 32 32
    pri := fld (d 0) 28 4
    gang := fld (d 0) 26 2
    tol := (d 0).getLsbD 25
    notify := (d 0).getLsbD 24
    stage := fld (d 5) 0 8
    graph := fld (d 5) 16 12
    lc0 := fld (d 1) 0 11
    nunit := fld (d 1) 32 11
    handle := (d 2).setWidth 32
    fmode := d 3
    srseed := d 4
    lstat := d 8 &&& ones 0 55
    evs := d 9
    rings := d 10
    dcs := d 11
    alms := w.setWidth 16
    vssize := fld w 16 16 * 4096
    vsres := fld w 32 16 * 4096
    sssize := fld w 48 16 * 16
    stride := d 13
    vstop0 := d 14
    sstop0 := d 15
    windows := descWindows dw }

/-- The LIDs that a descriptor names as predecessors. -/
def descPreds (dw : List Word) : List (BitVec 32) :=
  (List.range 4).filterMap (fun k =>
    if (dw.getD 0 0).getLsbD (20 + k) then some ((dw.getD (6 + k / 2) 0).extractLsb' (32 * (k % 2)) 32) else none)

/-- The job's most recent launch with a LID; one refused with DUPLID does not count (18 R381). -/
def recentLaunch (s : State) (job : Nat) (lid : BitVec 32) : Option (Nat × Launch) :=
  (s.hub.launches.filter (fun l => l.2.job = job && l.2.lid = lid && l.2.status ≠ Refuse.dupLid)).getLast?

/-- The open instance of a graph or stage number of a job. -/
def openInst (s : State) (job : Nat) (stage : Bool) (num : Nat) : Option (Nat × Inst) :=
  s.hub.insts.find? (fun i => i.2.job = job && i.2.isStage = stage && i.2.num = num && i.2.isOpen)

/-- Cores in one gang (18 R376). -/
def gangSize (g : Nat) : Nat := 4 ^ g

/-- Units of a launch in one cluster. -/
def unitsIn (l : Launch) (k : Nat) : Nat := ((List.range l.nunit).filter (fun u => clusterOf (l.lc0 + u) = k)).length

/-- A launch with what its kernel adds: stacks, requests, extents and the back store. -/
def Launch.withKernel (l : Launch) (k : Kernel) (xs : List Extents) : Launch :=
  { l with vssize := if l.vssize = 0 then k.vssize else l.vssize
           vsres := if l.vsres = 0 then k.vsres else l.vsres
           sssize := if l.sssize = 0 then k.sssize else l.sssize
           reqs := k.reqs.map (fun q => (q.1, asRequest q.2, grantOf 1 (asRequest q.2)))
           extents := xs
           back := backOf xs }

/-- The checks of R372 in their order: the refusal, or the accepted launch with its load. -/
def checkDesc (s : State) (j : Job) (l : Launch) (dw : List Word) : Except Nat (Launch × Load) :=
  if launchBad dw then .error Refuse.badDesc
  else if s.hub.launches.any (fun o => o.2.job = l.job && o.2.lid = l.lid && o.2.live) then .error Refuse.dupLid
  else if (openInst s l.job false l.graph).any (fun g => g.2.stage ≠ l.stage) then .error Refuse.stageMix
  else if l.pri < j.attr.maxpri then .error Refuse.priority
  else match kernelOf j l.handle with
    | none => .error Refuse.noKernel
    | some (d, k) =>
      if (List.range 8).any (fun n => k.wmask.getLsbD n ≠ ((l.windows.getD n (0, 0)).2 ≠ 0)) then .error Refuse.badDesc
      else if l.lc0 < j.attr.jlo || min j.attr.jhi Config.cores < l.lc0 + l.nunit || l.lc0 % gangSize l.gang ≠ 0 ||
          l.nunit % gangSize l.gang ≠ 0 then .error Refuse.placement
      else if k.reqs.any (fun q => grantOf 1 (asRequest q.2) = 0) then .error Refuse.shape
      else match extentsOf (paramAt s j.root l.windows) k with
        | none => .error Refuse.extentBad
        | some xs =>
          if (List.range l.nunit).any (fun u => 0x100000 < backOf xs * unitsIn l (clusterOf (l.lc0 + u))) then .error Refuse.backStore
          else .ok (l.withKernel k xs, d)

/-- The header of a launch's signature and its digest (22 R436). -/
def headerOf (s : State) (l : Launch) (d : Load) : List Byte :=
  let shp : SMap Word := l.reqs.foldl (fun m q => SMap.put m q.1 q.2.2) []
  leBytes 4 s.hub.release.toNat ++ [BitVec.ofNat 8 Config.generation, BitVec.ofNat 8 l.gang] ++ leBytes 2 l.nunit ++
  leBytes 8 l.fmode.toNat ++ (List.range 8).flatMap (fun k => leBytes 4 (d.profiles.getD k 0).toNat) ++
  (List.range 8).flatMap (fun k => leBytes 8 (SMap.get shp k 0).toNat)

def sighOf (s : State) (l : Launch) (d : Load) : SMap Word :=
  (wordsOf 4 (shake256 (headerOf s l d) 32)).zipIdx.map (fun p => (p.2, p.1))

/-- A graph or stage instance opens. -/
def openNew (s : State) (i : Inst) : State × Nat :=
  let n := s.hub.nextInst
  ({ s with hub := { s.hub with insts := SMap.put s.hub.insts n i, nextInst := n + 1 } }, n)

/-- An accepted launch joins its graph, a graph that opens its stage, and a stage that opens the job (18 R374). -/
def joinGraph (s : State) (l : Launch) : State × Nat :=
  match openInst s l.job false l.graph with
  | some (n, g) =>
    let g1 := { g with count := g.count + 1 }
    (writeInstRec (s.setInst n g1) g1, n)
  | none =>
    let (s1, st) := match openInst s l.job true l.stage with
      | some (n, i) =>
        let i1 := { i with count := i.count + 1 }
        (writeInstRec (s.setInst n i1) i1, n)
      | none =>
        let i : Inst := { job := l.job, isStage := true, num := l.stage, count := 1 }
        let (t, n) := openNew s i
        let t1 := match t.jobAt l.job with
          | some j => writeJobRec (t.setJob l.job { j with count := j.count + 1 }) l.job
          | none => t
        (writeInstRec t1 i, n)
    let g : Inst := { job := l.job, isStage := false, num := l.graph, stage := l.stage, parent := st, count := 1 }
    let (s2, n) := openNew s1 g
    (writeInstRec s2 g, n)

/-- A launch takes its number among the launches. -/
def addLaunch (s : State) (l : Launch) : State :=
  { s with hub := { s.hub with launches := SMap.put s.hub.launches s.hub.nextLaunch l, nextLaunch := s.hub.nextLaunch + 1 } }

/-- A refused launch: its record, but for one whose LSTAT is misaligned, and its place among the launches. -/
def refuse (s : State) (l : Launch) (dw : List Word) (st : Nat) : State :=
  let s1 := if st = Refuse.badDesc && fld (dw.getD 8 0) 0 4 ≠ 0 then s else writeRec s l.job l.lstat 0 st l.lid
  addLaunch s1 { l with status := st, nunit := 0 }

/-- An accepted launch: its predecessors, its membership, its record and its header; one whose predecessor ended
CANCELLED or was refused is cancelled (18 R381), and one that is eligible begins to wait. -/
def accept (s : State) (l : Launch) (d : Load) (dw : List Word) : State :=
  let preds := (descPreds dw).filterMap (fun q => (recentLaunch s l.job q).map (·.1))
  let (s1, g) := joinGraph s l
  let l1 := { l with preds := preds, graphI := g, sigh := sighOf s l d, units := (List.range l.nunit).map (fun u => (u, UnitSt.pending)) }
  let s2 := writeLaunchRec (addLaunch s1 l1) l1
  enlist (cascade s2 1)

/-- The scheduler's part of SUBMIT: the state and the status. -/
def submitDesc (s : State) (job : Nat) (j : Job) (va : Word) : State × Nat :=
  if va.toNat % 256 ≠ 0 then (s, Refuse.badDesc)
  else match jobPa s j.root va.toNat { rd := true }, jobRead s j.root va.toNat 256 with
    | some (pa, _), some bs =>
      if (s.memSub hubDie pa 256).isSome then
        (s.log schedBank.1 schedBank.2 { cls := 2, code := 1, sub := 1, addr := BitVec.ofNat 64 pa }, Refuse.badDesc)
      else
        let dw := wordsOf 32 bs
        let l := launchOf job dw
        let s0 := { s with draws := s.draws + 1 }
        match checkDesc s j l dw with
        | .error st => (refuse s0 l dw st, st)
        | .ok (l1, d) => (accept s0 l1 d dw, St.pending)
    | _, _ => (s, Refuse.badDesc)

/-- SUBMIT (21 R425). A job that the module does not hold maps no descriptor. -/
def execSubmit (r : Req) (job : Nat) (va : Word) (s : State) : Out :=
  withOwner r 0x0031 [Ready.sched] s
    (let (s1, st) := match s.openJob job with
      | some j => submitDesc s job j va
      | none => (s, Refuse.badDesc)
     (s1.reply r 0x0031 (if st = St.pending then .ok else .code st)).done)

/-- CANCEL of the owner's (18 R375): the status of R120. -/
def execCancelMsg (r : Req) (job : Nat) (level : Level) (sel : Word) (s : State) : Out :=
  withOwner r 0x0032 [Ready.sched] s
    (let (st, q) := resolveCancel s (some job) (some job) level sel
     let s1 := if st = 0 then acceptCancel s q else s
     (s1.reply r 0x0032 (if st = 0 then .ok else .code st)).done)

/-! ## Waiting units (18 R378, R382) -/

/-- A unit that waits for a core. -/
structure Waiter where
  n     : Nat
  idx   : Nat
  l     : Launch
  since : Nat
  saved : Bool
deriving DecidableEq, Repr

/-- Effective level (18 R382). -/
def Waiter.level (w : Waiter) (now : Nat) : Nat := w.l.pri - (now - w.since) / 2 ^ 24

/-- The units that wait for a core. -/
def waitersOn (s : State) (lcore : Nat) : List Waiter :=
  s.hub.launches.filterMap (fun p =>
    if p.2.live && p.2.lc0 ≤ lcore then
      match SMap.find p.2.units (lcore - p.2.lc0) with
      | some (UnitSt.waiting t b) => some { n := p.1, idx := lcore - p.2.lc0, l := p.2, since := t, saved := b }
      | _ => none
    else none)

/-- The order in which a core serves its waiters: level, then the time of waiting, then the LID. -/
def Waiter.before (now : Nat) (a b : Waiter) : Bool :=
  a.level now < b.level now || (a.level now = b.level now &&
    (a.since < b.since || (a.since = b.since && a.l.lid.toNat ≤ b.l.lid.toNat)))

def insertWaiter (now : Nat) (w : Waiter) : List Waiter → List Waiter
  | [] => [w]
  | h :: t => if w.before now h then w :: h :: t else h :: insertWaiter now w t

def served (s : State) (lcore : Nat) : List Waiter := (waitersOn s lcore).foldr (insertWaiter s.now) []

/-- The SELFTESTs of a core that have not retired: sequence number, whether it is a chain's entry, the cluster, and whether it is
still queued. -/
def Core.tests (c : Core) : List (BitVec 32 × Bool × Nat × Bool) :=
  c.cmds.flatMap (fun m =>
    (if m.frame.kind = 10 then [(m.seq, false, fld m.frame.dw10 0 6, decide (m.st = CmdSt.queued))] else []) ++
    (match m.chain.bind (·.cur) with
     | some e => if e.frame.kind = 10 then [(m.seq, true, fld e.frame.dw10 0 6, decide (e.st = CmdSt.queued))] else []
     | none => []))

/-- A SELFTEST of a core that names a cluster of its die is eligible, and has not retired (22 R434). -/
def testsCluster (s : State) (lcore cl : Nat) : Bool :=
  (s.coreAt lcore).tests.any (fun (q, x, k, queued) =>
    k = cl && (!queued || eligibleItem { s with cur := { lcore := lcore, eng := .X, seq := q, entry := x } }))

/-- A SELFTEST holds a cluster: from the moment it becomes eligible until it retires (22 R434). -/
def State.underTest (s : State) (k : Nat) : Bool :=
  let die := k / Config.clustersPerDie
  let cl := k % Config.clustersPerDie
  (s.dieAt die).lamp.any (fun t => fld t.dw10 0 6 = cl) ||
  s.core.any (fun p => dieOf p.1 = die && testsCluster s p.1 cl) ||
  s.hub.launches.any (fun l => l.2.kept.any (fun u => dieOf (l.2.lc0 + u.1) = die && u.2.tests.any (fun t => t.2.2.1 = cl && !t.2.2.2)))

/-- Whether two launches name a common resource (18 R378). -/
def Launch.clash (a b : Launch) : Bool := a.evs &&& b.evs ≠ 0 || a.rings &&& b.rings ≠ 0 || a.dcs &&& b.dcs ≠ 0 || a.alms &&& b.alms ≠ 0

/-- Whether the resources of a launch are free of other live launches in a cluster, and no test holds it. -/
def resourcesFree (s : State) (n : Nat) (l : Launch) (k : Nat) : Bool :=
  !s.underTest k && s.hub.launches.all (fun p => p.1 = n || !p.2.live || !p.2.clusters.contains k || !p.2.clash l)

/-- The highest place of a back store in the upper half of a cluster (18 R378). -/
def backPlace (backs : List (Nat × Nat × Nat)) (len : Nat) : Option Nat :=
  if len = 0 then some Config.spadBytes
  else
    let ok (top : Nat) : Bool := Config.backBase + len ≤ top && backs.all (fun b => top ≤ b.2.1 || b.2.1 + b.2.2 ≤ top - len)
    let tops := (Config.spadBytes :: backs.map (fun b => b.2.1)).filter ok
    match tops with
    | [] => none
    | t :: ts => some (ts.foldl max t - len)

/-- A core that runs no unit, is not kept for one, and whose handler for an earlier unit has returned. -/
def Core.free (c : Core) : Bool := c.unit.isNone && c.restoring.isNone && !c.ctxbusy && !c.orphan

/-- The other units of a unit's gang, and itself. -/
def gangUnits (l : Launch) (idx : Nat) : List Nat :=
  let g := gangSize l.gang
  (List.range g).map (fun k => idx / g * g + k)

/-- Whether a gang on some cores is being saved: some member is saved and some still runs. No unit starts there (18 R384). -/
def gangSaving (s : State) (lcore : Nat) : Bool :=
  s.hub.launches.any (fun p => p.2.live && p.2.gang ≠ 0 && p.2.lc0 ≤ lcore && lcore < p.2.lc0 + p.2.nunit &&
    (let us := gangUnits p.2 (lcore - p.2.lc0)
     let st (u : Nat) : UnitSt := SMap.get p.2.units u .complete
     us.any (fun u => match st u with | .waiting _ true => true | _ => false) && us.any (fun u => st u = .running)))

/-- A launch's resources in a cluster are allocated, and reset (18 R378). -/
def allocResources (s : State) (n k : Nat) : State :=
  match s.launchAt n with
  | none => s
  | some l =>
    if l.clusters.contains k then s
    else
      let cl := s.clusterAt k
      let drop {α : Type} (m : SMap α) (w : Word) : SMap α := m.filter (fun p => !w.getLsbD p.1)
      (s.setLaunch n { l with clusters := l.clusters ++ [k] }).setCluster k
        { cl with ev := cl.ev &&& ~~~l.evs, evBy := drop cl.evBy l.evs, ring := drop cl.ring l.rings,
                  dc := drop cl.dc l.dcs, dcWait := drop cl.dcWait l.dcs,
                  alm := cl.alm.filter (fun p => !l.alms.getLsbD p.1) }

/-- Room for one unit's resources and back store in its cluster; the place of the back store. -/
def placeUnit (s : State) (n : Nat) (l : Launch) (lcore : Nat) : Option Nat :=
  let k := clusterOf lcore
  if resourcesFree s n l k then backPlace (s.clusterAt k).backs l.back else none

def reserveBack (s : State) (lcore base len : Nat) : State :=
  let k := clusterOf lcore
  let cl := s.clusterAt k
  if len = 0 then s else s.setCluster k { cl with backs := cl.backs ++ [(lcore, base, len)] }

/-! ## Unit start (18 R379, R380, 16 R345) -/

/-- The instruction images of a job's first `n` loads (17 R366). -/
def Job.images (j : Job) (n : Nat) : List (Nat × List Byte) := (j.loads.take n).flatMap (·.text)

/-- The instruction store with the images of a job's first `n` loads in its user part. -/
def installText (m : Mem) (j : Job) (n : Nat) : Mem :=
  (j.images n).foldl (fun m t => m.writeN t.1 t.2) (m.filter (fun c => c.1 < Config.userText))

/-- A core as a unit starts on it. The launch's FMODE stands as its descriptor gives it, also with the reserved SUB 11, which
no check of R372 names (DESIGN CHOICE, log entry 118). -/
def startCore (s : State) (c : Core) (j : Job) (l : Launch) (n u : Nat) (k : Kernel) (base : Nat) : Core :=
  let vtop := l.vstop0 + BitVec.ofNat 64 u * l.stride
  let stop := l.sstop0 + BitVec.ofNat 64 u * l.stride
  let xs : SMap Word := ((List.range 32).drop 1).map (fun r => (r, if r = 4 then vtop else if r = 2 then stop else Config.startX r))
  let text := installText c.istore j j.loads.length
  ({ c with
      x := xs
      mepc := k.entry
      mstatus := setFld (setFld c.mstatus 11 2 0) 17 1 0
      mie := c.mie ||| ones 16 3
      mtvec := BitVec.ofNat 64 Config.runtimeTrap
      istore := text
      ifetch := text
      sbuf := []
      resv := none
      rmt := none
      rmtans := none
      seqno := 0
      nests := []
      gone := []
      fifoA := []
      fifoM := []
      fifoV := []
      fifoX := []
      fmode := l.fmode
      srseed := l.srseed
      fxflags := 0
      astat := 0
      brseq := 0
      shp := l.reqs.foldl (fun m q => SMap.put m q.1 q.2.2) []
      shq := l.reqs.foldl (fun m q => SMap.put m q.1 q.2.1) []
      nest := []
      wbase := (l.windows.zipIdx.map (fun w => (w.2, w.1.1)))
      wsize := (l.windows.zipIdx.map (fun w => (w.2, w.1.2)))
      vslim := (vtop - BitVec.ofNat 64 l.vssize) &&& ones 0 55
      ringsel := 0
      thsel := 0
      brtab := j.brtab
      sigh := l.sigh
      vcycle := 0
      ptroot := BitVec.ofNat 64 (j.asid.toNat * 2 ^ 52 + j.root + 1)
      preip := false
      dirty := 0
      gang := 0
      gangord := 0
      gangask := none
      orphan := false
      gangans := none
      gangword := none
      gangdone := false
      handling := []
      lineA := {}
      lineM := {}
      lineV := {}
      g := []
      ap := []
      v := []
      vBad := []
      p := []
      st := []
      q := {}
      tok := {}
      astores := []
      fl := 0
      bufS := {}
      bufF := {}
      bufG := {}
      mc0 := {}
      mc1 := {}
      mpstat := 0x80008000
      flights := []
      mwork := []
      cmds := []
      log := []
      ph := {}
      sig := []
      fwait := []
      hits := []
      ctlHit := false
      unit := some { job := l.job, launch := n, lid := l.lid, idx := u, pri := l.pri, kend := k.stop, entry := k.entry, ends := k.ends, backBase := base,
                     backLen := l.back, vslim0 := (vtop - BitVec.ofNat 64 l.vssize) &&& ones 0 55, vsres := l.vsres, progress := s.now,
                     loads := j.loads.length } }
    : Core).mretStatus

/-- Maps the stack pages of a unit, RC and writable; none where frames are lacking. -/
def mapStacks (s : State) (j : Job) (l : Launch) (u : Nat) : Option State :=
  let vtop := (l.vstop0 + BitVec.ofNat 64 u * l.stride).toNat
  let stop := (l.sstop0 + BitVec.ofNat 64 u * l.stride).toNat
  (mapMissing j.asid j.root j.home (vtop - (l.vssize + l.vsres)) (min vtop (l.vssize + l.vsres)) s).bind
    (mapMissing j.asid j.root j.home (stop - l.sssize) (min stop l.sssize))

/-- From a launch's first unit on, its record and those of its graph, stage and job read RUNNING (18 R373). -/
def markRunning (s : State) (n : Nat) : State :=
  match s.launchAt n with
  | none => s
  | some l =>
    if l.status ≠ St.pending then s
    else
      let l1 := { l with status := St.running }
      let s1 := writeLaunchRec (s.setLaunch n l1) l1
      let up (t : State) (k : Nat) : State := match t.instAt k with
        | some i => if i.status = St.pending then (let i1 := { i with status := St.running }; writeInstRec (t.setInst k i1) i1) else t
        | none => t
      let s2 := up s1 l.graphI
      let s3 := up s2 (((s1.instAt l.graphI).map (·.parent)).getD 0)
      match s3.jobAt l.job with
      | some j => if j.status = St.pending then writeJobRec (s3.setJob l.job { j with status := St.running }) l.job else s3
      | none => s3

/-- One unit starts on its core, its place found. -/
def startUnit (s : State) (n : Nat) (l : Launch) (u base : Nat) : Option State :=
  let lcore := l.lc0 + u
  match s.jobAt l.job with
  | none => none
  | some j =>
    match (kernelOf j l.handle).map (·.2), mapStacks s j l u with
    | some k, some s1 =>
      let s2 := rebindWindows (if l.status = St.pending then protectWindows s1 j n l else s1) l.job
      let s3 := markRunning s2 n
      let s4 := match s3.launchAt n with
        | some l3 => s3.setLaunch n { l3 with units := SMap.put l3.units u .running }
        | none => s3
      let s5 := reserveBack (allocResources (s4.drainSbuf lcore) n (clusterOf lcore)) lcore base l.back
      some { s5.setCore lcore (startCore s5 (s5.coreAt lcore) j l n u k base) with draws := s5.draws + 1 }
    | _, _ => none

/-- The runtime's image of a saved unit stands at CTXPTR, and its restore begins (18 R384, 19 R402). The instruction store holds
the images of the loads that were complete when the unit started (17 R366). -/
def beginRestore (s : State) (n : Nat) (l : Launch) (u : Nat) : State :=
  let lcore := l.lc0 + u
  let kept := SMap.get l.kept u {}
  let text := match s.jobAt l.job with
    | some j => installText (s.coreAt lcore).istore j ((kept.unit.map (·.loads)).getD 0)
    | none => (s.coreAt lcore).istore
  s.updCore lcore (fun c => { c with restoring := some (n, u), ctxbusy := true, ctxsave := false, ctxrt := true,
                                     ctxptr := kept.ctxptr, ptroot := kept.ptroot, istore := text, ifetch := text })

/-- The units of a group start together: a fresh unit as R379 says, a saved one by its restore. -/
def startGroup (n : Nat) (s : State) : List Nat → Option State
  | [] => some s
  | u :: t =>
    match s.launchAt n with
    | none => none
    | some l =>
      match SMap.find l.units u with
      | some (.waiting _ true) =>
        (placeUnit s n l (l.lc0 + u)).bind (fun _ => startGroup n (beginRestore s n l u) t)
      | some (.waiting _ false) =>
        (placeUnit s n l (l.lc0 + u)).bind (fun b => (startUnit s n l u b).bind (fun s1 => startGroup n s1 t))
      | _ => none

/-- Whether a core can take a unit: it is free, its die and the scheduler are ready, and no gang on it is half saved. -/
def canTake (s : State) (lcore : Nat) : Bool :=
  (s.coreAt lcore).free && s.isReady Ready.sched && s.isReady (Ready.die (dieOf lcore)) && !gangSaving s lcore

/-- The members of a waiter's group that are still to run. -/
def Waiter.group (w : Waiter) : List Nat :=
  (gangUnits w.l w.idx).filter (fun u => match SMap.find w.l.units u with
    | some (.waiting _ _) => true
    | _ => false)

/-- The waiter that a core serves next: a unit outside a gang that lacks resources does not keep its core from the next waiter, and
a gang's unit does (18 R378, R382; log entry 41). -/
def chosen (s : State) (lcore : Nat) : Option Waiter :=
  (served s lcore).find? (fun w => w.l.gang ≠ 0 || (startGroup w.n s [w.idx]).isSome)

/-- Every core of a waiter's group can take its unit and has chosen it. -/
def Waiter.ready (w : Waiter) (s : State) : Bool :=
  w.group.all (fun u => canTake s (w.l.lc0 + u) && (chosen s (w.l.lc0 + u)).any (fun x => x.n = w.n && x.idx = u))

/-- UNIT_START (18 R379, R382): the chosen waiter starts, a gang's unit with those of its gang. -/
def execUnitStart (s : State) : Out :=
  if !canTake s s.cur.lcore then s.waits
  else match chosen s s.cur.lcore with
    | none => s.waits
    | some w =>
      if !w.ready s then s.waits
      else match startGroup w.n s w.group with
        | some s1 => s1.done
        | none => s.waits

/-! ## The watchdog (02 R50) -/

/-- A SELFTEST of a core's unit is running: that counts as progress (22 R434). -/
def testRuns (s : State) (lcore : Nat) : Bool :=
  (s.dieAt (dieOf lcore)).lamp.any (fun t => t.lcore = some lcore && t.ends.isSome)

/-- UNITHANG (02 R50). -/
def execUnithang (s : State) : Out :=
  let lcore := s.cur.lcore
  match s.me.unit with
  | none => s.waits
  | some u =>
    let wd := ((s.jobAt u.job).bind (·.attr.wdlog2)).getD 26
    if s.now - u.progress < 2 ^ wd || testRuns s lcore then s.waits
    else (dealWith (logFault s lcore 15 schedBank 0 { code := 34 }) lcore 34).done

/-! ## Pre-emption (18 R383, R384) -/

/-- A waiter for whose sake the unit on a core is pre-empted: its effective level is at least 3 below the unit's priority. -/
def aged (s : State) (lcore : Nat) (u : Run) : Bool := (waitersOn s lcore).any (fun w => w.level s.now + 3 ≤ u.pri)

/-- PREEMPT: PREIP rises on the core, or on every core on which a member of the unit's gang runs, in one step. -/
def execPreempt (s : State) : Out :=
  match s.me.unit with
  | none => s.waits
  | some u =>
    if s.me.preip || s.me.ctxbusy || !aged s s.cur.lcore u then s.waits
    else match s.launchAt u.launch with
      | none => s.waits
      | some l =>
        let cores := ((gangUnits l u.idx).map (fun k => l.lc0 + k)).filter (fun n => (s.coreAt n).unit.any (fun r => r.launch = u.launch))
        (cores.foldl (fun t n => t.updCore n (fun c => { c with preip := true })) s).done

end Sys2Proof.Machine
end

