-- ==== Sys2Proof/Machine/Context.lean ====
section
/-! DEFINITION. Saving and restoring a unit (19 R399-R405, 15 R329, R330, 03 R61, 18 R384): the image, its sections and
their compression, CTX_SAVE, CTX_SAVE_WRITE and CTX_RESTORE. What the image does not hold of a saved unit, the
scheduler keeps beside it (log entry 42). -/

namespace Sys2Proof.Machine

/-! ## Bytes -/

def nBytes (n : Nat) (l : List Nat) : List Byte := l.flatMap (leBytes n)
def vecBytes (v : Vec) : List Byte := leBytes 256 v.toNat
/-- Zero bytes up to a multiple of `m`. -/
def padTo (m : Nat) (l : List Byte) : List Byte := l ++ List.replicate ((m - l.length % m) % m) 0

def dwAt (b : List Byte) (o : Nat) : Word := BitVec.ofNat 64 (leNat ((b.drop o).take 8))
def dwsAt (b : List Byte) (o n : Nat) : List Word := wordsOf n (b.drop o)
def vecAt (b : List Byte) (o : Nat) : Vec := BitVec.ofNat 2048 (leNat ((b.drop o).take 256))

/-! ## Compression (19 R403) -/

/-- A list cut into parts of `n`, the last padded with zeros. -/
def granules : Nat → List Byte → List (List Byte)
  | 0, _ => []
  | n + 1, l => padTo 64 (l.take 64) :: granules n (l.drop 64)

/-- The first code that fits a granule, and its payload. -/
def granCode (g : List Byte) : Nat × List Byte :=
  let rep (n : Nat) : Bool := (List.range 64).all (fun k => g.getD k 0 = g.getD (k % n) 0)
  if g.all (· = 0) then (0, [])
  else if rep 2 then (3, g.take 2)
  else if rep 4 then (1, g.take 4)
  else (2, g)

/-- The code map: two bits a granule, granule 0 lowest. -/
def codeMap (cs : List Nat) : List Byte :=
  padTo 8 (leBytes ((cs.length + 3) / 4) (cs.foldr (fun c m => c + 4 * m) 0))

def compress (raw : List Byte) : List Byte :=
  let gs := (granules ((raw.length + 63) / 64) raw).map granCode
  padTo 8 (codeMap (gs.map (·.1)) ++ gs.flatMap (·.2))

/-- Bytes of a code's payload. -/
def payLen : Nat → Nat
  | 0 => 0 | 1 => 4 | 2 => 64 | _ => 2

/-- A granule from its code and payload. -/
def granOut (c : Nat) (p : List Byte) : List Byte :=
  if c = 0 then List.replicate 64 0 else (List.range 64).map (fun k => p.getD (k % payLen c) 0)

/-- Granules from a list of codes and the bytes of their payloads; none where the bytes run out. What is left follows. -/
def expand : List Nat → List Byte → Option (List Byte × List Byte)
  | [], b => some ([], b)
  | c :: t, b =>
    if b.length < payLen c then none
    else (expand t (b.drop (payLen c))).map (fun r => (granOut c (b.take (payLen c)) ++ r.1, r.2))

/-- A body's raw contents: none where the body does not decode. -/
def decompress (rawLen : Nat) (body : List Byte) : Option (List Byte) :=
  let n := (rawLen + 63) / 64
  let m := upTo ((n + 3) / 4) 8
  if body.length < m then none
  else
    let map := leNat (body.take m)
    if 4 ^ n ≤ map then none
    else match expand ((List.range n).map (fun k => map / 4 ^ k % 4)) (body.drop m) with
      | some (raw, rest) => if rest.length < 8 && rest.all (· = 0) && body.length % 8 = 0 then some (raw.take rawLen) else none
      | none => none

/-! ## Saving (19 R400-R402) -/

/-- The CSRs of section 1, ascending. -/
def ucsrNums : List Nat :=
  (List.range 6).map (0x800 + ·) ++ (List.range 46).map (0x810 + ·) ++ (List.range 17).map (0x840 + ·) ++ [0x860, 0xCC0, 0xCC9]

def cellsBytes (m : SMap Cell32) : List Byte := nBytes 4 ((List.range 4096).map (fun k => (SMap.get m k 0).toNat))
def cellsAt (b : List Byte) (o : Nat) : SMap Cell32 :=
  ((List.range 4096).map (fun k => (k, BitVec.ofNat 32 (leNat ((b.drop (o + 4 * k)).take 4))))).filter (fun p => p.2 ≠ 0)

def queueCodes : List Nat := [0x300, 0x301, 0x302, 0x303, 0x304, 0x305, 0x306]
/-- Whether entries of a queue carry a mask (02 R44). -/
def queueMasked (q : Nat) : Bool := q = 0x304 || q = 0x305

def secQueue (c : Core) : List Byte :=
  queueCodes.flatMap (fun q =>
    let l := c.q.at q
    leBytes 8 l.length ++ (List.range 16).flatMap (fun k =>
      let x := l.getD k {}
      vecBytes x.data ++ (if queueMasked q then leBytes 8 x.mask.toNat else []))) ++
  nBytes 8 ((List.range 6).map (fun k => (c.tok.at k).length)) ++ leBytes 8 c.fl.toNat

def segWord (l : Line) : Word := l.segcrc ++ l.segvc

def secArray (c : Core) : List Byte :=
  cellsBytes c.bufS.cells ++ cellsBytes c.bufF.cells ++ cellsBytes c.bufG.cells ++ cellsBytes c.mc0.cells ++ cellsBytes c.mc1.cells ++
  leBytes 8 (c.bufS.tag.toNat + 16 * c.bufF.tag.toNat + 256 * c.bufG.tag.toNat + (if c.mc0.mirv then 2 ^ 16 else 0) + (if c.mc1.mirv then 2 ^ 17 else 0)) ++
  leBytes 8 c.mpstat.toNat

/-- Whether a command is a nest: its number is among the unit's nests. -/
def Core.isNest (c : Core) (e : Eng) (q : BitVec 32) : Bool := e = .M && c.nests.contains q

def cmdBytes (c : Core) (logged : Bool) (m : Cmd) : List Byte :=
  bytesOf m.frame.dws ++ bytesOf ((List.range 3).map (fun k => SMap.get m.cap.shp k 0)) ++
  bytesOf ((List.range 3).map (fun k => SMap.get m.cap.shq k 0)) ++ bytesOf [m.cap.fmode, m.cap.srseed] ++
  leBytes 8 ((if m.st ≠ .queued then 2 ^ 63 else 0) + (if logged then 2 ^ 62 else 0) + (if m.steps.isEmpty then m.rows else 0) % 2 ^ 62) ++
  (if c.isNest (engOf m.frame.engCode) m.seq then bytesOf ((List.range 30).map (fun k => SMap.get (m.cap.nest.getD []) k 0)) else [])

def secCmds (c : Core) : List Byte :=
  [Eng.A, Eng.M, Eng.V, Eng.X].flatMap (fun e =>
    let here (l : List Cmd) : List Cmd := l.filter (fun m => engOf m.frame.engCode = e)
    leBytes 8 ((here c.log).length + (here c.cmds).length) ++
    (here c.log).flatMap (cmdBytes c true) ++ (here c.cmds).flatMap (cmdBytes c false))

/-! ### In-flight records (15 R329) -/

/-- A record: KIND, INDEX, the auxiliary doubleword and the value. -/
structure InRec where
  kind  : Nat
  index : Nat
  aux   : Word := 0
  value : List Byte

/-- The record of one change, with the state in which it has landed. A change of some containers is recorded with the
whole register, row or bank as it then stands; of an add, with a value that adds nothing elsewhere. -/
def recOf (t : State) : Landing → Option InRec
  | .vreg n _ _ => some { kind := 0, index := n, value := vecBytes (t.me.vget n) }
  | .pred n _ _ => some { kind := 1, index := n, value := leBytes 8 (t.me.pget n).toNat }
  | .push q d m => some { kind := 2, index := q, aux := m, value := vecBytes d }
  | .acc row .ovw _ _ => some { kind := 3, index := row, value := t.accRead t.cur.lcore (256 * row) 256 }
  | .acc row mode d m =>
    let idle : Nat := if mode = .addI then 0 else 0x80000000
    some { kind := 3, index := row, aux := if mode = .addI then 3 else 1
           value := nBytes 4 ((List.range 64).map (fun k => if m.getLsbD k then elem d 32 k else idle)) }
  | .bank n _ => some { kind := 4, index := n, aux := if (if n = 0 then t.me.mc0 else t.me.mc1).mirv then 16 else 0
                        value := cellsBytes (if n = 0 then t.me.mc0 else t.me.mc1).cells }
  | .clrRow n _ _ => some { kind := 4, index := n, aux := if (if n = 0 then t.me.mc0 else t.me.mc1).mirv then 16 else 0
                            value := cellsBytes (if n = 0 then t.me.mc0 else t.me.mc1).cells }
  | .buf n b => some { kind := 5, index := n, aux := b.tag.setWidth 64, value := cellsBytes b.cells }
  | .mpstat v => some { kind := 6, index := 0, value := leBytes 8 v.toNat }
  | .flag _ _ => none
  | .post _ => none
  | .greg _ _ => none

/-- A flight that changes a flag, posts, or carries an element to a g register: it stays beside the image. -/
def Flight.pseudo (f : Flight) : Bool := f.lands.any (fun l => match l with
  | .flag _ _ | .post _ | .greg _ _ => true
  | _ => false)

/-- The results in flight in the order of their records: ascending REMAIN, in issue order within one, one landing each;
FLAGS stand in the first, and MPOLY.T's stop goes with the last, behind the landing of MPSTAT (10 R215). -/
def recFlights (c : Core) : List Flight :=
  (List.range 16).flatMap (fun r => (c.flights.filter (fun f => !f.pseudo && min 15 (f.due - c.vcycle) = r)).flatMap (fun f =>
    f.lands.zipIdx.map (fun p => { f with lands := [p.1], flags := if p.2 = 0 then f.flags else 0, stop := f.stop && p.2 + 1 = f.lands.length })))

/-- The record of one flight, and the state after it. -/
def recStep (acc : State × List Byte) (f : Flight) : State × List Byte :=
  let t := acc.1
  match f.lands with
  | l :: _ =>
    let t1 := match landOne (t.asFlight f) l with
      | .ok t2 _ => t2
      | _ => t
    match recOf t1 l with
    | some r =>
      let h := r.kind * 2 ^ 60 + engCode f.eng * 2 ^ 58 + f.flags.toNat * 2 ^ 52 + min 15 (f.due - t.me.vcycle) * 2 ^ 48 + r.index * 2 ^ 38
      (t1, acc.2 ++ padTo 64 (leBytes 8 h ++ leBytes 8 r.aux.toNat ++ r.value))
    | none => acc
  | [] => acc

def secInflight (s : State) : List Byte := ((recFlights s.me).foldl recStep (s, [])).2

/-! ### The other sections -/

def secHeld (c : Core) : List Byte :=
  leBytes 8 c.ph.held.length ++ c.ph.held.flatMap (fun h => leBytes 8 h.addr ++ leBytes 8 h.mask.toNat ++ leBytes 64 h.data.toNat)

def secSpadF (c : Core) (cl : Cluster) : List Byte :=
  ((List.range 512).filter (fun r => c.dirty.getLsbD r)).flatMap (fun r => leBytes 8 (4096 * r) ++ cl.spad.readN (4096 * r) 4096)

def secSpadB (c : Core) : List Byte := c.ph.back.flatMap (fun g => leBytes 8 (64 * g.1) ++ leBytes 64 g.2.data.toNat)

/-- Rings with SHARED clear that the phase touched: number, HEAD, TAIL and CLM as they were at its start. -/
def secPhase (c : Core) : List Byte :=
  bytesOf [c.ph.flags.setWidth 64, c.ph.stat.setWidth 64, BitVec.ofNat 64 c.ph.run, if c.ph.nonrepl then 1 else 0, c.ph.evSet, c.ph.evClr] ++
  nBytes 8 ((List.range 64).map (fun k => SMap.get c.ph.dec k 0)) ++ leBytes 8 c.ph.flags0.toNat ++
  leBytes 8 c.ph.rings0.length ++
  c.ph.rings0.flatMap (fun r => nBytes 8 [r.1, r.2.head.toNat, r.2.tail.toNat, r.2.clm.toNat])

/-- An Almanac entry's fields: the descriptor, NV, NEWEST and LAST, and the counters. -/
def liveBytes (a : AlmLive) : List Byte :=
  bytesOf ((List.range 8).map (fun k => SMap.get a.desc k 0)) ++
  nBytes 8 [a.nv.toNat + 4 * a.newest.toNat + 16 * a.last.toNat, a.hit.toNat + 2 ^ 32 * a.miss.toNat]

def secAlm (lcore : Nat) (cl : Cluster) : List Byte :=
  (cl.alm.filter (fun p => p.2.live.owner = some lcore)).flatMap (fun p => leBytes 8 p.1 ++ liveBytes p.2.live ++ liveBytes p.2.start)

def secMisc (c : Core) : List Byte :=
  [Eng.A, Eng.M, Eng.V, Eng.X].flatMap (fun e =>
    leBytes 8 (c.fifo e).length ++ bytesOf ((List.range 16).map (fun k => (c.fifo e).getD k 0))) ++
  [Eng.A, Eng.M, Eng.V].flatMap (fun e => match (c.line e).trap with
    | some t => bytesOf [t.cause, t.val]
    | none => bytesOf [0, 0]) ++
  leBytes 8 (c.gang.toNat + 2 ^ 32 * c.gangord.toNat)

/-- The raw contents of the sections, ascending. -/
def sectionsOf (s : State) : List (List Byte) :=
  let c := s.me
  let cl := s.myCluster
  [ bytesOf (ucsrNums.map (fun n => (unitCsr s n).getD 0)),
    bytesOf ([Eng.A, Eng.M, Eng.V].flatMap (fun e => (c.line e).upc.words)) ++ bytesOf [segWord c.lineM, segWord c.lineV],
    nBytes 8 ((List.range 64).map (fun k => (c.pget k).toNat)) ++ nBytes 8 ((List.range 16).map (fun k => (c.apget k).toNat)),
    bytesOf ((List.range 32).map c.gget),
    (List.range 768).flatMap (fun k => vecBytes (c.vget k)),
    secQueue c,
    secArray c,
    c.acc.readN 0 Config.accBytes,
    bytesOf ((List.range 16).flatMap (fun k => [(c.stream k).1, (c.stream k).2])),
    secCmds c,
    secInflight s,
    secHeld c,
    secSpadF c cl,
    secSpadB c,
    secPhase c,
    secAlm s.cur.lcore cl,
    c.dstore.readN 0 Config.dstoreBytes,
    secMisc c ]

/-- First byte of the sections (19 R401). -/
def imageHead : Nat := 576

/-- The sections of an image, with the one of TYPE 0 that ends it. -/
def imageBody (s : State) : List Byte :=
  (sectionsOf s).zipIdx.flatMap (fun p =>
    let b := compress p.1
    nBytes 8 [p.2 + 1 + 2 ^ 32 * p.1.length, b.length] ++ b) ++ nBytes 8 [0, 0]

/-- The header of an image of a unit. -/
def imageHeader (lcore : Nat) (u : Run) (total : Nat) : List Byte :=
  nBytes 8 [1 + Config.generation * 2 ^ 16, total, u.lid.toNat * 2 ^ 32 + u.idx, lcore, 0, 0, 0, 0]

/-- CTX_SAVE (19 R400): a write of CTXCTL.SAVE. -/
def execCtxSave (s : State) : Out := machineOnly 0x7E0 s (s.updMe (fun c => c.writeCtxctl 1)).done

/-- A unit of engine M is busy (09 R190): with a word, or with a step or a drain of a nest. -/
def Core.unitsBusy (c : Core) : Bool :=
  c.mwork.any (fun m => !m.formed || c.vcycle < m.t + m.o) ||
  c.cmds.any (fun m => m.nest.any (fun n => c.vcycle < n.free || n.drains.any (fun d => d.1 < c.vcycle)))

/-- The virtual cycle lies inside a delay (05 R93, 06 R124): an engine of the execute domain runs, and none that runs would
issue its next bundle in it. -/
def Core.between (c : Core) : Bool :=
  let running := [c.lineM, c.lineV].filter (fun l => l.st = .run)
  !running.isEmpty && running.all (fun l => c.vcycle < l.next)

/-- A speculation of the unit is unresolved, decided or not: one that it has decided, or that a pushed command names (13 R275,
R281, R289). -/
def Core.specOpen (c : Core) : Bool :=
  c.unit.any (fun u => u.specs.any (fun q => !q.resolved)) ||
  c.cmds.any (fun m => m.frame.spec && ((c.spec m.specId).map (!·.resolved)).getD true)

/-- What a save waits for (19 R400 step 2, 15 R329): a commit under way, a busy unit of engine M, a request at Wick, an
unresolved speculation, and a virtual cycle at which a bundle would issue. -/
def saveWaits (s : State) : Bool :=
  let c := s.me
  c.ph.stage ≠ .run || c.unitsBusy || c.between || c.specOpen ||
  (s.dieAt (dieOf s.cur.lcore)).wick.any (fun w => w.lcore = s.cur.lcore) ||
  s.myCluster.alm.any (fun p => p.2.live.owner = some s.cur.lcore && p.2.spec.isSome) || s.isDue

/-- What a cluster keeps for a unit changes its name. -/
def renameOwner (s : State) (k old new : Nat) : State :=
  let cl := s.clusterAt k
  s.setCluster k { cl with
    dcWait := cl.dcWait.map (fun p => if p.2 = old then (p.1, new) else p)
    dues := cl.dues.map (fun p => if p.1 = old then (new, p.2) else p)
    alm := cl.alm.map (fun p => if p.2.live.owner = some old then
      (p.1, { p.2 with live := { p.2.live with owner := some new }, start := { p.2.start with owner := some new } }) else p) }

/-- Frames of 64 KiB that the runtime takes for an image (log entry 43). -/
def imagePages : Nat := 64
/-- They are given back; a runtime that found none had given CTXLEN 0. -/
def freeImage (s : State) (c : Core) : State := if c.ctxlen = 0 then s else freeFrame s c.ctxptr.toNat

/-- The runtime goes on after a save or restore that it began: it returns as its handler does. -/
def runtimeReturns (c : Core) : Core := { (c.mretStatus.popHandling) with ctxrt := false }

/-- The cores of a unit's gang. -/
def gangCores (s : State) (u : Run) : List (Nat × Nat) :=
  match s.launchAt u.launch with
  | none => []
  | some l => (gangUnits l u.idx).map (fun k => (l.lc0 + k, k))

/-- Members of a withdrawn gang that are saved go back to their cores at once (18 R384). -/
def restoreMembers (s : State) (u : Run) : State :=
  match s.launchAt u.launch with
  | none => s
  | some l =>
    (gangUnits l u.idx).foldl (fun t k =>
      match SMap.find l.units k with
      | some (.waiting _ true) => if (t.coreAt (l.lc0 + k)).free then beginRestore t u.launch l k else t
      | _ => t) s

/-- NOSPACE: nothing of the unit changes; the pre-emption of a gang is withdrawn (18 R384). -/
def saveFails (s : State) (u : Run) : State :=
  let s1 := s.updMe (fun c => { c with ctxbusy := false, ctxsave := false, ctxstat := 1 })
  let s2 := if s.me.ctxrt then (freeImage s1 s.me).updMe runtimeReturns else s1
  restoreMembers ((gangCores s2 u).foldl (fun t n => t.updCore n.1 (fun c => { c with preip := false })) s2) u

/-- Whether a gang's pre-emption was withdrawn: a member runs that is neither asked to leave nor leaving. -/
def gangWithdrawn (s : State) (u : Run) : Bool :=
  ((s.launchAt u.launch).map (·.gang)).getD 0 ≠ 0 &&
  (gangCores s u).any (fun n =>
    let c := s.coreAt n.1
    c.unit.any (fun r => r.launch = u.launch) && !c.preip && !(c.ctxbusy && c.ctxsave))

/-- A gang of which every member that is to run has been saved waits as a single waiter from now on (18 R384). -/
def gangWaits (s : State) (u : Run) : State :=
  match s.launchAt u.launch with
  | none => s
  | some l =>
    let us := gangUnits l u.idx
    let anew (m : SMap UnitSt) (k : Nat) : SMap UnitSt := match SMap.find m k with
      | some (.waiting _ true) => SMap.put m k (.waiting s.now true)
      | _ => m
    if us.any (fun k => SMap.find l.units k = some .running) then s else s.setLaunch u.launch { l with units := us.foldl anew l.units }

/-- OK: the unit leaves the core and waits again. -/
def saveDone (s : State) (u : Run) (total : Nat) : State :=
  let n := s.cur.lcore
  let c := s.me
  let kept : Core := { c with flights := recFlights c ++ c.flights.filter Flight.pseudo }
  let k := clusterOf n
  let cl := s.clusterAt k
  let s1 := renameOwner (s.setCluster k { cl with backs := cl.backs.filter (fun b => b.1 ≠ n) }) k n (n + Config.cores)
  let gone : Core := c.vacate
  let s2 := s1.setCore n (if c.ctxrt then
      { gone with ctxbusy := false, ctxsave := false, ctxstat := 0, ctxlen := BitVec.ofNat 32 total, ctxrt := false, orphan := false,
                  mode := .M, pc := BitVec.ofNat 64 Config.runtimeTrap }
    else { gone with ctxbusy := false, ctxsave := false, ctxstat := 0, ctxlen := BitVec.ofNat 32 total })
  let s3 := match s2.launchAt u.launch with
    | some l => s2.setLaunch u.launch { l with units := SMap.put l.units u.idx (.waiting s.now true), kept := SMap.put l.kept u.idx kept,
                                               sigs := SMap.put l.sigs u.idx c.sig }
    | none => s2
  if c.ctxrt && gangWithdrawn s3 u then restoreMembers s3 u else gangWaits s3 u

/-- CTX_SAVE_WRITE (19 R400 steps 2 to 4). -/
def execCtxSaveWrite (s : State) : Out :=
  if !s.me.ctxbusy || !s.me.ctxsave then s.waits
  else match s.me.unit with
    | none => (s.updMe (fun c => { c with ctxbusy := false, ctxsave := false, ctxstat := 0, ctxlen := 0 })).done
    | some u =>
      if saveWaits s then s.waits
      else
        let body := imageBody s
        let total := imageHead + body.length
        let a := s.me.ctxptr.toNat
        if s.me.ctxlen.toNat < total ∨ Config.hbmBytes < a + total then (saveFails s u).done
        else
          let s1 := (s.physWrite s.cur.lcore a (imageHeader s.cur.lcore u total) false).physWrite s.cur.lcore (a + imageHead) body false
          (saveDone s1 u total).done

/-! ## Restoring (19 R405) -/

/-- An image's sections: none where one is malformed, missing, repeated or out of order. -/
def parseSections (b : List Byte) : Nat → Nat → Option (List (List Byte))
  | fuel, k =>
    match fuel with
    | 0 => none
    | fuel + 1 =>
      let h := dwAt b 0
      let n := (dwAt b 8).toNat
      if b.length < 16 then none
      else if k = 19 then (if h = 0 ∧ n = 0 ∧ b.length = 16 then some [] else none)
      else if fld h 0 32 ≠ k ∨ b.length < 16 + n ∨ n % 8 ≠ 0 then none
      else match decompress (fld h 32 32) ((b.drop 16).take n), parseSections (b.drop (16 + n)) fuel (k + 1) with
        | some raw, some t => some (raw :: t)
        | _, _ => none

/-- The writable or readable bits of the CSRs of section 1. -/
def ucsrMask (n : Nat) : Word :=
  if n = 0x800 then ones 0 11
  else if n = 0x802 then ones 0 32
  else if n = 0x803 then ones 0 6
  else if n = 0x804 then ones 0 2
  else if n = 0x805 then ones 63 1 ||| ones 0 48
  else if 0x810 ≤ n ∧ n ≤ 0x817 then ones 0 59
  else if 0x818 ≤ n ∧ n ≤ 0x81F then ones 0 56
  else if 0x820 ≤ n ∧ n ≤ 0x83D then nestMask (n - 0x820)
  else if 0x840 ≤ n ∧ n ≤ 0x84F then (if n % 2 = 0 then ones 0 55 else ones 0 17)
  else if n = 0x850 then ones 0 55
  else if n = 0x860 then ones 0 6
  else if n = 0xCC9 then ones 0 55
  else ~~~0

/-- A command of section 10 as it is read. -/
structure CmdImg where
  eng   : Eng
  frame : Frame
  cap   : Captured
  prog  : Word

/-- One command from the bytes of the section; none where they run out. -/
def cmdAt (kept : Core) (e : Eng) (b : List Byte) : Option (CmdImg × List Byte) :=
  let f := Frame.ofList (dwsAt b 0 16)
  let d := dwsAt b 128 9
  let m (k : Nat) : SMap Word := [(0, d.getD k 0), (1, d.getD (k + 1) 0), (2, d.getD (k + 2) 0)]
  let nest := kept.isNest e (f.dw0.extractLsb' 32 32)
  let n := 200 + (if nest then 240 else 0)
  if b.length < n ∨ engOf f.engCode ≠ e then none
  else some ({ eng := e, frame := f, prog := d.getD 8 0
               cap := { shp := m 0, shq := m 3, fmode := d.getD 6 0, srseed := d.getD 7 0
                        nest := if nest then some ((dwsAt b 200 30).zipIdx.map (fun p => (p.2, p.1))) else none } }, b.drop n)

def cmdsAt (kept : Core) (e : Eng) : Nat → List Byte → Option (List CmdImg × List Byte)
  | 0, b => some ([], b)
  | n + 1, b => (cmdAt kept e b).bind (fun r => (cmdsAt kept e n r.2).map (fun t => (r.1 :: t.1, t.2)))

/-- The commands of the four engines. -/
def secCmdsAt (kept : Core) : List Eng → List Byte → Option (List CmdImg)
  | [], b => if b.isEmpty then some [] else none
  | e :: t, b =>
    let n := (dwAt b 0).toNat
    if b.length < 8 ∨ b.length < n then none
    else (cmdsAt kept e n (b.drop 8)).bind (fun r => (secCmdsAt kept t r.2).map (fun l => r.1 ++ l))

/-- Bytes of a record's value by its KIND; none for a reserved one. -/
def recSize : Nat → Option Nat
  | 0 => some 256 | 1 => some 8 | 2 => some 256 | 3 => some 256 | 4 => some 16384 | 5 => some 16384 | 6 => some 8 | _ => none

/-- The in-flight records: header, auxiliary doubleword and value. A record of a reserved KIND ends the list, which the
restore then refuses (15 R330). -/
def recsAt : Nat → List Byte → Option (List (Word × Word × List Byte))
  | 0, b => if b.isEmpty then some [] else none
  | fuel + 1, b =>
    if b.isEmpty then some []
    else if b.length < 16 ∨ fld (dwAt b 0) 0 38 ≠ 0 then none
    else match recSize (fld (dwAt b 0) 60 4) with
      | none => some [(dwAt b 0, 0, [])]
      | some v =>
        let n := upTo (16 + v) 64
        if b.length < n then none
        else (recsAt fuel (b.drop n)).map (fun t => (dwAt b 0, dwAt b 8, (b.drop 16).take v) :: t)

/-- A record whose KIND or INDEX is reserved or out of range. -/
def recBad (h : Word) : Bool :=
  let i := fld h 38 10
  match fld h 60 4 with
  | 0 => 767 < i
  | 1 => 63 < i
  | 2 => i < 0x300 || 0x306 < i
  | 3 => false
  | 4 => 1 < i
  | 5 => 2 < i
  | 6 => i ≠ 0
  | _ => true

/-- The landing of a record; `old` is that of the result as it was saved. An add is performed under the FMODE of its word's
command, flushed as every add to accumulator SRAM (04 R76), and on the containers that its word named alone: the others raise
no flag (04 R79, log entry 42). -/
def recLanding (fm : Word) (old : Option Landing) (r : Word × Word × List Byte) : Landing :=
  let i := fld r.1 38 10
  let v := vecAt r.2.2 0
  match fld r.1 60 4 with
  | 0 => .vreg i v (~~~0)
  | 1 => .pred i (dwAt r.2.2 0) (~~~0)
  | 2 => .push i v r.2.1
  | 3 =>
    let was : Word × Pred := match old with
      | some (.acc n (.addF _ fm) _ m) => if n = i then (fm, m) else (fm, allOnes)
      | some (.acc n .addI _ m) => (fm, if n = i then m else allOnes)
      | _ => (fm, allOnes)
    if !r.2.1.getLsbD 0 then .acc i .ovw v allOnes
    else .acc i (if r.2.1.getLsbD 1 then .addI else .addF true was.1) v was.2
  | 4 => .bank i { cells := cellsAt r.2.2 0, mirv := r.2.1.getLsbD 4, mir := if r.2.1.getLsbD 4 then cellsAt r.2.2 0 else [] }
  | 5 => .buf i { cells := cellsAt r.2.2 0, tag := r.2.1.setWidth 4 }
  | _ => .mpstat (dwAt r.2.2 0)

/-- A shape register regranted on restore (03 R61). -/
def regrant (side : Nat) (q saved : Word) : Word :=
  let g := grantOf side q
  let old := setFld saved 58 1 0
  if q = 0 ∧ old = 0 then 0 else if g = old then old else setFld g 58 1 1

def regrantAll (side : Nat) (shq shp : SMap Word) : SMap Word :=
  shp.map (fun p => (p.1, regrant side (SMap.get shq p.1 0) p.2))

/-- A queue from its section, with the pushers kept beside the image. -/
def queueAt (b : List Byte) (o : Nat) (masked : Bool) (old : List QEnt) : List QEnt :=
  let step := if masked then 264 else 256
  (List.range (dwAt b o).toNat).map (fun k =>
    let x := old.getD k {}
    { x with data := vecAt b (o + 8 + step * k), mask := if masked then dwAt b (o + 8 + step * k + 256) else fullMask })

/-- Where the queues of section 6 begin. -/
def queueOffs : List Nat := [0, 4104, 8208, 12312, 16416, 20648, 24880]

/-- The reserved bits of MPSTAT (10 R209). -/
def mpstatMask : Word := ~~~(ones 60 1 ||| ones 48 8)

/-- A command of section 10 holds no reserved bit: in its frame, what it captured, its nest's table, and its progress, of which
engine X alone keeps rows. -/
def CmdImg.clean (i : CmdImg) : Bool :=
  let under (m : SMap Word) (mask : Word) : Bool := m.all (fun p => p.2 &&& ~~~mask = 0)
  !reservedBad i.frame false && under i.cap.shp (ones 0 59) && under i.cap.shq (ones 0 56) && i.cap.fmode &&& ~~~(ones 0 11) = 0 &&
  (i.cap.nest.getD []).all (fun p => p.2 &&& ~~~(nestMask p.1) = 0) && (i.eng = .X || fld i.prog 0 62 = 0)

/-- An in-flight record of a KIND that is not reserved holds no reserved bit in its auxiliary doubleword (15 R329). -/
def recClean (r : Word × Word × List Byte) : Bool :=
  let mask : Word := match fld r.1 60 4 with
    | 2 => ~~~0
    | 3 => ones 0 2
    | 4 => ones 4 1
    | 5 => ones 0 4
    | _ => 0
  6 < fld r.1 60 4 || (r.2.1 &&& ~~~mask = 0 && (fld r.1 60 4 ≠ 6 || dwAt r.2.2 0 &&& ~~~mpstatMask = 0))

/-- An Almanac entry's fields in section 16 hold no reserved bit (13 R275, R276). -/
def liveClean (b : List Byte) (o : Nat) : Bool :=
  let w (k : Nat) : Word := dwAt b (o + 8 * k)
  w 0 &&& ones 0 6 = 0 && w 1 &&& ones 21 11 = 0 && w 2 &&& (ones 53 11 ||| ones 21 11) = 0 && w 3 &&& (ones 53 11 ||| ones 21 11) = 0 &&
  w 5 = 0 && w 6 = 0 && w 7 = 0 && w 8 &&& ~~~(ones 0 6) = 0

/-- The checks of the sections' contents: lengths, counts and reserved bits. -/
def sectionsOk (kept : Core) (x : List (List Byte)) : Bool :=
  let b (k : Nat) : List Byte := x.getD (k - 1) []
  let len (k : Nat) : Nat := (b k).length
  len 1 = 576 && len 2 = 160 && len 3 = 640 && len 4 = 256 && len 5 = 196608 && len 6 = 29040 && len 7 = 81936 &&
  len 8 = 262144 && len 9 = 256 && len 17 = 32768 && len 18 = 600 &&
  ucsrNums.zipIdx.all (fun p => dwAt (b 1) (8 * p.2) &&& ~~~(ucsrMask p.1) = 0) &&
  (List.range 3).all (fun e => fld (dwAt (b 2) (48 * e + 8)) 0 17 = 0 &&
    (List.range 4).all (fun k => fld (dwAt (b 2) (48 * e + 16 + 8 * k)) 1 14 = 0)) &&
  queueOffs.all (fun o => (dwAt (b 6) o).toNat ≤ 16) && (List.range 6).all (fun k => (dwAt (b 6) (28984 + 8 * k)).toNat ≤ 16) &&
  dwAt (b 7) 81920 &&& ~~~(ones 0 12 ||| ones 16 2) = 0 && dwAt (b 7) 81928 &&& ~~~mpstatMask = 0 &&
  (List.range 16).all (fun k => fld (dwAt (b 9) (16 * k)) 24 8 = 0 && fld (dwAt (b 9) (16 * k + 8)) 55 7 = 0) &&
  (secCmdsAt kept [.A, .M, .V, .X] (b 10)).any (fun l => l.all CmdImg.clean) && (recsAt (len 11) (b 11)).any (fun l => l.all recClean) &&
  len 12 = 8 + 80 * (dwAt (b 12) 0).toNat && (List.range (dwAt (b 12) 0).toNat).all (fun k => (dwAt (b 12) (8 + 80 * k)).toNat % 64 = 0) && len 13 % 4104 = 0 &&
  (List.range (len 13 / 4104)).all (fun k => (dwAt (b 13) (4104 * k)).toNat % 4096 = 0 && (dwAt (b 13) (4104 * k)).toNat < Config.spadBytes) &&
  len 14 % 72 = 0 &&
  (List.range (len 14 / 72)).all (fun k => (dwAt (b 14) (72 * k)).toNat % 64 = 0 && (dwAt (b 14) (72 * k)).toNat < Config.spadBytes) &&
  576 ≤ len 15 && len 15 = 576 + 32 * (dwAt (b 15) 568).toNat && dwAt (b 15) 0 &&& ~~~(ones 0 6) = 0 &&
  dwAt (b 15) 8 &&& ~~~(ones 0 2) = 0 && dwAt (b 15) 24 &&& ~~~(1 : Word) = 0 &&
  (List.range (dwAt (b 15) 568).toNat).all (fun k => (dwAt (b 15) (576 + 32 * k)).toNat < 64 &&
    (List.range 3).all (fun i => fld (dwAt (b 15) (584 + 32 * k + 8 * i)) 32 32 = 0)) &&
  len 16 % 168 = 0 && (List.range (len 16 / 168)).all (fun k => (dwAt (b 16) (168 * k)).toNat < 16 &&
    liveClean (b 16) (168 * k + 8) && liveClean (b 16) (168 * k + 88)) &&
  (List.range 4).all (fun e => (dwAt (b 18) (136 * e)).toNat ≤ 16) && dwAt (b 18) 592 &&& ~~~(ones 0 2 ||| ones 32 32) = 0

/-- A restored command: its fields from the image, the rest from what is kept. -/
def cmdIn (kept : Core) (side : Nat) (i : CmdImg) : Cmd :=
  let q : BitVec 32 := i.frame.dw0.extractLsb' 32 32
  let old := ((kept.cmds ++ kept.log).find? (fun m => m.seq = q)).getD { frame := i.frame, seq := q }
  { old with frame := i.frame
             cap := { i.cap with shp := regrantAll side i.cap.shq i.cap.shp }
             rows := if old.steps.isEmpty then fld i.prog 0 62 else old.rows
             st := if i.prog.getLsbD 63 then (if old.st = .queued then .running else old.st) else .queued }

/-- A line engine from its section. -/
def lineIn (e : Eng) (k : Nat) (x : List Byte) (misc : List Byte) (old : Line) : Line :=
  let u := (dwsAt x (48 * k) 6).zipIdx.foldl (fun (u : Upc) p => u.setWord e p.2 p.1) old.upc
  let seg : Word := if k = 0 then 0 else dwAt x (144 + 8 * (k - 1))
  let cause := dwAt misc (544 + 16 * k)
  { old with upc := u, buf := [], resumed := old.st ≠ .idle
             segcrc := if k = 0 then old.segcrc else seg.extractLsb' 32 32
             segvc := if k = 0 then old.segvc else seg.setWidth 32
             trap := if cause = 0 then none else some { cause := cause, val := dwAt misc (552 + 16 * k) } }

/-- The core once the unit of an image is installed on it (19 R405 steps 2 to 5). -/
def installCore (c kept : Core) (x : List (List Byte)) (base now : Nat) : Core :=
  let b (k : Nat) : List Byte := x.getD (k - 1) []
  let csr (n : Nat) : Word := match ucsrNums.findIdx? (· = n) with
    | some k => dwAt (b 1) (8 * k)
    | none => 0
  let side := sideOf ((dwAt (b 18) 592).setWidth 2)
  let imgs := (secCmdsAt kept [.A, .M, .V, .X] (b 10)).getD []
  let sorted (l : List CmdImg) : List Cmd := (l.map (cmdIn kept side)).foldr insertSeq []
  let cmds := sorted (imgs.filter (fun i => !i.prog.getLsbD 62))
  let log := sorted (imgs.filter (fun i => i.prog.getLsbD 62))
  let shq : SMap Word := (List.range 8).map (fun k => (k, csr (0x818 + k)))
  let vc := (csr 0xCC0).toNat
  let fmOf (e : Eng) : Word := ((cmds.find? (fun m => engOf m.frame.engCode = e && m.st = .running)).map (·.cap.fmode)).getD (csr 0x800)
  let flights := ((recsAt (b 11).length (b 11)).getD []).zipIdx.map (fun r =>
    let e : Eng := if fld r.1.1 58 2 = 2 then .V else .M
    let old := kept.flights.getD r.2 { eng := e, due := 0, lands := [] }
    { old with eng := e, due := vc + fld r.1.1 48 4, lands := [recLanding (fmOf e) (old.lands.head?) r.1], flags := BitVec.ofNat 6 (fld r.1.1 52 6), ready := true })
  let fifo (e : Nat) : List Word := dwsAt (b 18) (136 * e + 8) (dwAt (b 18) (136 * e)).toNat
  let toks (k : Nat) : List (BitVec 32) := (List.range (dwAt (b 6) (28984 + 8 * k)).toNat).map (fun i => (kept.tok.at k).getD i 0)
  let q := (queueCodes.zip queueOffs).foldl (fun (q : Queues) p => q.set p.1 (queueAt (b 6) p.2 (queueMasked p.1) (kept.q.at p.1))) {}
  let mc (old : Bank) (o k : Nat) : Bank :=
    let cells := cellsAt (b 7) o
    let mirv := (dwAt (b 7) 81920).getLsbD k
    { cells := cells, mirv := mirv, mir := if mirv then cells else [], bad := old.bad }
  let bf (old : Buf) (o k : Nat) : Buf := { bad := old.bad, cells := cellsAt (b 7) o, tag := (dwAt (b 7) 81920).extractLsb' k 4 }
  let held := (List.range (dwAt (b 12) 0).toNat).map (fun k =>
    let a := (dwAt (b 12) (8 + 80 * k)).toNat
    { addr := a, mask := dwAt (b 12) (16 + 80 * k), data := BitVec.ofNat 512 (leNat (((b 12).drop (24 + 80 * k)).take 64))
      repl := kept.ph.held.any (fun h => h.addr = a && h.repl)
      who := kept.ph.held.flatMap (fun h => if h.addr = a then h.who else [])
      bad := kept.ph.held.any (fun h => h.addr = a && h.bad) : Held })
  let back : SMap Gran := (List.range ((b 14).length / 72)).foldl (fun m k =>
    let n := (dwAt (b 14) (72 * k)).toNat / 64
    SMap.put m n { SMap.get kept.ph.back n {} with data := BitVec.ofNat 512 (leNat (((b 14).drop (72 * k + 8)).take 64)) }) []
  let ring0 (k : Nat) : Nat × Ring :=
    let o := 576 + 32 * k
    let n := (dwAt (b 15) o).toNat
    (n, { SMap.get kept.ph.rings0 n {} with
            head := (dwAt (b 15) (o + 8)).setWidth 32
            tail := (dwAt (b 15) (o + 16)).setWidth 32
            clm := (dwAt (b 15) (o + 24)).setWidth 32 })
  let ph : Phase := { kept.ph with
    back := back
    held := held
    flags := (dwAt (b 15) 0).setWidth 6
    stat := (dwAt (b 15) 8).setWidth 2
    run := (dwAt (b 15) 16).toNat
    nonrepl := (dwAt (b 15) 24).getLsbD 0
    evSet := dwAt (b 15) 32
    evClr := dwAt (b 15) 40
    dec := ((List.range 64).map (fun k => (k, (dwAt (b 15) (48 + 8 * k)).toNat))).filter (fun p => p.2 ≠ 0)
    flags0 := dwAt (b 15) 560
    rings0 := (List.range (dwAt (b 15) 568).toNat).foldl (fun m k => SMap.put m (ring0 k).1 (ring0 k).2) [] }
  let line (e : Eng) (k : Nat) (old : Line) : Line := lineIn e k (b 2) (b 18) old
  let regs : Core := { c with
    dstore := ({} : Mem).writeN 0 (b 17)
    sbuf := []
    resv := none
    seqno := (csr 0x802).setWidth 32
    nests := kept.nests
    gone := kept.gone
    fifoA := fifo 0
    fifoM := fifo 1
    fifoV := fifo 2
    fifoX := fifo 3
    fmode := csr 0x800
    srseed := csr 0x801
    fxflags := (csr 0x803).setWidth 6
    astat := (csr 0x804).setWidth 2
    brseq := csr 0x805
    shq := shq
    shp := regrantAll side shq ((List.range 8).map (fun k => (k, csr (0x810 + k))))
    nest := (List.range 30).map (fun k => (k, csr (0x820 + k)))
    wbase := (List.range 8).map (fun k => (k, csr (0x840 + 2 * k)))
    wsize := (List.range 8).map (fun k => (k, csr (0x841 + 2 * k)))
    vslim := csr 0x850
    ringsel := (csr 0x860).setWidth 6
    thsel := 0
    brtab := csr 0xCC9
    sigh := kept.sigh
    vcycle := vc
    dirty := (List.range ((b 13).length / 4104)).foldl (fun d k => d ||| ((1 : BitVec 512) <<< ((dwAt (b 13) (4104 * k)).toNat / 4096))) 0
    gang := (dwAt (b 18) 592).setWidth 2
    gangord := (dwAt (b 18) 592).extractLsb' 32 32
    gangask := kept.gangask
    gangans := kept.gangans
    gangword := kept.gangword
    gangdone := kept.gangdone
    brstep := kept.brstep
    mirHits := kept.mirHits
    handling := kept.handling
    g := ((List.range 32).map (fun k => (k, dwAt (b 4) (8 * k)))).filter (fun p => p.2 ≠ 0)
    ap := ((List.range 16).map (fun k => (k, dwAt (b 3) (512 + 8 * k)))).filter (fun p => p.2 ≠ 0)
    v := ((List.range 768).map (fun k => (k, vecAt (b 5) (256 * k)))).filter (fun p => p.2 ≠ 0)
    p := ((List.range 64).map (fun k => (k, dwAt (b 3) (8 * k)))).filter (fun p => p.2 ≠ 0)
    st := (List.range 16).map (fun k => (k, (dwAt (b 9) (16 * k), dwAt (b 9) (16 * k + 8))))
    q := q
    tok := (List.range 6).foldl (fun (t : Tokens) k => t.set k (toks k)) {}
    astores := kept.astores
    fl := dwAt (b 6) 29032
    bufS := bf kept.bufS 0 0
    bufF := bf kept.bufF 16384 4
    bufG := bf kept.bufG 32768 8
    mc0 := mc kept.mc0 49152 16
    mc1 := mc kept.mc1 65536 17
    mpstat := dwAt (b 7) 81928
    acc := ({} : Mem).writeN 0 (b 8)
    accBad := kept.accBad
    vBad := kept.vBad
    hits := []
    flights := flights ++ kept.flights.filter Flight.pseudo
    mwork := kept.mwork
    unit := kept.unit.map (fun u => { u with backBase := base, progress := now })
    cmds := cmds
    log := log
    ph := ph
    sig := kept.sig
    fwait := []
    preip := false
    restoring := none }
  let st (e : Eng) (l : Line) : Line :=
    { l with st := if l.trap.isSome || kept.handling.contains (some e) then .trapped else regs.resumeSt e }
  { regs with
    lineA := st .A (line .A 0 kept.lineA)
    lineM := st .M (line .M 1 kept.lineM)
    lineV := st .V (line .V 2 kept.lineV) }

/-- The scratchpad and the Almanac entries of an image's unit (sections 13 and 16). -/
def installCluster (cl : Cluster) (lcore : Nat) (x : List (List Byte)) : Cluster :=
  let f := x.getD 12 []
  let a := x.getD 15 []
  let regions := (List.range (f.length / 4104)).map (fun k => ((dwAt f (4104 * k)).toNat, (f.drop (4104 * k + 8)).take 4096))
  let live (o : Nat) (old : AlmLive) : AlmLive :=
    { old with desc := (dwsAt a o 8).zipIdx.map (fun p => (p.2, p.1)), owner := some lcore
               nv := (dwAt a (o + 64)).setWidth 2, newest := (dwAt a (o + 64)).extractLsb' 2 2, last := (dwAt a (o + 64)).extractLsb' 4 2
               hit := (dwAt a (o + 72)).setWidth 32, miss := (dwAt a (o + 72)).extractLsb' 32 32 }
  { cl with
    spad := regions.foldl (fun m r => m.writeN r.1 r.2) cl.spad
    poison := regions.foldl (fun p r => unpoison p r.1 4096) cl.poison
    alm := (List.range (a.length / 168)).foldl (fun m k =>
      let n := (dwAt a (168 * k)).toNat
      let old := SMap.get m n {}
      SMap.put m n { old with live := live (168 * k + 8) old.live, start := live (168 * k + 88) old.start }) cl.alm }

/-- The unit that an image names: one of a live launch, saved from this core. -/
def imageUnit (s : State) (dw2 : Word) : Option (Nat × Launch × Nat) :=
  (s.hub.launches.find? (fun p => p.2.live && p.2.lid = dw2.extractLsb' 32 32 && p.2.lc0 + fld dw2 0 11 = s.cur.lcore &&
    (match SMap.find p.2.units (fld dw2 0 11) with
     | some (.waiting _ true) => true
     | _ => false))).map (fun p => (p.1, p.2, fld dw2 0 11))

/-- The whole check of an image (19 R405): its unit and its sections. An image that names no unit saved from this core, or
another than the one to be restored, is no image for it (DESIGN CHOICE, log entry 42). -/
def checkImage (s : State) : Option (Nat × Launch × Nat × List (List Byte)) :=
  let a := s.me.ctxptr.toNat
  let d := s.cur.lcore
  let h := wordsOf 8 (s.physRead (dieOf d) a 64)
  let w (k : Nat) : Word := h.getD k 0
  let total := (w 1).toNat
  if Config.hbmBytes < a + imageHead ∨ w 0 ≠ BitVec.ofNat 64 (1 + Config.generation * 2 ^ 16) ∨ total < imageHead ∨ Config.hbmBytes < a + total ∨
      fld (w 2) 11 21 ≠ 0 ∨ (w 3).toNat ≠ d ∨ (List.range 4).any (fun k => w (4 + k) ≠ 0) ∨ s.me.unit.isSome then none
  else match imageUnit s (w 2) with
    | none => none
    | some (n, l, u) =>
      if s.me.restoring.any (fun r => r ≠ (n, u)) then none
      else match parseSections (s.physRead (dieOf d) (a + imageHead) (total - imageHead)) 32 1 with
        | none => none
        | some x => if sectionsOk (SMap.get l.kept u {}) x then some (n, l, u, x) else none

/-- The software block (19 R399): x1 to x31, mepc, and the machine CSRs of the layout that the resident runtime gives it
(DESIGN CHOICE, log entry 43). -/
def softBlock (c : Core) : List Word :=
  (List.range 31).map (fun k => c.xr (BitVec.ofNat 5 (k + 1))) ++
  [c.mepc, c.mstatus, c.mie, c.mtvec, c.mscratch, c.mcause, c.mtval, c.mcounteren, c.mcountinhibit]

/-- The runtime reloads the control core's state and returns to the unit. -/
def reload (c : Core) (d : List Word) : Core :=
  let w (k : Nat) : Word := d.getD k 0
  runtimeReturns { c with
    x := (List.range 31).map (fun k => (k + 1, w k))
    mepc := w 31
    mstatus := w 32
    mie := w 33
    mtvec := w 34
    mscratch := w 35
    mcause := w 36
    mtval := w 37
    mcounteren := w 38
    mcountinhibit := w 39 }

/-- A restore ends with BADIMAGE: nothing is installed. -/
def restoreFails (s : State) : State :=
  s.updMe (fun c => { c with ctxbusy := false, ctxstat := 2, ctxrt := false, restoring := none
                             pc := if c.ctxrt then BitVec.ofNat 64 Config.runtimeTrap else c.pc })

/-- A restore installs a unit at its back store's place. -/
def restoreDone (s : State) (n : Nat) (l : Launch) (u base : Nat) (x : List (List Byte)) : State :=
  let c := s.me
  let k := clusterOf s.cur.lcore
  let kept := SMap.get l.kept u {}
  let soft := wordsOf 64 (s.physRead (dieOf s.cur.lcore) (c.ctxptr.toNat + 64) 512)
  let s1 := renameOwner (reserveBack (s.drainSbuf s.cur.lcore) s.cur.lcore base l.back) k (s.cur.lcore + Config.cores) s.cur.lcore
  let s2 := s1.setCluster k (installCluster (s1.clusterAt k) s.cur.lcore x)
  let c1 := installCore c kept x base s.now
  let c2 := { c1 with ctxbusy := false, ctxstat := 0 }
  let s3 := s2.setMe (if c.ctxrt then reload c2 soft else c2)
  let s4 := s3.setLaunch n { l with units := SMap.put l.units u .running, kept := SMap.del l.kept u }
  let s5 := if kept.ctxrt then freeImage s4 { kept with ctxlen := 1 } else s4
  match (recsAt (x.getD 10 []).length (x.getD 10 [])).bind (fun r => r.find? (fun q => recBad q.1)) with
  | none => s5
  | some q => raiseAt s5 s.cur.lcore (if fld q.1 58 2 = 2 then .V else .M) 0 { code := 16, sub := 9 }

/-- The runtime restores a unit on a core. -/
def Core.rtRestores (c : Core) (n u : Nat) : Bool := c.ctxbusy && c.ctxrt && !c.ctxsave && c.restoring = some (n, u)

/-- A restore on each of some cores, in one step; none while a back store waits for its place. -/
def restoreAll (s : State) : List Nat → Option State
  | [] => some s
  | k :: t =>
    let s0 := { s with cur := { s.cur with lcore := k } }
    match checkImage s0 with
    | none => restoreAll (restoreFails s0) t
    | some (n, l, u, x) => (placeUnit s0 n l k).bind (fun base => restoreAll (restoreDone s0 n l u base x) t)

/-- CTX_RESTORE (19 R405). A write of CTXCTL.RESTORE begins it; the whole image is checked, the back store waits for its
place, and the unit is installed, with those members of its gang that are restored with it (18 R384). A unit cancelled meanwhile
leaves its claim of the core. -/
def execCtxRestore (s : State) : Out :=
  if !s.me.ctxbusy then machineOnly 0x7E0 s (s.updMe (fun c => c.writeCtxctl 2)).done
  else if s.me.ctxsave then s.waits
  else
    let lost := s.me.restoring.any (fun r => match (s.launchAt r.1).bind (fun l => SMap.find l.units r.2) with
      | some (.waiting _ true) => false
      | _ => true)
    if lost then (s.updMe (fun c => { c with ctxbusy := false, restoring := none, ctxrt := false })).done
    else match checkImage s with
      | none => (restoreFails s).done
      | some (n, l, u, _) =>
        let mates := (gangUnits l u).filter (fun k => k = u || (s.me.ctxrt && (s.coreAt (l.lc0 + k)).rtRestores n k))
        match restoreAll s (mates.map (fun k => l.lc0 + k)) with
        | none => s.waits
        | some s1 => State.done { s1 with cur := s.cur }

end Sys2Proof.Machine
end

