-- ==== Sys2Proof/Machine/Errors.lean ====
section
/-! DEFINITION. Corrected and fatal errors of the hardware (20 R410-R415, 22 R439). -/

namespace Sys2Proof.Machine

/-- The core that a record names: none for 0x7FF. -/
def recCore (lcore : BitVec 11) : Option Nat := if lcore.toNat < Config.cores then some lcore.toNat else none

/-- Whether a bank collects records: MC0 to MC13 of the nine dies (20 R410). -/
def bankReal (die bank : Nat) : Bool := die ≤ hubDie && bank < 14

/-- CORRECTED_ERROR (20 R414): a corrected record, CODE 2, in the source's bank; no result changed. -/
def execCorrectedError (die bank : BitVec 4) (sub : BitVec 8) (lcore : BitVec 11) (addr : Word) (s : State) : Out :=
  if bankReal die.toNat bank.toNat then
    (s.log die.toNat bank.toNat { cls := 1, lcore := recCore lcore, sub := sub.toNat, code := 2, addr := addr }).done
  else s.waits

/-- Whether a launch has a unit on a die. -/
def Launch.onDie (l : Launch) (die : Nat) : Bool := (List.range l.nunit).any (fun u => dieOf (l.lc0 + u) = die)

/-- A unit whose commit was under way when its die stopped ends with its launch. -/
def endStopped (s : State) (lcore : Nat) : State := if (s.coreAt lcore).unit.isSome then unitEnds (rollback s lcore 1) lcore true else s

/-- A fatal record's consequences (20 R414): on the hub die the module stops until module reset; on a compute die every
core stops, every launch with a unit there is cancelled, and the ready bit clears. -/
def fatal (s : State) (die : Nat) : State :=
  if die = hubDie then { s with hub := { s.hub with st := .stopped } }
  else
    let s1 := s.setReady (Ready.die die) false
    let ls := s1.hub.launches.filter (fun p => p.2.live && p.2.onDie die)
    let s2 := ls.foldl (fun t p => cancelLaunch t p.1) s1
    (List.range Config.coresPerDie).foldl (fun t k => endStopped t (die * Config.coresPerDie + k)) s2

/-- FATAL_ERROR (20 R414): the record, CODE 64, then what it causes. -/
def execFatalError (die bank : BitVec 4) (sub : BitVec 8) (lcore : BitVec 11) (addr : Word) (s : State) : Out :=
  if bankReal die.toNat bank.toNat then
    (fatal (s.log die.toNat bank.toNat { cls := 3, lcore := recCore lcore, sub := sub.toNat, code := 64, addr := addr }) die.toNat).done
  else s.waits

/-! ## Withheld cycles (22 R439) -/

/-- A die is withholding cycles: bit 0 of its THSTAT. -/
def State.hot (s : State) (die : Nat) : Bool :=
  if die = hubDie then (SMap.get s.hub.thermal 0 0).getLsbD 0 else (s.dieAt die).thstat.getLsbD 0

/-- Withheld cycles of a die count in THRCNT, and towards no watchdog and no test. -/
def holdBack (s : State) (die n : Nat) : State :=
  if die = hubDie then
    { s with hub := { s.hub with thermal := SMap.put s.hub.thermal 1 (SMap.get s.hub.thermal 1 0 + BitVec.ofNat 64 n) } }
  else
    let s1 : State := { s with core := s.core.map (fun (p : Nat × Core) =>
      if dieOf p.1 = die then (p.1, { p.2 with unit := p.2.unit.map (fun u => { u with progress := u.progress + n }) }) else p) }
    let d := s1.dieAt die
    s1.setDie die { d with thrcnt := d.thrcnt + BitVec.ofNat 64 n,
                           lamp := d.lamp.map (fun (t : Test) => { t with ends := t.ends.map (· + n), stopped := t.stopped.map (· + n) }) }

/-- Cycles pass: those of the dies that withhold them are held back. -/
def State.pass (s : State) (n : Nat) : State :=
  let s1 := { s with now := s.now + n }
  ((List.range (hubDie + 1)).filter s.hot).foldl (fun t d => holdBack t d n) s1

/-- THERMAL_TRIP (22 R439): a fatal record with SUB 12 in the die's MC13. -/
def execThermalTrip (die : BitVec 4) (s : State) : Out :=
  if die.toNat ≤ hubDie then (fatal (s.log die.toNat 13 { cls := 3, sub := 12, code := 64 }) die.toNat).done else s.waits

end Sys2Proof.Machine
end

