-- ==== Sys2Proof/Machine/Ed448.lean ====
section
/-! DEFINITION. Ed448 (RFC 8032, which 00 R11 applies in full): the curve's points, the verification of a signature and signing.
The context is empty. -/

namespace Sys2Proof.Machine.Ed448

/-- The field's prime, the curve's constant d = -39081, and the order of the base point. -/
def prime : Nat := 2 ^ 448 - 2 ^ 224 - 1
def curveD : Nat := prime - 39081
def order : Nat := 2 ^ 446 - 13818066809895115352007386748515426880336692474882178609894547503885

/-- Arithmetic of the field. -/
def fmul (a b : Nat) : Nat := a * b % prime
def fadd (a b : Nat) : Nat := (a + b) % prime
def fsub (a b : Nat) : Nat := (a + (prime - b % prime)) % prime
/-- A power, by the exponent's bits from the highest of 448 down. -/
def fpow (a e : Nat) : Nat :=
  (List.range 448).foldl (fun r k => let q := fmul r r; if e / 2 ^ (447 - k) % 2 = 1 then fmul q a else q) 1
def finv (a : Nat) : Nat := fpow a (prime - 2)

/-- A point in projective coordinates. -/
structure Pt where
  x : Nat
  y : Nat
  z : Nat := 1
deriving DecidableEq, Repr

def zeroPt : Pt := { x := 0, y := 1 }
def basePt : Pt where
  x := 224580040295924300187604334099896036246789641632564134246125461686950415467406032909029192869357953282578032075146446173674602635247710
  y := 298819210078481492676017930443930673437544040154080242095928241372331506189835876003536878655418784733982303233503462500531545062832660

def Pt.add (p q : Pt) : Pt :=
  let a := fmul p.z q.z
  let b := fmul a a
  let c := fmul p.x q.x
  let d := fmul p.y q.y
  let e := fmul curveD (fmul c d)
  let f := fsub b e
  let g := fadd b e
  let h := fmul (fadd p.x p.y) (fadd q.x q.y)
  { x := fmul a (fmul f (fsub (fsub h c) d)), y := fmul a (fmul g (fsub d c)), z := fmul f g }

/-- A multiple, by the scalar's bits from the highest of 456 down. -/
def Pt.mul (n : Nat) (p : Pt) : Pt :=
  (List.range 456).foldl (fun r k => let q := r.add r; if n / 2 ^ (455 - k) % 2 = 1 then q.add p else q) zeroPt

/-- The same point of the curve. -/
def Pt.same (p q : Pt) : Bool := fmul p.x q.z = fmul q.x p.z && fmul p.y q.z = fmul q.y p.z

/-- A point as 57 bytes: y, and the low bit of x on top. -/
def Pt.enc (p : Pt) : List Byte :=
  let i := finv p.z
  leBytes 57 (fmul p.y i + fmul p.x i % 2 * 2 ^ 455)

/-- The point of 57 bytes, if they hold one. -/
def dec (bs : List Byte) : Option Pt :=
  let n := leNat bs
  let y := n % 2 ^ 455
  let odd := n / 2 ^ 455
  let u := fsub (fmul y y) 1
  let v := fsub (fmul curveD (fmul y y)) 1
  let u3v := fmul (fmul u (fmul u u)) v
  let x := fmul u3v (fpow (fmul u3v (fmul (fmul u u) (fmul v v))) ((prime - 3) / 4))
  if bs.length ≠ 57 ∨ prime ≤ y ∨ fmul v (fmul x x) ≠ u ∨ (x = 0 ∧ odd = 1) then none
  else some { x := if x % 2 = odd then x else prime - x, y := y }

/-- The digest of the scheme, with its prefix for the empty context. -/
def digest (m : List Byte) : Nat := leNat (shake256 ([0x53, 0x69, 0x67, 0x45, 0x64, 0x34, 0x34, 0x38, 0, 0] ++ m) 114)

/-- Whether a signature of a message holds under a public key. -/
def verify (key msg sig : List Byte) : Bool :=
  let r := sig.take 57
  let s := leNat (sig.drop 57)
  match dec key, dec r with
  | some a, some p =>
    sig.length = 114 && s < order &&
      (Pt.mul 4 (Pt.mul s basePt)).same (Pt.mul 4 (p.add (Pt.mul (digest (r ++ key ++ msg) % order) a)))
  | _, _ => false

/-- The secret scalar and the prefix of a private key. -/
def secret (key : List Byte) : Nat × List Byte :=
  let h := shake256 key 114
  (leNat (h.take 57) % 2 ^ 447 / 4 * 4 + 2 ^ 447, h.drop 57)

/-- The public key of a private one. -/
def publicKey (key : List Byte) : List Byte := (Pt.mul (secret key).1 basePt).enc

/-- The signature of a message. -/
def sign (key msg : List Byte) : List Byte :=
  let r := digest ((secret key).2 ++ msg) % order
  let p := (Pt.mul r basePt).enc
  let k := digest (p ++ publicKey key ++ msg) % order
  p ++ leBytes 57 ((r + k * (secret key).1) % order)

end Sys2Proof.Machine.Ed448
end

