-- ==== Sys2Proof/Machine/Hub.lean ====
section
/-! DEFINITION. The hub die: boot, readiness, masters and ownership, the messages of the control channel that the scheduler
and wkld do not take, RDMA and the links (21 R419-R431, R445). -/

namespace Sys2Proof.Machine

/-! ## Boot and readiness (21 R419-R421) -/

/-- The checks of a firmware image (21 R419): its signature under the vendor key whose digest is fused, its release, and
its digest. -/
def imageOk (f : Firmware) : Bool :=
  shake256 Config.vendorKey 64 = Config.fusedKeyDigest &&
  Ed448.verify Config.vendorKey (leBytes 4 f.release.toNat ++ leBytes 8 f.length ++ f.digest) f.sig &&
  Config.antiRollback ≤ f.release.toNat && f.image.length = f.length && shake256 f.image 64 = f.digest

/-- BOOT (21 R419): the ROM's checks, then the firmware or recovery. -/
def execBoot (s : State) : Out :=
  if s.hub.st ≠ .inReset then s.waits
  else if imageOk s.hub.flash then
    let s1 := { s with hub := { s.hub with st := .up, release := s.hub.flash.release } }
    ((s1.setReady Ready.rom true).setReady Ready.fw true).done
  else (State.setReady { s with hub := { s.hub with st := .recovery } } Ready.mgmt true).done

/-- IMAGE_UPLOAD (21 R419): in recovery; die 8 names the hub's image. -/
def execImageUpload (die : BitVec 4) (fw : Firmware) (s : State) : Out :=
  if s.hub.st ≠ .recovery ∨ hubDie < die.toNat then s.waits
  else if die.toNat = hubDie then State.done { s with hub := { s.hub with flash := fw } }
  else (s.setDie die.toNat { s.dieAt die.toNat with fw := fw }).done

/-- FUNCTION_READY (21 R420, R421): a function's bit is set once; a compute die's once the hub has verified its image. -/
def execFunctionReady (bit : BitVec 6) (s : State) : Out :=
  let b := bit.toNat
  if s.hub.st ≠ .up ∨ b < 2 ∨ 46 < b ∨ s.hub.cleared.getLsbD b then s.waits
  else if b < 10 && !imageOk (s.dieAt (b - 2)).fw then s.waits
  else (s.setReady b true).done

/-- The state after module reset: what the boot flash holds stays, as do the messages sent (21 R421). -/
def moduleReset (s : State) : State :=
  { State.reset with
    die := (List.range 8).map (fun d => (d, { fw := (s.dieAt d).fw }))
    hub := { flash := s.hub.flash, anchors := s.hub.anchors, deny := s.hub.deny, out := s.hub.out, pkts := s.hub.pkts }
    agenda := State.reset.agenda ++ s.agenda
    draws := s.draws }

/-- MODULE_RESET (21 R421). -/
def execModuleReset (s : State) : Out := (moduleReset s).done

/-- RESET (21 R425): DONE, then module reset. It waits for the answers that its connection is still owed, which come first. -/
def execReset (r : Req) (s : State) : Out :=
  withOwner r 0x0040 [Ready.fw] s
    (if s.settledWith r.master then (moduleReset (s.reply r 0x0040 .ok)).done else s.waits)

/-! ## What every master may read (21 R422, R423, R425) -/

def leaseLeft (s : State) (m : BitVec 64) : Nat :=
  match s.hub.own with
  | .owned o t => if o = m && s.now < t then (t - s.now) / Config.cyclesPerMs else 0
  | _ => 0

/-- STATUS. -/
def execStatus (r : Req) (s : State) : Out :=
  withMaster r 0x0001 [] true s fun _ =>
    (s.reply r 0x0001 .ok [.word s.hub.ready, .word (s.owner.getD 0), .word r.master,
      .word (BitVec.ofNat 64 (leaseLeft s r.master)), .word (s.hub.release.setWidth 64)]).done

/-- The images that run: the hub's once the firmware runs, and those of the dies that are ready. -/
def runningImages (s : State) : List Firmware :=
  (if s.isReady Ready.fw then [s.hub.flash] else []) ++
  ((List.range 8).filter (fun d => s.isReady (Ready.die d))).map (fun d => (s.dieAt d).fw)

/-- The attestation report's bytes (21 R422); the part number is the name in 00 R1. -/
def report (s : State) (nonce : List Byte) : List Byte :=
  ("BY9-1024M".toUTF8.toList.map (fun b => BitVec.ofNat 8 b.toNat)) ++ leBytes 16 Config.serial.toNat ++ Config.fusedKeyDigest ++
  leBytes 8 Config.antiRollback ++ (runningImages s).flatMap (fun f => f.digest ++ leBytes 4 f.release.toNat) ++
  leBytes 8 s.hub.ready.toNat ++ leBytes 8 (s.owner.getD 0).toNat ++ nonce

/-- ATTEST: the report, its signature, and the device key with its certificate. -/
def execAttest (r : Req) (nonce : List Byte) (s : State) : Out :=
  withMaster r 0x0002 [] true s fun _ =>
    if nonce.length ≠ 32 then (s.reply r 0x0002 .badMsg).done
    else (s.reply r 0x0002 .ok [.bytes (report s nonce), .bytes (Ed448.sign Config.deviceKey (report s nonce)),
      .bytes (Ed448.publicKey Config.deviceKey), .bytes Config.deviceCert]).done

/-- The doublewords of an item (21 R425); none where there is no such item. -/
def readItem (s : State) : ReadItem → Option (List Word)
  | .bank d b =>
    if 8 < d.toNat then none
    else
      let k := s.bankAt d.toNat b.toNat
      some (if 14 ≤ b.toNat then [0, 0, 0, 0, 0]
        else [k.status, k.addr, k.misc, BitVec.ofNat 64 ((if k.ceint then 2 else 0) + (if k.cnint then 1 else 0)), k.phys])
  | .thermal d =>
    if d.toNat < 8 then some [(s.dieAt d.toNat).thstat, (s.dieAt d.toNat).thrcnt, s.energy]
    else if d.toNat = 8 then some [SMap.get s.hub.thermal 0 0, SMap.get s.hub.thermal 1 0, s.energy]
    else none
  | .record job a =>
    match s.jobAt job with
    | none => none
    | some j => (jobRead s j.root a.toNat 16).map (wordsOf 2)

/-- READ. -/
def execRead (r : Req) (item : ReadItem) (s : State) : Out :=
  withMaster r 0x0003 [] false s fun _ =>
    match readItem s item with
    | some ws => (s.reply r 0x0003 .ok (ws.map .word)).done
    | none => (s.reply r 0x0003 .badMsg).done

/-- CLEARMC: 1 is written to VALID. -/
def execClearmc (r : Req) (die bank : BitVec 4) (s : State) : Out :=
  withOwner r 0x0004 [] s
    (if bankReal die.toNat bank.toNat then
       ((s.setBank die.toNat bank.toNat ((s.bankAt die.toNat bank.toNat).clear (ones 63 1))).reply r 0x0004 .ok).done
     else (s.reply r 0x0004 .badMsg).done)

/-! ## Ownership (21 R426) -/

def State.setOwn (s : State) (o : Own) : State := { s with hub := { s.hub with own := o } }

/-- A master becomes owner until a time. -/
def State.grant (s : State) (m : BitVec 64) (till : Nat) : State :=
  { s with hub := { s.hub with own := .owned m till, lapsed := s.hub.lapsed.filter (· ≠ m) } }

/-- The lease has expired: ownership lapses. -/
def State.lapse (s : State) (m : BitVec 64) : State :=
  { s with hub := { s.hub with own := .free, lapsed := s.hub.lapsed.filter (· ≠ m) ++ [m] } }

/-- The ownership state once a lease that has run out has lapsed: an expiry takes its place before any later request. -/
def State.settled (s : State) : State :=
  match s.hub.own with
  | .owned o t => if t ≤ s.now then s.lapse o else s
  | _ => s

/-- CLAIM: a master without the OWNER right is told NOTOWNER. A claim after the window waits for its close. -/
def execClaim (r : Req) (priority : BitVec 8) (s : State) : Out :=
  withMaster r 0x0010 [Ready.ownctl] false s fun c =>
    if !c.2.1 then (s.reply r 0x0010 .notOwner).done
    else
      let t := s.settled
      match t.hub.own with
      | .free => ((t.setOwn (.elect [(r, priority)] (t.now + windowCycles))).defer r 0x0010).done
      | .elect cs closes =>
        if t.now < closes then ((t.setOwn (.elect (cs ++ [(r, priority)]) closes)).defer r 0x0010).done else s.waits
      | .owned _ _ => (t.reply r 0x0010 .owned).done

/-- The claim that wins: the lowest value, then the lower identity. -/
def winner : List (Req × BitVec 8) → Option (Req × BitVec 8)
  | [] => none
  | c :: t =>
    match winner t with
    | none => some c
    | some d => if c.2 < d.2 || (c.2 = d.2 && c.1.master ≤ d.1.master) then some c else some d

/-- ELECTION_CLOSE. -/
def execElectionClose (s : State) : Out :=
  match s.hub.own with
  | .elect cs closes =>
    if s.now < closes then s.waits
    else match winner cs with
      | none => (s.setOwn .free).done
      | some w =>
        let s1 := s.grant w.1.master (closes + leaseCycles)
        (cs.foldl (fun t c => t.answer c.1 0x0010 (if c = w then .granted else .lost)) s1).done
  | _ => s.waits

/-- RENEW: DONE, or LAPSED for a master whose lease has expired. -/
def execRenew (r : Req) (s : State) : Out :=
  withMaster r 0x0011 [Ready.ownctl] false s fun _ =>
    let t := s.settled
    if t.owns r.master then ((t.grant r.master (t.now + leaseCycles)).reply r 0x0011 .ok).done
    else (t.reply r 0x0011 (if t.hub.lapsed.contains r.master then .lapsed else .notOwner)).done

/-- RELEASE. -/
def execRelease (r : Req) (s : State) : Out :=
  withOwner r 0x0012 [Ready.ownctl] s ((s.setOwn .free).reply r 0x0012 .ok).done

/-- HANDOVER: a master of an OBSERVE anchor, which is read-only, counts as none to hand to (DESIGN CHOICE, log entry 44). -/
def execHandover (r : Req) (heir : BitVec 64) (s : State) : Out :=
  withOwner r 0x0013 [Ready.ownctl] s
    (match s.conn heir with
     | some c =>
       if c.2.1 then
         (((s.grant heir (s.now + leaseCycles)).reply r 0x0013 .ok).send { dest := heir, type := 0x0013, id := 0, status := .ok }).done
       else (s.reply r 0x0013 .notConnected).done
     | none => (s.reply r 0x0013 .notConnected).done)

/-- LEASE_EXPIRY. -/
def execLeaseExpiry (s : State) : Out :=
  match s.hub.own with
  | .owned o t => if t ≤ s.now then (s.lapse o).done else s.waits
  | _ => s.waits

/-! ## Jobs (18 R369, 21 R425, R427) -/

def attrOk (a : JobAttr) : Bool :=
  a.jstat.toNat % 64 = 0 && a.jstat.toNat + 73728 ≤ 2 ^ 55 && a.jlo < a.jhi && a.jhi ≤ Config.cores && a.maxpri ≤ 11 &&
  a.wdlog2.all (fun w => 20 ≤ w && w ≤ 40)

/-- The lowest address-space id that no open job holds; id 0 is none's. -/
def freeAsid (s : State) : Option Nat :=
  (List.range 4096).find? (fun a => a ≠ 0 && s.hub.jobs.all (fun j => j.2.status ≥ 2 && j.2.ending.isNone || j.2.asid.toNat ≠ a))

/-- CREATEJOB. The job's root table page lies on the home die, that of its first core (DESIGN CHOICE, log entry 45). -/
def execCreatejob (r : Req) (attr : JobAttr) (s : State) : Out :=
  withOwner r 0x0020 (Ready.sched :: Ready.local' (dieOf attr.jlo % 8)) s
    (if !attrOk attr then (s.reply r 0x0020 .badMsg).done
     else match freeAsid s, allocFrame s (dieOf attr.jlo) 1 with
       | some a, some (s1, root) =>
         let n := s.hub.nextJob
         let j : Job := { attr := attr, asid := BitVec.ofNat 12 a, root := root, home := dieOf attr.jlo }
         let s2 := { s1 with hub := { s1.hub with jobs := SMap.put s1.hub.jobs n j, nextJob := n + 1 } }
         (s2.reply r 0x0020 .ok [.word (BitVec.ofNat 64 n), .word (BitVec.ofNat 64 a)]).done
       | _, _ => (s.reply r 0x0020 .noSpace).done)

/-- ENDJOB: the job takes no new launch; with none left its record ends at once. The reply comes with ENDJOB_DONE. -/
def execEndjob (r : Req) (job : Nat) (s : State) : Out :=
  withOwner r 0x0021 [Ready.sched] s
    (match s.openJob job with
     | none => (s.reply r 0x0021 .badMsg).done
     | some j =>
       let j1 := { j with ended := true, ending := some r }
       let j2 := if j1.count = 0 then { j1 with status := endStatus false j1.anyCancelled } else j1
       ((writeJobRec (s.setJob job j2) job).defer r 0x0021).done)

/-- The frames of a job: its pages' and its tables'. -/
def jobFrames (s : State) (j : Job) : List (Nat × Nat) :=
  (leavesOf s.hbm 2 j.root 0).map (fun l => (ePfn l.ent * 65536, l.size)) ++ (tablesOf s.hbm 2 j.root).map (fun t => (t, 65536))

/-- ENDJOB_DONE: every launch of the job has ended; its address space is given up once no store of it is still held. -/
def execEndjobDone (job : Nat) (s : State) : Out :=
  match s.jobAt job with
  | none => s.waits
  | some j =>
    match j.ending with
    | none => s.waits
    | some r =>
      let fs := jobFrames s j
      if s.hub.launches.any (fun l => l.2.job = job && l.2.live) || fs.any (fun f => frameBusy s f.1 f.2) then s.waits
      else
        let s1 := dropTlbs (fs.foldl (fun t f => freePage t f.1) s) none (fun t => t.asid = j.asid)
        ((s1.setJob job { j with ending := none }).answer r 0x0021 .ok).done

/-! ## MAP and UNMAP (21 R445) -/

def mapSize (m : MapReq) : Nat := if m.big then 2 ^ 29 else 65536
/-- First page and number of pages that cover a request's range. -/
def mapRange (m : MapReq) : Nat × Nat :=
  let z := mapSize m
  (m.va.toNat / z * z, (m.va.toNat + m.len + z - 1) / z - m.va.toNat / z)

/-- A request that no entry can carry (DESIGN CHOICE, log entry 46). -/
def mapBad (m : MapReq) : Bool :=
  m.kind = 3 || (m.repl && m.kind = 1) || 8 ≤ m.home || 2 ^ 55 < m.va.toNat + m.len

/-- The bits of READYMAP that a MAP needs: the HBM that is to hold its pages, and with REPL the sequencer (log entry 40). -/
def mapNeeds (m : MapReq) : List Nat :=
  Ready.fw :: (if m.repl then Ready.seq :: (List.range 8).flatMap Ready.local' else Ready.local' (m.home % 8))

/-- MAP. -/
def execMap (r : Req) (job : Nat) (m : MapReq) (s : State) : Out :=
  withOwner r 0x0022 (mapNeeds m) s
    (match s.openJob job with
     | none => (s.reply r 0x0022 .badMsg).done
     | some j =>
       let (va, n) := mapRange m
       if mapBad m then (s.reply r 0x0022 .badMsg).done
       else if m.len = 0 then (s.reply r 0x0022 .ok).done
       else if !(leavesIn s j.root va (n * mapSize m)).isEmpty then (s.reply r 0x0022 .overlap).done
       else match mapPages j.root m.home m.big m.kind.toNat m.repl m.w n va s with
         | some s1 => ((rebindWindows s1 job).reply r 0x0022 .ok).done
         | none => (s.reply r 0x0022 .noSpace).done)

/-- UNMAP: the entries that cover a byte of the range are cleared and leave every TLB; its reply comes with UNMAP_DONE. -/
def execUnmap (r : Req) (job : Nat) (va : Word) (len : Nat) (s : State) : Out :=
  withOwner r 0x0023 [Ready.fw] s
    (match s.openJob job with
     | none => (s.reply r 0x0023 .badMsg).done
     | some j =>
       if 2 ^ 55 < va.toNat + len then (s.reply r 0x0023 .badMsg).done
       else
         let ls := leavesIn s j.root va.toNat len
         let s1 := { s with hbm := ls.foldl (fun h l => h.writeWord l.eaddr 8 0) s.hbm }
         let s2 := dropTlbs s1 none (fun t => t.asid = j.asid && ls.any (fun l => l.va = t.page * (if t.big then 2 ^ 29 else 65536)))
         let s3 := (rebindWindows s2 job).defer r 0x0023
         State.done { s3 with hub := { s3.hub with unmaps := s3.hub.unmaps ++
           [{ req := r, job := job, va := va.toNat, len := len, frames := ls.map (fun l => (ePfn l.ent * 65536, l.size)) }] } })

/-- UNMAP_DONE: the oldest UNMAP whose stores have all drained or been discarded. -/
def execUnmapDone (s : State) : Out :=
  match s.hub.unmaps.find? (fun u => u.frames.all (fun f => !frameBusy s f.1 f.2)) with
  | none => s.waits
  | some u =>
    let s1 := u.frames.foldl (fun t f => freePage t f.1) s
    (State.answer { s1 with hub := { s1.hub with unmaps := s1.hub.unmaps.erase u } } u.req 0x0023 .ok).done

/-- PEER (21 R431). -/
def execPeer (r : Req) (job entry : Nat) (gid : BitVec 128) (qp : BitVec 24) (valid : Bool) (s : State) : Out :=
  withOwner r 0x0033 [Ready.rdma] s
    (match s.openJob job with
     | none => (s.reply r 0x0033 .badMsg).done
     | some j =>
       if 4096 ≤ entry then (s.reply r 0x0033 .badMsg).done
       else ((s.setJob job { j with peers := SMap.put j.peers entry (gid, qp, valid) }).reply r 0x0033 .ok).done)

/-! ## Connections (21 R424, R425) -/

/-- Connections close: what their masters are owed goes nowhere. -/
def State.keepConns (s : State) (keep : BitVec 64 × Bool × Bool × Option (BitVec 64) → Bool) : State :=
  let shut (m : BitVec 64) : Bool := s.hub.conns.any (fun c => c.1 = m && !keep c)
  { s with hub := { s.hub with conns := s.hub.conns.filter keep, answers := s.hub.answers.filter (fun a => !shut a.req.master) } }

/-- Whether a connection is one that new lists admit: its master is not denied, and its chain was verified and ends in an anchor
listed; with no anchor listed, it is on the management port. -/
def stillAdmitted (list : List Anchor) (deny : List (BitVec 64)) (c : BitVec 64 × Bool × Bool × Option (BitVec 64)) : Bool :=
  !deny.contains c.1 && (if list.isEmpty then c.2.2.1 else list.any (fun a => c.2.2.2 = some a.ident))

/-- ANCHORS: the new lists, and the connections that they no longer admit are closed, the reply sent first. -/
def execAnchors (r : Req) (list : List Anchor) (deny : List (BitVec 64)) (s : State) : Out :=
  withOwner r 0x0035 [Ready.fw] s
    (if 8 < list.length ∨ 256 < deny.length then (s.reply r 0x0035 .badMsg).done
     else
       let s1 := (s.reply r 0x0035 .ok).keepConns (stillAdmitted list deny)
       State.done { s1 with hub := { s1.hub with anchors := list, deny := deny } })

/-- What a ClientHello must offer (21 R424): a cipher suite and a key exchange group of the device's, and Ed448, with which the device
signs. -/
def offerOk (h : Handshake) : Bool :=
  h.suites.any (fun x => x = 0x1302 || x = 0x1303) && h.groups.any (fun x => x = 0x001D || x = 0x001E) && h.sigs.contains 0x0808

/-- A master signs with Ed448, or with ECDSA over P-384 and SHA-384 (21 R424). -/
def signOk (h : Handshake) : Bool := h.msig = 0x0808 || h.msig = 0x0503

/-- Whether a handshake is admitted: the identity of its master, and whether with the right OWNER. -/
def admits (s : State) (h : Handshake) : Option (BitVec 64 × Bool) :=
  match h.cert with
  | none => none
  | some key =>
    let m := identityOf key
    if !offerOk h || !signOk h then none
    else match s.hub.st with
      | .recovery => if h.mgmt then some (m, true) else none
      | .up =>
        let port : Bool := if h.mgmt then s.isReady Ready.mgmt else (List.range 8).any (fun p => s.isReady (Ready.eth p))
        if !port || s.hub.deny.contains m then none
        else if s.hub.anchors.isEmpty then (if h.mgmt then some (m, true) else none)
        else if !h.chainOk then none
        else (s.hub.anchors.find? (fun a => a.ident = h.anchor)).map (fun a => (m, a.owner))
      | _ => none

/-- CONTROL_HANDSHAKE (21 R424): the new connection of a master takes the place of one that it has. -/
def execControlHandshake (h : Handshake) (s : State) : Out :=
  match admits s h with
  | none => s.done
  | some (m, o) =>
    let s1 := s.keepConns (fun c => c.1 ≠ m)
    State.done { s1 with hub := { s1.hub with conns := s1.hub.conns ++ [(m, o, h.mgmt, if h.chainOk then some h.anchor else none)] } }

/-- CONTROL_CONNECTION_LOSS (21 R425). -/
def execControlConnectionLoss (master : BitVec 64) (s : State) : Out := (s.keepConns (fun c => c.1 ≠ master)).done

/-- ETHERNET_LINK_DOWN (14 R321, 21 R421): the port's bit clears, and the outstanding remote atomic of the core at work gets
INDETERMINATE. -/
def execEthernetLinkDown (port : BitVec 3) (s : State) : Out :=
  let s1 := s.setReady (Ready.eth port.toNat) false
  (s1.updMe (fun c => if c.rmt.isSome && c.rmtans.isNone then { c with rmtans := some (0, 1) } else c)).done

/-! ## Bytes on the wire (00 R7, 21 R425, R430) -/

/-- The STATUS field of a reply. -/
def Reply.status : Reply → Nat
  | .ok => 0
  | .notOwner => 1
  | .badMsg => 2
  | .notReady => 3
  | .granted => Config.outcomeCode 0
  | .lost => Config.outcomeCode 1
  | .owned => Config.outcomeCode 2
  | .lapsed => Config.outcomeCode 3
  | .notConnected => Config.outcomeCode 4
  | .noSpace => Config.outcomeCode 5
  | .overlap => Config.outcomeCode 6
  | .code n => n

/-- An item of a body; a value takes a doubleword (DESIGN CHOICE, log entry 119). -/
def Item.wire : Item → List Byte
  | .word w => leBytes 8 w.toNat
  | .bytes l => l

/-- A message that the device sends: its 16-byte header and its body. NOTIFY is no reply. -/
def Msg.wire (m : Msg) : List Byte :=
  let body := m.body.flatMap Item.wire
  leBytes 2 m.type.toNat ++ leBytes 2 (if m.type = 0x0080 then 0 else 1) ++ leBytes 4 m.id.toNat ++ leBytes 4 body.length ++
  leBytes 4 m.status.status ++ body

/-- The payload of a remote atomic's request: what R430 lists, in its order and a doubleword each, and zeros (DESIGN CHOICE, log
entry 119). -/
def requestWire (r : RmtReq) : List Byte :=
  bytesOf [r.tag, r.op.setWidth 64, r.ty.setWidth 64, r.raddr, r.opnd.setWidth 64, r.cmp.setWidth 64, 0, 0]

/-- The payload of a response. -/
def responseWire (tag : Word) (old : BitVec 32) (status : BitVec 3) : List Byte := bytesOf [tag, old.setWidth 64, status.setWidth 64]

/-- A packet's opcode: those of tagged remote atomics (21 R430), and RoCEv2's own for an acknowledgement and the response of a read
(PRESUMED, log entry 131). -/
def Packet.opcode : Packet → Byte
  | .request _ => 0xC0
  | .response _ _ _ => 0xC1
  | .data _ => 0x10
  | .ack => 0x11
  | .nak => 0x11

/-- A packet's payload. -/
def Packet.wire : Packet → List Byte
  | .request r => requestWire r
  | .response tag old st => responseWire tag old st
  | .data bs => bs
  | .ack => []
  | .nak => []

/-- A packet as its connection carries it: the peer's GID, the opcode, the peer's queue pair and the payload (log entry 131). -/
def Sent.wire (p : Sent) : List Byte :=
  leBytes 16 p.gid.toNat ++ [p.body.opcode] ++ leBytes 3 p.qp.toNat ++ p.body.wire

/-! ## RDMA (21 R429) -/

/-- Packets are sent on a queue pair's connection. -/
def State.packets (s : State) (q : QPair) (ps : List Packet) : State :=
  { s with hub := { s.hub with pkts := s.hub.pkts ++ ps.map (fun p => { gid := q.gid, qp := q.peer, body := p }) } }

/-- The packets that carry a read's bytes: each at most the path MTU. -/
def readChunks (mtu : Nat) : Nat → List Byte → List (List Byte)
  | 0, _ => []
  | fuel + 1, bs => if bs.length ≤ mtu then [bs] else bs.take mtu :: readChunks mtu fuel (bs.drop mtu)

/-- A packet's payload fits the path MTU. -/
def payloadFits (mtu : Nat) : RdmaOp → Bool
  | .write d => d.length ≤ mtu
  | .send d => d.length ≤ mtu
  | .read _ => true
  | .atomicStd => true

/-- The answer to a read at a job's addresses: its bytes, or a NAK where some page refuses it or it meets an error. -/
def readAnswer (s : State) (j : Job) (mtu va n : Nat) : List Packet :=
  match jobRead s j.root va n with
  | some bs =>
    if (List.range n).any (fun k => match jobPa s j.root (va + k) {} with
        | some (pa, _) => (s.memSub hubDie pa 1).isSome
        | none => false) then [.nak]
    else (readChunks mtu (n + 1) bs).map .data
  | none => [.nak]

/-- RDMA_PACKET (21 R429): WRITE and READ at the virtual addresses of the job of the queue pair, translated by the job's tables; an
access that some page refuses, or that meets poison, is answered by a NAK and has no effect, as is what does not fit the path MTU. A
SEND has no place in memory that the spec names. The transports that are absent, and queue pairs that are not connected, take no
packet. -/
def execRdmaPacket (route : Route) (va : Word) (op : RdmaOp) (s : State) : Out :=
  if s.hub.st ≠ .up || !s.isReady Ready.rdma then s.waits
  else match SMap.find s.hub.qps route.qp.toNat with
    | none => s.done
    | some q =>
      if route.via ≠ .rc then s.done
      else match s.openJob q.job with
        | none => (s.packets q [.nak]).done
        | some j =>
          if !payloadFits q.mtu op then (s.packets q [.nak]).done
          else match op with
          | .atomicStd => (s.packets q [.nak]).done
          | .send _ => (s.packets q [.ack]).done
          | .write d =>
            if (List.range d.length).all (fun k => (jobPa s j.root (va.toNat + k) { wr := true }).isSome) then
              ((jobWrite s j.root va.toNat d).packets q [.ack]).done
            else (s.packets q [.nak]).done
          | .read n => (s.packets q (readAnswer s j q.mtu va.toNat n)).done

/-! ## What the owner sets (21 R428, R429) -/

/-- Queue pairs of the module. -/
def qpLimit : Nat := 16384

/-- A queue pair may be connected: its path MTU is one of R429's, and the module has one more. -/
def qpOk (s : State) (qp : Nat) (q : QPair) : Bool :=
  (q.mtu = 1024 || q.mtu = 2048 || q.mtu = 4096) && ((SMap.find s.hub.qps qp).isSome || s.hub.qps.length < qpLimit)

/-- The owner sets a port's addresses, the priority with PFC, or a queue pair, by means that no message of the control channel carries
(log entry 131). -/
def applySetting (m : BitVec 64) (x : Setting) (s : State) : Out :=
  if s.hub.st ≠ .up || !s.owns m then s.waits
  else match x with
    | .address p v4 v6 => if p ≤ 8 then State.done { s with hub := { s.hub with ports := SMap.put s.hub.ports p (v4, v6) } } else s.waits
    | .pfc k => State.done { s with hub := { s.hub with pfc := k } }
    | .queuePair qp none => State.done { s with hub := { s.hub with qps := SMap.del s.hub.qps qp.toNat } }
    | .queuePair qp (some q) =>
      if s.isReady Ready.rdma && qpOk s qp.toNat q then State.done { s with hub := { s.hub with qps := SMap.put s.hub.qps qp.toNat q } }
      else s.waits

end Sys2Proof.Machine
end

