-- ==== Sys2Proof/Machine/Rerun.lean ====
section
/-! DEFINITION. What wkld finds in the words of a phase for NONREPLAY (02 R37): whether some word reads register or array state that
the phase may not have written before, or adds into a row of accumulator SRAM that it may not have overwritten before. What the spec
leaves to wkld is settled on the safe side (DEDUCED, log entry 129). -/

namespace Sys2Proof.Machine

/-- A piece of state by its kind and number: 0 a vector register, 1 a predicate, 2 a g register, 3 a predicate of engine A, 4 a
buffer (0 to 2), bank (3, 4) or MPSTAT (5) of the array, 5 a row of accumulator SRAM. -/
abbrev Piece := Nat × Nat

/-- A predicate and whether it is inverted. -/
abbrev Guard := Piece × Bool

/-- What a word reads and writes, under which guard. -/
structure Touch where
  rd    : List Piece
  wr    : List Piece
  guard : Option Guard := none
deriving DecidableEq, Repr

/-- The kind of an engine's predicates. -/
def predKind (e : Eng) : Nat := if e = .A then 3 else 1

/-- The pieces that a source field names. -/
def sourceOf (e : Eng) (k : Cls) (x : BitVec 10) : List Piece :=
  match k with
  | .vreg | .vregO | .src | .srcOrNone | .strm | .strmO | .free => if e ≠ .A && isVreg x then [(0, x.toNat)] else []
  | .predS => [(predKind e, x.toNat)]
  | .pred8 => (List.range 8).map (fun k => (predKind e, x.toNat + k))
  | .g | .glit | .glitOrNone | .gOrQa => if isG x then [(2, x.toNat)] else []
  | .gPair => [(2, x.toNat), (2, x.toNat + 1)]
  | _ => []

/-- The pieces that hold a constant: g0 and the predicates p0. -/
def constPiece (p : Piece) : Bool := p = (2, 0) || p = (1, 0) || p = (3, 0)

/-- The rows of accumulator SRAM that a word adds into, and those that it overwrites. -/
def accRows (i : Instr) : List Piece × List Piece :=
  match i with
  | .accld (.nat w) =>
    if w.c.toNat / 4 % 4 = 0 then ([], []) else if w.c.toNat / 4 % 4 = 2 then ([(5, w.dst.toNat)], []) else ([], [(5, w.dst.toNat)])
  | .vaddm (.nat w) => ([(5, w.dst.toNat)], [])
  | _ => ([], [])

/-- What a native word of an engine touches. An operand of engine M that takes several registers counts under the first of them. -/
def touchOf (e : Eng) (i : Instr) : Touch :=
  match nativeRow i with
  | none => { rd := [], wr := [] }
  | some (r, w) =>
    let fields : List Piece := (List.range 3).flatMap (fun f => sourceOf e (clsOf r f) (fieldOf w f))
    let g : Option Guard := if r.guard && w.guard ≠ 0 then some ((predKind e, w.guard.toNat), w.ginv) else none
    let dsts : List Piece := (destNames r w).filterMap (fun d =>
      if d.1 = 0 then (if isVreg (BitVec.ofNat 10 d.2) then some (0, d.2) else none)
      else if d.1 = 1 then some (predKind e, d.2) else some d)
    let part : List Piece := match i with
      | .vins _ => dsts
      | _ => []
    let (m, n) : List Piece × List Piece := match mUse i with
      | some u => (u.rd.map (fun k => (4, k)), u.wr.map (fun k => (4, k)))
      | none => ([], [])
    { rd := (fields ++ part ++ (g.map (·.1)).toList ++ m ++ (accRows i).1).filter (fun p => !constPiece p)
      wr := dsts ++ n ++ (accRows i).2
      guard := g }

/-- A piece that the phase has written, at a place of its text, under a guard. -/
structure Fact where
  piece : Piece
  guard : Option Guard
  pos   : Nat
deriving DecidableEq, Repr

/-- What has been written, and whether something was read before. -/
structure Found where
  facts : List Fact := []
  early : Bool := false
deriving DecidableEq, Repr

/-- Whether a read under a guard finds a piece written. -/
def Found.has (f : Found) (g : Option Guard) (p : Piece) : Bool :=
  f.facts.any (fun x => x.piece = p && (x.guard = none || x.guard = g))

/-- A write of a piece: what was written under a guard that it changes no longer counts. -/
def Found.write (f : Found) (pos : Nat) (g : Option Guard) (p : Piece) : Found :=
  { f with facts := { piece := p, guard := g, pos := pos } :: f.facts.filter (fun x => (x.guard.map (·.1)) ≠ some p) }

/-- The words of a bundle: all of them read, and then they write. -/
def Found.bundle (f : Found) (pos : Nat) (ts : List Touch) : Found :=
  let f1 := { f with early := f.early || ts.any (fun t => t.rd.any (fun p => !f.has t.guard p)) }
  ts.foldl (fun f t => t.wr.foldl (fun f p => f.write pos t.guard p) f) f1

/-- A place to which jumps lead from other places: what was written between a jump and the place may have been passed over, and
where a loop comes back to it a guard may have changed. -/
def Found.label (f : Found) (pos : Nat) (froms : List Nat) : Found :=
  let since := (froms.filter (· < pos)).foldl min pos
  let loops := froms.any (pos ≤ ·)
  { f with facts := f.facts.filter (fun x => (x.pos ≤ since || pos ≤ x.pos) && !(loops && x.guard.isSome)) }

/-! ## Native lines (17 R444) -/

/-- The lines of an engine's chain from a line on: offset and doublewords. -/
def chainLines (data : List Byte) : Nat → Nat → List (Nat × List Word)
  | 0, _ => []
  | fuel + 1, o =>
    if data.length < o + 64 then []
    else
      let line := wordsOf 8 ((data.drop o).take 64)
      let next : Int := o + 64 * (nextOf (line.getD 0 0)).toInt
      (o, line) :: (if chainEnd (line.getD 0 0) || next < 0 then [] else chainLines data fuel next.toNat)

/-- The bundles of a line from a slot on: each with its slot and its words. -/
def lineBundles (e : Eng) (line : List Word) : Nat → Nat → List (Nat × List Instr)
  | 0, _ => []
  | fuel + 1, slot =>
    if (if segEnd (line.getD 0 0) then 5 else 6) < slot then []
    else
      let (_, ws, after) := bundleFrom e line 8 slot
      (slot, (wordsIn ws).map (·.2)) :: lineBundles e line fuel after

/-- The targets that a chain's PBR words set for btT: offsets of lines. -/
def targetsOf (ls : List (Nat × List (Nat × List Instr))) (t : Nat) : List Int :=
  ls.flatMap (fun l => l.2.flatMap (fun b => b.2.filterMap (fun i => match i with
    | .pbr w => if w.dst.toNat = t then some ((l.1 : Int) + 64 * (w.b ++ w.c : BitVec 20).toInt) else none
    | _ => none)))

/-- The target register of a branch within a chain. -/
def branchOf : Instr → Option Nat
  | .br w => some w.a.toNat
  | .loop w => some w.a.toNat
  | _ => none

/-- A call or a return within a chain, or a rotation of the register names: which words follow, or which registers a name
means, is then no matter of the text. -/
def leavesText : Instr → Bool
  | .brl _ => true
  | .ret _ => true
  | _ => false
def rotates : Instr → Bool
  | .loop _ => true
  | _ => false
def rotating (p : Piece) : Bool := (p.1 = 0 && 256 ≤ p.2) || (p.1 = 1 && 16 ≤ p.2)

/-- Whether a chain reads before it writes, from what other engines of the phase write. -/
def chainEarly (e : Eng) (lines : List (Nat × List Word)) (given : List Piece) : Bool :=
  let ls := lines.map (fun l => (l.1, lineBundles e l.2 8 0))
  let words := ls.flatMap (fun l => l.2.flatMap (·.2))
  let idx (o : Int) : Option Nat := lines.findIdx? (fun l => (l.1 : Int) = o)
  let jumps : List (Nat × Option Nat) := ls.zipIdx.flatMap (fun (l, k) => l.2.flatMap (fun b => b.2.flatMap (fun i =>
    match branchOf i with
    | some t => (targetsOf ls t).map (fun o => (8 * k + b.1, idx o))
    | none => [])))
  let turns := words.any rotates
  let start : Found := { facts := given.map (fun p => { piece := p, guard := none, pos := 0 }) }
  let f := ls.zipIdx.foldl (fun f (l, k) =>
    let f1 := f.label (8 * k) ((jumps.filter (fun j => j.2 = some k)).map (·.1))
    l.2.foldl (fun f b => f.bundle (8 * k + b.1) (b.2.map (fun i =>
      let t := touchOf e i
      if turns then { t with wr := t.wr.filter (fun p => !rotating p) } else t))) f1) start
  words.any leavesText || jumps.any (fun j => j.2.isNone) || f.early

/-- Whether the commands of a native phase carry NONREPLAY, from its section and the first line of each engine's chain. What another
engine writes without a guard counts as written. -/
def nativeEarly (data : List Byte) (cmds : List (Eng × Nat)) : Bool :=
  let chains := cmds.map (fun c => (c.1, chainLines data (data.length / 64) c.2))
  let writes (e : Eng) (ls : List (Nat × List Word)) : List Piece := ls.flatMap (fun l => (lineBundles e l.2 8 0).flatMap (fun b =>
    b.2.flatMap (fun i => let t := touchOf e i; if t.guard.isNone then t.wr else [])))
  chains.any (fun c => chainEarly c.1 c.2 ((chains.filter (fun d => d.1 ≠ c.1)).flatMap (fun d => writes d.1 d.2)))

/-! ## Portable code (15 R333) -/

/-- The instructions of a TEXT section from an offset to an end. -/
def textFrom (d : List Byte) (stop : Nat) : Nat → Nat → List (Nat × Instr)
  | 0, _ => []
  | fuel + 1, o =>
    if stop ≤ o ∨ d.length < o + 2 then []
    else
      let x : Word := BitVec.ofNat 64 (leNat ((d.drop o).take 8))
      (o, decodeControl x) :: textFrom d stop fuel (o + controlLen (x.setWidth 16))

/-- A step of a region touches what its word does; what its lines hold for it is written there. -/
def stepTouch (m : PCmd) (p : PStep) : List Touch :=
  let t := touchOf m.eng p.i
  let put : List Piece := p.gset.map (fun g => (2, g.1)) ++ p.temps.map (fun v => (0, v.1)) ++ (if p.guard.isSome then [(3, 1)] else [])
  let streams : Bool := match nativeRow p.i with
    | some (_, w) => isStream w.a || isStream w.b || (match p.i with | .mmas _ => true | _ => false)
    | none => false
  [{ rd := (p.guard.map (fun n => ((1, n) : Piece))).toList, wr := put },
   { t with rd := t.rd ++ (if m.eng = .M && streams then m.strm.toList.map (fun n => ((0, n) : Piece)) else []) }]

/-- An instruction within a phase's text: where it may go to besides the next one, none where the text does not tell. -/
def jumpOf (o : Nat) : Instr → Option (List Int)
  | .rv64Instruction (.branch _ _ _ off) _ => some [(o : Int) + 2 * off.toInt]
  | .rv64Instruction (.jal rd off) _ => if rd = 0 then some [(o : Int) + 2 * off.toInt] else none
  | .rv64Instruction (.jalr _ _ _) _ => none
  | _ => some []

/-- Whether the commands of a portable phase carry NONREPLAY: from its text, between two offsets of its section. A phase that calls
or jumps where the text does not tell carries it. -/
def portEarly (d : List Byte) (start stop : Nat) : Bool :=
  let ws := textFrom d stop d.length start
  let jumps : List (Nat × Int) := ws.flatMap (fun w => ((jumpOf w.1 w.2).getD []).map (fun t => (w.1, t)))
  let f := ws.foldl (fun (f : Found) w =>
    let f1 := f.label w.1 ((jumps.filter (fun j => j.2 = (w.1 : Int))).map (·.1))
    (portCmds (fun _ => 0) w.2).foldl (fun f m => m.steps.foldl (fun f p => (stepTouch m p).foldl (fun f t => f.bundle w.1 [t]) f) f) f1) {}
  ws.any (fun w => (jumpOf w.1 w.2).isNone) || f.early

end Sys2Proof.Machine
end

