-- ==== Sys2Proof/Machine/Loader.lean ====
section
/-! DEFINITION. wkld (17 R348-R367, R444, 15 R333, R334): the object file, its checks in the order of R362, placement, the
GOT, relocations, translation, and the load reply. Where R357 leaves the placement open a free draw chooses, and each word
that R88 leaves to the engines is a region of its own (log entry 12). -/

namespace Sys2Proof.Machine

/-! ## The object file (17 R348-R354) -/

/-- A loader error (17 R364) with the places that its report names, none where a field does not apply. -/
structure LoadErr where
  code : Nat
  sect : Option Nat := none
  off  : Option Nat := none
  rel  : Option Nat := none
  sym  : Option Nat := none
deriving DecidableEq, Repr

structure Sect where
  name  : List Byte
  type  : Nat
  align : Nat
  data  : List Byte
deriving DecidableEq, Repr

structure Symb where
  name  : List Byte
  sect  : Nat
  kind  : Nat
  got   : Bool
  value : Nat
  size  : Nat
deriving DecidableEq, Repr

structure Reloc where
  off    : Nat
  sect   : Nat
  type   : Nat
  sym    : Nat
  addend : Int
  zero   : Bool
deriving DecidableEq, Repr

/-- A kernel descriptor with its pool (17 R354, R355). -/
structure KDesc where
  sym    : Nat
  kernel : Kernel
deriving DecidableEq, Repr

abbrev Bytes := List Byte

/-- `n` bytes at an offset, as a number. -/
def at' (b : Bytes) (o n : Nat) : Nat := leNat ((b.drop o).take n)

/-- A table of `n` entries of `k` bytes lies in the object, at a multiple of 8 (17 R348). -/
def tableIn (b : Bytes) (o n k : Nat) : Bool := o % 8 = 0 && o + n * k ≤ b.length

/-- A name of the string table: its bytes before the NUL. -/
def nameAt (b : Bytes) (o : Nat) : Option Bytes :=
  let tab := (b.drop (at' b 52 4)).take (at' b 56 4)
  if at' b 52 4 + at' b 56 4 ≤ b.length && o < tab.length then
    let t := tab.drop o
    let n := t.takeWhile (· ≠ 0)
    if n.length < t.length then some n else none
  else none

/-- The header (17 R348): BADMAGIC, or BADFORMAT for a table, a count or a reserved byte. -/
def headerErr (b : Bytes) : Option Nat :=
  if b.take 4 ≠ [0x53, 0x59, 0x4E, 0x4C] || at' b 4 2 ≠ 1 then some 1
  else if b.length < 64 || at' b 6 2 ≠ 0 || at' b 22 2 ≠ 0 || at' b 60 4 ≠ 0 || at' b 8 8 % 65536 ≠ 0 ||
      at' b 20 2 = 0 || 255 < at' b 20 2 || 8 < at' b 46 2 ||
      !tableIn b (at' b 16 4) (at' b 20 2) 16 || !tableIn b (at' b 24 4) (at' b 28 4) 24 ||
      !tableIn b (at' b 32 4) (at' b 36 4) 24 || !tableIn b (at' b 40 4) (at' b 44 2) 64 ||
      !tableIn b (at' b 48 4) (at' b 46 2) 4 || !tableIn b (at' b 52 4) (at' b 56 4) 1 then some 2
  else none

/-- A section entry (17 R349). -/
def sectAt (b : Bytes) (k : Nat) : Except LoadErr Sect :=
  let o := at' b 16 4 + 16 * k
  let ty := at' b (o + 4) 1
  let al := at' b (o + 5) 1
  let f := at' b (o + 8) 4
  let n := at' b (o + 12) 4
  match nameAt b (at' b o 4) with
  | none => .error { code := 2, sect := some (k + 1) }
  | some name =>
    if ty = 0 || 5 < ty || 12 < al || at' b (o + 6) 2 ≠ 0 || (ty = 2 && (al ≠ 6 || n % 64 ≠ 0)) || (ty = 4 && al ≠ 6) ||
        (ty = 5 && (al ≠ 3 || f ≠ 0 || n % 8 ≠ 0)) || (ty ≠ 5 && b.length < f + n) then
      .error { code := 2, sect := some (k + 1) }
    else .ok { name := name, type := ty, align := al, data := if ty = 5 then List.replicate n 0 else (b.drop f).take n }

def sections (b : Bytes) : Except LoadErr (List Sect) :=
  (List.range (at' b 20 2)).foldlM (fun acc k =>
    match sectAt b k with
    | .error e => .error e
    | .ok s => if s.type = 5 && acc.any (fun t => t.type = 5) then .error { code := 2, sect := some (k + 1) } else .ok (acc ++ [s])) []

/-! ## Profiles (17 R352, R353, R367) -/

/-- The declared profiles: family and version, in table order. -/
def profilesOf (b : Bytes) : List (Nat × Nat × Nat) :=
  (List.range (at' b 46 2)).map (fun k => let o := at' b 48 4 + 4 * k; (at' b o 1, at' b (o + 1) 1, at' b (o + 2) 2))

def profileErr (ps : List (Nat × Nat × Nat)) : Option Nat :=
  if ps.any (fun p => p.2.2 ≠ 0) then some 2
  else if ps.any (fun p => !(List.contains [(1, 0), (1, 1), (2, 1), (3, 1)] (p.1, p.2.1))) then some 3
  else if ps.any (fun p => ps.any (fun q => q.1 = p.1 && q.2.1 ≠ p.2.1)) then some 4
  else none

/-- Whether a group's words need a profile that is not declared. -/
def undeclared (ps : List (Nat × Nat × Nat)) (grp op : Nat) : Bool :=
  let has (f : Nat) : Bool := ps.any (fun p => p.1 = f)
  match grp with
  | 0 => !has 1
  | 1 => !has 1
  | 2 => !has 2
  | 5 => if 0x20 ≤ op && op ≤ 0x23 then !has 3 else ps.isEmpty
  | _ => ps.isEmpty

/-- Words that WKV-0 lacks (17 R367). -/
def wkv0Lacks (ps : List (Nat × Nat × Nat)) (grp op : Nat) : Bool :=
  ps.any (fun p => p.1 = 1 && p.2.1 = 0) && ((grp = 0 && 0x29 ≤ op && op ≤ 0x2B) || (grp = 1 && (op = 0x0A || op = 0x0B)))

/-! ## Words (17 R362, 05 R109) -/

/-- The words of a TEXT section from an offset on: the portable ones with their offsets, or the first error. A bridge word is
reserved in an object (05 R107). -/
def scanText (ps : List (Nat × Nat × Nat)) (k : Nat) : Nat → Nat → Bytes → Except LoadErr (List (Nat × Word))
  | 0, _, _ => .ok []
  | fuel + 1, o, d =>
    if d.length < 2 then .ok []
    else match controlLen (BitVec.ofNat 16 (at' d 0 2)) with
      | 8 =>
        let x : Word := BitVec.ofNat 64 (at' d 0 8)
        let grp := (x.extractLsb' 12 3).toNat
        let op := (x.extractLsb' 15 8).toNat
        if d.length < 8 || (decodePort x).isNone || (grp = 6 && op = 0x10) || wkv0Lacks ps grp op then .error { code := 6, sect := some k, off := some o }
        else if undeclared ps grp op then .error { code := 5, sect := some k, off := some o }
        else match scanText ps k fuel (o + 8) (d.drop 8) with
          | .ok l => .ok ((o, x) :: l)
          | .error e => .error e
      | n => scanText ps k fuel (o + n) (d.drop n)

/-- The group that owns a native op in its owner's space (05 R100). -/
def nativeGroup (e : Eng) (op : Nat) : Option (Nat × Nat) :=
  if 0xF0 ≤ op then some (6, op)
  else if 0xC0 ≤ op then some (4, op - 0xC0)
  else match e with
    | .V => if op < 0x60 then some (0, op) else if op < 0xB0 then some (1, op - 0x60) else none
    | .M => if op < 0x30 then some (2, op) else none
    | .A => if op < 0x40 then some (3, op) else none
    | .X => none

/-- The causes of a slot that are those of its word; a delay nibble is its line's, and raises DECODE (log entry 15). -/
def wordCauses (bad : List Bad) : List Bad := bad.filter (fun b => match b with
  | .delay => false
  | _ => true)

/-- The words of one line, each its encoding and then its profile (17 R362). `b` are the words of the bundle so far: a word that
breaks a bundle's limit, names a destination again, or is the line's last without stop, is illegal (05 R95). -/
def scanLine (ps : List (Nat × Nat × Nat)) (k o : Nat) (e : Eng) (line : List Word) : Nat → Nat → List Pick → Except LoadErr Unit
  | 0, _, _ => .ok ()
  | fuel + 1, slot, b =>
    let last := if segEnd (line.getD 0 0) then 5 else 6
    if last < slot then .ok ()
    else
      let off := o + 8 + 8 * slot
      let (bad, p, n) := slotAt e line slot
      let b1 := b ++ p.toList
      let stops := p.any (fun q => q.word.stop)
      let illegal : Except LoadErr Unit := .error { code := 6, sect := some k, off := some off }
      match nativeGroup e (nop (line.getD (slot + 1) 0)) with
      | some (grp, op) =>
        if !(wordCauses bad).isEmpty || !(bundleBad e b1).isEmpty || (last < slot + n && !stops) || wkv0Lacks ps grp op then illegal
        else if undeclared ps grp op then .error { code := 5, sect := some k, off := some off }
        else scanLine ps k o e line fuel (slot + n) (if stops then [] else b1)
      | none => illegal

def scanNative (ps : List (Nat × Nat × Nat)) (k : Nat) : Nat → Nat → Bytes → Except LoadErr Unit
  | 0, _, _ => .ok ()
  | n + 1, o, d =>
    let line := wordsOf 8 (d.take 64)
    let here : Except LoadErr Unit := match ownerOf (line.getD 0 0) with
      | some e => scanLine ps k o e line 7 0 []
      | none => .ok ()
    match here with
    | .error e => .error e
    | .ok _ => scanNative ps k n (o + 64) (d.drop 64)

/-- Every word of the object, in section order: the portable words of each section. -/
def scanAll (ps : List (Nat × Nat × Nat)) : Nat → List Sect → Except LoadErr (List (Nat × Nat × Word))
  | _, [] => .ok []
  | k, s :: t =>
    let here : Except LoadErr (List (Nat × Word)) :=
      if s.type = 1 then scanText ps k s.data.length 0 s.data
      else if s.type = 2 then (scanNative ps k (s.data.length / 64) 0 s.data).map (fun _ => [])
      else .ok []
    match here with
    | .error e => .error e
    | .ok l =>
      match scanAll ps (k + 1) t with
      | .error e => .error e
      | .ok m => .ok (l.map (fun x => (k, x.1, x.2)) ++ m)

/-! ## Symbols (17 R350, R358) -/

def symbAt (b : Bytes) (nsect k : Nat) : Except LoadErr Symb :=
  let o := at' b 24 4 + 24 * k
  let sect := at' b (o + 4) 2
  let kind := at' b (o + 6) 1
  let fl := at' b (o + 7) 1
  match nameAt b (at' b o 4) with
  | none => .error { code := 2, sym := some k }
  | some name =>
    if 3 < kind || 1 < fl || (kind ≠ 3 && (decide (kind = 2) ≠ decide (sect = 0) || (nsect < sect && sect ≠ 0xFFFF))) then .error { code := 2, sym := some k }
    else .ok { name := name, sect := sect, kind := kind, got := fl = 1, value := at' b (o + 8) 8, size := at' b (o + 16) 8 }

/-- The symbols in table order, each against the job's table and the earlier ones. -/
def symbols (b : Bytes) (nsect : Nat) (job : List (Bytes × Word)) : Except LoadErr (List Symb) :=
  (List.range (at' b 28 4)).foldlM (fun acc k =>
    match symbAt b nsect k with
    | .error e => .error e
    | .ok y =>
      let glob := y.kind = 1 || y.kind = 3
      if y.kind = 2 && !job.any (fun p => p.1 = y.name) then .error { code := 7, sym := some k }
      else if glob && (job.any (fun p => p.1 = y.name) || acc.any (fun z => (z.kind = 1 || z.kind = 3) && z.name = y.name)) then
        .error { code := 8, sym := some k }
      else .ok (acc ++ [y])) []

/-- A GOT holds one entry for each symbol with FLAGS.GOT. -/
def gotOk (ss : List Sect) (ys : List Symb) : Bool :=
  let n := (ys.filter (·.got)).length
  match ss.find? (fun s => s.type = 5) with
  | some g => g.data.length = 8 * n
  | none => n = 0

/-! ## Kernels (17 R354, R355) -/

/-- The items of an expression from an index to its END: well formed, every PARAM of a bound window and aligned. -/
def exprItems (wmask : Nat) (items : List Word) : Nat → Nat → Option (List Word)
  | _, 0 => none
  | depth, fuel + 1 =>
    match items with
    | [] => none
    | i :: t =>
      let c := i.toNat % 256
      let go (d : Nat) : Option (List Word) := (exprItems wmask t d fuel).map (i :: ·)
      if c = 0 then (if depth = 1 then some [i] else none)
      else if c = 1 then go (depth + 1)
      else if c = 2 then (if wmask / 2 ^ fld i 8 3 % 2 = 1 && fld i 13 16 % 2 ^ fld i 11 2 = 0 then go (depth + 1) else none)
      else if c ≤ 6 && 2 ≤ depth then go (depth - 1)
      else none
termination_by structural _ fuel => fuel

/-- The expression at an item index. -/
def exprAt (wmask : Nat) (items : List Word) (k : Nat) : Option (List Word) :=
  if k < items.length then exprItems wmask (items.drop k) 0 (items.length + 1) else none

/-- The extents of a phase record: reads, then writes. -/
def phaseAt (wmask : Nat) (ph : Word) (exts : List (Nat × Nat)) (items : List Word) :
    Option (List (List Word × List Word) × List (List Word × List Word)) :=
  let nrd := fld ph 0 16
  let nwr := fld ph 16 16
  let first := fld ph 32 32
  if exts.length < first + nrd + nwr then none
  else
    let one (e : Nat × Nat) : Option (List Word × List Word) :=
      (exprAt wmask items e.1).bind (fun a => (exprAt wmask items e.2).map (fun c => (a, c)))
    (((exts.drop first).take nrd).mapM one).bind (fun r => (((exts.drop (first + nrd)).take nwr).mapM one).map (fun w => (r, w)))

/-- An item that is none of R355's, or a PARAM of an unbound window or a misaligned offset. -/
def itemBad (wmask : Nat) (i : Word) : Bool :=
  let c := i.toNat % 256
  6 < c || (c = 2 && (wmask / 2 ^ fld i 8 3 % 2 = 0 || fld i 13 16 % 2 ^ fld i 11 2 ≠ 0))

/-- A kernel descriptor; none for one that breaks R354 or R355, or whose grant R54 refuses. Every extent record and item of its
pool is judged, and the pool lies after the descriptors. -/
def kernelAt (b : Bytes) (ss : List Sect) (ys : List Symb) (k : Nat) : Option KDesc :=
  let o := at' b 40 4 + 64 * k
  let d (i : Nat) : Word := BitVec.ofNat 64 (at' b (o + 8 * i) 8)
  let sym := fld (d 0) 0 32
  let wmask := fld (d 0) 32 8
  let nph := fld (d 0) 40 8
  let pool := at' b 40 4 + fld (d 2) 0 32
  let next := fld (d 6) 0 32
  let nitem := fld (d 6) 32 32
  let reqs := ([3, 4, 5].filter (fun i => (d i).getLsbD 63)).map (fun i => (fld (d i) 56 3, d i &&& ones 0 56))
  match ys[sym]? with
  | none => none
  | some y =>
    let s := ss[y.sect - 1]?
    let ty := (s.map (·.type)).getD 0
    if fld (d 0) 48 16 ≠ 0 || nph = 0 || fld (d 1) 0 12 ≠ 0 || fld (d 1) 32 12 ≠ 0 || fld (d 2) 32 4 ≠ 0 || d 7 ≠ 0 ||
        fld (d 2) 0 32 < 64 * at' b 44 2 || nitem = 0 || 4096 < nitem || b.length < pool + 8 * (nph + next + nitem) || pool % 8 ≠ 0 ||
        [3, 4, 5].any (fun i => fld (d i) 59 4 ≠ 0) || reqs.any (fun q => grantOf 1 q.2 = 0) ||
        y.kind ≠ 3 || y.sect = 0 || (ty ≠ 1 && ty ≠ 2) || (ty = 2 && (y.value % 64 ≠ 0 || ((s.map (·.data.length)).getD 0) ≤ y.value)) then none
    else
      let w (i : Nat) : Word := BitVec.ofNat 64 (at' b (pool + 8 * i) 8)
      let exts := (List.range next).map (fun i => (fld (w (nph + i)) 0 32, fld (w (nph + i)) 32 32))
      let items := (List.range nitem).map (fun i => w (nph + next + i))
      if items.any (itemBad wmask) || exts.any (fun e => (exprAt wmask items e.1).isNone || (exprAt wmask items e.2).isNone) then none
      else ((List.range nph).mapM (fun i => phaseAt wmask (w i) exts items)).map (fun phases =>
        { sym := sym
          kernel := { entry := 0, stop := 0, native := ty = 2, wmask := BitVec.ofNat 8 wmask, vssize := fld (d 1) 0 32,
                      vsres := fld (d 1) 32 32, sssize := fld (d 2) 32 32, reqs := reqs, phases := phases } })

/-- A kernel symbol outside TEXT and NATIVE (17 R364). -/
def strayKernel (ss : List Sect) (y : Symb) : Bool := y.kind = 3 && (y.sect = 0 || !(ss[y.sect - 1]?).any (fun s => s.type = 1 || s.type = 2))

def kernels (b : Bytes) (ss : List Sect) (ys : List Symb) : Except LoadErr (List KDesc) :=
  match (List.range (at' b 44 2)).mapM (fun k => match kernelAt b ss ys k with
    | some x => Except.ok x
    | none => .error { code := 12, sym := some (at' b (at' b 40 4 + 64 * k) 4) : LoadErr }) with
  | .error e => .error e
  | .ok l =>
    match ys.findIdx? (strayKernel ss) with
    | some n => .error { code := 12, sym := some n }
    | none => .ok l

/-! ## Native kernels (17 R444, 01 R27) -/

/-- The lines of a native kernel: from its symbol to the next kernel's in its section, or to the section's end. -/
def kernelLines (ss : List Sect) (ys : List Symb) (k : KDesc) : List (Nat × Nat × Bool) :=
  match ys[k.sym]? with
  | none => []
  | some y =>
    let data := ((ss[y.sect - 1]?).map (·.data)).getD []
    let stop := (ys.filter (fun z => z.kind = 3 && z.sect = y.sect && y.value < z.value)).foldl (fun m z => min m z.value) data.length
    (List.range ((stop - y.value) / 64)).map (fun i =>
      let link := BitVec.ofNat 64 (at' data (y.value + 64 * i) 8)
      (y.value + 64 * i, fld link 28 4, chainEnd link))

/-- An engine's chain goes on or ends with a line. -/
def opensAfter (opens : List Nat) (e : Nat) (last : Bool) : List Nat :=
  if last then opens.filter (· ≠ e) else if opens.contains e then opens else e :: opens

/-- The fewest phases that lines need: an engine has one chain a phase (01 R27, 17 R444), so a line of an engine whose chain has
ended begins a new one. -/
def leastPhases : List (Nat × Nat × Bool) → List Nat → List Nat → Nat
  | [], _, ended => if ended.isEmpty then 0 else 1
  | (_, e, last) :: t, opens, ended =>
    let forced := ended.contains e
    leastPhases t (opensAfter opens e last) (if last then e :: (if forced then [] else ended) else if forced then [] else ended) +
      (if forced then 1 else 0)

/-- The first line of each engine's chain with its phase, of `nph` phases. Where every chain has ended a phase begins as soon as
the lines that are left need no more phases than there are (log entry 14). -/
def chainsOf (nph : Nat) : List (Nat × Nat × Bool) → List Nat → List Nat → Nat → List (Nat × Nat × Nat)
  | [], _, _, _ => []
  | (o, e, last) :: t, opens, ended, ph =>
    let split := ended.contains e || (opens.isEmpty && !ended.isEmpty && ph + 1 + leastPhases ((o, e, last) :: t) [] [] ≤ nph)
    let ended1 := if split then [] else ended
    let ph1 := if split then ph + 1 else ph
    let rest := chainsOf nph t (opensAfter opens e last) (if last then e :: ended1 else ended1) ph1
    if opens.contains e then rest else (ph1, e, o) :: rest

/-- The commands of a native kernel: phase, engine, offset of the first line, and whether it ends its phase. -/
def nativeCmds (ss : List Sect) (ys : List Symb) (k : KDesc) : List (Nat × Nat × Nat × Bool) :=
  let cs := chainsOf k.kernel.phases.length (kernelLines ss ys k) [] [] 0
  let nph := cs.foldl (fun m c => max m (c.1 + 1)) 0
  (List.range nph).flatMap (fun p =>
    let here := [0, 1, 2].filterMap (fun e => cs.find? (fun c => c.1 = p && c.2.1 = e))
    here.zipIdx.map (fun (c, i) => (p, c.2.1, c.2.2, i + 1 = here.length)))

/-! ## Placement (17 R357) -/

/-- The first index from a start on, round a range, that a test admits. -/
def firstFrom (n start : Nat) (ok : Nat → Bool) : Option Nat :=
  ((List.range n).map (fun i => (start + i) % n)).find? ok

/-- Offsets of sections laid out in order, and the bytes they take. -/
def layout (pick : Sect → Bool) (al : Sect → Nat) : List Sect → Nat → List (Option Nat) × Nat
  | [], o => ([], o)
  | s :: t, o =>
    if pick s then
      let a := upTo o (al s)
      let (l, e) := layout pick al t (a + s.data.length)
      (some a :: l, e)
    else
      let (l, e) := layout pick al t o
      (none :: l, e)

/-- TB: a 4-aligned start at which an instruction image of `n` bytes meets none of the job's. -/
def placeText (s : State) (j : Job) (n : Nat) : Option Nat :=
  let slots := (Config.istoreBytes - Config.userText) / 4
  (firstFrom slots (Config.placeDraw s.draws) (fun k =>
    let a := Config.userText + 4 * k
    a + n ≤ Config.istoreBytes && (j.images j.loads.length).all (fun t => a + n ≤ t.1 || t.1 + t.2.length ≤ a))).map (fun k => Config.userText + 4 * k)

/-- Whether a virtual range holds no page of a job. -/
def rangeFree (s : State) (root va n : Nat) : Bool := (leavesIn s root (va / 65536 * 65536) (upTo (va % 65536 + n) 65536)).isEmpty

/-- B: PBASE where its range is free, else a free multiple of 65,536. The page at the control core's data store is left
out (log entry 10). -/
def placeData (s : State) (j : Job) (pbase n : Nat) : Option Nat :=
  let ok (a : Nat) : Bool := n = 0 || (0x20000 ≤ a && a + n ≤ 0x7FFFF800 && rangeFree s j.root a n)
  if pbase ≠ 0 && ok pbase then some pbase
  else (firstFrom 32768 (Config.placeDraw (s.draws + 1)) (fun k => ok (65536 * k))).map (65536 * ·)

/-- The line image: a free range of pages below the windows, at or after a drawn page, or from the first on. -/
def placeLines (s : State) (j : Job) (n : Nat) : Option Nat :=
  if n = 0 then some 0
  else
    let pages := Config.windowBase / 65536
    let start := 0x80000 + Config.placeDraw (s.draws + 2) % (pages - 0x80000)
    let ends := (leavesOf s.hbm 2 j.root 0).map (fun l => (l.va + l.size) / 65536)
    let ok (p : Nat) : Bool := 0x80000 ≤ p && 65536 * p + n ≤ Config.windowBase && rangeFree s j.root (65536 * p) n
    ((start :: ends.filter (start ≤ ·) ++ (0x80000 :: ends)).find? ok).map (65536 * ·)

/-! ## Relocation (17 R361) -/

/-- The opcodes that a relocation type may stand on; types 1 and 2 are data. -/
def relOpcodes : Nat → List Nat
  | 3 => [0x37] | 4 => [0x03, 0x13, 0x1B, 0x67] | 5 => [0x23] | 6 => [0x37] | 7 => [0x03] | _ => []

/-- The patched instruction. -/
def patchInsn (ty : Nat) (w : BitVec 32) (v : Int) : BitVec 32 :=
  let hi : BitVec 20 := BitVec.ofInt 20 ((v + 0x800) / 4096)
  let lo : BitVec 12 := BitVec.ofInt 12 v
  if ty = 3 || ty = 6 then hi ++ w.extractLsb' 0 12
  else if ty = 5 then lo.extractLsb' 5 7 ++ w.extractLsb' 12 13 ++ lo.extractLsb' 0 5 ++ w.extractLsb' 0 7
  else lo ++ w.extractLsb' 0 20

/-- Bytes put into a list from an offset on. -/
def splice (d : Bytes) (o : Nat) (x : Bytes) : Bytes := d.take o ++ x ++ d.drop (o + x.length)

def relocAt (b : Bytes) (k : Nat) : Reloc :=
  let o := at' b 32 4 + 24 * k
  { off := at' b o 4, sect := at' b (o + 4) 2, type := at' b (o + 6) 1, sym := at' b (o + 8) 4,
    addend := (BitVec.ofNat 64 (at' b (o + 16) 8)).toInt, zero := at' b (o + 7) 1 = 0 && at' b (o + 12) 4 = 0 }

/-- One relocation, on the images of the sections. `addr` gives S, `got` G, and `ports` the portable words. -/
def relocate (ss : List Sect) (imgs : List Bytes) (addr got : Nat → Option Nat) (ports : List (Nat × Nat × Word)) (k : Nat) (r : Reloc) :
    Except LoadErr (List Bytes) :=
  let bad (c : Nat) : Except LoadErr (List Bytes) :=
    .error { code := c, sect := some r.sect, off := some r.off, rel := some k, sym := some r.sym }
  let n := if r.type = 1 then 8 else 4
  let img := imgs.getD (r.sect - 1) []
  let ty := ((ss[r.sect - 1]?).map (·.type)).getD 0
  if !r.zero then bad 2
  else if r.type = 0 || 7 < r.type || r.sect = 0 || ss.length < r.sect || img.length < r.off + n ||
      (if r.type ≤ 2 then ty ≠ 3 && ty ≠ 4 else ty ≠ 1) || (3 ≤ r.type && r.off % 4 ≠ 0) ||
      ports.any (fun p => p.1 = r.sect && p.2.1 < r.off + n && r.off < p.2.1 + 8) ||
      (3 ≤ r.type && !(relOpcodes r.type).contains (at' img r.off 4 % 128)) then bad 9
  else match (if 6 ≤ r.type then got r.sym else addr r.sym) with
    | none => bad 9
    | some a =>
      let v : Int := (BitVec.ofNat 64 a + BitVec.ofInt 64 r.addend).toInt
      if (r.type = 2 && (v < 0 || 2 ^ 32 ≤ v)) || ((r.type = 3 || r.type = 6) && (v < -(2 ^ 31) || 2 ^ 31 - 2049 < v)) then bad 10
      else
        let x := if r.type ≤ 2 then leBytes n (BitVec.ofInt 64 v).toNat
          else leBytes 4 (patchInsn r.type (BitVec.ofNat 32 (at' img r.off 4)) v).toNat
        .ok (imgs.set (r.sect - 1) (splice img r.off x))

/-! ## Translation (15 R334, 17 R365) -/

/-- A region: the portable word that it is, where it stands, and its commands, each its engine and its number of words. -/
structure Region where
  sect    : Nat
  offset  : Nat
  word    : Word
  i       : Instr
  cmds    : List (Nat × Nat)
deriving DecidableEq, Repr

/-- A region with the places of its frames and its lines in the line image. -/
structure Placed where
  frames : Nat
  lines  : Nat
  reg    : Region
deriving DecidableEq, Repr

/-- Regions placed one after another in the line image, each its frames, 128-aligned, and then its lines. -/
def placeRegions : List Region → Nat → List Placed × Nat
  | [], o => ([], o)
  | r :: t, o =>
    let f := upTo o 128
    let l := f + 128 * r.cmds.length
    let (ps, e) := placeRegions t (l + 64 * r.cmds.foldl (fun n c => n + linesOf c.2) 0)
    ({ frames := f, lines := l, reg := r } :: ps, e)

/-- A CODE frame in the line image: its engine, whether it ends its phase, whether its phase cannot be run again (02 R37), and its
first line. -/
def codeFrame (e : Nat) (last early : Bool) (line : Nat) : Bytes :=
  bytesOf ([BitVec.ofNat 64 (1 + e * 256 + (if early then 2048 else 0) + (if last then 4096 else 0))] ++ List.replicate 9 0 ++
    [BitVec.ofNat 64 line] ++ List.replicate 5 0)

/-- The lines of a command of a region: links and the check word of its segment are those of its words, and what stands in the
words' own slots is left to wkld (15 R333). -/
def portLines (release : Nat) (word : Word) (c n : Nat) (e : Eng) : Bytes :=
  (List.range (linesOf n)).flatMap (fun k =>
    let line := portLine e (lineSteps * k) n
    let own := Config.wkldLine release word (64 * c + k)
    bytesOf (line.zipIdx.map (fun (w, i) => if i = 0 || (i = 7 && segEnd (line.getD 0 0)) then w else own.getD i 0)))

/-- The bytes that a region adds to the line image at a base: the frames of its commands, and their lines. -/
def Placed.image (p : Placed) (base release : Nat) (early : Bool) : List (Nat × Bytes) :=
  p.reg.cmds.zipIdx.flatMap (fun (c, k) =>
    let a := base + p.lines + 64 * (p.reg.cmds.take k).foldl (fun n d => n + linesOf d.2) 0
    [(base + p.frames + 128 * k, codeFrame c.1 false early a), (a, portLines release p.reg.word k c.2 (engOf c.1))])

/-- The descriptor of a region (15 R334). -/
def descWords (frames nfr : Nat) (gin gout qin : BitVec 32) (exits : List Nat) : List Word :=
  let ex (k : Nat) : Word := BitVec.ofNat 64 ((List.range 4).foldl (fun a i => a + exits.getD (4 * k + i) 0 % 65536 * 2 ^ (16 * i)) 0)
  [BitVec.ofNat 64 (frames % 2 ^ 55 + nfr % 32 * 2 ^ 58), (gout &&& ~~~1#32) ++ (gin &&& ~~~1#32), qin.setWidth 64, ex 0, ex 1, 0, 0, 0]

/-- The bridge word of a region (15 R334). -/
def bridgeWord (r : Nat) : Word := packP 6 0x10 { imm18 := BitVec.ofNat 18 r, vs3 := 0, vs2 := 0, vs1 := 0, pinv := false, pg := 0, ty := 0, vd := 0 }

/-- The regions of an object: each portable word that R88 leaves to the engines. -/
def regionsOf (ports : List (Nat × Nat × Word)) : List Region :=
  ports.filterMap (fun p => (decodePort p.2.2).bind (fun i =>
    if controlForm i then none
    else some { sect := p.1, offset := p.2.1, word := p.2.2, i := i,
                cmds := (portCmds (fun _ => 0) i).map (fun c => (engCode c.eng, c.steps.length)) }))

/-- The instruction image with a bridge word in each region's place. -/
def cutRegions (imgs : List Bytes) (r0 : Nat) (rs : List Region) : List Bytes :=
  rs.zipIdx.foldl (fun m (r, i) =>
    m.set (r.sect - 1) (splice (m.getD (r.sect - 1) []) r.offset (leBytes 8 (bridgeWord (r0 + i)).toNat))) imgs

/-! ## Phases of portable kernels (01 R21, 02 R37) -/

/-- The ends of a portable kernel's phases as its supply gives them: as many as its phase records, rising from its entry to at most
its section's end; none otherwise. -/
def endsOf (start len nph : Nat) (marks : List Nat) : List Nat :=
  if marks.length = nph && ((start :: marks).zip marks).all (fun p => p.1 < p.2) && marks.all (· ≤ len) then marks else []

/-- The end of a portable kernel without marks: the next global or kernel symbol of its section, or the section's end (log
entry 8). -/
def nextSymbol (ys : List Symb) (y : Symb) (len : Nat) : Nat :=
  (ys.filter (fun z => (z.kind = 1 || z.kind = 3) && z.sect = y.sect && y.value < z.value)).foldl (fun m z => min m z.value) len

/-- The phases of an object's portable kernels: section, start and end of each, where it is known. -/
def portPhases (ss : List Sect) (ys : List Symb) (ks : List KDesc) (marks : List (List Nat)) : List (Nat × Nat × Nat) :=
  ks.zipIdx.flatMap (fun (k, i) =>
    match ys[k.sym]? with
    | none => []
    | some y =>
      let len := ((ss[y.sect - 1]?).map (·.data.length)).getD 0
      let nph := k.kernel.phases.length
      let ends := endsOf y.value len nph (marks.getD i [])
      if k.kernel.native then []
      else if !ends.isEmpty then ((y.value :: ends).zip ends).map (fun p => (y.sect, p.1, p.2))
      else if nph = 1 then [(y.sect, y.value, nextSymbol ys y len)] else [])

/-- Whether the commands of a region carry NONREPLAY: as their phase does, and, where the region's phase is not known, as a
function's is not, always (log entry 129). -/
def regionEarly (phases : List ((Nat × Nat × Nat) × Bool)) (r : Region) : Bool :=
  ((phases.find? (fun p => p.1.1 = r.sect && p.1.2.1 ≤ r.offset && r.offset < p.1.2.2)).map (·.2)).getD true

/-! ## The load -/

/-- What a load comes to, before its images are written. -/
structure Plan where
  tb     : Nat
  b      : Nat
  line   : Nat
  text   : List (Nat × Bytes)
  data   : List (Nat × Bytes)
  dataLen : Nat
  /-- byte ranges of the data image that DATA sections fill. -/
  wr     : List (Nat × Nat)
  lines  : List (Nat × Bytes)
  lineLen : Nat
  kernels : List Kernel
  profiles : List Word
  syms   : List (Bytes × Word)
  report : List (Bytes × Word)
  entries : List (Bytes × Word)
  natives : List Nat
  regs   : List (List Word)
  brtab  : Word
  ports  : SMap Instr

/-- wkld's checks and placement, in the order of R362. -/
def planLoad (s : State) (j : Job) (given : Supply) : Except LoadErr Plan :=
  let b := given.obj
  match headerErr b with
  | some c => .error { code := c }
  | none =>
  match sections b with
  | .error e => .error e
  | .ok ss =>
  let ps := profilesOf b
  match profileErr ps with
  | some c => .error { code := c }
  | none =>
  match scanAll ps 1 ss with
  | .error e => .error e
  | .ok ports =>
  match symbols b ss.length j.syms with
  | .error e => .error e
  | .ok ys =>
  if !gotOk ss ys then .error { code := 2 }
  else match kernels b ss ys with
  | .error e => .error e
  | .ok ks =>
  let natives := ks.filter (·.kernel.native)
  if natives.any (fun k => 16 < (nativeCmds ss ys k).length) then .error { code := 12 }
  else
  -- sizes of the three regions
  let (toff, tlen) := layout (fun x => x.type = 1) (fun _ => 4) ss 0
  let ent0 := upTo tlen 4
  let textLen := ent0 + 16 * natives.length
  let (doff, dlen) := layout (fun x => x.type = 3 || x.type = 4 || x.type = 5) (fun x => 2 ^ x.align) ss 0
  let (loff, llen) := layout (fun x => x.type = 2) (fun _ => 64) ss 0
  let rs := regionsOf ports
  let r0 := j.regs.length
  let (placed, rend) := placeRegions rs llen
  -- native kernels' frames, then the region table
  let nat0 := upTo rend 128
  let nframes := natives.map (fun k => nativeCmds ss ys k)
  let natAt (i : Nat) : Nat := nat0 + 128 * ((nframes.take i).foldl (fun a x => a + x.length) 0)
  let tab0 := natAt natives.length
  let ntab := if rs.isEmpty && natives.isEmpty then 0 else 64 * (r0 + rs.length + natives.length)
  let lineLen := tab0 + ntab
  if 65535 ≤ j.loads.length || 2 ^ 18 < r0 + rs.length + natives.length then .error { code := 11 }
  else match placeText s j textLen, placeData s j (at' b 8 8) dlen, placeLines s j lineLen with
  | some tb, some db, some lb =>
    let place (k : Nat) : Nat := match toff.getD k none, doff.getD k none, loff.getD k none with
      | some o, _, _ => tb + o
      | _, some o, _ => db + o
      | _, _, some o => lb + o
      | _, _, _ => 0
    let addr (n : Nat) : Option Nat := (ys[n]?).map (fun y =>
      if y.kind = 2 then ((j.syms.find? (fun (p : Bytes × Word) => p.1 = y.name)).map (fun (p : Bytes × Word) => p.2.toNat)).getD 0
      else if y.sect = 0xFFFF then y.value
      else (place (y.sect - 1) + y.value) % 2 ^ 64)
    let gots := (List.range ys.length).filter (fun n => ((ys[n]?).map (·.got)).getD false)
    let gotSect := ss.findIdx (fun x => x.type = 5)
    let got (n : Nat) : Option Nat := if gots.contains n then some (place gotSect + 8 * gots.findIdx (· = n)) else none
    let imgs0 := ss.zipIdx.map (fun (x, i) =>
      if x.type = 5 then bytesOf (gots.map (fun n => BitVec.ofNat 64 ((addr n).getD 0))) else if i < ss.length then x.data else [])
    let imgs1 := cutRegions imgs0 r0 rs
    match (List.range (at' b 36 4)).foldlM (fun m k => relocate ss m addr got ports k (relocAt b k)) imgs1 with
    | .error e => .error e
    | .ok imgs =>
      let entryOf (i : Nat) : Nat := tb + ent0 + 16 * i
      let natIdx (k : KDesc) : Nat := natives.findIdx (fun x => x.sym = k.sym)
      let kern (k : KDesc) (i : Nat) : Kernel :=
        let y := ys.getD k.sym { name := [], sect := 0, kind := 0, got := false, value := 0, size := 0 }
        if k.kernel.native then
          { k.kernel with entry := BitVec.ofNat 64 (entryOf (natIdx k)), stop := BitVec.ofNat 64 (entryOf (natIdx k) + 8) }
        else
          let len := ((ss[y.sect - 1]?).map (·.data.length)).getD 0
          let ends := endsOf y.value len k.kernel.phases.length (given.marks.getD i [])
          let at2 (o : Nat) : Word := BitVec.ofNat 64 (place (y.sect - 1) + o)
          { k.kernel with entry := at2 y.value, stop := at2 (ends.getLastD (nextSymbol ys y len)), ends := ends.map at2 }
      let glob := ys.zipIdx.filter (fun p => p.1.kind = 1 || p.1.kind = 3)
      let repd := ys.zipIdx.filter (fun p => p.1.kind = 1 || p.1.kind = 3 || (p.1.kind ≠ 2 && (ss[p.1.sect - 1]?).any (fun x => x.type = 2)))
      let word (n : Nat) : Word := BitVec.ofNat 64 ((addr n).getD 0)
      let natSect (k : KDesc) : Nat := ((ys[k.sym]?).map (·.sect)).getD 1 - 1
      let descs := placed.map (fun p =>
          let outs := portWrites p.reg.i
          descWords (lb + p.frames) p.reg.cmds.length (regSet (portReads p.reg.i ++ outs)) (regSet outs) 0
            (List.replicate 8 (place (p.reg.sect - 1) + p.reg.offset + 8))) ++
        natives.zipIdx.map (fun (_, i) => descWords (lb + natAt i) (nframes.getD i []).length 0 0 0 (List.replicate 8 (entryOf i + 8)))
      let regs := j.regs ++ descs
      let phases := (portPhases ss ys ks given.marks).map (fun p => (p, portEarly (((ss[p.1 - 1]?).map (·.data)).getD []) p.2.1 p.2.2))
      let natEarly (k : KDesc) (cs : List (Nat × Nat × Nat × Bool)) (ph : Nat) : Bool :=
        nativeEarly (((ss[natSect k]?).map (·.data)).getD []) ((cs.filter (fun c => c.1 = ph)).map (fun c => (engOf c.2.1, c.2.2.1)))
      let line : List (Nat × Bytes) :=
        (ss.zipIdx.filter (fun p => p.1.type = 2)).map (fun p => (place p.2, imgs.getD p.2 [])) ++
        placed.flatMap (fun p => p.image lb s.hub.release.toNat (regionEarly phases p.reg)) ++
        natives.zipIdx.flatMap (fun (k, i) => (nframes.getD i []).zipIdx.map (fun (c, n) =>
          (lb + natAt i + 128 * n, codeFrame c.2.1 c.2.2.2 (natEarly k (nframes.getD i []) c.1) (place (natSect k) + c.2.2.1)))) ++
        (if ntab = 0 then [] else [(lb + tab0, bytesOf regs.flatten)])
      .ok {
        tb := tb, b := db, line := lb
        text := (ss.zipIdx.filter (fun p => p.1.type = 1)).map (fun p => (place p.2, imgs.getD p.2 [])) ++
          natives.zipIdx.map (fun (_, i) => (entryOf i, leBytes 8 (bridgeWord (r0 + rs.length + i)).toNat ++ List.replicate 8 0))
        data := (ss.zipIdx.filter (fun p => 3 ≤ p.1.type)).map (fun p => (place p.2, imgs.getD p.2 []))
        dataLen := dlen
        wr := (ss.zipIdx.filter (fun p => p.1.type = 3)).map (fun p => (place p.2, (imgs.getD p.2 []).length))
        lines := line, lineLen := lineLen
        kernels := ks.zipIdx.map (fun (k, i) => kern k i)
        profiles := ps.map (fun p => BitVec.ofNat 64 (p.1 + 256 * p.2.1))
        syms := glob.map (fun p => (p.1.name, word p.2))
        report := repd.map (fun p => (p.1.name, word p.2))
        entries := natives.zipIdx.map (fun (k, i) => (((ys[k.sym]?).map (·.name)).getD [], BitVec.ofNat 64 (entryOf i)))
        natives := (ss.zipIdx.filter (fun p => p.1.type = 2)).map (fun p => place p.2)
        regs := regs
        brtab := if ntab = 0 then j.brtab else BitVec.ofNat 64 (lb + tab0)
        ports := rs.zipIdx.foldl (fun m (r, i) => SMap.put m (r0 + i) r.i) j.ports }
  | _, _, _ => .error { code := 11 }

/-- Maps the pages of an image, each writable where a DATA byte lies in it. -/
def mapImage (s : State) (j : Job) (base n : Nat) (wr : List (Nat × Nat)) : Option State :=
  (List.range ((n + 65535) / 65536)).foldl (fun (acc : Option State) k =>
    acc.bind (fun t =>
      let p := base + 65536 * k
      mapPage t j.root j.home p false 0 false (wr.any (fun r => r.2 ≠ 0 && r.1 < p + 65536 && p < r.1 + r.2)))) (some s)

/-- A load that has passed every check: the images are mapped and written, and the symbols entered. A page that it maps under a
window of a launch at work is bound with it (11 R241). -/
def commitLoad (s : State) (job : Nat) (j : Job) (p : Plan) : Option State :=
  ((mapImage s j p.b p.dataLen p.wr).bind (fun t => mapImage t j p.line p.lineLen [])).map (fun t =>
    let t1 := (p.data ++ p.lines).foldl (fun u x => jobWrite u j.root x.1 x.2) t
    let d : Load := { kernels := p.kernels, profiles := p.profiles, text := p.text }
    rebindWindows { (t1.setJob job { j with loads := j.loads ++ [d], syms := j.syms ++ p.syms, brtab := p.brtab, regs := p.regs,
                                            ports := p.ports }) with draws := t1.draws + 3 } job)

/-- The body of a successful reply (17 R363). -/
def loadReply (n : Nat) (p : Plan) : List Item :=
  let syms (l : List (Bytes × Word)) : List Item := l.flatMap (fun x => [Item.bytes x.1, Item.word x.2])
  [.word (BitVec.ofNat 64 n)] ++ (List.range p.kernels.length).map (fun i => Item.word (BitVec.ofNat 64 (n * 65536 + i))) ++
  syms p.report ++ syms p.entries ++ [.word (BitVec.ofNat 64 p.tb), .word (BitVec.ofNat 64 p.b)] ++
  p.natives.map (fun a => Item.word (BitVec.ofNat 64 a))

/-- A field of an error report: all ones where it does not apply (17 R362). -/
def errField (x : Option Nat) : Item := .word (match x with
  | some n => BitVec.ofNat 64 n
  | none => ones 0 64)

/-- The symbol table that the runtime supplies at a load, over what the job's own holds (17 R358). -/
def supplied (j : Job) (syms : List (List Byte × Word)) : Job := { j with syms := syms ++ j.syms.filter (fun y => !syms.any (fun x => x.1 = y.1)) }

/-- LOAD (17 R362, R363, 21 R425), with the symbols that the runtime supplies (R358). A refused load leaves no trace. -/
def execLoad (r : Req) (job : Nat) (given : Supply) (s : State) : Out :=
  withOwner r 0x0030 [Ready.fw] s <|
    match s.openJob job with
    | none => (s.reply r 0x0030 .badMsg).done
    | some j0 =>
      if !s.hbmReady j0.home then (s.reply r 0x0030 .notReady).done
      else
      let j := supplied j0 given.syms
      let refuse (e : LoadErr) : Out :=
        (s.reply r 0x0030 (.code e.code) [errField e.sect, errField e.off, errField e.rel, errField e.sym]).done
      match planLoad s j given with
      | .error e => refuse e
      | .ok p =>
        match commitLoad s job j p with
        | none => refuse { code := 11 }
        | some s1 => (s1.reply r 0x0030 .ok (loadReply (j.loads.length + 1) p)).done

end Sys2Proof.Machine
end

