-- ==== Sys2Proof/Machine/PredWords.lean ====
section
/-! DEFINITION. Predicate words and the rotation bases of engine V (08 R178-R182). -/

namespace Sys2Proof.Machine

/-- A predicate word whose guard masks the bits it writes (08 R178). -/
def predWord (f : VCtx → Pred) (v : VCtx) : VRes :=
  .ok [.pred (v.s.pphys v.w.dst.toNat) (f v) v.g] 0

def VCtx.pa (v : VCtx) : Pred := v.s.me.pget (v.s.pphys v.w.a.toNat)
def VCtx.pb (v : VCtx) : Pred := v.s.me.pget (v.s.pphys v.w.b.toNat)

/-- The bits below `n`. -/
def lowBits (n : Nat) : Pred := BitVec.ofNat 64 (2 ^ min n 64 - 1)

/-- PAND (08 R179). -/
def execPand (f : Form) (s : State) : Out := issueV (.pand f) s (predWord (fun v => v.pa &&& v.pb))
/-- POR (08 R179). -/
def execPor (f : Form) (s : State) : Out := issueV (.por f) s (predWord (fun v => v.pa ||| v.pb))
/-- PXOR (08 R179). -/
def execPxor (f : Form) (s : State) : Out := issueV (.pxor f) s (predWord (fun v => v.pa ^^^ v.pb))
/-- PANDN (08 R179). -/
def execPandn (f : Form) (s : State) : Out := issueV (.pandn f) s (predWord (fun v => v.pa &&& ~~~v.pb))
/-- PNOT (08 R179). -/
def execPnot (f : Form) (s : State) : Out := issueV (.pnot f) s (predWord (fun v => ~~~v.pa))
/-- PMOV (08 R179). -/
def execPmov (f : Form) (s : State) : Out := issueV (.pmov f) s (predWord (fun v => v.pa))

/-- PCNT: the set bits of pA in every container (08 R180). -/
def execPcnt (f : Form) (s : State) : Out :=
  issueV (.pcnt f) s fun v =>
    let n := (bitsOf v.pa).length
    .ok (v.s.vland v.w.dst 32 ((List.range 64).map (fun i => (i, n)))) 0

/-- PFIRST: the lowest guarded set bit (08 R180). -/
def execPfirst (f : Form) (s : State) : Out :=
  issueV (.pfirst f) s (predWord (fun v =>
    let x := v.pa &&& v.g
    x &&& (0 - x)))

/-- PTAIL: containers below min(E, n), n the signed INT32 in container 0 (08 R180). -/
def execPtail (f : Form) (s : State) : Out :=
  issueV (.ptail f) s (predWord (fun v =>
    let w := width v.ty
    let n := intVal 8 (elem v.a 32 0)
    let m := min (v.s.elems w) n.toNat
    BitVec.ofNat 64 ((List.range 64).foldl (fun a c => if c * (32 / w) < m then a + 2 ^ c else a) 0)))

/-- PPACK: eight predicates in the low bytes of a register, zeros above (08 R181). -/
def execPpack (f : Form) (s : State) : Out :=
  issueV (.ppack f) s fun v =>
    let w64 := (List.range 8).map (fun k => (k, (v.s.me.pget (v.s.pphys (v.w.a.toNat + k))).toNat))
    .ok (v.s.vland v.w.dst 64 ((List.range 32).map (fun k => (k, ((w64.map (·.2)).getD k 0))))) 0

/-- PUNPACK: eight predicates from the low bytes of a register; p0 is never written (08 R181). -/
def execPunpack (f : Form) (s : State) : Out :=
  issueV (.punpack f) s fun v =>
    .ok (((List.range 8).filter (fun k => v.w.dst.toNat + k ≠ 0)).map (fun k =>
      .pred (v.s.pphys (v.w.dst.toNat + k)) (v.a.extractLsb' (64 * k) 64) allOnes)) 0

/-- PSET: bit c is set when c < n (08 R180). -/
def execPset (f : Form) (s : State) : Out := issueV (.pset f) s (predWord (fun v => lowBits v.w.c.toNat))

/-- SETROT: the rotation bases at issue (08 R182). -/
def execSetrot (w : NWord) (s : State) : Out :=
  issueC (.setrot w) s (fun _ => []) fun _ w =>
    let m := w.c.toNat % 32
    .ok (s.updLn (fun l => { l with upc := { l.upc with
      vrb := if m = 1 ∨ m = 3 then w.a.setWidth 9 else l.upc.vrb,
      prb := if m = 2 ∨ m = 3 then w.b.setWidth 6 else l.upc.prb } }))

end Sys2Proof.Machine
end

