-- ==== Sys2Proof/Machine/Reduce.lean ====
section
/-! DEFINITION. Reductions, scans and dot products (08 R171-R177): fixed trees of nodes that round once each. -/

namespace Sys2Proof.Machine

/-- The least power of two that is at least `n`, and 1 for n ≤ 1 (08 R172). -/
def pow2At (n : Nat) : Nat := if n ≤ 1 then 1 else 2 ^ (Nat.log2 (n - 1) + 1)

/-- One level of the tree: lane i of the lower half takes lane i + h (08 R172). -/
def treeGo (node : Nat → Nat → Nat × Flags) : Nat → List Nat → Flags → Nat × Flags
  | 0, l, fl => (l.getD 0 0, fl)
  | k + 1, l, fl =>
    let h := 2 ^ k
    let res := (l.take h).zipWith node (l.drop h)
    treeGo node k (res.map (·.1)) (fl ||| orFlags (res.map (·.2)))

/-- The fixed tree over P = 2^k leaves, patterns throughout. -/
def tree (node : Nat → Nat → Nat × Flags) (leaves : List Nat) : Nat × Flags :=
  treeGo node (Nat.log2 leaves.length) leaves 0

/-- Whether element `i` contributes: it is active (08 R171). -/
def VCtx.contrib (v : VCtx) (w i : Nat) : Bool := i < v.s.elems w && guarded v.g w i

/-- The leaves of a reduction: contributing elements through `f`, the identity elsewhere (08 R172). -/
def VCtx.leaves (v : VCtx) (w ident : Nat) (f : Nat → Nat) : List Nat :=
  (List.range (pow2At (v.s.elems w))).map (fun i => if v.contrib w i then f (elem v.a w i) else ident)

/-- Whether any element contributes. -/
def VCtx.some (v : VCtx) (w : Nat) : Bool := (List.range (v.s.elems w)).any (v.contrib w)

/-- A reduction writes element 0 alone, whether or not any element contributed (08 R171). -/
def VCtx.one (v : VCtx) (w : Nat) (r : Nat × Flags) : VRes := .ok (v.s.vland v.w.dst w [(0, r.1)]) r.2

/-- A sum's node on FP32 patterns (08 R173). A node of the tree rounds as every addition does, whatever its operands came from: under
RDN +0 plus the −0 of a lane with no element is −0, though 04 R83 says of padding that it changes no sign (DEDUCED, log entry
128). -/
def sumNode (fm : Word) (l r : Nat) : Nat × Flags := addNum fp32 fm false (decodeF fp32 l) (decodeF fp32 r)

/-- An element of a floating type as an FP32 pattern, which holds it exactly; a signalling NaN stays one. -/
def toFp32 (F : Fmt) (fm : Word) (x : Nat) : Nat :=
  match operand F fm x with
  | .nan true => 0x7F800001
  | .nan false => fp32.cnan
  | .inf n => withSign fp32 n 0x7F800000
  | .fin n 0 _ => withSign fp32 n 0
  | .fin n m e => (roundFin fp32 0 .rne n m e false).1

/-- VREDSUM: the FP32 sum in container 0 (08 R173). -/
def execVredsum (f : Form) (s : State) : Out :=
  issueV (.vredsum f) s fun v =>
    match fmtOf v.ty with
    | none => .ok [] 0
    | some F =>
      let (r, fl) := if v.some F.w then tree (sumNode v.fm) (v.leaves F.w 0x80000000 (toFp32 F v.fm)) else (0, 0)
      -- a tree of one leaf has no node: a NaN is made canonical there too (04 R66)
      let x := decodeF fp32 r
      v.one 32 (if x.isNan then (fp32.cnan, fl ||| flagIf x.isSig Flag.nv) else (r, fl))

/-- VREDMAX and VREDMIN (08 R174). -/
def redExtreme (mx : Bool) (v : VCtx) : VRes :=
  let w := width v.ty
  match fmtOf v.ty with
  | some F =>
    let ident := withSign F mx (F.maxP + 1)
    let l := v.leaves w ident (flushIn F v.fm)
    let (r, fl) := tree (minMax F mx false) l
    -- a tree of one leaf has no node: a NaN is made canonical there too
    let x := decodeF F r
    v.one w (if x.isNan then (F.cnan, fl ||| flagIf x.isSig Flag.nv) else (r, fl))
  | none =>
    let ident := wrapInt w (if mx then intMin v.ty else intMax v.ty)
    let node (l r : Nat) : Nat × Flags :=
      let le := intVal v.ty l ≤ intVal v.ty r
      (if mx then (if le then r else l) else (if le then l else r), 0)
    v.one w (tree node (v.leaves w ident id))

/-- VREDMAX (08 R174). -/
def execVredmax (f : Form) (s : State) : Out := issueV (.vredmax f) s (redExtreme true)

/-- VREDMIN (08 R174). -/
def execVredmin (f : Form) (s : State) : Out := issueV (.vredmin f) s (redExtreme false)

/-- VREDISUM: the exact sum modulo 2^32 in container 0 (08 R175). -/
def execVredisum (f : Form) (s : State) : Out :=
  issueV (.vredisum f) s fun v =>
    let w := width v.ty
    let idx := (List.range (v.s.elems w)).filter (v.contrib w)
    v.one 32 (wrapInt 32 (idx.foldl (fun a i => a + intVal v.ty (elem v.a w i)) 0), 0)

/-- The doubling schedule of a scan, `k` steps of distance d, 2d, … (08 R176). The node of an active lane alone raises flags: an
inactive element raises none (03 R59, 04 R79; DEDUCED, log entry 115). -/
def scanGo (act : Nat → Bool) (node : Nat → Nat → Nat × Flags) : Nat → Nat → List Nat → Flags → List Nat × Flags
  | 0, _, l, fl => (l, fl)
  | k + 1, d, l, fl =>
    let res := (l.drop d).zipWith node l
    scanGo act node k (2 * d) (l.take d ++ res.map (·.1)) (fl ||| orFlags ((res.zipIdx.filter (fun r => act (d + r.2))).map (·.1.2)))

/-- VSCAN, inclusive or exclusive (08 R176). -/
def scanWord (exc : Bool) (v : VCtx) : VRes :=
  let w := width v.ty
  let n := v.s.elems w
  let act := (List.range n).filter (v.contrib w)
  let p := pow2At n
  let (sums, fl) := match fmtOf v.ty with
    | some F => scanGo (v.contrib w) (sumNode v.fm) (Nat.log2 p) 1 (v.leaves w 0x80000000 (toFp32 F v.fm)) 0
    | none => scanGo (v.contrib w) (fun a b => ((a + b) % 2 ^ w, 0)) (Nat.log2 p) 1 (v.leaves w 0 id) 0
  let fin (x : Nat) : Nat × Flags := match fmtOf v.ty with
    | some F => roundTo F v.fm (rmode v.fm) (decodeF fp32 x)
    | none => (x, 0)
  let res := act.map (fun i =>
    if exc then
      if (List.range i).any (v.contrib w) then (i, fin (sums.getD (i - 1) 0)) else (i, (0, 0))
    else (i, fin (sums.getD i 0)))
  .ok (v.s.vland v.w.dst w (res.map (fun q => (q.1, q.2.1)))) (fl ||| orFlags (res.map (fun q => q.2.2)))

/-- VSCAN.INC (08 R176). -/
def execVscanInc (f : Form) (s : State) : Out := issueV (.vscanInc f) s (scanWord false)

/-- VSCAN.EXC (08 R176). -/
def execVscanExc (f : Form) (s : State) : Out := issueV (.vscanExc f) s (scanWord true)

/-- VDOT: one dot product per container (08 R177). -/
def execVdot (f : Form) (s : State) : Out :=
  issueV (.vdot f) s fun v =>
    let wn := width v.ty
    let g := width (shpTy (v.s.shp 0))
    let n := min ((shpD (v.s.shp 0) 0 * g + wn - 1) / wn) (2048 / wn)
    let act := (List.range 64).filter (fun i => v.g.getLsbD i && i * 32 / wn < n)
    let terms (i : Nat) : List Nat := ((List.range (32 / wn)).map (fun j => i * 32 / wn + j)).filter (· < n)
    let one (i : Nat) : Nat × Flags := match fmtOf v.ty with
      | some F => dotGroup v.fm (flushIn fp32 v.fm (elem v.c 32 i))
          ((terms i).map (fun k => (operand F v.fm (elem v.a wn k), operand F v.fm (elem v.b wn k))))
      | none =>
        (wrapInt 32 ((terms i).foldl (fun a k => a + intVal v.ty (elem v.a wn k) * intVal v.ty (elem v.b wn k)) (elem v.c 32 i : Nat)), 0)
    let res := act.map (fun i => (i, one i))
    .ok (v.s.vland v.w.dst 32 (res.map (fun q => (q.1, q.2.1)))) (orFlags (res.map (fun q => q.2.2)))

end Sys2Proof.Machine
end

