-- ==== Sys2Proof/Machine/Traps.lean ====
section
/-! DEFINITION. What the control core takes at an instruction boundary (20 R406-R409): engine traps and interrupts, with what
the resident runtime does in the same step where the spec gives it (16 R346, 19 R399); ECALL, EBREAK and MRET. -/

namespace Sys2Proof.Machine

/-- An item that is taken at an instruction boundary (20 R408, items 2 and 3). -/
inductive Pending where
  | engine (e : Eng)
  | irq (k : Nat)
deriving DecidableEq, Repr

/-- Whether the core takes engine traps and interrupts: in user mode, or with mstatus.MIE set (20 R407). -/
def Core.takes (c : Core) : Bool := c.mode = .U || c.mstatus.getLsbD 3

/-- Interrupts in the order of R408: MCIP, PREIP, FBIP, then the standard external, software and timer ones. -/
def irqOrder : List Nat := [18, 17, 16, 11, 3, 7]

/-- The first item that applies: engine A's trap, M's, V's, then the interrupts. -/
def pendingItem (s : State) (lcore : Nat) : Option Pending :=
  let c := s.coreAt lcore
  if !c.takes then none
  else match [Eng.A, Eng.M, Eng.V].find? (fun e => (c.line e).trap.isSome) with
    | some e => some (.engine e)
    | none => (irqOrder.find? (fun k => (s.mipNow lcore &&& c.mie).getLsbD k)).map .irq

/-- mcause of an interrupt. -/
def irqCause (k : Nat) : Word := BitVec.ofNat 64 (2 ^ 63 + k)

/-- VSTACK's handling (16 R346): once in a unit, whatever software writes to VSLIM, the reserve and mret, with which engine A tries its spill again; else VSTACKOVF. -/
def vstack (s : State) (base : Word) : State :=
  match s.me.unit with
  | none => s
  | some u =>
    if s.me.vslim = u.vslim0 ∧ 0 < u.vsres ∧ !u.lowered then
      s.updMe (fun c => { c.mretStatus.popHandling with vslim := c.vslim - BitVec.ofNat 64 u.vsres, unit := some { u with lowered := true } })
    else raiseAt s s.cur.lcore .A (s.me.line .A).seq { code := 35, addr := base }

/-- An engine's trap is taken (20 R407): the engine stays stopped until the handler's mret. After SHADOWREAD its bundle
issues once without the check (15 R328). -/
def takeEngine (s : State) (e : Eng) : Out :=
  match (s.me.line e).trap with
  | none => s.waits
  | some t =>
    let s1 := s.updMe (fun c =>
      let c1 := (c.takeTrap t.cause t.val).updLine e (fun l => { l with trap := none, pass := l.pass || t.cause = 30 })
      { c1 with handling := some e :: c.handling })
    let s2 := if t.cause = 27 && s.me.resident then vstack s1 t.val else s1
    .next { s2 with note := .trap t.cause t.val }

/-- PREIP's handling (19 R399): the control core's own state into a new image's software block, and a SAVE. -/
def beginSave (s : State) : State :=
  if s.me.ctxbusy then s
  else
    let s0 := s.drainSbuf s.cur.lcore
    let s1 := match allocFrame s0 (dieOf s.cur.lcore) imagePages with
      | some (t, a) => (t.physWrite s.cur.lcore (a + 64) (bytesOf (softBlock t.me)) false).updMe (fun c =>
          { c with ctxptr := BitVec.ofNat 64 a, ctxlen := BitVec.ofNat 32 (imagePages * 65536) })
      | none => s0.updMe (fun c => { c with ctxptr := 0, ctxlen := 0 })
    s1.updMe (fun c => { c with ctxbusy := true, ctxsave := true, ctxrt := true, preip := false })

/-- An interrupt is taken. -/
def takeIrq (s : State) (k : Nat) : Out :=
  let s1 := s.updMe (fun c => c.takeTrap (irqCause k) 0)
  let s2 := if k = 17 && s.me.resident then beginSave s1 else s1
  .next { s2 with note := .trap (irqCause k) 0 }

def takeItem (s : State) : Pending → Out
  | .engine e => takeEngine s e
  | .irq k => takeIrq s k

/-- TRAP_ENTRY: the first item pending at the boundary is taken; a synchronous exception of the instruction there, which
comes before them, is the turn's to find (20 R408). -/
def execTrapEntry (s : State) : Out :=
  match pendingItem s s.cur.lcore with
  | some p => takeItem s p
  | none => s.waits

/-- An interrupt is taken where it is the item that R408 picks. -/
def interrupt (k : Nat) (s : State) : Out :=
  if pendingItem s s.cur.lcore = some (.irq k) then takeIrq s k else s.waits

/-- FBIP_INTERRUPT (19 R395). -/
def execFbipInterrupt (s : State) : Out := interrupt 16 s
/-- PREIP_INTERRUPT (19 R399). -/
def execPreipInterrupt (s : State) : Out := interrupt 17 s
/-- MCIP_INTERRUPT (20 R406). -/
def execMcipInterrupt (s : State) : Out := interrupt 18 s

/-- ECALL (20 R406). -/
def execEcall (s : State) : Out :=
  match s.me.mode with
  | .U => s.trap 8 0
  | .M => s.trap 11 0

/-- EBREAK (20 R406): mtval holds its address. -/
def execEbreak (_short : Bool) (s : State) : Out := s.trap 3 s.me.pc

/-- MRET: in user mode it is an illegal instruction (the RISC-V privileged architecture). -/
def execMret (s : State) : Out :=
  match s.me.mode with
  | .U => s.trap 2 0x30200073
  | .M => (s.updMe (fun c => c.mretStatus.popHandling.counted)).done

end Sys2Proof.Machine
end

