-- ==== Sys2Proof/Machine/Rv64.lean ====
section
/-! DEFINITION. The control core's RV64IMAC, Zicsr, Zifencei, Zba, Zbb, Zbs and Zicond (06 R112, R113, 14 R318, 00 R11): the
arithmetic, branches, accesses, CSR instructions, WFI, fences and the A extension on windows. -/

namespace Sys2Proof.Machine

/-! ## Arithmetic (the RISC-V unprivileged architecture) -/

/-- The low 32 bits of a result, sign-extended. -/
def sextW (v : Nat) : Word := (BitVec.ofNat 32 v).signExtend 64
def sextWB (v : BitVec 32) : Word := v.signExtend 64
def boolWord (b : Bool) : Word := if b then 1 else 0
/-- Leading zeros, trailing zeros and set bits of a value of `n` bits. -/
def clzN (n v : Nat) : Nat := if v = 0 then n else n - 1 - v.log2
def ctzN (n v : Nat) : Nat := ((List.range n).find? (fun k => v.testBit k)).getD n
def popN (n v : Nat) : Nat := ((List.range n).filter (fun k => v.testBit k)).length

/-- Signed division and remainder, with RISC-V's results for a zero divisor and for overflow. -/
def divS {n : Nat} (a b : BitVec n) : BitVec n := if b = 0 then ~~~0 else BitVec.ofInt n (a.toInt.tdiv b.toInt)
def remS {n : Nat} (a b : BitVec n) : BitVec n := if b = 0 then a else BitVec.ofInt n (a.toInt.tmod b.toInt)
def divU {n : Nat} (a b : BitVec n) : BitVec n := if b = 0 then ~~~0 else a / b
def remU {n : Nat} (a b : BitVec n) : BitVec n := if b = 0 then a else a % b

/-- Register-to-register operations. -/
def aluOp (o : AluOp) (a b : Word) : Word :=
  let k := b.toNat % 64
  match o with
  | .add => a + b
  | .sub => a - b
  | .sll => a <<< k
  | .slt => boolWord (a.slt b)
  | .sltu => boolWord (a.ult b)
  | .xor => a ^^^ b
  | .srl => a >>> k
  | .sra => a.sshiftRight k
  | .or => a ||| b
  | .and => a &&& b
  | .mul => a * b
  | .mulh => BitVec.ofInt 64 (a.toInt * b.toInt / 2 ^ 64)
  | .mulhsu => BitVec.ofInt 64 (a.toInt * (b.toNat : Int) / 2 ^ 64)
  | .mulhu => BitVec.ofNat 64 (a.toNat * b.toNat / 2 ^ 64)
  | .div => divS a b
  | .divu => divU a b
  | .rem => remS a b
  | .remu => remU a b
  | .sh1add => b + (a <<< 1)
  | .sh2add => b + (a <<< 2)
  | .sh3add => b + (a <<< 3)
  | .andn => a &&& ~~~b
  | .orn => a ||| ~~~b
  | .xnor => ~~~(a ^^^ b)
  | .max => if a.slt b then b else a
  | .maxu => if a.ult b then b else a
  | .min => if a.slt b then a else b
  | .minu => if a.ult b then a else b
  | .rol => a.rotateLeft k
  | .ror => a.rotateRight k
  | .bclr => a &&& ~~~((1 : Word) <<< k)
  | .bext => (a >>> k) &&& 1
  | .binv => a ^^^ ((1 : Word) <<< k)
  | .bset => a ||| ((1 : Word) <<< k)
  | .czeroEqz => if b = 0 then 0 else a
  | .czeroNez => if b = 0 then a else 0

/-- Operations on the low 32 bits; the `.uw` forms read rs1's low 32 bits zero-extended. -/
def aluOpW (o : AluOpW) (a b : Word) : Word :=
  let x : BitVec 32 := a.setWidth 32
  let y : BitVec 32 := b.setWidth 32
  let k := b.toNat % 32
  let ux : Word := x.setWidth 64
  match o with
  | .addw => sextWB (x + y)
  | .subw => sextWB (x - y)
  | .sllw => sextWB (x <<< k)
  | .srlw => sextWB (x >>> k)
  | .sraw => sextWB (x.sshiftRight k)
  | .mulw => sextWB (x * y)
  | .divw => sextWB (divS x y)
  | .divuw => sextWB (divU x y)
  | .remw => sextWB (remS x y)
  | .remuw => sextWB (remU x y)
  | .addUw => b + ux
  | .sh1addUw => b + (ux <<< 1)
  | .sh2addUw => b + (ux <<< 2)
  | .sh3addUw => b + (ux <<< 3)
  | .rolw => sextWB (x.rotateLeft k)
  | .rorw => sextWB (x.rotateRight k)

/-- Operations with an immediate; a shift's amount stands in its low bits. -/
def immOp (o : ImmOp) (a : Word) (i : BitVec 12) : Word :=
  let v : Word := i.signExtend 64
  match o with
  | .addi => aluOp .add a v
  | .slti => aluOp .slt a v
  | .sltiu => aluOp .sltu a v
  | .xori => aluOp .xor a v
  | .ori => aluOp .or a v
  | .andi => aluOp .and a v
  | .slli => aluOp .sll a v
  | .srli => aluOp .srl a v
  | .srai => aluOp .sra a v
  | .rori => aluOp .ror a v
  | .bclri => aluOp .bclr a v
  | .bexti => aluOp .bext a v
  | .binvi => aluOp .binv a v
  | .bseti => aluOp .bset a v
  | .addiw => aluOpW .addw a v
  | .slliw => aluOpW .sllw a v
  | .srliw => aluOpW .srlw a v
  | .sraiw => aluOpW .sraw a v
  | .roriw => aluOpW .rorw a v
  | .slliUw => ((a.setWidth 32).setWidth 64) <<< (i.toNat % 64)

/-- One-operand operations of Zbb. -/
def unaryOp (o : UnOp) (a : Word) : Word :=
  match o with
  | .clz => BitVec.ofNat 64 (clzN 64 a.toNat)
  | .ctz => BitVec.ofNat 64 (ctzN 64 a.toNat)
  | .cpop => BitVec.ofNat 64 (popN 64 a.toNat)
  | .clzw => BitVec.ofNat 64 (clzN 32 (a.toNat % 2 ^ 32))
  | .ctzw => BitVec.ofNat 64 (ctzN 32 (a.toNat % 2 ^ 32))
  | .cpopw => BitVec.ofNat 64 (popN 32 (a.toNat % 2 ^ 32))
  | .sextB => (a.setWidth 8).signExtend 64
  | .sextH => (a.setWidth 16).signExtend 64
  | .zextH => (a.setWidth 16).setWidth 64
  | .orcB => BitVec.ofNat 64 (leNat ((leBytes 8 a.toNat).map (fun b => if b = 0 then 0 else 0xFF)))
  | .rev8 => BitVec.ofNat 64 (leNat (leBytes 8 a.toNat).reverse)

def brTaken (c : BrCond) (a b : Word) : Bool :=
  match c with
  | .eq => a = b
  | .ne => a ≠ b
  | .lt => a.slt b
  | .ge => !a.slt b
  | .ltu => a.ult b
  | .geu => !a.ult b

/-- Bytes of an access, and how a loaded value fills the register. -/
def memBytes : MemW → Nat
  | .b => 1 | .bu => 1 | .h => 2 | .hu => 2 | .w => 4 | .wu => 4 | .d => 8
def memExtend (k : MemW) (v : Nat) : Word :=
  match k with
  | .b => (BitVec.ofNat 8 v).signExtend 64
  | .h => (BitVec.ofNat 16 v).signExtend 64
  | .w => (BitVec.ofNat 32 v).signExtend 64
  | _ => BitVec.ofNat 64 v

/-! ## Ordinary instructions -/

/-- A jump: the link register, and the pc at the target, whose bit 0 is cleared. -/
def jumpTo (s : State) (rd : Reg) (n : Nat) (target : Word) : Out :=
  (s.updMe (fun c => Core.counted { c.wx rd (c.pc + BitVec.ofNat 64 n) with pc := target &&& ~~~(1 : Word) })).done

/-- The bits of a CSR instruction, for the trap value. -/
def csrBits (o : CsrOp) (rd : Reg) (imm : Bool) (src : Reg) (num : BitVec 12) : Word :=
  BitVec.ofNat 64 (num.toNat * 2 ^ 20 + src.toNat * 2 ^ 15 + ((match o with | .rw => 1 | .rs => 2 | .rc => 3) + (if imm then 4 else 0)) * 2 ^ 12
    + rd.toNat * 2 ^ 7 + 0x73)

/-- A Zicsr instruction: a read with rd x0 under CSRRW, and a write with source 0 under CSRRS and CSRRC, are not made. -/
def csrInstr (o : CsrOp) (rd : Reg) (imm : Bool) (src : Reg) (num : BitVec 12) (s : State) : Out :=
  let n := num.toNat
  let m := s.me.mode
  let bad : Out := s.trap 2 (csrBits o rd imm src num)
  match csrGet s m n with
  | none => bad
  | some old =>
    let v : Word := if imm then src.setWidth 64 else s.x src
    let writes : Bool := match o with | .rw => true | _ => src ≠ 0
    let new : Word := match o with
      | .rw => v
      | .rs => old ||| v
      | .rc => old &&& ~~~v
    if !writes then s.retire rd old 4
    else match csrSet s m n new with
      | none => bad
      | some (.wait s1) => s1.waits
      | some (.ok s1) =>
        if n = 0xB02 then (s1.updMe (fun c => (c.wx rd old).advance 4)).done else s1.retire rd old 4

/-- WFI: it ends at once; in user mode with mstatus.TW set it is an illegal instruction. -/
def waitForIrq (s : State) (n : Nat) : Out :=
  if s.me.mode = .U ∧ s.me.mstatus.getLsbD 21 then s.trap 2 0x10500073 else s.retire 0 0 n

/-- RV64_INSTRUCTION (06 R112, R113). -/
def execRv64Instruction (i : RvInstr) (short : Bool) (s : State) : Out :=
  let n := if short then 2 else 4
  let pc := s.me.pc
  match i with
  | .lui rd imm => s.retire rd ((imm ++ (0 : BitVec 12)).signExtend 64) n
  | .auipc rd imm => s.retire rd (pc + (imm ++ (0 : BitVec 12)).signExtend 64) n
  | .jal rd off => jumpTo s rd n (pc + (off ++ (0 : BitVec 1)).signExtend 64)
  | .jalr rd rs1 imm => jumpTo s rd n (s.x rs1 + imm.signExtend 64)
  | .branch c rs1 rs2 off =>
    if brTaken c (s.x rs1) (s.x rs2) then jumpTo s 0 n (pc + (off ++ (0 : BitVec 1)).signExtend 64) else s.retire 0 0 n
  | .load k rd rs1 imm =>
    let a := s.x rs1 + imm.signExtend 64
    match ctlRead s s.cur.lcore a.toNat (memBytes k) with
    | .ok s1 bs => s1.retire rd (memExtend k (leNat bs)) n
    | x => s.ctlStop a x
  | .store k rs1 rs2 imm =>
    let a := s.x rs1 + imm.signExtend 64
    match ctlWrite s s.cur.lcore a.toNat (leBytes (memBytes k) (s.x rs2).toNat) with
    | .ok s1 _ => s1.retire 0 0 n
    | x => s.ctlStop a x
  | .opImm o rd rs1 imm => s.retire rd (immOp o (s.x rs1) imm) n
  | .op o rd rs1 rs2 => s.retire rd (aluOp o (s.x rs1) (s.x rs2)) n
  | .opW o rd rs1 rs2 => s.retire rd (aluOpW o (s.x rs1) (s.x rs2)) n
  | .unary o rd rs1 => s.retire rd (unaryOp o (s.x rs1)) n
  | .csr o rd imm src num => csrInstr o rd imm src num s
  | .wfi => waitForIrq s n
  | .illegal bits => s.trap 2 bits

/-! ## Fences -/

/-- FENCE (06 R113, 14 R313): FENCEV SC at module scope, whatever its sets name. -/
def execFence (_fm _pred _succ : BitVec 4) (_rd _rs1 : Reg) (s : State) : Out :=
  let (s1, ok) := ctlRelease s 3
  if ok then s1.retire 0 0 4 else s1.waits

/-- FENCE.I (06 R113): later fetches see the stores to the instruction store. -/
def execFenceI (_imm : BitVec 12) (_rd _rs1 : Reg) (s : State) : Out :=
  (s.updMe (fun c => { c with ifetch := c.istore })).retire 0 0 4

/-! ## The A extension on windows (14 R318) -/

/-- The new value of an AMO. -/
def amoOp (o : AmoOp) {n : Nat} (a b : BitVec n) : BitVec n :=
  match o with
  | .swap => b
  | .add => a + b
  | .xor => a ^^^ b
  | .and => a &&& b
  | .or => a ||| b
  | .min => if b.slt a then b else a
  | .max => if a.slt b then b else a
  | .minu => if b.ult a then b else a
  | .maxu => if a.ult b then b else a

/-- rl, at module scope: the earlier stores are performed. -/
def amoRelease (s : State) (rl : Bool) : State × Bool := if rl then ctlRelease s 3 else (s, true)

/-- A loaded word or doubleword as the register receives it. -/
def amoOld (dbl : Bool) (v : Nat) : Word := if dbl then BitVec.ofNat 64 v else sextW v

/-- AMO*.W and AMO*.D. -/
def execAmoWindow (op : AmoOp) (dbl _aq rl : Bool) (rd rs1 rs2 : Reg) (s : State) : Out :=
  let a := s.x rs1
  let n := if dbl then 8 else 4
  match ctlWindow s a.toNat n 6 7 with
  | .error c => s.trap c a
  | .ok (t, o) =>
    let (s1, ok) := amoRelease s rl
    if !ok then s1.waits
    else if s1.accPoison t o n then ctlPoison s1 4 (Config.windowBase + Config.accBytes * t + o)
    else
      let old := leNat (s1.accRead t o n)
      let new := if dbl then (amoOp op (BitVec.ofNat 64 old) (s.x rs2)).toNat else (amoOp op (BitVec.ofNat 32 old) ((s.x rs2).setWidth 32)).toNat
      (s1.accWrite t o (leBytes n new) (some s.cur.lcore)).retire rd (amoOld dbl old) 4

/-- LR: it reserves the naturally aligned doubleword. -/
def execLr (dbl _aq rl : Bool) (rd rs1 : Reg) (s : State) : Out :=
  let a := s.x rs1
  let n := if dbl then 8 else 4
  match ctlWindow s a.toNat n 4 5 with
  | .error c => s.trap c a
  | .ok (t, o) =>
    let (s1, ok) := amoRelease s rl
    if !ok then s1.waits
    else if s1.accPoison t o n then ctlPoison s1 4 (Config.windowBase + Config.accBytes * t + o)
    else (s1.updMe (fun c => { c with resv := some (a.toNat / 8 * 8) })).retire rd (amoOld dbl (leNat (s1.accRead t o n))) 4

/-- SC: it succeeds while the reservation of its doubleword stands, and then ends it; a failed one writes 1 and has no other
effect. -/
def execSc (dbl _aq rl : Bool) (rd rs1 rs2 : Reg) (s : State) : Out :=
  let a := s.x rs1
  let n := if dbl then 8 else 4
  match ctlWindow s a.toNat n 6 7 with
  | .error c => s.trap c a
  | .ok (t, o) =>
    if s.me.resv ≠ some (a.toNat / 8 * 8) then s.retire rd 1 4
    else
      let (s1, ok) := amoRelease s rl
      if !ok then s1.waits
      else
        let s2 := s1.updMe (fun c => { c with resv := none })
        (s2.accWrite t o (leBytes n (s.x rs2).toNat) (some s.cur.lcore)).retire rd 0 4

end Sys2Proof.Machine
end

