-- ==== Sys2Proof/Machine/SelfTest.lean ====
section
/-! DEFINITION. Lamplighter's tests (22 R432-R435) and the cycles that a die's power controller withholds (22 R439). -/

namespace Sys2Proof.Machine

/-! ## A test's life (22 R434) -/

/-- Cycles of the tests that dw10 selects: SCAN, MEM, ARRAY. -/
def testCycles (dw10 : Word) : Nat :=
  (if dw10.getLsbD 8 then 2 ^ 22 else 0) + (if dw10.getLsbD 9 then 2 ^ 23 else 0) + (if dw10.getLsbD 10 then 2 ^ 21 else 0)

/-- The tests selected, in the order in which they run. -/
def testsOf (dw10 : Word) : List Nat := [8, 9, 10].filter dw10.getLsbD

/-- The cluster that a test of a die names. -/
def testCluster (die : Nat) (dw10 : Word) : Nat := die * Config.clustersPerDie + fld dw10 0 6

/-- No unit runs in a cluster, and no live launch holds resources there. -/
def clusterFree (s : State) (k : Nat) : Bool :=
  (List.range 4).all (fun q => (s.coreAt (4 * k + q)).unit.isNone && (s.coreAt (4 * k + q)).restoring.isNone) &&
  s.hub.launches.all (fun l => !l.2.live || !l.2.clusters.contains k)

/-- The unit of a test's command runs on its core. -/
def testHere (s : State) (t : Test) : Bool :=
  match t.lcore, t.unit with
  | some n, some (l, u) => (s.coreAt n).unit.any (fun r => r.launch = l && r.idx = u)
  | _, _ => false

/-- The core that holds a test's command: where its unit runs, or, while the unit is saved, what is kept of it. -/
def testCore (s : State) (t : Test) : Option Core :=
  if testHere s t then t.lcore.map s.coreAt else t.unit.bind (fun (l, u) => (s.launchAt l).bind (fun x => SMap.find x.kept u))

/-- The command of a test is still there and running: its launch was not cancelled. -/
def testWanted (s : State) (t : Test) : Bool :=
  match t.lcore with
  | none => true
  | some _ => (testCore s t).any (fun c => c.cmds.any (fun m => m.seq = t.seq && (m.st = .running || (m.chain.bind (·.cur)).isSome)))

/-- The issuing phase's early commit before a test starts (22 R435). -/
def beforeTest (s : State) (t : Test) : Option State :=
  match t.lcore with
  | none => some s
  | some n =>
    if !testHere s t || (s.coreAt n).ph.mixed then none
    else some ((earlyCommit s n).updCore n (fun c => { c with ph := { c.ph with acc37 := true } }))

/-- The oldest test of a die begins once its cluster is free. -/
def beginTest (s : State) (die : Nat) : Option State :=
  match (s.dieAt die).lamp with
  | [] => none
  | t :: rest =>
    if t.ends.isSome || !clusterFree s (testCluster die t.dw10) || !testWanted s t then none
    else (beforeTest s t).map (fun s1 =>
      s1.setDie die { s1.dieAt die with lamp := { t with ends := some (s1.now + testCycles t.dw10), begun := s1.now } :: rest })

/-- Begins the die's oldest test if it can. -/
def tryTest (s : State) (die : Nat) : State := (beginTest s die).getD s

/-- SELFTEST (22 R434): an eligible command takes its place in its die's order, and the oldest test there begins if its
cluster is free. -/
def execSelftest (f : Frame) (s : State) : Out :=
  let die := dieOf s.cur.lcore
  if s.itemSt = some .queued then
    match start s with
    | .error o => o
    | .ok s1 =>
      let d := s1.dieAt die
      let t : Test := { lcore := some s.cur.lcore, unit := s.me.unit.map (fun u => (u.launch, u.idx)), seq := s.cur.seq, req := none,
                        job := (s.me.unit.map (·.job)).getD 0, dw10 := f.dw10, dw11 := f.dw11 }
      let s2 := if d.lamp.any (fun x => x.lcore = t.lcore && x.seq = t.seq) then s1 else s1.setDie die { d with lamp := d.lamp ++ [t] }
      (tryTest s2 die).done
  else match beginTest s die with
    | some s1 => s1.done
    | none => s.waits

/-- SELFTEST of the owner's (21 R425): R433's checks but for the issuing cluster's. The message names no address space:
RESULT is a physical address (DESIGN CHOICE, log entry 48). -/
def execSelftestMsg (r : Req) (die : BitVec 3) (dw10 dw11 : Word) (s : State) : Out :=
  withOwner r 0x0034 [Ready.sched, Ready.lamp die.toNat] s
    (if fld dw10 8 3 = 0 ∨ Config.clustersPerDie ≤ fld dw10 0 6 ∨ dw10 &&& (ones 11 53 ||| ones 6 2) ≠ 0 ∨ dw11.toNat % 64 ≠ 0 ∨
        Config.hbmBytes < dw11.toNat + 64 then (s.reply r 0x0034 .badMsg).done
     else
       let d := s.dieAt die.toNat
       let t : Test := { lcore := none, seq := 0, req := some r, job := 0, dw10 := dw10, dw11 := dw11 }
       (tryTest ((s.setDie die.toNat { d with lamp := d.lamp ++ [t] }).defer r 0x0034) die.toNat).done)

/-! ## Its end (22 R435) -/

/-- Every SRAM of a cluster holds zero, and its resources are in their reset state. -/
def zeroCluster (s : State) (k : Nat) : State :=
  let lo := Config.windowBase + Config.accBytes * (4 * k)
  let cores : State := (List.range 4).foldl (fun (t : State) q => t.updCore (4 * k + q) (fun c => { c with acc := [], accBad := [], v := [], vBad := [], p := [], ap := [] })) s
  let s1 : State := { cores with core := cores.core.map (fun (p : Nat × Core) =>
    if p.2.resv.any (fun a => lo ≤ a && a < lo + 4 * Config.accBytes) then (p.1, { p.2 with resv := none }) else p) }
  let cl := s1.clusterAt k
  s1.setCluster k { cl with spad := [], poison := [], ev := 0, evBy := [], dc := [], dcWait := [], ring := [], alm := [] }

/-- The result record as eight doublewords. -/
def testRecord (die : Nat) (dw10 : Word) (ran status core site : Nat) (addr : Word) (cycles : Nat) : List Word :=
  [ BitVec.ofNat 64 (die * 2 ^ 24 + fld dw10 0 6 * 2 ^ 16 + ran % 8 * 2 ^ 8 + status), BitVec.ofNat 64 (core % 4 * 2 ^ 8 + site % 256),
    addr, BitVec.ofNat 64 cycles, 0, 0, 0, 0 ]

/-- RAN of the first `n` tests selected. -/
def ranOf (dw10 : Word) (n : Nat) : Nat := ((testsOf dw10).take n).foldl (fun a b => a + 2 ^ (b - 8)) 0

/-- Cycles of the first `n` tests selected. -/
def testsTake (dw10 : Word) (n : Nat) : Nat := ((testsOf dw10).take n).foldl (fun a b => a + testCycles (ones b 1)) 0

/-- How many of the tests selected are complete after some cycles. -/
def completeBy (dw10 : Word) (c : Nat) : Nat := ((List.range 4).filter (fun n => n < (testsOf dw10).length && testsTake dw10 (n + 1) ≤ c)).length

/-- Where a test of a bit of dw10 may fail: scan logic; the scratchpad, held-store buffer, accumulator SRAM or register files; or the
array (22 R435). -/
def siteOf (bit x : Nat) : Nat := if bit = 8 then 1 else if bit = 9 then 2 + x % 4 else 6

/-- What a test that goes on to its end reports, and after how many cycles it ends: PASS, or FAIL at the first failure, which lies in
one of the tests selected. RAN does not hold that one. -/
def testResult (die : Nat) (dw10 : Word) : Option (Nat × Nat × Nat × Word × Nat) → Nat × List Word
  | none => (testCycles dw10, testRecord die dw10 (ranOf dw10 3) 0 0 0 0 (testCycles dw10))
  | some (k, core, site, addr, cyc) =>
    let i := k % (testsOf dw10).length
    let bit := (testsOf dw10).getD i 8
    let c := testsTake dw10 i + min cyc (testCycles (ones bit 1))
    let at' := siteOf bit site
    (c, testRecord die dw10 (ranOf dw10 i) 1 core at' (if at' = 1 then 0 else addr) c)

/-- Cycles within which a cancel stops a test (22 R435). -/
def abortCycles : Nat := 2 ^ 16

/-- What a test that ends now reports: none before its end. One that was cancelled before its end is ABORTED. -/
def testReport (s : State) (die : Nat) (t : Test) : Option (List Word) :=
  match t.ends with
  | none => none
  | some e =>
    let ranAt (now : Nat) : Nat := testCycles t.dw10 - (e - now)
    let (fin, rep) := testResult die t.dw10 (Config.testFinds s.draws)
    let since := if testWanted s t then none else some (ranAt (t.stopped.getD s.now))
    match since with
    | some c0 =>
      if c0 < fin then
        let ran := min (min (ranAt s.now) (c0 + abortCycles)) fin
        some (testRecord die t.dw10 (ranOf t.dw10 (completeBy t.dw10 ran)) 2 0 0 0 ran)
      else some rep
    | none => if fin ≤ ranAt s.now then some rep else none

/-- Bytes of HBM that some replica has not seen as they stand. -/
def pendingAt (s : State) (pa n : Nat) : Bool := s.hub.updates.any (fun u => u.addr < pa + n && pa < u.addr + u.data.length)

/-- The record is written at RESULT directly, and stands on every die at once. -/
def putRecord (s : State) (t : Test) (ws : List Word) : Except Out State :=
  let put (u : State) (pa : Nat) : Except Out State :=
    if pendingAt u pa 64 then .error s.waits else .ok (u.physWrite s.cur.lcore pa (bytesOf ws) false)
  match t.lcore with
  | none => put s t.dw11.toNat
  | some n =>
    if testWanted s t then
      match translateVa s n (some .X) t.dw11.toNat { wr := true } with
      | (s1, .ok pa _ _) => put s1 pa
      | (s1, .missing l ea) => .error (s1.missing .X 1 t.dw11.toNat l ea 0)
      | (_, .perm) => .error (s.fault { code := 17, sub := 4, addr := t.dw11 })
    else match s.jobAt t.job with
      | some j =>
        match jobPa s j.root t.dw11.toNat { wr := true } with
        | some (pa, _) => put s pa
        | none => .ok s
      | none => .ok s

/-- The command of a test retires: it, or its entry of a chain; one that ends its phase retires with the commit. -/
def testRetire (s : State) : Out :=
  match s.cmd with
  | none => s.done
  | some m =>
    if m.frame.kind = 10 then
      if m.frame.phaseEnd then (s.setItemSt .done).done else retireCmd (s.setItemSt .done) { m with st := .done }
    else
      let t := { s with cur := { s.cur with entry := true } }
      match t.ent with
      | some e => retireEntry (t.setItemSt .done) e
      | none => s.done

/-- SELFTEST_DONE (22 R435), for the test that the die of the core at work runs. -/
def execSelftestDone (s : State) : Out :=
  let die := dieOf s.cur.lcore
  match (s.dieAt die).lamp with
  | [] => s.waits
  | t :: rest =>
    if t.ends.isNone then
      if testWanted s t then s.waits else (s.setDie die { s.dieAt die with lamp := rest }).done
    -- a unit that is saved goes on before its command retires
    else if t.lcore.isSome && testWanted s t && !testHere s t then s.waits
    else match testReport s die t with
      | none => s.waits
      | some ws =>
        let home := { s with cur := { s.cur with lcore := t.lcore.getD s.cur.lcore, eng := .X, seq := t.seq, entry := false } }
        match putRecord (zeroCluster home (testCluster die t.dw10)) t ws with
        | .error (.next x) => if x.note = .wait then s.waits else .next x
        | .error o => o
        | .ok s1 =>
          let s2 := { s1.setDie die { s1.dieAt die with lamp := rest } with draws := s.draws + 1 }
          match t.req with
          | some r => ({ s2.answer r 0x0034 .ok with cur := s.cur }).done
          | none =>
            if !testWanted s t then ({ s2 with cur := s.cur }).done
            else match testRetire s2 with
              | .next x => if x.note = .wait then s.waits else .next { x with cur := s.cur }
              | o => o

/-! ## Withheld cycles (22 R439, R440) -/

/-- Whether a reading calls for withholding (22 R439): 100.0 °C or more, a mean power above 330 W over the last 100 ms, or above 400 W
over the last 10 ms. -/
def overLimit (temp : BitVec 16) (power : MeanPower) : Bool := 800 ≤ temp.toInt || 330 < power.ms100.toNat || 400 < power.ms10.toNat

/-- A die's reading stands in THSTAT. -/
def State.setReading (s : State) (die : Nat) (w : Word) : State :=
  if die = hubDie then { s with hub := { s.hub with thermal := SMap.put s.hub.thermal 0 w } }
  else s.setDie die { s.dieAt die with thstat := w }

/-- THSTAT of a reading. -/
def thermalWord (temp power : BitVec 16) (hot : Bool) : Word := (0 : BitVec 16) ++ power ++ temp ++ (if hot then 1 else 0 : BitVec 16)

/-- CYCLE_WITHHOLD: the die's reading. While it exceeds a limit the die withholds its cycles, this one among them: those that pass
meanwhile count as they pass (`State.begin`). At 115.0 °C the die trips. -/
def execCycleWithhold (die : BitVec 4) (temp : BitVec 16) (power : MeanPower) (s : State) : Out :=
  let n := die.toNat
  let hot := overLimit temp power
  if hubDie < n then s.waits
  else
    let s1 := s.setReading n (thermalWord temp power.ms10 hot)
    let s2 := if hot && !s.hot n then holdBack s1 n 1 else s1
    if 920 ≤ temp.toInt then execThermalTrip die s2 else s2.done

end Sys2Proof.Machine
end

