-- ==== Sys2Proof/Machine/Transfer.lean ====
section
/-! DEFINITION. The transfer kinds of engine X (12 R251, R272): COPY, COPYND, BCAST, GATHERROWS and REDUCE, row by row in
the order of the loop. -/

namespace Sys2Proof.Machine

/-! ## Rows -/

/-- Rows of a transfer. -/
def rowsOf (f : Frame) : Nat := f.dim 1 * f.dim 2 * f.dim 3

/-- A signed stride: the source's in the low half of its doubleword, the destination's in the high half (12 R246). -/
def strideOf (f : Frame) (k : Nat) (dst : Bool) : Int :=
  ((f.strideWord k).extractLsb' (if dst then 32 else 0) 32).toInt

/-- Whether the rows of a side are packed: always for COPY and BCAST, and on the ring's side of a ROP. -/
def packedSide (f : Frame) (dst : Bool) : Bool :=
  f.kind = 2 || f.kind = 4 || (dst && f.rop = 1) || (!dst && f.rop = 2)

/-- The offset of row r on a side. -/
def rowOff (f : Frame) (dst : Bool) (r : Nat) : Int :=
  if packedSide f dst then ((f.dim 0 * r : Nat) : Int)
  else
    let i1 := r % f.dim 1
    let i2 := r / f.dim 1 % f.dim 2
    let i3 := r / (f.dim 1 * f.dim 2)
    (i1 : Int) * strideOf f 1 dst + (i2 : Int) * strideOf f 2 dst + (i3 : Int) * strideOf f 3 dst

/-- An address; a negative sum lies outside every space. -/
def addrOf (x : Int) : Nat := (BitVec.ofInt 64 x).toNat

/-- Whether a side lies in the scratchpad. -/
def onPad (f : Frame) (dst : Bool) : Bool :=
  if dst then f.rop = 1 || (f.rop ≠ 1 && f.dsp) else f.rop = 2 || (f.rop ≠ 2 && f.ssp)

/-- The first address of a side: the ring's payload, or the frame's. -/
def baseOf (s : State) (f : Frame) (dst : Bool) : Nat :=
  let ring := (s.itemRop.map (·.addr)).getD 0
  if dst then (if f.rop = 1 then ring else f.dw11.toNat) else if f.rop = 2 then ring else f.dw10.toNat

/-- Where row r is read from; GATHERROWS reads its index first. -/
def srcOf (s : State) (f : Frame) (r : Nat) : Except Acc Nat :=
  if f.kind = 5 then
    match spadRead s s.rdExt (fld f.dw9 0 21 + 4 * (r % f.dim 1)) 4 with
    | .ok _ bs => .ok (addrOf (baseOf s f false + (leNat bs : Int) * strideOf f 1 false))
    | x => .error x
  else .ok (addrOf (baseOf s f false + rowOff f false r))
def dstOf (s : State) (f : Frame) (r : Nat) : Nat := addrOf (baseOf s f true + rowOff f true r)

/-- What a row comes to. -/
inductive RowRes where
  | ok (s : State)
  | stop (acc : Nat) (a : Acc)

/-- The bytes of a row; a poisoned row of a GATHERROWS with TOLERANT reads as zeros, with POISONROW and TOLZ. -/
def rowData (s : State) (f : Frame) (a : Nat) : Except Acc (State × List Byte) :=
  let n := f.dim 0
  match (if onPad f false then spadRead s s.rdExt a n else virtRead s .X a n) with
  | .ok s1 bs => .ok (s1, bs)
  | .fault s0 x =>
    if f.kind = 5 && f.tolerant && x.code = 1 then
      let seq := if s.cur.entry then 0 else s.cur.seq
      let s1 := logFault s0 s.cur.lcore 3 (dieOf s.cur.lcore, 3) seq { code := 5, addr := BitVec.ofNat 64 a }
      .ok (s1.setStat 2, List.replicate n 0)
    else .error (.fault s0 x)
  | x => .error x

/-- The cores of the cluster that a BCAST selects. -/
def bcastCores (s : State) (f : Frame) : List Nat :=
  ((List.range 4).filter (fun c => f.cmask / 2 ^ c % 2 = 1)).map (fun c => 4 * clusterOf s.cur.lcore + c)

/-- A row of a BCAST, in accumulator SRAM of each selected core; one to another core is an access of R37. -/
def bcastRow (s : State) (f : Frame) (t : Nat) (bs : List Byte) : RowRes :=
  let cores := bcastCores s f
  if f.dw11.toNat + rowBytes f > Config.accBytes then .stop 1 (.fault s (access 1 t))
  else match (if cores.all (· = s.cur.lcore) then some s else firstEarly s) with
    | none => .stop 1 (.wait s)
    | some s1 => .ok (cores.foldl (fun u c => u.accWrite c t bs none) s1)

/-- One word of a REDUCE. -/
def reduceWord (f : Frame) (fm : Word) (core off x : Nat) (acc : State × Flags) : State × Flags :=
  let (v, fl) := accWord (if f.ety = 8 then .addI else .addF false fm) (leNat (acc.1.accRead core off 4)) x
  (acc.1.accWrite core off (leBytes 4 v) none, acc.2 ||| fl)

/-- The cells of a row of a REDUCE: core and offset of each word; an address outside every window is NOTATOMIC. -/
def reduceCells (s : State) (t n : Nat) : Except Contained (List (Nat × Nat)) :=
  (List.range (n / 4)).foldl (fun acc k =>
    match acc with
    | .error x => .error x
    | .ok l =>
      match windowOf (t + 4 * k) with
      | none => .error (access 5 t)
      | some (c, o) => if s.windowOk s.cur.lcore c then .ok (l ++ [(c, o)]) else .error (access 4 t)) (.ok [])

/-- A row of a REDUCE: add-writes to the words of accumulator SRAM (14 R319). -/
def reduceRow (s : State) (f : Frame) (t : Nat) (bs : List Byte) : RowRes :=
  match reduceCells s t bs.length with
  | .error x => .stop 2 (.fault s x)
  | .ok cells =>
    match (if cells.all (fun c => c.1 = s.cur.lcore) then some s else firstEarly s) with
    | none => .stop 2 (.wait s)
    | some s1 =>
      let tracked : Except Contained State := cells.foldl (fun acc c =>
        match acc with
        | .error x => .error x
        | .ok u =>
          if u.accPoison c.1 c.2 4 then .error (accFault c.1 c.2) else addWrite u c.1 c.2 4) (.ok s1)
      match tracked with
      | .error x => .stop 2 (.fault s1 x)
      | .ok s2 =>
        let (s3, fl) := cells.zipIdx.foldl (fun acc c => reduceWord f s.fmode c.1.1 c.1.2 (leNat ((bs.drop (4 * c.2)).take 4)) acc) (s2, 0)
        .ok (s3.setFlags fl)

/-- Row r: its bytes are read, then written or added. -/
def oneRow (s : State) (f : Frame) (r : Nat) : RowRes :=
  match srcOf s f r with
  | .error x => .stop 0 x
  | .ok a =>
    match rowData s f a with
    | .error x => .stop 0 x
    | .ok (s1, bs) =>
      let t := dstOf s f r
      match f.kind with
      | 4 => bcastRow s1 f t bs
      | 6 => reduceRow s1 f t bs
      | _ =>
        match (if onPad f true then spadWrite s1 s1.wrExt t bs else virtWrite s1 .X t (all bs)) with
        | .ok s2 _ => .ok s2
        | x => .stop 1 x

/-- The rows from r on; those that are done stay done where the next one stops (11 R245). -/
def rowsFrom (f : Frame) : Nat → Nat → State → Out
  | 0, _, s => (noteDues (s.setItemSt .done).progressed).done
  | n + 1, r, s =>
    match oneRow s f r with
    | .ok s1 => rowsFrom f n (r + 1) (s1.setRows (r + 1))
    | .stop acc x => s.stopOn .X acc (r % 4096) x

/-- A transfer: it starts when it may, and moves its rows. -/
def transfer (f : Frame) (s : State) : Out :=
  if s.me.stopped .X s.cur.seq then s.waits
  else match start s with
    | .error o => o
    | .ok s1 => rowsFrom f (rowsOf f - s1.itemRows) s1.itemRows s1

/-- COPY (12 R251). -/
def execCopy (f : Frame) (s : State) : Out := transfer f s
/-- COPYND (12 R251). -/
def execCopynd (f : Frame) (s : State) : Out := transfer f s
/-- BCAST (12 R251). -/
def execBcast (f : Frame) (s : State) : Out := transfer f s
/-- GATHERROWS (12 R251). -/
def execGatherrows (f : Frame) (s : State) : Out := transfer f s
/-- REDUCE (12 R251). -/
def execReduce (f : Frame) (s : State) : Out := transfer f s

end Sys2Proof.Machine
end

