-- ==== Sys2Proof/Machine/Spec.lean ====
section
/-! DEFINITION. The Almanac (13): its words, the decision and the prediction of a speculation, its resolution, and the
pass or the squash that follows. -/

namespace Sys2Proof.Machine

/-! ## Entry descriptors (13 R276, R277) -/

/-- The home tile's rows and the four packed regions share no byte. -/
def regionsApart (a : AlmLive) : Bool :=
  let rs := a.regions
  (List.range 4).all (fun i => (List.range i).all (fun j => !meets (rs.getD i 0) a.size (rs.getD j 0) a.size)) &&
  (List.range a.rows).all (fun r => rs.all (fun b => !meets (a.home + r * a.hpitch) a.rb b a.size))

/-- Every region lies inside the scratchpad and outside every back store. -/
def regionsPlaced (cl : Cluster) (a : AlmLive) : Bool :=
  a.regions.all (fun b => b + a.size ≤ Config.spadBytes && !cl.inBack b a.size) &&
  (List.range a.rows).all (fun r =>
    let o := a.home + r * a.hpitch
    o + a.rb ≤ Config.spadBytes && !cl.inBack o a.rb)

/-- A tolerance is not NaN and not negative; −0 counts as +0. -/
def tolOk (x : Nat) : Bool := x ≤ 0x7F800000 || x = 0x80000000

/-- A descriptor is valid (13 R277). -/
def descOk (cl : Cluster) (d : List Word) : Bool :=
  let w (k : Nat) : Word := d.getD k 0
  let a : AlmLive := { desc := (List.range 5).map (fun k => (k, w k)) }
  w 0 &&& ones 0 6 = 0 && w 1 &&& ones 21 11 = 0 && w 2 &&& (ones 53 11 ||| ones 21 11) = 0 &&
  w 3 &&& (ones 53 11 ||| ones 21 11) = 0 && w 5 = 0 && w 6 = 0 && w 7 = 0 &&
  1 ≤ a.cols && a.cols ≤ 16384 && 1 ≤ a.rows && a.rows ≤ 4096 && a.ty ≤ 4 && a.order ≤ 2 && fld (w 0) 6 2 ≤ 2 &&
  a.cols * width a.ty % 64 = 0 && a.size ≤ 65536 && a.hpitch % 8 = 0 && a.rb ≤ a.hpitch &&
  a.regions.all (fun b => b % 8 = 0) && regionsPlaced cl a && regionsApart a &&
  tolOk (fld (w 4) 0 32) && tolOk (fld (w 4) 32 32)

/-! ## Versions and predictions (13 R279, R280) -/

/-- The tile as the unit on a core reads it from home. -/
def homeTile (c : Core) (cl : Cluster) (a : AlmLive) : List Byte :=
  (List.range a.rows).flatMap (fun r => spadBytes c cl (a.home + r * a.hpitch) a.rb)

/-- Where the version of an age lies. -/
def AlmLive.versionAt (a : AlmLive) (age : Nat) : Nat := a.slot ((a.newest.toNat + 3 - age) % 3)

/-- The slot that takes the next version, and the entry once it has. -/
def AlmLive.nextSlot (a : AlmLive) : Nat := (a.newest.toNat + 1) % 3
def AlmLive.record (a : AlmLive) : AlmLive :=
  { a with newest := BitVec.ofNat 2 a.nextSlot, nv := BitVec.ofNat 2 (min (a.nv.toNat + 1) 3) }

/-- A tile's elements. -/
def tileElems (ty : Nat) (bs : List Byte) : List Nat :=
  let n := width ty / 8
  (List.range (bs.length / n)).map (fun i => leNat ((bs.drop (n * i)).take n))

/-- FMODE with SAT 1 and SUB 00, under which predictions are rounded. -/
def predFmode : Word := 0x20

/-- The predicted element from the versions of ages 0, 1 and 2. -/
def predict (F : Fmt) (k : Nat) (v0 v1 v2 : Nat) : Nat :=
  let x (c : Nat) (neg : Bool) (v : Nat) : Num := ((mulNum (.fin neg c 0) (decodeF F v)).getD (.nan false))
  let ts := match k with
    | 0 => [x 1 false v0]
    | 1 => [x 2 false v0, x 1 true v1]
    | _ => [x 3 false v0, x 3 true v1, x 1 false v2]
  let used := match k with
    | 0 => [v0]
    | 1 => [v0, v1]
    | _ => [v0, v1, v2]
  let t := if used.any (fun v => (decodeF F v).isNan) then fp32.cnan
    else ((sumNum false ts).map (fun s => (roundTo fp32 predFmode .rne s).1)).getD fp32.cnan
  (roundTo F predFmode .rne (decodeF fp32 t)).1

/-- The prediction, packed. -/
def predictTile (c : Core) (cl : Cluster) (a : AlmLive) : List Byte :=
  match fmtOf a.ty with
  | none => []
  | some F =>
    let k := min a.order (a.nv.toNat - 1)
    let at' (g : Nat) : List Nat := tileElems a.ty (spadBytes c cl (a.versionAt g) a.size)
    let e0 := at' 0
    let e1 := if 1 ≤ k then at' 1 else []
    let e2 := if 2 ≤ k then at' 2 else []
    (List.range e0.length).flatMap (fun i => leBytes (width a.ty / 8) (predict F k (e0.getD i 0) (e1.getD i 0) (e2.getD i 0)))

/-- Whether an element passes (13 R289). -/
def passes (F : Fmt) (abst relt rv pv : Nat) : Bool :=
  match decodeF F rv, decodeF F pv with
  | .nan _, _ => false
  | _, .nan _ => false
  | .inf a, .inf b => a = b
  | .inf _, _ => false
  | _, .inf _ => false
  | x, y =>
    let d := (x.dy.sub y.dy).num.abs
    match decodeF fp32 abst, decodeF fp32 relt with
    | .inf _, _ => true
    | a, .inf _ => !x.isZero || !a.abs.lt d
    | a, r => !(a.abs.dy.add (r.abs.dy.mul x.abs.dy)).num.lt d

/-- Whether the tile passes. -/
def tilePasses (a : AlmLive) (real pred : List Byte) : Bool :=
  match fmtOf a.ty with
  | none => false
  | some F => ((tileElems a.ty real).zip (tileElems a.ty pred)).all (fun x => passes F (fld (a.dw 4) 0 32) (fld (a.dw 4) 32 32) x.1 x.2)

/-! ## The words (13 R294-R298) -/

def almNo (p : PWord) : Nat := p.imm18.toNat % 16
def State.alm (s : State) (e : Nat) : Alm := SMap.get s.myCluster.alm e {}
def State.setAlm (s : State) (e : Nat) (a : Alm) : State :=
  let cl := s.myCluster
  s.setMyCluster { cl with alm := SMap.put cl.alm e a }

/-- A word on an entry not allocated to the launch is an illegal instruction. -/
def almWord (i : Instr) (s : State) (k : PWord → Out) : Out :=
  withPort i s fun p => if s.hasAlm (almNo p) then k p else illegalPortable i s

/-- TTDECL (13 R295). -/
def execTtdecl (p : PWord) (s : State) : Out :=
  almWord (.ttdecl p) s fun p =>
    let a := s.x p.vs1
    if a.toNat % 64 ≠ 0 then s.trap 4 a
    else match ctlReadDws s s.cur.lcore a.toNat 8 with
      | .ok s1 bs =>
        let d := wordsOf 8 bs
        if (s1.alm (almNo p)).live.owner.isSome then s1.retireP p.vd 1
        else if !descOk s1.myCluster d then s1.retireP p.vd 2
        else
          let l : AlmLive := { desc := (List.range 5).map (fun k => (k, d.getD k 0)), owner := some s.cur.lcore,
                               nv := BitVec.ofNat 2 (fld (d.getD 0 0) 8 2), newest := BitVec.ofNat 2 (fld (d.getD 0 0) 6 2) }
          (s1.setAlm (almNo p) { live := l, start := l }).retireP p.vd 0
      | x => s.ctlStop a x

/-- TTVER (13 R296). -/
def execTtver (p : PWord) (s : State) : Out :=
  almWord (.ttver p) s fun p =>
    let e := s.alm (almNo p)
    if !s.me.cmds.isEmpty then s.waits
    else if e.live.owner ≠ some s.cur.lcore then s.retireP p.vd 2
    else if s.me.ph.pushed then s.retireP p.vd 1
    else
      let a := e.live
      let cl := s.myCluster
      let row (r : Nat) : Nat := a.home + r * a.hpitch
      match (List.range a.rows).find? (fun r => poisoned cl.poison (row r) a.rb) with
      | some r => ctlPoison s 3 (row r)
      | none =>
        let real := (List.range a.rows).flatMap (fun r => cl.spad.readN (row r) a.rb)
        let o := a.slot a.nextSlot
        let cl1 := { cl with spad := cl.spad.writeN o real, poison := unpoison cl.poison o a.size,
                             alm := SMap.put cl.alm (almNo p) { e with live := a.record, start := a.record } }
        let pages := (List.range ((o + a.size + 4095) / 4096 - o / 4096)).foldl (fun (d : BitVec 512) k => d ||| ((1 : BitVec 512) <<< (o / 4096 + k))) 0
        ((s.setMyCluster cl1).updMe (fun c => { c with dirty := c.dirty ||| pages })).retireP p.vd 0

/-- SPECQ (13 R297). The status word has no field for the TID of 13 R276, which nothing reports (log entry 128). -/
def execSpecq (p : PWord) (s : State) : Out :=
  almWord (.specq p) s fun p =>
    let e := s.alm (almNo p)
    let a := e.live
    s.retireP p.vd (match a.owner, p.imm18.toNat / 16 % 4 with
      | none, _ => 0
      | _, 1 => a.hit.setWidth 64
      | _, 2 => a.miss.setWidth 64
      | o, _ => BitVec.ofNat 64 ((if o = some s.cur.lcore then 2 ^ 63 else 0) + (if e.spec.isSome then 2 ^ 62 else 0)
          + a.last.toNat * 2 ^ 60 + a.ty * 2 ^ 12 + a.order * 2 ^ 10 + a.nv.toNat * 2 ^ 8 + a.newest.toNat * 2 ^ 6))

/-- TTDROP (13 R298). -/
def execTtdrop (p : PWord) (s : State) : Out :=
  almWord (.ttdrop p) s fun p =>
    if s.me.cmds.any (fun m => m.frame.spec && m.frame.tile = almNo p) then s.waits
    else if (s.alm (almNo p)).live.owner ≠ some s.cur.lcore then s.retireP p.vd 2
    else
      -- what was due on the entry and not resolved goes with it
      let s1 := s.setAlm (almNo p) {}
      let cl := s1.myCluster
      let s2 := s1.setMyCluster { cl with dues := cl.dues.filter (fun d => d.1 ≠ s.cur.lcore || d.2.1 ≠ almNo p) }
      (s2.updMe (fun c => { c with unit := c.unit.map (fun u => { u with specs := u.specs.filter (fun q => q.id.1 ≠ almNo p) }) })).retireP p.vd 0

/-! ## The decision (13 R282) -/

/-- An entry is busy for a command while an earlier speculation on it is unresolved, decided or not, or a command that started
tentative on one has not completed. -/
def entryBusy (c : Core) (m : Cmd) (e : Nat) : Bool :=
  ((c.unit.map (·.specs)).getD []).any (fun q => q.id.1 = e && !q.resolved) ||
  (c.earlier m).any (fun k => k.frame.spec && k.frame.tile = e && k.specId ≠ m.specId && ((c.spec k.specId).map (!·.resolved)).getD true) ||
  c.cmds.any (fun k => k.st = .running && k.began.any (fun i => i.1.1 = e))

/-- The oldest command that is ready and whose speculation on an entry is not decided. -/
def decider (s : State) (e : Nat) : Option Cmd :=
  s.me.cmds.find? (fun m => m.st = .queued && m.frame.tile = e && specWay s.me m = .undecided && placeReady s m &&
    (predsOf m false).all s.me.satisfied)

/-- Which version that a prediction reads is poisoned. -/
def versionPoison (c : Core) (cl : Cluster) (a : AlmLive) : Option Nat :=
  ((List.range (min a.order (a.nv.toNat - 1) + 1)).map a.versionAt).find? (fun o => readsPoison c cl o a.size)

/-- A decision enters the unit's speculations. -/
def State.decide (s : State) (i : SpecId) (ran : Bool) : State :=
  noteDues (s.updMe (fun c => { c with unit := c.unit.map (fun u => { u with specs := u.specs ++
    [{ id := i, ran := some ran, phase := c.ph.num }] }) }))

/-- SPEC_START (13 R282): the oldest ready command of an entry decides, and where its speculation runs on a prediction the
prediction is formed. -/
def execSpecStart (entry : BitVec 4) (s : State) : Out :=
  let e := entry.toNat
  match decider s e with
  | none => s.waits
  | some m =>
    let al := s.alm e
    let a := al.live
    let retired := (s.me.cmds.find? (fun k => k.seq = m.specId.2)).isNone
    if entryBusy s.me m e then s.waits
    else if a.nv = 0 || (m.frame.opportunistic && retired) then (s.decide m.specId false).done
    else if 2 < (tentAtStart s.me m true).length then s.waits
    else
      let s0 := { s with cur := { s.cur with eng := m.eng, seq := m.seq, entry := false } }
      match versionPoison s.me s.myCluster a with
      | some o => s0.fault { code := 1, sub := 3, addr := BitVec.ofNat 64 o }
      | none =>
        if copiesPoison s a.pbuf a.size then s0.fault { code := 1, sub := 3, addr := BitVec.ofNat 64 a.pbuf } else
        let s1 := s.setMe (backWrite s.me s.myCluster none almAuthor a.pbuf (predictTile s.me s.myCluster a))
        ((s1.setAlm e { al with spec := some m.specId }).decide m.specId true).done

/-! ## Pass (13 R285, R290) -/

/-- A command's effects stop being tentative: its tags are cleared, and the pre-images it saved are dropped. -/
def settleHeld (held : List Held) (q : BitVec 32) : List Held :=
  let mine (h : Held) : Bool := h.tag = some q
  let stores := held.filter (fun h => mine h && h.pre.isNone)
  let others := (held.filter (fun h => !mine h)).map (fun h =>
    if h.pre.isSome && held.any (fun k => mine k && k.pre.isSome && k.addr = h.addr) then { h with pre := h.pre.map (fun x => (x.1, true)) } else h)
  stores.foldl (fun hs n =>
    let bytes := (List.range 64).map (fun j => if n.mask.getLsbD j then some (n.data.extractLsb' (8 * j) 8) else none)
    let hs1 := holdBytes hs none n.who n.repl n.addr bytes
    if n.bad then hs1.map (fun h => if takesAt none n.addr h then { h with bad := true } else h) else hs1) others

def Core.settle (c : Core) (q : BitVec 32) : Core :=
  let mine := c.ph.tagged.filter (fun x => x.1 = q)
  { c with ph := { c.ph with
      held := settleHeld c.ph.held q, tagged := c.ph.tagged.filter (fun x => x.1 ≠ q),
      rels := c.ph.rels.map (fun r => if r.2 = some q then (r.1, none) else r),
      flags := mine.foldl (fun f x => f ||| x.2.1) c.ph.flags, stat := mine.foldl (fun f x => f ||| x.2.2) c.ph.stat } }

/-- The event changes that a command deferred are made. -/
def Core.settleEv (c : Core) (q : BitVec 32) : Core :=
  let ev := ((c.cmds.find? (fun m => m.seq = q)).map (·.ev)).getD []
  { c with ph := ev.foldl (fun p x => p.pendEvent x.1 x.2) c.ph, cmds := c.cmds.map (fun m => if m.seq = q then { m with ev := [] } else m) }

/-- Commands stop being tentative on a speculation. Where its resolution is itself tentative on others they are tentative
on those from here (13 R292). -/
def passTents (cmds : List Cmd) (i : SpecId) (hold : List SpecId) : List Cmd :=
  cmds.map (fun m => if m.tent.contains i then { m with tent := union (m.tent.filter (· ≠ i)) hold } else m)

/-- In sequence order, the event changes of what is no longer tentative are made, and what completed tentatively retires; one
that waits for its FIFO stays. -/
def retireAll : List (BitVec 32) → State → Out
  | [], s => s.done
  | q :: t, s0 =>
    let s := s0.updMe (fun c => c.settleEv q)
    match s.me.cmds.find? (fun m => m.seq = q) with
    | none => retireAll t s
    | some m =>
      if m.st = .done && m.tent.isEmpty then
        match retireCmd { s with cur := { s.cur with eng := m.eng, seq := q, entry := false } } m with
        | .next s1 =>
          match s1.note with
          | .ok => retireAll t s1
          | .wait => retireAll t s
          | _ => .next s1
        | o => o
      else retireAll t s

/-- A pass (13 R290). -/
def passSpec (s : State) (i : SpecId) (hold : List SpecId) : Out :=
  let free := (s.me.cmds.filter (fun m => m.tent.contains i && (union (m.tent.filter (· ≠ i)) hold).isEmpty)).map (·.seq)
  let s1 := s.updMe (fun c => free.foldl Core.settle { c with cmds := passTents c.cmds i hold })
  let cl := s1.myCluster
  let s2 := s1.setMyCluster { cl with alm := cl.alm.map (fun p => (p.1, { p.2 with
    saved := p.2.saved.flatMap (fun x => if x.1 = i then hold.map (fun t => (t, x.2)) else [x]) })) }
  retireAll free s2

/-! ## Squash (13 R285, R291, R292) -/

/-- The speculations that fall with some: those whose producer is tentative on one of them. -/
def fallWith (c : Core) (l : List SpecId) : Nat → List SpecId
  | 0 => l
  | n + 1 =>
    let qs := (c.cmds.filter (fun m => m.tent.any (fun i => l.contains i))).map (·.seq)
    fallWith c (union l ((((c.unit.map (·.specs)).getD []).filter (fun q => qs.contains q.id.2)).map (·.id))) n

/-- The back copies once the pre-images that some commands saved are restored, the latest first. -/
def restorePre (c : Core) (qs : List (BitVec 32)) : Core :=
  let mine (h : Held) : Bool := h.pre.isSome && (h.tag.map qs.contains).getD false
  let back := (c.ph.held.reverse.filter mine).foldl (fun (b : SMap Gran) h =>
    let g := h.addr / 64
    let cur := SMap.get b g {}
    let was := (h.pre.map (·.1)).getD {}
    let old := granBytes was.data
    SMap.put b g {
      data := granOf ((granBytes cur.data).mapIdx (fun j x => if h.mask.getLsbD j then old.getD j 0 else x))
      mask := (cur.mask &&& ~~~h.mask) ||| (was.mask &&& h.mask)
      who := cur.who.filter (fun w => !qs.contains w.1) }) c.ph.back
  let held := c.ph.held.filter (fun h => !((h.tag.map qs.contains).getD false))
  -- a granule that holds nothing else has no back copy any more
  let gone (g : Nat) : Bool := c.ph.held.any (fun h => mine h && h.addr = g * 64 && !((h.pre.map (·.2)).getD true)) &&
    !held.any (fun h => h.pre.isSome && h.addr = g * 64)
  { c with ph := { c.ph with back := back.filter (fun p => !gone p.1), held := held } }

/-- What a core holds once some commands are squashed: their effects are gone, and they stand in their queues again. -/
def Core.squash (c : Core) (qs : List (BitVec 32)) : Core :=
  let mine (e : Eng) (q : BitVec 32) : Bool := c.cmds.any (fun m => m.eng = e && m.seq = q && qs.contains q)
  let nests := if c.cmds.any (fun m => m.nest.isSome && qs.contains m.seq) then c.spoilNest else c
  let spoilt := (c.mwork.filter (fun m => qs.contains m.seq)).foldl (fun c m => m.spoils.foldl Core.clearUse c) nests
  let c := restorePre spoilt qs
  let q (l : List QEnt) : List QEnt := l.filter (fun x => !mine x.eng x.seq)
  let t (g : Nat) (l : List (BitVec 32)) : List (BitVec 32) := l.filter (fun x => !mine (giver g) x)
  let line (e : Eng) (l : Line) : Line := if l.st ≠ .idle && mine e l.seq then { next := l.next, fence := l.fence } else l
  let hit (e : Eng) : Bool := (c.line e).st ≠ .idle && mine e (c.line e).seq
  { c with
    ph := { c.ph with tagged := c.ph.tagged.filter (fun x => !qs.contains x.1),
                      rels := c.ph.rels.filter (fun r => !((r.2.map qs.contains).getD false)) },
    cmds := c.cmds.map (fun m => if qs.contains m.seq then m.rewind else m),
    q := { qa0 := q c.q.qa0, qa1 := q c.q.qa1, qa2 := q c.q.qa2, qa3 := q c.q.qa3, qd0 := q c.q.qd0, qd1 := q c.q.qd1, qx0 := q c.q.qx0 },
    tok := { am := t 0 c.tok.am, ma := t 1 c.tok.ma, mv := t 2 c.tok.mv, vm := t 3 c.tok.vm, va := t 4 c.tok.va, av := t 5 c.tok.av },
    flights := c.flights.filter (fun f => !mine f.eng f.seq), mwork := c.mwork.filter (fun m => !qs.contains m.seq),
    astores := c.astores.filter (fun a => !qs.contains a.seq), iced := false,
    lineA := line .A c.lineA, lineM := line .M c.lineM, lineV := line .V c.lineV,
    handling := c.handling.map (fun h => if h.any hit then none else h),
    gangword := if hit .M then none else c.gangword, gangdone := if hit .M then false else c.gangdone,
    fwait := c.fwait.filter (fun r => !qs.contains r.cmd),
    fbuf := c.fbuf.map (fun r => if qs.contains r.cmd then { r with void := true } else r) }

/-- A failure squashes a speculation and what falls with it (13 R291, R292). The speculations that fall without a
comparison are decided anew when their members run again (DEDUCED, log entry 38). -/
def squash (s : State) (i : SpecId) : State :=
  let c := s.me
  let dead := fallWith c [i] (c.cmds.length + 1)
  let qs := (c.cmds.filter (fun m => m.tent.any (fun x => dead.contains x))).map (·.seq)
  let s1 := s.setMe { c.squash qs with unit := c.unit.map (fun u => { u with
    specs := u.specs.filter (fun q => q.id = i || !dead.contains q.id) }) }
  let cl := s1.myCluster
  let undo (al : Alm) : Alm :=
    let kept := al.saved.takeWhile (fun x => !dead.contains x.1)
    { al with live := ((al.saved.find? (fun x => dead.contains x.1)).map (·.2)).getD al.live, saved := kept, spec := if (al.spec.map (fun q => q ≠ i && dead.contains q)).getD false then none else al.spec }
  let s2 := s1.setMyCluster { cl with
    dues := cl.dues.filter (fun d => d.1 ≠ s.cur.lcore || d.2 = i || !dead.contains d.2)
    alm := cl.alm.map (fun p => if p.2.live.owner = some s.cur.lcore then (p.1, undo p.2) else p) }
  let d := s2.dieAt (dieOf s.cur.lcore)
  if d.wick.isEmpty then s2
  else s2.setDie (dieOf s.cur.lcore) { d with wick := d.wick.filter (fun w => !(w.lcore = s.cur.lcore && qs.contains w.seq)) }

/-! ## Resolution (13 R289) -/

/-- The resolved entry: the version is recorded, and the outcome counted. -/
def AlmLive.resolve (a : AlmLive) (ok : Option Bool) : AlmLive :=
  let a := a.record
  let up (n : BitVec 32) : BitVec 32 := if n = ~~~0 then n else n + 1
  match ok with
  | some true => { a with last := 1, hit := up a.hit }
  | some false => { a with last := 2, miss := up a.miss }
  | none => { a with last := 3 }

/-- Where a resolution reads poison. -/
def resolvePoison (c : Core) (cl : Cluster) (a : AlmLive) (pred : Bool) : Option Nat :=
  match ((List.range a.rows).map (fun r => a.home + r * a.hpitch)).find? (fun o => readsPoison c cl o a.rb) with
  | some o => some o
  | none => if pred && readsPoison c cl a.pbuf a.size then some a.pbuf else none

/-- A member of a speculation is ready and has still to start: it has joined the speculation (13 R282). -/
def memberReady (s : State) (i : SpecId) : Bool :=
  s.me.cmds.any (fun m => m.st = .queued && m.frame.spec && m.specId = i && (startTent s m).isSome)

/-- The slot write of a resolution: the producer's, tentative where it is (13 R292), when it must have room for its
pre-images. None while it waits. -/
def resolveWrite (s : State) (i : SpecId) (hold : List SpecId) (o : Nat) (bs : List Byte) : Option State :=
  let tag := if hold.isEmpty then none else some i.2
  (if hold.isEmpty then some s else makeRoom s (preNeed s.me.ph.held i.2 o bs.length)).map
    (fun s1 => s1.setMe (backWrite s1.me s1.myCluster tag (i.2, 0) o bs))

/-- SPEC_RESOLVE (13 R289): the cluster's oldest due speculation resolves, if it is this core's and on the entry. What joined
it starts first. -/
def execSpecResolve (entry : BitVec 4) (s : State) : Out :=
  let c := s.me
  match s.myCluster.dues with
  | [] => s.waits
  | (who, i) :: rest =>
    if who ≠ s.cur.lcore ∨ i.1 ≠ entry.toNat then s.waits
    else
      let al := s.alm i.1
      let a := al.live
      let ran := (c.spec i).bind (·.ran) = some true
      if ran && memberReady s i then s.waits else
      let prod := c.cmds.find? (fun k => k.seq = i.2)
      let hold := (prod.map (·.tent)).getD []
      let s0 := { s with cur := { s.cur with eng := (prod.map Cmd.eng).getD .X, seq := i.2, entry := false } }
      match resolvePoison c s.myCluster a ran with
      | some o => s0.fault { code := 1, sub := 3, addr := BitVec.ofNat 64 o }
      | none =>
        let o := a.slot a.nextSlot
        if copiesPoison s o a.size then s0.fault { code := 1, sub := 3, addr := BitVec.ofNat 64 o } else
        let real := homeTile c s.myCluster a
        let ok : Option Bool := if ran then some (tilePasses a real (spadBytes c s.myCluster a.pbuf a.size)) else none
        match resolveWrite s i hold o real with
        | none => s.waits
        | some s1 =>
        let s2 := s1.setAlm i.1 { s1.alm i.1 with live := a.resolve ok, spec := none, saved := al.saved ++ hold.map (fun t => (t, a)) }
        let s3 := (s2.setMyCluster { s2.myCluster with dues := rest }).updMe (fun c => { c with unit := c.unit.map (fun u => { u with
          specs := u.specs.map (fun q => if q.id = i then { q with resolved := true, tent := hold } else q) }) })
        match ok with
        | some true => passSpec s3 i hold
        | some false => (squash s3 i).done
        | none => s3.done

end Sys2Proof.Machine
end

