-- ==== Sys2Proof/Machine/VecArith.lean ====
section
/-! DEFINITION. Vector arithmetic: floating, integer and logical words of group 0, comparison, selection and the words
that Wick computes (07 R130-R149, R157-R159). -/

namespace Sys2Proof.Machine

/-- A floating word of one type: `f` gives the result of decoded operands (07 R134, R136). -/
def floatWord (f : Fmt → Word → Num → Num → Num → Nat × Flags) (v : VCtx) : VRes :=
  match fmtOf v.ty with
  | none => .ok [] 0
  | some F => elementwise F.w F.w (fun v x y z => f F v.fm (operand F v.fm x) (operand F v.fm y) (operand F v.fm z)) v

/-- A floating word that works on flushed patterns (07 R137, R138). -/
def patternWord (f : Fmt → Nat → Nat → Nat × Flags) (v : VCtx) : VRes :=
  match fmtOf v.ty with
  | none => .ok [] 0
  | some F => elementwise F.w F.w (fun v x y _ => f F (flushIn F v.fm x) (flushIn F v.fm y)) v

/-- An integer word on patterns of width w (07 R144-R146); none sets a flag. -/
def intWord (f : Nat → Nat → Nat → Nat → Nat → Nat) (v : VCtx) : VRes :=
  let w := width v.ty
  elementwise w w (fun v x y z => (f w v.ty x y z, 0)) v

/-- An integer word on values, wrapping modulo 2^w (07 R144). -/
def wrapWord (f : Nat → Int → Int → Int → Int) (v : VCtx) : VRes :=
  intWord (fun w ty x y z => wrapInt w (f w (intVal ty x) (intVal ty y) (intVal ty z))) v

/-- VADD: x + y (07 R136). -/
def execVadd (f : Form) (s : State) : Out :=
  issueV (.vadd f) s (floatWord (fun F fm x y _ => addNum F fm false x y))

/-- VSUB: x − y (07 R136). -/
def execVsub (f : Form) (s : State) : Out :=
  issueV (.vsub f) s (floatWord (fun F fm x y _ => addNum F fm true x y))

/-- VMUL: x·y (07 R136). -/
def execVmul (f : Form) (s : State) : Out :=
  issueV (.vmul f) s (floatWord (fun F fm x y _ => mulRound F fm x y))

/-- VFMA: x·y + z (07 R136). -/
def execVfma (f : Form) (s : State) : Out :=
  issueV (.vfma f) s (floatWord (fun F fm x y z => fmaNum F fm false false x y z))

/-- VFMS: x·y − z (07 R136). -/
def execVfms (f : Form) (s : State) : Out :=
  issueV (.vfms f) s (floatWord (fun F fm x y z => fmaNum F fm false true x y z))

/-- VFNMA: −(x·y) − z (07 R136). -/
def execVfnma (f : Form) (s : State) : Out :=
  issueV (.vfnma f) s (floatWord (fun F fm x y z => fmaNum F fm true true x y z))

/-- VFNMS: −(x·y) + z (07 R136). -/
def execVfnms (f : Form) (s : State) : Out :=
  issueV (.vfnms f) s (floatWord (fun F fm x y z => fmaNum F fm true false x y z))

/-- VMIN: IEEE 754-2019 minimum (07 R137). -/
def execVmin (f : Form) (s : State) : Out := issueV (.vmin f) s (patternWord (fun F x y => minMax F false false x y))

/-- VMAX: IEEE 754-2019 maximum (07 R137). -/
def execVmax (f : Form) (s : State) : Out := issueV (.vmax f) s (patternWord (fun F x y => minMax F true false x y))

/-- VMINN: minimumNumber (07 R137). -/
def execVminn (f : Form) (s : State) : Out := issueV (.vminn f) s (patternWord (fun F x y => minMax F false true x y))

/-- VMAXN: maximumNumber (07 R137). -/
def execVmaxn (f : Form) (s : State) : Out := issueV (.vmaxn f) s (patternWord (fun F x y => minMax F true true x y))

/-- VABS clears the sign (07 R138). -/
def execVabs (f : Form) (s : State) : Out := issueV (.vabs f) s (patternWord (fun F x _ => (signOp F x false, 0)))

/-- VNEG inverts the sign (07 R138). -/
def execVneg (f : Form) (s : State) : Out :=
  issueV (.vneg f) s (patternWord (fun F x _ => (signOp F x (x / 2 ^ (F.w - 1) % 2 = 0), 0)))

/-- VCPYSGN: |x| with the sign of y (07 R138). -/
def execVcpysgn (f : Form) (s : State) : Out :=
  issueV (.vcpysgn f) s (patternWord (fun F x y => (signOp F x (y / 2 ^ (F.w - 1) % 2 = 1), 0)))

/-- VRECPE: estimate of 1/x (07 R140). -/
def execVrecpe (f : Form) (s : State) : Out := issueV (.vrecpe f) s (floatWord (fun F fm x _ _ => estimate .recp F fm x))

/-- VRSQRTE: estimate of 1/√x (07 R140). -/
def execVrsqrte (f : Form) (s : State) : Out := issueV (.vrsqrte f) s (floatWord (fun F fm x _ _ => estimate .rsqrt F fm x))

/-- VEXP2E: estimate of 2^x (07 R140). -/
def execVexp2e (f : Form) (s : State) : Out := issueV (.vexp2e f) s (floatWord (fun F fm x _ _ => estimate .exp2 F fm x))

/-- VLOG2E: estimate of log2 x (07 R140). -/
def execVlog2e (f : Form) (s : State) : Out := issueV (.vlog2e f) s (floatWord (fun F fm x _ _ => estimate .log2 F fm x))

/-- VRECPS: 2 − x·y (07 R141). -/
def execVrecps (f : Form) (s : State) : Out := issueV (.vrecps f) s (floatWord (fun F fm x y _ => stepNum F fm 2 0 x y))

/-- VRSQRTS: (3 − x·y)/2 (07 R141). -/
def execVrsqrts (f : Form) (s : State) : Out := issueV (.vrsqrts f) s (floatWord (fun F fm x y _ => stepNum F fm 3 1 x y))

/-- VDIV: by div_seq, or on Wick under EXACTDS (07 R142, R143). -/
def execVdiv (f : Form) (s : State) : Out := issueV (.vdiv f) s (floatWord (fun F fm x y _ => divNum F fm x y))

/-- VSQRT: by sqrt_seq, or on Wick under EXACTDS (07 R142, R143). -/
def execVsqrt (f : Form) (s : State) : Out := issueV (.vsqrt f) s (floatWord (fun F fm x _ _ => sqrtNum F fm x))

/-- VSCALE: x·2^y, y a signed integer of the type's width (07 R139). -/
def execVscale (f : Form) (s : State) : Out :=
  issueV (.vscale f) s fun v => match fmtOf v.ty with
    | none => .ok [] 0
    | some F =>
      elementwise F.w F.w (fun v x y _ => scaleNum F v.fm (operand F v.fm x) (if y ≥ 2 ^ (F.w - 1) then (y : Int) - 2 ^ F.w else y)) v

/-- VCLASS: the one-hot class of each element (07 R148). -/
def execVclass (f : Form) (s : State) : Out :=
  issueV (.vclass f) s (patternWord (fun F x _ => (classify F x, 0)))

/-- VIADD: (x + y) mod 2^w (07 R144). -/
def execViadd (f : Form) (s : State) : Out := issueV (.viadd f) s (wrapWord (fun _ x y _ => x + y))

/-- VISUB: (x − y) mod 2^w (07 R144). -/
def execVisub (f : Form) (s : State) : Out := issueV (.visub f) s (wrapWord (fun _ x y _ => x - y))

/-- VIMUL: the low w bits of x·y (07 R144). -/
def execVimul (f : Form) (s : State) : Out := issueV (.vimul f) s (wrapWord (fun _ x y _ => x * y))

/-- VIMULH: the high w bits of the 2w-bit product, signed or unsigned per the type (07 R144). -/
def execVimulh (f : Form) (s : State) : Out := issueV (.vimulh f) s (wrapWord (fun w x y _ => x * y / 2 ^ w))

/-- VIMAD: (x·y + z) mod 2^w (07 R144). -/
def execVimad (f : Form) (s : State) : Out := issueV (.vimad f) s (wrapWord (fun _ x y z => x * y + z))

/-- VIMIN: the smaller value (07 R144). -/
def execVimin (f : Form) (s : State) : Out := issueV (.vimin f) s (wrapWord (fun _ x y _ => if x ≤ y then x else y))

/-- VIMAX: the larger value (07 R144). -/
def execVimax (f : Form) (s : State) : Out := issueV (.vimax f) s (wrapWord (fun _ x y _ => if x ≤ y then y else x))

/-- VAND (07 R145). -/
def execVand (f : Form) (s : State) : Out := issueV (.vand f) s (intWord (fun _ _ x y _ => x &&& y))

/-- VOR (07 R145). -/
def execVor (f : Form) (s : State) : Out := issueV (.vor f) s (intWord (fun _ _ x y _ => x ||| y))

/-- VXOR (07 R145). -/
def execVxor (f : Form) (s : State) : Out := issueV (.vxor f) s (intWord (fun _ _ x y _ => x ^^^ y))

/-- VSHL fills with zeros; a count of w or more gives 0 (07 R146). -/
def execVshl (f : Form) (s : State) : Out :=
  issueV (.vshl f) s (intWord (fun w _ x n _ => if n ≥ w then 0 else x * 2 ^ n % 2 ^ w))

/-- VSHR fills with zeros (07 R146). -/
def execVshr (f : Form) (s : State) : Out :=
  issueV (.vshr f) s (intWord (fun w _ x n _ => if n ≥ w then 0 else x / 2 ^ n))

/-- VSRA fills with copies of bit w − 1, whatever the type (07 R146). -/
def execVsra (f : Form) (s : State) : Out :=
  issueV (.vsra f) s (intWord (fun w _ x n _ =>
    let v : Int := if x ≥ 2 ^ (w - 1) then (x : Int) - 2 ^ w else x
    wrapInt w (v / 2 ^ (if n ≥ w then w else n))))

/-- VCMP: bit c of the predicate becomes the AND of the results of container c's active elements; a container with none
keeps its bit (07 R147). -/
def execVcmp (f : Form) (s : State) : Out :=
  issueV (.vcmp f) s fun v =>
    let w := width v.ty
    let n := v.s.elems w
    let act := (List.range n).filter (guarded v.g w)
    let res := act.map (fun i => (i, compare v.ty v.fm (v.w.c.toNat % 32) (elem v.a w i) (elem v.b w i)))
    let mask := contMask w act
    let fail := contMask w ((res.filter (fun q => !q.2.1)).map (·.1))
    .ok [.pred (v.s.pphys v.w.dst.toNat) (mask &&& ~~~fail) mask] (orFlags (res.map (fun q => q.2.2)))

/-- VSEL: from a where the predicate's bit is set, else from b (07 R149). -/
def execVsel (f : Form) (s : State) : Out :=
  issueV (.vsel f) s fun v =>
    let w := width v.ty
    let p := v.s.me.pget (v.s.pphys v.w.c.toNat)
    let act := (List.range (v.s.elems w)).filter (guarded v.g w)
    .ok (v.s.vland v.w.dst w (act.map (fun i => (i, if guarded p w i then elem v.a w i else elem v.b w i)))) 0

/-- VDADD: FP64 x + y, on Wick (07 R157). -/
def execVdadd (f : Form) (s : State) : Out := issueV (.vdadd f) s (floatWord (fun F fm x y _ => addNum F fm false x y))

/-- VDMUL: FP64 x·y, on Wick (07 R157). -/
def execVdmul (f : Form) (s : State) : Out := issueV (.vdmul f) s (floatWord (fun F fm x y _ => mulRound F fm x y))

/-- VDFMA: FP64 x·y + z, on Wick (07 R157). -/
def execVdfma (f : Form) (s : State) : Out :=
  issueV (.vdfma f) s (floatWord (fun F fm x y z => fmaNum F fm false false x y z))

/-! ## Wick's own steps (07 R158) -/

/-- The die of an operation that has none of its own: the die of the core whose turn it is. -/
def State.myDie (s : State) : Nat := dieOf s.cur.lcore

/-- Marks the first request that is not taken. -/
def takeFirst : List WickReq → List WickReq
  | [] => []
  | q :: t => if q.taken then q :: takeFirst t else { q with taken := true } :: t

/-- WICK_ACCEPT: Wick takes the oldest request of its queue, one every 8 arithmetic cycles (07 R158). -/
def execWickAccept (s : State) : Out :=
  let d := s.dieAt s.myDie
  if s.now < d.wickAt || d.wick.all (·.taken) then s.waits
  else (s.setDie s.myDie { d with wick := takeFirst d.wick, wickAt := s.now + 8 }).done

/-- A request's result becomes available at its core, with the uncorrectable error that Wick met, if it met one (07 R159). -/
def wickReady (c : Core) (q : WickReq) : Core :=
  { c with flights := c.flights.map (fun f =>
      if f.wick && f.seq = q.seq && f.line = q.line && f.slot = q.slot && f.due = q.due then { f with ready := true, bad := f.bad || q.bad } else f) }

/-- WICK_RETURN: the oldest request taken returns (07 R158). -/
def execWickReturn (s : State) : Out :=
  let d := s.dieAt s.myDie
  match d.wick with
  | q :: t => if q.taken then ((s.setDie s.myDie { d with wick := t }).updCore q.lcore (fun c => wickReady c q)).done else s.waits
  | [] => s.waits

/-- LATE_RESULT_ARRIVES: the results of the core that were declared too short are available (15 R327). -/
def execLateResultArrives (s : State) : Out :=
  let comes (f : Flight) : Bool := !f.wick && !f.ready && f.avail ≤ s.now
  if s.me.flights.any comes then
    (s.updMe (fun c => { c with flights := c.flights.map (fun f => if comes f then { f with ready := true } else f) })).done
  else s.waits

end Sys2Proof.Machine
end

