-- ==== Sys2Proof/Machine/VecConv.lean ====
section
/-! DEFINITION. Conversions, quantisation and the decoding of stream data (07 R150-R156). -/

namespace Sys2Proof.Machine

/-- The coordinates of stochastic rounding in a register (07 R153): T, i0 and j. -/
def coords (v : Vec) : BitVec 16 × BitVec 32 × BitVec 32 :=
  (BitVec.ofNat 16 (elem v 32 63), BitVec.ofNat 32 (elem v 32 61), BitVec.ofNat 32 (elem v 32 62))

/-- sr for narrow-side element `n` (07 R153). -/
def srMode (s : State) (cs : BitVec 16 × BitVec 32 × BitVec 32) (n : Nat) : RMode :=
  .sr (srBits s.lid s.cap.srseed cs.1 (cs.2.1 + BitVec.ofNat 32 n) cs.2.2)

/-- A width-changing word (07 R150): source and destination widths, PART, and the result of one element from its
pattern and its narrow-side index. Activity is judged on the wide side. -/
def widthChange (sw dw part : Nat) (f : VCtx → Nat → Nat → Nat × Flags) (v : VCtx) : VRes :=
  let ww := max sw dw
  let act := (List.range (v.s.elems ww)).filter (guarded v.g ww)
  let res := act.map (fun i =>
    let n := part * (2048 / ww) + i
    let (si, di) := if sw = ww then (i, n) else (n, i)
    (di, f v (elem v.a sw si) n))
  .ok (v.s.vland v.w.dst dw (res.map (fun q => (q.1, q.2.1)))) (orFlags (res.map (fun q => q.2.2)))

/-- VCVT and VCVTSR; `sr` for the word that always rounds stochastically (07 R151, R152). The FP64 to INT32 pair rounds
under FMODE.RM with or without RND (DEDUCED, log entry 25). -/
def convertWord (sr : Bool) (v : VCtx) : VRes :=
  let sel := v.w.c.toNat
  let src := sel % 16
  let ty := v.ty
  let cs := if sel / 128 % 2 = 1 then coords v.b else (0, 0, 0)
  let stoch := sr || (Fmode.sr v.fm && [0, 1, 2, 3, 4].contains src && [1, 2, 3, 4].contains ty)
  widthChange (width src) (width ty) (sel / 16 % 8)
    (fun v x n => convert src ty v.fm (if stoch then srMode v.s cs n else rmode v.fm) (sel / 256 % 2 = 1 || src = 13) x) v

/-- VCVT (07 R151). -/
def execVcvt (f : Form) (s : State) : Out := issueV (.vcvt f) s (convertWord false)

/-- VCVTSR (07 R152). -/
def execVcvtsr (f : Form) (s : State) : Out := issueV (.vcvtsr f) s (convertWord true)

/-- VQUANT: FP32 elements against the block scales in b (07 R154). -/
def execVquant (f : Form) (s : State) : Out :=
  issueV (.vquant f) s fun v =>
    let ty := v.ty
    let bs := if ty = 5 then 4 else 32
    let stoch := Fmode.sr v.fm && [3, 4, 5].contains ty
    widthChange 32 (width ty) (v.w.c.toNat % 32)
      (fun v x n => quantize ty v.fm (if stoch then srMode v.s (coords v.b) n else rmode v.fm) x (elem v.b 8 (n / bs))) v

/-- VDEQ: stream data in a, with the format and scales of stN, at the position in c (07 R155, R156). -/
def execVdeq (f : Form) (s : State) : Out :=
  issueV (.vdeq f) s fun v =>
    let st := v.s.me.stream (v.w.b.toNat - 0x310)
    let ws := width (stFmt st)
    let ww := width v.ty
    let r := elem v.c 32 0
    let k := elem v.c 32 1
    let kb := elem v.c 32 2
    let act := (List.range (v.s.elems ww)).filter (guarded v.g ww)
    if streamBad st || act.any (fun i => k + i < kb || k + i - kb ≥ 2048 / ws) then .bad { code := 23 }
    else match decodeRow v.s .A st v.fm r none (act.map (fun i => (k + i, elem v.a ws (k + i - kb)))) with
      | .error a => .acc a
      | .ok (t, xs) =>
        match fmtOf v.ty with
        | none => .okIn t [] 0
        | some F =>
          let res := xs.map (fun q =>
            let (p, fl) := roundTo F v.fm (rmode v.fm) q.1
            (p, fl ||| q.2))
          .okIn t (v.s.vland v.w.dst ww (act.zip (res.map (·.1)))) (orFlags (res.map (·.2)))

end Sys2Proof.Machine
end

