-- ==== Sys2Proof/Machine/VecData.lean ====
section
/-! DEFINITION. Vector data movement: the copies and rearrangements of group 1 (08 R160-R170). -/

namespace Sys2Proof.Machine

/-- A data-movement word: the pattern of active element `i` from the context, the width and E (08 R163). -/
def moveWord (f : VCtx → Nat → Nat → Nat → Nat) (v : VCtx) : VRes :=
  let w := width v.ty
  let n := v.s.elems w
  let act := (List.range n).filter (guarded v.g w)
  .ok (v.s.vland v.w.dst w (act.map (fun i => (i, f v w n i)))) 0

/-- An element by an index that may lie outside 0 .. E − 1, where it is zero (08 R163). -/
def pick (x : Vec) (w n : Nat) (j : Int) : Nat := if 0 ≤ j && j < n then elem x w j.toNat else 0

def VCtx.count (v : VCtx) : Nat := v.w.c.toNat

/-- VMOV (08 R164). -/
def execVmov (f : Form) (s : State) : Out := issueV (.vmov f) s (moveWord (fun v w _ i => elem v.a w i))

/-- VBCAST: element idx of a in every active element (08 R165). -/
def execVbcast (f : Form) (s : State) : Out := issueV (.vbcast f) s (moveWord (fun v w n _ => pick v.a w n v.count))

/-- VPERM: a by the unsigned indices in b (08 R166). -/
def execVperm (f : Form) (s : State) : Out := issueV (.vperm f) s (moveWord (fun v w n i => pick v.a w n (elem v.b w i)))

/-- VSLIDEUP (08 R167). -/
def execVslideup (f : Form) (s : State) : Out :=
  issueV (.vslideup f) s (moveWord (fun v w n i =>
    let j : Int := (i : Int) - v.count
    if j ≥ 0 then pick v.a w n j else pick v.b w n (j + n)))

/-- VSLIDEDN (08 R167). -/
def execVslidedn (f : Form) (s : State) : Out :=
  issueV (.vslidedn f) s (moveWord (fun v w n i =>
    let j : Int := (i : Int) + v.count
    if j < n then pick v.a w n j else pick v.b w n (j - n)))

/-- VZIP (08 R168). -/
def execVzip (f : Form) (s : State) : Out :=
  issueV (.vzip f) s (moveWord (fun v w n i => pick (if i % 2 = 0 then v.a else v.b) w n (i / 2 + v.count % 32 * ((n + 1) / 2) : Nat)))

/-- VUNZIP (08 R168). -/
def execVunzip (f : Form) (s : State) : Out :=
  issueV (.vunzip f) s (moveWord (fun v w n i =>
    let h := (n + 1) / 2
    let part := v.count % 32
    if i < h then pick v.a w n (2 * i + part : Nat) else pick v.b w n (2 * (i - h) + part : Nat)))

/-- The 64 bits of an element that an x register receives (08 R161): sign-extended for the INT types. -/
def extendElem (ty x : Nat) : Word :=
  if [8, 9, 10, 12].contains ty then BitVec.ofInt 64 (intVal ty x) else BitVec.ofNat 64 x

/-- VEXTR: only element 0 (08 R165), which in portable code may go to an x register (R161). -/
def execVextr (f : Form) (s : State) : Out :=
  issueV (.vextr f) s fun v =>
    let w := width v.ty
    let n := v.s.elems w
    let xs := if 0 < n && guarded v.g w 0 then [(0, pick v.a w n v.count)] else []
    match s.step.bind (·.out) with
    | some k => .ok (xs.map (fun p => .greg k (extendElem v.ty p.2))) 0
    | none => .ok (v.s.vland v.w.dst w xs) 0

/-- VINS: only element idx, from element 0 of a (08 R165). -/
def execVins (f : Form) (s : State) : Out :=
  issueV (.vins f) s fun v =>
    let w := width v.ty
    .ok (v.s.vland v.w.dst w (if v.count < v.s.elems w && guarded v.g w v.count then [(v.count, elem v.a w 0)] else [])) 0

/-- VIOTA: i mod 2^w (08 R169). -/
def execViota (f : Form) (s : State) : Out := issueV (.viota f) s (moveWord (fun _ w _ i => i % 2 ^ w))

/-- VCOMPRESS: the selected elements first, then zeros; every element below E is written (08 R170). -/
def execVcompress (f : Form) (s : State) : Out :=
  issueV (.vcompress f) s fun v =>
    let w := width v.ty
    let n := v.s.elems w
    let got := ((List.range n).filter (guarded v.g w)).map (elem v.a w)
    .ok (v.s.vland v.w.dst w ((List.range n).map (fun i => (i, got.getD i 0)))) 0

/-- VEXPAND: the selected elements take a's elements in order (08 R170). -/
def execVexpand (f : Form) (s : State) : Out :=
  issueV (.vexpand f) s fun v =>
    let w := width v.ty
    let sel := (List.range (v.s.elems w)).filter (guarded v.g w)
    .ok (v.s.vland v.w.dst w (sel.zipIdx.map (fun q => (q.1, elem v.a w q.2)))) 0

end Sys2Proof.Machine
end

