-- ==== Sys2Proof/Machine/Dispatch.lean ====
section
/-! DEFINITION. One arm for each constructor of Instr. -/

namespace Sys2Proof.Machine

def exec (i : Instr) (s : State) : Host.Outcome State Fault Refusal :=
  match i with
  -- shapes, streams, commands from the control core (06 R114-R122)
  | .setshape p => Sys2Proof.Machine.execSetshape p s
  | .getshape p => Sys2Proof.Machine.execGetshape p s
  | .setstream p => Sys2Proof.Machine.execSetstream p s
  | .cmdpush p => Sys2Proof.Machine.execCmdpush p s
  | .respop p => Sys2Proof.Machine.execRespop p s
  | .waitseq p => Sys2Proof.Machine.execWaitseq p s
  | .cancel p => Sys2Proof.Machine.execCancel p s
  | .cancelApply => Sys2Proof.Machine.execCancelApply s
  | .trapv p => Sys2Proof.Machine.execTrapv p s
  | .trapvNative w => Sys2Proof.Machine.execTrapvNative w s
  | .bridge p => Sys2Proof.Machine.execBridge p s
  -- the Almanac words (13 R294)
  | .ttdecl p => Sys2Proof.Machine.execTtdecl p s
  | .ttver p => Sys2Proof.Machine.execTtver p s
  | .specq p => Sys2Proof.Machine.execSpecq p s
  | .ttdrop p => Sys2Proof.Machine.execTtdrop p s
  -- control-core forms of group 2, and PWLD
  | .mngo p => Sys2Proof.Machine.execMngo p s
  | .mnwaitControl p => Sys2Proof.Machine.execMnwaitControl p s
  | .mgangControl p => Sys2Proof.Machine.execMgangControl p s
  | .pwld f => Sys2Proof.Machine.execPwld f s
  -- RV64 (06 R112, R113; 14 R318; 20 R406)
  | .rv64Instruction rv short => Sys2Proof.Machine.execRv64Instruction rv short s
  | .fence fm pred succ rd rs1 => Sys2Proof.Machine.execFence fm pred succ rd rs1 s
  | .fenceI imm rd rs1 => Sys2Proof.Machine.execFenceI imm rd rs1 s
  | .amoWindow op dbl aq rl rd rs1 rs2 => Sys2Proof.Machine.execAmoWindow op dbl aq rl rd rs1 rs2 s
  | .lr dbl aq rl rd rs1 => Sys2Proof.Machine.execLr dbl aq rl rd rs1 s
  | .sc dbl aq rl rd rs1 rs2 => Sys2Proof.Machine.execSc dbl aq rl rd rs1 rs2 s
  | .ecall => Sys2Proof.Machine.execEcall s
  | .ebreak short => Sys2Proof.Machine.execEbreak short s
  | .mret => Sys2Proof.Machine.execMret s
  | .trapEntry => Sys2Proof.Machine.execTrapEntry s
  -- native control flow (06 R123)
  | .nopv w => Sys2Proof.Machine.execNopv w s
  | .pbr w => Sys2Proof.Machine.execPbr w s
  | .br w => Sys2Proof.Machine.execBr w s
  | .brl w => Sys2Proof.Machine.execBrl w s
  | .ret w => Sys2Proof.Machine.execRet w s
  | .loop w => Sys2Proof.Machine.execLoop w s
  | .halt w => Sys2Proof.Machine.execHalt w s
  | .resultLanding => Sys2Proof.Machine.execResultLanding s
  -- group 0 (07)
  | .vadd f => Sys2Proof.Machine.execVadd f s
  | .vsub f => Sys2Proof.Machine.execVsub f s
  | .vmul f => Sys2Proof.Machine.execVmul f s
  | .vfma f => Sys2Proof.Machine.execVfma f s
  | .vfms f => Sys2Proof.Machine.execVfms f s
  | .vfnma f => Sys2Proof.Machine.execVfnma f s
  | .vfnms f => Sys2Proof.Machine.execVfnms f s
  | .vmin f => Sys2Proof.Machine.execVmin f s
  | .vmax f => Sys2Proof.Machine.execVmax f s
  | .vminn f => Sys2Proof.Machine.execVminn f s
  | .vmaxn f => Sys2Proof.Machine.execVmaxn f s
  | .vabs f => Sys2Proof.Machine.execVabs f s
  | .vneg f => Sys2Proof.Machine.execVneg f s
  | .vcpysgn f => Sys2Proof.Machine.execVcpysgn f s
  | .vrecpe f => Sys2Proof.Machine.execVrecpe f s
  | .vrsqrte f => Sys2Proof.Machine.execVrsqrte f s
  | .vexp2e f => Sys2Proof.Machine.execVexp2e f s
  | .vlog2e f => Sys2Proof.Machine.execVlog2e f s
  | .vrecps f => Sys2Proof.Machine.execVrecps f s
  | .vrsqrts f => Sys2Proof.Machine.execVrsqrts f s
  | .vdiv f => Sys2Proof.Machine.execVdiv f s
  | .vsqrt f => Sys2Proof.Machine.execVsqrt f s
  | .viadd f => Sys2Proof.Machine.execViadd f s
  | .visub f => Sys2Proof.Machine.execVisub f s
  | .vimul f => Sys2Proof.Machine.execVimul f s
  | .vimulh f => Sys2Proof.Machine.execVimulh f s
  | .vimad f => Sys2Proof.Machine.execVimad f s
  | .vimin f => Sys2Proof.Machine.execVimin f s
  | .vimax f => Sys2Proof.Machine.execVimax f s
  | .vand f => Sys2Proof.Machine.execVand f s
  | .vor f => Sys2Proof.Machine.execVor f s
  | .vxor f => Sys2Proof.Machine.execVxor f s
  | .vshl f => Sys2Proof.Machine.execVshl f s
  | .vshr f => Sys2Proof.Machine.execVshr f s
  | .vsra f => Sys2Proof.Machine.execVsra f s
  | .vcvt f => Sys2Proof.Machine.execVcvt f s
  | .vcvtsr f => Sys2Proof.Machine.execVcvtsr f s
  | .vquant f => Sys2Proof.Machine.execVquant f s
  | .vdeq f => Sys2Proof.Machine.execVdeq f s
  | .vscale f => Sys2Proof.Machine.execVscale f s
  | .vclass f => Sys2Proof.Machine.execVclass f s
  | .vcmp f => Sys2Proof.Machine.execVcmp f s
  | .vsel f => Sys2Proof.Machine.execVsel f s
  | .vdadd f => Sys2Proof.Machine.execVdadd f s
  | .vdmul f => Sys2Proof.Machine.execVdmul f s
  | .vdfma f => Sys2Proof.Machine.execVdfma f s
  | .wickReturn => Sys2Proof.Machine.execWickReturn s
  -- group 1 (08)
  | .vmov f => Sys2Proof.Machine.execVmov f s
  | .vbcast f => Sys2Proof.Machine.execVbcast f s
  | .vperm f => Sys2Proof.Machine.execVperm f s
  | .vslideup f => Sys2Proof.Machine.execVslideup f s
  | .vslidedn f => Sys2Proof.Machine.execVslidedn f s
  | .vzip f => Sys2Proof.Machine.execVzip f s
  | .vunzip f => Sys2Proof.Machine.execVunzip f s
  | .vextr f => Sys2Proof.Machine.execVextr f s
  | .vins f => Sys2Proof.Machine.execVins f s
  | .viota f => Sys2Proof.Machine.execViota f s
  | .vcompress f => Sys2Proof.Machine.execVcompress f s
  | .vexpand f => Sys2Proof.Machine.execVexpand f s
  | .vredsum f => Sys2Proof.Machine.execVredsum f s
  | .vredmax f => Sys2Proof.Machine.execVredmax f s
  | .vredmin f => Sys2Proof.Machine.execVredmin f s
  | .vredisum f => Sys2Proof.Machine.execVredisum f s
  | .vscanInc f => Sys2Proof.Machine.execVscanInc f s
  | .vscanExc f => Sys2Proof.Machine.execVscanExc f s
  | .vdot f => Sys2Proof.Machine.execVdot f s
  | .pand f => Sys2Proof.Machine.execPand f s
  | .por f => Sys2Proof.Machine.execPor f s
  | .pxor f => Sys2Proof.Machine.execPxor f s
  | .pandn f => Sys2Proof.Machine.execPandn f s
  | .pnot f => Sys2Proof.Machine.execPnot f s
  | .pmov f => Sys2Proof.Machine.execPmov f s
  | .pcnt f => Sys2Proof.Machine.execPcnt f s
  | .pfirst f => Sys2Proof.Machine.execPfirst f s
  | .ptail f => Sys2Proof.Machine.execPtail f s
  | .pset f => Sys2Proof.Machine.execPset f s
  | .ppack f => Sys2Proof.Machine.execPpack f s
  | .punpack f => Sys2Proof.Machine.execPunpack f s
  | .setrot w => Sys2Proof.Machine.execSetrot w s
  -- group 2 (09, 10)
  | .mlds f => Sys2Proof.Machine.execMlds f s
  | .mldf f => Sys2Proof.Machine.execMldf f s
  | .mldg f => Sys2Proof.Machine.execMldg f s
  | .mma f => Sys2Proof.Machine.execMma f s
  | .mmas f => Sys2Proof.Machine.execMmas f s
  | .mzero f => Sys2Proof.Machine.execMzero f s
  | .accld f => Sys2Proof.Machine.execAccld f s
  | .mtrans f => Sys2Proof.Machine.execMtrans f s
  | .mnwait w => Sys2Proof.Machine.execMnwait w s
  | .nestRun => Sys2Proof.Machine.execNestRun s
  | .mprom f => Sys2Proof.Machine.execMprom f s
  | .mpoly f => Sys2Proof.Machine.execMpoly f s
  | .mpolyT f => Sys2Proof.Machine.execMpolyT f s
  | .mpstat f => Sys2Proof.Machine.execMpstat f s
  | .mgang w => Sys2Proof.Machine.execMgang w s
  -- group 3 (11)
  | .gadd w => Sys2Proof.Machine.execGadd w s
  | .gsub w => Sys2Proof.Machine.execGsub w s
  | .gmul w => Sys2Proof.Machine.execGmul w s
  | .gshl w => Sys2Proof.Machine.execGshl w s
  | .gshr w => Sys2Proof.Machine.execGshr w s
  | .gand w => Sys2Proof.Machine.execGand w s
  | .gor w => Sys2Proof.Machine.execGor w s
  | .gli w => Sys2Proof.Machine.execGli w s
  | .gmovx w => Sys2Proof.Machine.execGmovx w s
  | .gcmp w => Sys2Proof.Machine.execGcmp w s
  | .ald f => Sys2Proof.Machine.execAld f s
  | .alds f => Sys2Proof.Machine.execAlds f s
  | .aldx w => Sys2Proof.Machine.execAldx w s
  | .ast f => Sys2Proof.Machine.execAst f s
  | .asts f => Sys2Proof.Machine.execAsts f s
  | .astx w => Sys2Proof.Machine.execAstx w s
  | .apref f => Sys2Proof.Machine.execApref f s
  | .vspill f => Sys2Proof.Machine.execVspill f s
  | .vfill f => Sys2Proof.Machine.execVfill f s
  | .anest w => Sys2Proof.Machine.execAnest w s
  -- group 4 (12)
  | .tkgive w => Sys2Proof.Machine.execTkgive w s
  | .tktake w => Sys2Proof.Machine.execTktake w s
  | .flset f => Sys2Proof.Machine.execFlset f s
  | .flclr f => Sys2Proof.Machine.execFlclr f s
  | .flwaitSet f => Sys2Proof.Machine.execFlwaitSet f s
  | .flwaitClr f => Sys2Proof.Machine.execFlwaitClr f s
  | .flwaitTake f => Sys2Proof.Machine.execFlwaitTake f s
  | .rclaim f => Sys2Proof.Machine.execRclaim f s
  | .rpub f => Sys2Proof.Machine.execRpub f s
  | .rwfill f => Sys2Proof.Machine.execRwfill f s
  | .rwfree f => Sys2Proof.Machine.execRwfree f s
  | .rcons f => Sys2Proof.Machine.execRcons f s
  | .rskip f => Sys2Proof.Machine.execRskip f s
  | .evsigSet f => Sys2Proof.Machine.execEvsigSet f s
  | .evsigClr f => Sys2Proof.Machine.execEvsigClr f s
  | .evsigPost f => Sys2Proof.Machine.execEvsigPost f s
  | .evwait f => Sys2Proof.Machine.execEvwait f s
  | .evwaitClr f => Sys2Proof.Machine.execEvwaitClr f s
  -- group 4 (14)
  | .fencevAcq f => Sys2Proof.Machine.execFencevAcq f s
  | .fencevRel f => Sys2Proof.Machine.execFencevRel f s
  | .fencevSc f => Sys2Proof.Machine.execFencevSc f s
  | .ldacq f => Sys2Proof.Machine.execLdacq f s
  | .strel f => Sys2Proof.Machine.execStrel f s
  | .aadd f => Sys2Proof.Machine.execAadd f s
  | .amax f => Sys2Proof.Machine.execAmax f s
  | .amin f => Sys2Proof.Machine.execAmin f s
  | .axchg f => Sys2Proof.Machine.execAxchg f s
  | .acas f => Sys2Proof.Machine.execAcas f s
  | .aor f => Sys2Proof.Machine.execAor f s
  | .aand f => Sys2Proof.Machine.execAand f s
  | .vaddm f => Sys2Proof.Machine.execVaddm f s
  | .aaddRmt p => Sys2Proof.Machine.execAaddRmt p s
  | .amaxRmt p => Sys2Proof.Machine.execAmaxRmt p s
  | .aminRmt p => Sys2Proof.Machine.execAminRmt p s
  | .axchgRmt p => Sys2Proof.Machine.execAxchgRmt p s
  | .acasRmt p => Sys2Proof.Machine.execAcasRmt p s
  | .aorRmt p => Sys2Proof.Machine.execAorRmt p s
  | .aandRmt p => Sys2Proof.Machine.execAandRmt p s
  | .remoteAtomicRequest r ageMs qp => Sys2Proof.Machine.execRemoteAtomicRequest r ageMs qp s
  | .remoteAtomicResponse tag ans ageMs => Sys2Proof.Machine.execRemoteAtomicResponse tag ans ageMs s
  | .remoteAtomicTimeout => Sys2Proof.Machine.execRemoteAtomicTimeout s
  | .replayTableExpiry => Sys2Proof.Machine.execReplayTableExpiry s
  | .tagRecordLapse => Sys2Proof.Machine.execTagRecordLapse s
  -- command frames (12)
  | .codeStart f => Sys2Proof.Machine.execCodeStart f s
  | .copy f => Sys2Proof.Machine.execCopy f s
  | .copynd f => Sys2Proof.Machine.execCopynd f s
  | .bcast f => Sys2Proof.Machine.execBcast f s
  | .gatherrows f => Sys2Proof.Machine.execGatherrows f s
  | .reduce f => Sys2Proof.Machine.execReduce f s
  | .signal f => Sys2Proof.Machine.execSignal f s
  | .waitcount f => Sys2Proof.Machine.execWaitcount f s
  | .link f => Sys2Proof.Machine.execLink f s
  | .chainFrameRead => Sys2Proof.Machine.execChainFrameRead s
  | .pswap f => Sys2Proof.Machine.execPswap f s
  | .selftest f => Sys2Proof.Machine.execSelftest f s
  | .selftestDone => Sys2Proof.Machine.execSelftestDone s
  | .commandRetire => Sys2Proof.Machine.execCommandRetire s
  | .commitExchange => Sys2Proof.Machine.execCommitExchange s
  | .commitRetire => Sys2Proof.Machine.execCommitRetire s
  -- errors (20), speculation (13), watchdog (02)
  | .correctedError die bank sub lcore addr => Sys2Proof.Machine.execCorrectedError die bank sub lcore addr s
  | .fatalError die bank sub lcore addr => Sys2Proof.Machine.execFatalError die bank sub lcore addr s
  | .specStart entry => Sys2Proof.Machine.execSpecStart entry s
  | .specResolve entry => Sys2Proof.Machine.execSpecResolve entry s
  | .unithang => Sys2Proof.Machine.execUnithang s
  -- paging and context (19)
  | .pageFaultRecord => Sys2Proof.Machine.execPageFaultRecord s
  | .fbipInterrupt => Sys2Proof.Machine.execFbipInterrupt s
  | .fbflush n => Sys2Proof.Machine.execFbflush n s
  | .tlbinvAsid wide => Sys2Proof.Machine.execTlbinvAsid wide s
  | .tlbinvVa wide => Sys2Proof.Machine.execTlbinvVa wide s
  | .tlbinvAll wide => Sys2Proof.Machine.execTlbinvAll wide s
  | .tlbinvDone => Sys2Proof.Machine.execTlbinvDone s
  | .upcWrite k v => Sys2Proof.Machine.execUpcWrite k v s
  | .preempt => Sys2Proof.Machine.execPreempt s
  | .preipInterrupt => Sys2Proof.Machine.execPreipInterrupt s
  | .mcipInterrupt => Sys2Proof.Machine.execMcipInterrupt s
  | .ctxSave => Sys2Proof.Machine.execCtxSave s
  | .ctxSaveWrite => Sys2Proof.Machine.execCtxSaveWrite s
  | .ctxRestore => Sys2Proof.Machine.execCtxRestore s
  | .mcctlClrcnt => Sys2Proof.Machine.execMcctlClrcnt s
  | .ringcfgWrite v => Sys2Proof.Machine.execRingcfgWrite v s
  | .csrWrite num v => Sys2Proof.Machine.execCsrWrite num v s
  -- launch, load and the control channel (17, 18, 21)
  | .submit r job va => Sys2Proof.Machine.execSubmit r job va s
  | .unitStart => Sys2Proof.Machine.execUnitStart s
  | .load r job given => Sys2Proof.Machine.execLoad r job given s
  | .status r => Sys2Proof.Machine.execStatus r s
  | .attest r nonce => Sys2Proof.Machine.execAttest r nonce s
  | .read r item => Sys2Proof.Machine.execRead r item s
  | .clearmc r die bank => Sys2Proof.Machine.execClearmc r die bank s
  | .claim r priority => Sys2Proof.Machine.execClaim r priority s
  | .electionClose => Sys2Proof.Machine.execElectionClose s
  | .renew r => Sys2Proof.Machine.execRenew r s
  | .release r => Sys2Proof.Machine.execRelease r s
  | .handover r heir => Sys2Proof.Machine.execHandover r heir s
  | .leaseExpiry => Sys2Proof.Machine.execLeaseExpiry s
  | .createjob r attr => Sys2Proof.Machine.execCreatejob r attr s
  | .endjob r job => Sys2Proof.Machine.execEndjob r job s
  | .endjobDone job => Sys2Proof.Machine.execEndjobDone job s
  | .map r job m => Sys2Proof.Machine.execMap r job m s
  | .unmap r job va len => Sys2Proof.Machine.execUnmap r job va len s
  | .unmapDone => Sys2Proof.Machine.execUnmapDone s
  | .cancelMsg r job level sel => Sys2Proof.Machine.execCancelMsg r job level sel s
  | .peer r job entry gid qp valid => Sys2Proof.Machine.execPeer r job entry gid qp valid s
  | .selftestMsg r die dw10 dw11 => Sys2Proof.Machine.execSelftestMsg r die dw10 dw11 s
  | .anchors r list deny => Sys2Proof.Machine.execAnchors r list deny s
  | .reset r => Sys2Proof.Machine.execReset r s
  | .moduleReset => Sys2Proof.Machine.execModuleReset s
  | .boot => Sys2Proof.Machine.execBoot s
  | .imageUpload die fw => Sys2Proof.Machine.execImageUpload die fw s
  | .controlHandshake h => Sys2Proof.Machine.execControlHandshake h s
  | .rdmaPacket route va op => Sys2Proof.Machine.execRdmaPacket route va op s
  | .replUpdateApply die => Sys2Proof.Machine.execReplUpdateApply die s
  | .pageMigration job va frame => Sys2Proof.Machine.execPageMigration job va frame s
  | .cycleWithhold die temp power => Sys2Proof.Machine.execCycleWithhold die temp power s
  | .thermalTrip die => Sys2Proof.Machine.execThermalTrip die s
  | .accessPerformed => Sys2Proof.Machine.execAccessPerformed s
  | .lateResultArrives => Sys2Proof.Machine.execLateResultArrives s
  | .wickAccept => Sys2Proof.Machine.execWickAccept s
  | .functionReady bit => Sys2Proof.Machine.execFunctionReady bit s
  | .ethernetLinkDown port => Sys2Proof.Machine.execEthernetLinkDown port s
  | .controlConnectionLoss master => Sys2Proof.Machine.execControlConnectionLoss master s

end Sys2Proof.Machine
end

