-- ==== Sys2Proof/Machine/Requests.lean ====
section
/-! DEFINITION. The bytes of a request on the control channel (00 R7, 21 R425): its 16-byte header, and its body. The spec names what a
body holds, in order, and no layout: each value takes a doubleword, but for the nonce, a GID and an object's bytes (DESIGN CHOICE, log
entry 130). -/

namespace Sys2Proof.Machine

/-- What the bytes of a request come to. -/
inductive Arrival where
  /-- a message of the table, which does this. -/
  | ok (run : State → Out)
  /-- an unknown TYPE, a wrong LENGTH, or a nonzero reserved field. -/
  | bad (r : Req) (type : BitVec 16)
  /-- the header is not there yet. -/
  | short

/-- The `k`-th doubleword of a body. -/
def bodyDw (b : List Byte) (k : Nat) : Nat := leNat ((b.drop (8 * k)).take 8)

/-- A doubleword of a body that holds a value below a bound. -/
def bodyLt (b : List Byte) (k bound : Nat) : Option Nat := if bodyDw b k < bound then some (bodyDw b k) else none

/-- A flag: 0 or 1. -/
def bodyFlag (b : List Byte) (k : Nat) : Option Bool := (bodyLt b k 2).map (· = 1)

/-- The item that a READ names: its kind, then die and bank, or job and address. -/
def readItemOf (b : List Byte) : Option ReadItem :=
  match bodyDw b 0 with
  | 1 => (bodyLt b 1 16).bind (fun d => (bodyLt b 2 16).map (fun k => .bank (BitVec.ofNat 4 d) (BitVec.ofNat 4 k)))
  | 2 => (bodyLt b 1 16).bind (fun d => (bodyLt b 2 1).map (fun _ => .thermal (BitVec.ofNat 4 d)))
  | 3 => some (.record (bodyDw b 1) (BitVec.ofNat 64 (bodyDw b 2)))
  | _ => none

/-- The level of a CANCEL, by R120's code. -/
def levelAt (n : Nat) : Option Level := [Level.unit, .launch, .graph, .stage, .job][n]?

/-- The fields of a MAP: virtual address, page size, length, KIND, REPL, W and home die. -/
def mapReqOf (b : List Byte) : Option MapReq :=
  let big : Option Bool := if bodyDw b 2 = 65536 then some false else if bodyDw b 2 = 2 ^ 29 then some true else none
  big.bind (fun z => (bodyLt b 4 4).bind (fun k => (bodyFlag b 5).bind (fun rp => (bodyFlag b 6).bind (fun w => (bodyLt b 7 8).map (fun h =>
    { va := BitVec.ofNat 64 (bodyDw b 1), big := z, len := bodyDw b 3, kind := BitVec.ofNat 2 k, repl := rp, w := w, home := h })))))

/-- Anchors from a doubleword on: each its identity and its right, 1 for OWNER and 0 for OBSERVE. -/
def anchorsAt (b : List Byte) : Nat → Nat → Option (List Anchor)
  | 0, _ => some []
  | n + 1, k => (bodyFlag b (k + 1)).bind (fun o =>
      (anchorsAt b n (k + 2)).map (fun t => { ident := BitVec.ofNat 64 (bodyDw b k), owner := o } :: t))

/-- The lists of an ANCHORS: the number of anchors, the anchors, the number of identities denied, the identities. -/
def anchorsOf (b : List Byte) : Option (List Anchor × List (BitVec 64)) :=
  let n := bodyDw b 0
  let d := bodyDw b (1 + 2 * n)
  if 8 < n || 256 < d || b.length ≠ 8 * (2 + 2 * n + d) then none
  else (anchorsAt b n 1).map (fun l => (l, (List.range d).map (fun i => BitVec.ofNat 64 (bodyDw b (2 + 2 * n + i)))))

/-- What a request does, by its type and body; none where no such message has that body. -/
def messageOf (r : Req) (type : Nat) (b : List Byte) : Option (State → Out) :=
  let n := b.length
  let w (k : Nat) : Word := BitVec.ofNat 64 (bodyDw b k)
  match type with
  | 0x0001 => if n = 0 then some (execStatus r) else none
  | 0x0002 => if n = 32 then some (execAttest r b) else none
  | 0x0003 => if n = 24 then (readItemOf b).map (fun x => execRead r x) else none
  | 0x0004 => if n = 16 then (bodyLt b 0 16).bind (fun d => (bodyLt b 1 16).map (fun k => execClearmc r (BitVec.ofNat 4 d) (BitVec.ofNat 4 k))) else none
  | 0x0010 => if n = 8 then (bodyLt b 0 256).map (fun p => execClaim r (BitVec.ofNat 8 p)) else none
  | 0x0011 => if n = 0 then some (execRenew r) else none
  | 0x0012 => if n = 0 then some (execRelease r) else none
  | 0x0013 => if n = 8 then some (execHandover r (w 0)) else none
  | 0x0020 =>
    let attr (wd : Option Nat) : JobAttr := { jstat := w 0, jlo := bodyDw b 1, jhi := bodyDw b 2, maxpri := bodyDw b 3, wdlog2 := wd }
    if n = 32 then some (execCreatejob r (attr none)) else if n = 40 then some (execCreatejob r (attr (some (bodyDw b 4)))) else none
  | 0x0021 => if n = 8 then some (execEndjob r (bodyDw b 0)) else none
  | 0x0022 => if n = 64 then (mapReqOf b).map (fun x => execMap r (bodyDw b 0) x) else none
  | 0x0023 => if n = 24 then some (execUnmap r (bodyDw b 0) (w 1) (bodyDw b 2)) else none
  | 0x0030 => if 8 ≤ n then some (execLoad r (bodyDw b 0) { obj := b.drop 8, syms := [] }) else none
  | 0x0031 => if n = 16 then some (execSubmit r (bodyDw b 0) (w 1)) else none
  | 0x0032 => if n = 24 then (levelAt (bodyDw b 1)).map (fun l => execCancelMsg r (bodyDw b 0) l (w 2)) else none
  | 0x0033 =>
    if n = 48 then (bodyLt b 4 (2 ^ 24)).bind (fun q => (bodyFlag b 5).map (fun v =>
      execPeer r (bodyDw b 0) (bodyDw b 1) (BitVec.ofNat 128 (leNat ((b.drop 16).take 16))) (BitVec.ofNat 24 q) v)) else none
  | 0x0034 => if n = 24 then (bodyLt b 0 8).map (fun d => execSelftestMsg r (BitVec.ofNat 3 d) (w 1) (w 2)) else none
  | 0x0035 => (anchorsOf b).map (fun x => execAnchors r x.1 x.2)
  | 0x0040 => if n = 0 then some (execReset r) else none
  | _ => none

/-- Most bytes of a body. -/
def bodyLimit : Nat := 2 ^ 24

/-- Reads a request of a master: FLAGS and STATUS are zero in one, and LENGTH is that of its body. -/
def readRequest (m : BitVec 64) (bs : List Byte) : Arrival :=
  if bs.length < 16 then .short
  else
    let f (o n : Nat) : Nat := leNat ((bs.drop o).take n)
    let r : Req := { master := m, id := BitVec.ofNat 32 (f 4 4) }
    let body := bs.drop 16
    if f 2 2 ≠ 0 ∨ f 12 4 ≠ 0 ∨ f 8 4 ≠ body.length ∨ bodyLimit < body.length then .bad r (BitVec.ofNat 16 (f 0 2))
    else match messageOf r (f 0 2) body with
      | some run => .ok run
      | none => .bad r (BitVec.ofNat 16 (f 0 2))

end Sys2Proof.Machine
end

