-- ==== Sys2Proof/Machine/Turns.lean ====
section
/-! DEFINITION. What an agent does in its turn (log entry 1): the control core fetches and runs one instruction, or takes what
is pending (06 R112, 20 R406-R408); engine A issues its next bundle (11 R226); the execute domain runs one virtual cycle
(02 R43, R45, 15 R325-R332); a command takes its next step (12 R256); and an operation without an encoding takes place. -/

namespace Sys2Proof.Machine

/-! ## Who may move -/

/-- A core is out of reset: the hub's firmware runs and the die's bit of READYMAP is set (21 R420, R421). -/
def State.alive (s : State) (lcore : Nat) : Bool := s.hub.st = .up && s.isReady (Ready.die (dieOf lcore))

/-- Operations of the module's own functions, which no core's reset holds back; each checks what it needs. -/
def moduleOp : Instr → Bool
  | .remoteAtomicRequest _ _ _ | .remoteAtomicTimeout | .replayTableExpiry | .tagRecordLapse => true
  | .correctedError _ _ _ _ _ | .fatalError _ _ _ _ _ => true
  | .selftestDone | .submit _ _ _ | .load _ _ _ | .status _ | .attest _ _ | .read _ _ | .clearmc _ _ _ => true
  | .claim _ _ | .electionClose | .renew _ | .release _ | .handover _ _ | .leaseExpiry => true
  | .createjob _ _ | .endjob _ _ | .endjobDone _ | .map _ _ _ | .unmap _ _ _ _ | .unmapDone | .cancelMsg _ _ _ _ => true
  | .cancelApply | .peer _ _ _ _ _ _ | .selftestMsg _ _ _ _ | .anchors _ _ _ | .reset _ | .moduleReset | .boot => true
  | .imageUpload _ _ | .controlHandshake _ | .rdmaPacket _ _ _ | .replUpdateApply _ | .pageMigration _ _ _ => true
  | .cycleWithhold _ _ _ | .thermalTrip _ | .functionReady _ | .ethernetLinkDown _ | .controlConnectionLoss _ => true
  | _ => false

/-- The engines of a core are held: by a restore, and by a save from the moment at which the save can be made (15 R329,
19 R400). -/
def State.held (s : State) : Bool := s.me.ctxbusy && (!s.me.ctxsave || !saveWaits s)

/-- A unit's engines may move. -/
def State.enginesMove (s : State) : Bool := s.me.unit.isSome && !s.held

/-- Operations of the execute domain, which a freeze holds (02 R45). -/
def domainOp : Instr → Bool
  | .nestRun | .resultLanding => true
  | _ => false

/-- Operations of a unit's commands, which a save or restore of the unit holds (19 R400). -/
def commandOp : Instr → Bool
  | .codeStart _ | .copy _ | .copynd _ | .bcast _ | .gatherrows _ | .reduce _ | .signal _ | .waitcount _ | .link _ | .pswap _ | .selftest _ => true
  | .chainFrameRead | .commandRetire | .commitExchange | .commitRetire | .specStart _ | .specResolve _ => true
  | _ => false

/-! ## The control core -/

/-- The instruction at the pc, or the first address of it that lies outside the instruction store. -/
def fetchControl (c : Core) : Except Word Instr :=
  let a := c.pc.toNat
  if Config.istoreBytes < a + 2 then .error (if a < Config.istoreBytes then BitVec.ofNat 64 Config.istoreBytes else c.pc)
  else
    let n := controlLen (BitVec.ofNat 16 (c.ifetch.readWord a 2))
    if Config.istoreBytes < a + n then .error (BitVec.ofNat 64 Config.istoreBytes)
    else .ok (decodeControl (BitVec.ofNat 64 (c.ifetch.readWord a 8)))

/-- An instruction that writes a link register is a call: it does not end the kernel (log entry 8). -/
def isCall : Instr → Bool
  | .rv64Instruction (.jal rd _) _ => rd ≠ 0
  | .rv64Instruction (.jalr rd _ _) _ => rd ≠ 0
  | _ => false

/-- The control core's part of the kernel ends where the pc reaches the kernel's end (18 R380; log entry 8). -/
def Core.endKernel (c : Core) (user : Bool) (i : Instr) : Core :=
  if user && c.mode = .U then
    { c with unit := c.unit.map (fun u => { u with ctlDone := u.ctlDone || (c.pc = u.kend && !isCall i), called := c.pc = u.kend && isCall i }) }
  else c

/-- What the instruction at a boundary comes to, before anything pending is looked at. -/
def runControl (s : State) : Out :=
  match fetchControl s.me with
  | .error a => s.trap 1 a
  | .ok i =>
    let user := s.me.mode = .U
    match exec i s with
    | .next s1 => .next (if s1.note = .ok then s1.updMe (fun c => c.endKernel user i) else s1)
    | r => r

/-- The order of R408: a synchronous exception of the instruction at the boundary, then what is pending, else the
instruction takes effect. -/
def orPending (s : State) (run : Out) (take : State → Out) : Out :=
  match run with
  | .next s1 =>
    match s1.note with
    | .trap _ _ => .next s1
    | _ => take s
  | r => r

/-- The kernel's control part has ended, and the core waits for what it may have to take. -/
def Core.kernelOver (c : Core) : Bool := c.mode = .U && (c.unit.map (·.ctlDone)).getD false

/-- A residue mismatch of the control core, which its instruction meets before it takes effect (20 R416, SUB 10): the engine field is
that of the control core, as in R412's records, and the launch of its unit is dealt with as the handling of R415 says. -/
def State.meetsHit (s : State) : Out :=
  let x : Contained := { code := 1, sub := 10 }
  let l := s.cur.lcore
  (dealWith (logFault (s.updMe (fun c => { c with ctlHit := false })) l 4 (bankOf l .A x) 0 x) l 1).done

/-- A turn of the control core. While the resident runtime saves or restores, it is at work there. Where its kernel's part has
ended, or goes on in another phase than it is in, it waits. -/
def controlTurn (s : State) : Out :=
  if s.me.ctxbusy && s.me.ctxrt then s.waits
  else if s.me.ctlHit then s.meetsHit
  else if s.me.kernelOver || s.me.crossing then
    match pendingItem s s.cur.lcore with
    | some p => takeItem s p
    | none => s.waits
  else
    let run := runControl s
    match pendingItem s s.cur.lcore with
    | some p => orPending s run (fun t => takeItem t p)
    | none => run

/-- An operation that takes what is pending (20 R408): the instruction at the boundary comes before it if it traps. -/
def boundaryOp (i : Instr) (s : State) : Out :=
  if s.me.ctxbusy && s.me.ctxrt then s.waits
  else if s.me.kernelOver || s.me.crossing || (pendingItem s s.cur.lcore).isNone then exec i s
  else orPending s (runControl s) (exec i)

/-! ## Bundles (05 R90-R98) -/

/-- A bundle that is about to issue: the state after the line's reading, the line's doublewords, the words with their
slots, and the slot after them; or how the engine stops instead. -/
inductive Bundle where
  | ok (s : State) (line : List Word) (ws : List (Nat × Instr)) (after : Nat)
  | stop (o : Out)

/-- The last slot of a line that may hold a word. -/
def lastSlot (dw0 : Word) : Nat := if segEnd dw0 then 5 else 6

/-- Whether a bundle of the line starts at a slot, from a slot where one does. -/
def startsAt (e : Eng) (line : List Word) (slot : Nat) : Nat → Nat → Bool
  | 0, _ => false
  | fuel + 1, k => k = slot || (k < slot && startsAt e line slot fuel (bundleFrom e line 8 k).2.2)

/-- The checks of R48 on the counter with which an engine resumes. -/
def resumeBad (e : Eng) (u : Upc) (line : List Word) (ws : List (Nat × Instr)) : List Bad :=
  let unset (n : Nat) : Bool := !(u.target n).2
  if u.slot = 7 ∨ 47 < u.prb.toNat ∨ !startsAt e line u.slot.toNat 8 0
      ∨ ws.any (fun p => match p.2 with
        | .br w => unset w.a.toNat
        | .brl w => unset w.a.toNat
        | _ => false) then [.resume] else []

/-- The next bundle of an engine (05 R97, R98): its line is read where the engine enters it, and what is wrong with it is raised
before any word of it takes effect: what the line's entry or a resumption checks, then what the bundle does. A command of a
region of portable code issues its next word (15 R333, log entry 12). The record of a
DECODE fault names the bundle's first slot (DESIGN CHOICE, log entry 23). A bundle that has begun is checked again only where its
counter was written or restored meanwhile (02 R48, 19 R398). -/
def nextBundle (s : State) (e : Eng) : Bundle :=
  let l := s.me.line e
  let s0 := { s with cur := { s.cur with eng := e, seq := l.seq, entry := false, line := l.upc.line, slot := l.upc.slot } }
  match enteredLine s0 e l.upc.line with
  | .ok (s1, line) =>
    match s1.step with
    | some p => .ok (s1.stepped p) (portLine e s1.stepNow s1.stepCount) [(l.upc.slot.toNat, p.i)] (portAfter s1.stepNow s1.stepCount)
    | none =>
    let (own, picks, after) := bundleFrom e line 8 l.upc.slot.toNat
    let ws := wordsIn picks
    let entry := if l.upc.slot = 0 ∨ l.resumed then entryBad e line else []
    let resume := if l.resumed then resumeBad e l.upc line ws else []
    if (l.done ≠ 0 ∨ l.moved ≠ 0) ∧ !l.resumed then .ok s1 line ws after
    else match Bad.least (entry ++ resume), Bad.least (own ++ bundleBad e (picks.map (·.2)) ++ ws.flatMap (fun p => allocBad s1 p.2)) with
    | some b, _ => .stop (decodeFault s1 b)
    | none, some b => .stop (decodeFault s1 b)
    | none, none => .ok s1 line ws after
  | .error x => .stop (s0.stopOn e 4 0 x)

/-- The end of the bundle at work's bookkeeping. -/
def Line.issued (l : Line) (pc : BitVec 3) : Line :=
  { l with upc := { l.upc with slot := pc }, moved := 0, done := 0, pass := false, resumed := false, goto := none, stop := false }

/-- A unit's engine has issued a bundle: the watchdog starts anew (02 R50), and a command of a region goes on to its next word. -/
def State.bundleIssued (s : State) : State :=
  if s.step.isSome then s.progressed.updCmd (fun m => { m with rows := m.rows + 1 }) else s.progressed

/-- The doublewords of a line that R331 counts: those of the given words with op 0xF0 to 0xFF. -/
def crcWords (line : List Word) (slots : List Nat) : List Byte :=
  slots.flatMap (fun k =>
    let dw := line.getD (k + 1) 0
    if 0xF0 ≤ nop dw then leBytes 8 dw.toNat else [])

/-- A word that is only NOPV 0, with no token bits. -/
def isPad : Instr → Bool
  | .nopv w => w.c = 0 && !w.tkp && !w.tkn && !w.gvp && !w.gvn
  | _ => false

/-- The bundles of a line from a slot on: the slots of each, and whether it holds only NOPV 0. -/
def bundlesFrom (e : Eng) (line : List Word) : Nat → Nat → List (List Nat × Bool)
  | 0, _ => []
  | fuel + 1, slot =>
    if lastSlot (line.getD 0 0) < slot then []
    else
      let (_, ws, after) := bundleFrom e line 8 slot
      (ws.map (·.1), !ws.isEmpty && ws.all (fun p => (wordsIn [p]).any (fun x => isPad x.2))) :: bundlesFrom e line fuel after

/-- The slots of a line's closing pads after a bundle (06 R126). -/
def closingPads (e : Eng) (line : List Word) (after : Nat) : List Nat :=
  (((bundlesFrom e line 8 after).reverse.takeWhile (·.2)).reverse).flatMap (·.1)

/-- Vigil's check on leaving a SEGEND line (15 R332). -/
def vigilCheck (s : State) (line : List Word) : Except Out State :=
  if !segEnd (line.getD 0 0) then .ok s
  else
    let l := s.ln
    let w := line.getD 7 0
    if l.segvc = w.extractLsb' 0 32 ∧ crcFinal l.segcrc = w.extractLsb' 32 32 then
      .ok (s.updLn (fun l => { l with segvc := 0, segcrc := 0xFFFFFFFF, checked := true, since := false }))
    else .error (vigilFault s)

/-- The engine's part of its command ends (06 R128, 12 R250). -/
def endChain (s : State) : State :=
  (s.updLn (fun l => { l with st := .idle, buf := [] })).updMe (fun c => c.updCmd s.cur.eng s.cur.seq (fun m => { m with ended := true }))

/-- Where the engine goes after a bundle (05 R90, 06 R126, R128). -/
def goOn (s : State) (line : List Word) (after : Nat) : Except Out State :=
  let e := s.cur.eng
  let l := s.ln
  let dw0 := line.getD 0 0
  let enter (t : State) (a : BitVec 49) : State :=
    t.updLn (fun l => { l.issued 0 with upc := { l.upc with line := a, slot := 0 }, buf := [] })
  match l.goto with
  | some a =>
    let pads := crcWords line (closingPads e line after)
    match vigilCheck (s.updLn (fun l => { l with segcrc := crcBytes l.segcrc pads })) line with
    | .error o => .error o
    | .ok s1 => .ok (enter s1 a)
  | none =>
    if l.stop then .ok (endChain (s.updLn (fun l => l.issued (BitVec.ofNat 3 after))))
    else if after ≤ lastSlot dw0 then .ok (s.updLn (fun l => l.issued (BitVec.ofNat 3 after)))
    else match vigilCheck s line with
      | .error o => .error o
      | .ok s1 =>
        if chainEnd dw0 then
          if s1.ln.checked && !segEnd dw0 then .error (vigilFault s1)
          else .ok (endChain (s1.updLn (fun l => l.issued 0)))
        else .ok (enter s1 (s.cur.line + (nextOf dw0).signExtend 49))

/-- A trap that a word of the bundle asked for is raised once the bundle is complete (06 R122, 10 R215). -/
def raisePost (s : State) (e : Eng) : State :=
  match (s.me.line e).post with
  | none => s
  | some t => s.updMe (fun c => c.updLine e (fun l => { l with trap := some t, post := none, st := .trapped }))

/-! ## A bundle of M or V -/

/-- The token moves of a word, whose own moves its guard governs (12 R265). -/
def movesOf (s : State) (e : Eng) (i : Instr) : List Move :=
  match nativeRow i with
  | none => []
  | some (r, w) =>
    (if !r.guard || s.guardHolds w then (match i with
      | .tkgive w => ownMoves true e w
      | .tktake w => ownMoves false e w
      | _ => []) else []) ++ bitMoves e w

/-- How many they are. -/
def moveCount (s : State) (i : Instr) : Nat := (movesOf s s.cur.eng i).length

/-- SHADOWREAD of a bundle (15 R328): its first word that reads what is pending. -/
def shadowWord (s : State) (ws : List (Nat × Instr)) : Option Nat :=
  (ws.find? (fun p => match nativeRow p.2 with
    | none => false
    | some (r, w) => if r.engs = eM then shadowReadM s p.2 else shadowRead s r w)).map (·.1)

/-- The state with the word in a slot at work. -/
def State.atSlot (s : State) (k : Nat) : State := { s with cur := { s.cur with slot := BitVec.ofNat 3 k } }

/-- A bundle that cannot complete its takes and gives only waits for them (02 R46): what else stops it comes after. -/
def tokensFirst (pre : State) (ws : List (Nat × Instr)) (o : Out) : Out :=
  let ms := ws.flatMap (fun p => movesOf pre pre.cur.eng p.2)
  let skip := min pre.ln.moved ms.length
  let (p1, n, ok) := pre.moves (ms.drop skip)
  if ok then o else .next { p1.updLn (fun l => { l with moved := skip + n }) with note := .token }

/-- A bundle as it stood before its words, with the early commit that one of them made before it stopped (02 R37). -/
def keepEarly (pre s1 : State) (f : Bool) : State :=
  if f || pre.hub.updates.length < s1.hub.updates.length then (beforeEarly pre).getD pre else pre

/-- How a bundle that was at work as `pre` stops on what its word in slot k came to: nothing of it has taken effect but the
tokens moved (`n` of them by the words before), a place at a gang's barrier, and the trap, fault or record that it raised. -/
def stopBundle (pre : State) (all : List (Nat × Instr)) (k n : Nat) (s1 : State) : Out :=
  let s := pre.atSlot k
  let after (o : Out) : Out := tokensFirst pre all o
  match s1.note with
  | .token =>
    .next { (pre.updMe (fun c => { c with tok := s1.me.tok })).updLn (fun l => { l with moved := n + s1.ln.moved }) with note := .token }
  | .fault f => if f.code = 26 then .next s1 else after ((keepEarly s s1 f.early).fault f)
  | .trap c v => after (if c = 31 then shapeChg s (v.toNat % 8) else s.engineTrap c.toNat v)
  | .missing r => after (.next { s.updMe (fun c => c.stopAt r) with note := .missing r })
  | _ => .next { (keepEarly pre s1 false).updMe (fun c => { c with gangword := if s1.me.gangword.isSome then s1.me.gangword else c.gangword }) with note := .wait }

/-- Issues the words of a bundle in slot order. Each reads the micro-program counter as it was before the bundle (06 R125);
the one change that a bundle may make of it stands at the end. -/
def issueWords (pre : State) (all : List (Nat × Instr)) (u0 : Upc) : List (Nat × Instr) → State → Nat → Upc → Except Out State
  | [], s, _, u => .ok (s.updLn (fun l => { l with upc := u }))
  | (k, i) :: t, s, n, u =>
    match exec i ((s.updLn (fun l => { l with upc := u0 })).atSlot k) with
    | .next s1 =>
      if s1.note = .ok then
        issueWords pre all u0 t s1 (n + moveCount pre i) (if s1.ln.upc = u0 then u else s1.ln.upc)
      else .error (stopBundle pre all k n s1)
    | r => .error r

/-- The bundle that an engine of the execute domain is to issue at the core's virtual cycle (02 R43, R45). Engine M idles
where a word of it must (09 R189). -/
def issueBundle (s : State) (e : Eng) : Except Out State :=
  match nextBundle s e with
  | .stop o => .error o
  | .ok s1 line ws after =>
    if e = .M && ws.any (fun p => mIdle s1.me p.2) then
      .ok (s1.updLn (fun l => { l with next := s1.me.vcycle + 1, segvc := l.segvc + 1 }))
    else match shadowWord s1 ws with
      | some k => .error ((s1.atSlot k).engineTrap 30 (wordPlace s1.cur.line (BitVec.ofNat 3 k) ||| BitVec.ofNat 64 (engCode e)))
      | none =>
        let t := s1.me.vcycle
        let s2 := s1.updLn (fun l => { l with pass := true, next := t, goto := none, stop := false })
        match issueWords s1 ws s1.ln.upc ws s2 0 s1.ln.upc with
        | .error o => .error o
        | .ok s3 =>
          let d := s3.ln.next - t
          let alone := ws.length = 1 && ws.any (fun p => match p.2 with
            | .nopv _ => true
            | _ => false)
          let n := if alone then d else max 1 d
          let crc := crcWords line (ws.map (·.1))
          let s4 := s3.updLn (fun l => { l with next := t + n, segvc := l.segvc + BitVec.ofNat 32 n, since := true, segcrc := crcBytes l.segcrc crc })
          goOn s4.bundleIssued line after

/-- Issues an engine's bundles of this virtual cycle: one, and those that take no cycle before it (06 R124). -/
def issueAll (e : Eng) : Nat → State → Except Out State
  | 0, s => .error s.done
  | fuel + 1, s =>
    let l := s.me.line e
    if l.st ≠ .run ∨ s.me.vcycle < l.next then .ok s
    else match issueBundle s e with
      | .error o => .error o
      | .ok s1 => issueAll e fuel s1

/-- Bundles that one turn of the execute domain may issue in one virtual cycle. -/
def zeroBundles : Nat := 64

/-- A nest at work on engine M. -/
def Core.nesting (c : Core) : Option Cmd := c.cmds.find? (fun m => m.eng = .M && m.cap.nest.isSome && m.st = .running)

/-- The execute domain has something to do. -/
def Core.domainBusy (c : Core) : Bool :=
  c.lineM.st = .run || c.lineV.st = .run || c.nesting.isSome || !c.flights.isEmpty || !c.mwork.isEmpty

/-- Engine M's part of a virtual cycle: a nest's (09 R205), or the bundles that it issues. -/
def issueOfM (s : State) : Except Out State :=
  match s.me.nesting with
  | none => issueAll .M zeroBundles s
  | some m =>
    match execNestRun { s with cur := { s.cur with eng := .M, seq := m.seq, entry := false } } with
    | .next s1 => if s1.note = .ok then .ok { s1 with cur := s.cur } else .error (.next s1)
    | r => .error r

/-- The bundles of a virtual cycle issue together or not at all (02 R45): where V's cannot, M's has not issued either, and
what stops V is what it meets without it. -/
def issueBoth (s : State) : Except Out State :=
  match issueOfM s with
  | .error o => .error o
  | .ok s1 =>
    match issueAll .V zeroBundles s1 with
    | .ok s2 => .ok s2
    | .error _ =>
      match issueAll .V zeroBundles s with
      | .error o => .error o
      | .ok _ => .error s.waits

/-- A virtual cycle of the execute domain: the results that are due land, the words at work take their entries, M's
bundle and V's issue, and VCYCLE advances (02 R45, 07 R133, 15 R325). Where any of these cannot complete the domain
is frozen, and the turn ends there. -/
def domainCycle (s : State) : Out :=
  match execResultLanding s with
    | .next s1 =>
      if s1.note ≠ .ok then .next s1
      else match workOn s1 s1.me.mwork with
        | .error o => o
        | .ok s2 =>
          match issueBoth { s2 with cur := s.cur } with
          | .error o => o
          | .ok s4 =>
            let s5 := raisePost (raisePost s4 .M) .V
            (s5.updMe (fun c => { c with vcycle := c.vcycle + 1 })).done
    | r => r

/-- The core remembers whether the domain's cycle could complete: where it could not, the domain is frozen. -/
def iceDomain (l : Nat) (o : Out) : Out :=
  match o with
  | .next s => .next (s.updCore l (fun c => { c with iced := s.note ≠ .ok }))
  | r => r

/-- A turn of the execute domain. -/
def domainTurn (s : State) : Out :=
  if !s.enginesMove || s.me.frozen || !s.me.domainBusy then s.waits else iceDomain s.cur.lcore (domainCycle s)

/-! ## A bundle of engine A (11 R226) -/

/-- The queues that a word of engine A pops before it can do anything, and the one that it pushes. -/
def popsOfA : Instr → List Nat
  | .gmovx _ => [0x306]
  | .aldx _ => [0x306]
  | .astx _ => [0x306]
  | _ => []
def pushOfA : Instr → Option Nat
  | .ald (.nat w) | .alds (.nat w) | .vfill (.nat w) => some w.dst.toNat
  | .aldx w | .anest w => some w.dst.toNat
  | .pwld (.nat w) => if isG w.dst then none else some w.dst.toNat
  | _ => none

/-- Whether a bundle of engine A may issue: its queues and tokens permit, each token queue up to its depth. -/
def gateA (s : State) (ws : List (Nat × Instr)) : Bool :=
  let on' := (ws.map (·.2)).filter (fun i => match nativeRow i with
    | some (_, w) => s.guardHolds w
    | none => false)
  let ms := ws.flatMap (fun p => movesOf s .A p.2)
  on'.all (fun i => (popsOfA i).all (fun q => (s.head q).isSome)) &&
  (on'.filterMap pushOfA).all s.me.room &&
  (List.range 6).all (fun q =>
    let n := (s.me.tok.at q).length
    let takes := (ms.filter (fun m => m.q = q && !m.give)).length
    let gives := (ms.filter (fun m => m.q = q && m.give)).length
    min takes qDepth ≤ n && (gives = 0 || n + min gives qDepth ≤ qDepth))

/-- A word of engine A has completed: what it wrote waits for the end of its bundle (11 R226). -/
def keepWrites (s s1 : State) (i : Instr) : State :=
  let names := match nativeRow i with
    | some (r, w) => destNames r w
    | none => []
  let c1 := s1.me
  (s1.updMe (fun c => { c with g := s.me.g, ap := s.me.ap })).updLn (fun l =>
    names.foldl (fun (l : Line) p =>
      if p.1 = 2 then { l with gnew := SMap.put l.gnew p.2 (c1.gget p.2) }
      else if p.1 = 1 then { l with pnew := SMap.put l.pnew p.2 (c1.apget p.2) } else l) { l with done := l.done + 1 })

/-- The words of a bundle of engine A, from the first that has not completed. -/
def wordsA : List (Nat × Instr) → State → Except Out State
  | [], s => .ok s
  | (k, i) :: t, s =>
    match exec i (s.atSlot k) with
    | .next s1 => if s1.note = .ok then wordsA t (keepWrites s s1 i) else .error (.next s1)
    | r => .error r

/-- What the bundle wrote is seen by the next one. -/
def commitWrites (s : State) : State :=
  let l := s.ln
  (s.updMe (fun c => l.pnew.foldl (fun c p => c.apput p.1 p.2) (l.gnew.foldl (fun c p => c.gput p.1 p.2) c))).updLn
    (fun l => { l with gnew := [], pnew := [] })

/-- A turn of engine A: its bundle issues once it may, and its words complete in order, as far as they can. -/
def engineATurn (s : State) : Out :=
  if !s.enginesMove || s.me.lineA.st ≠ .run || s.me.scaleMiss then s.waits
  else match nextBundle s .A with
    | .stop o => o
    | .ok s1 line ws after =>
      let l := s1.ln
      if l.done = 0 && l.moved = 0 && l.upc.prog = 0 && !gateA s1 ws then s1.waits
      else match (if l.done = 0 && l.moved = 0 then ws.find? (fun p => targetBad s1 line p.2) else none) with
      | some p => noTarget (s1.atSlot p.1)
      | none =>
      match wordsA (ws.drop l.done) (s1.updLn (fun l => if l.done = 0 then { l with goto := none, stop := false } else l)) with
        | .error o => o
        | .ok s2 =>
          match goOn (commitWrites s2).bundleIssued line after with
          | .error o => o
          | .ok s3 => (raisePost s3 .A).done

/-! ## Commands -/

/-- The next step of the command or chain entry at work: its start, its work, a frame of its chain, or its retirement. -/
def commandStep (s : State) : Option Instr :=
  if s.cur.entry then
    s.ent.bind (fun x => if x.st = .done then some .commandRetire else (frameCtor x.frame.kind).map (fun k => k x.frame))
  else s.cmd.bind (fun m =>
    if m.st = .queued then (frameCtor m.frame.kind).map (fun k => k m.frame)
    else if m.st = .running && m.cap.nest.isSome then none
    else if m.st = .running && m.frame.kind = 9 then some .chainFrameRead
    else if m.st = .running && m.frame.kind ≠ 1 then (frameCtor m.frame.kind).map (fun k => k m.frame)
    else some .commandRetire)

def commandTurn (s : State) : Out :=
  if !s.enginesMove then s.waits
  else match commandStep s with
    | some i => exec i s
    | none => s.waits

/-! ## Requests of masters -/

/-- A request arrives on a connection (21 R425): one that is not well formed is answered by BADMSG. In reset and on a stopped module
the port takes none. -/
def requestTurn (m : BitVec 64) (bs : List Byte) (s : State) : Out :=
  if s.hub.st = .inReset || s.hub.st = .stopped || (s.conn m).isNone then s.waits
  else match readRequest m bs with
    | .short => s.waits
    | .bad r type => (s.reply r type .badMsg).done
    | .ok run => run s

/-! ## Turns -/

/-- Whose turn it is, as the operations see it. -/
def Who.cur (s : State) : Who → Cur
  | .control l => { lcore := l, eng := .X }
  | .engineA l => { lcore := l, eng := .A }
  | .domain l => { lcore := l, eng := .V }
  | .command l e q x => { lcore := l, eng := e, seq := q, entry := x }
  | .op l e _ =>
    let ln := (s.coreAt l).line e
    { lcore := l, eng := e, seq := ln.seq, line := ln.upc.line, slot := ln.upc.slot }
  | .request _ _ => s.cur
  | .setting _ _ => s.cur

def Who.lcore : Who → Nat
  | .control l => l
  | .engineA l => l
  | .domain l => l
  | .command l _ _ _ => l
  | .op l _ _ => l
  | .request _ _ => 0
  | .setting _ _ => 0

/-- What an agent does. -/
def Who.act (w : Who) (s : State) : Out :=
  match w with
  | .control _ => controlTurn s
  | .engineA _ => engineATurn s
  | .domain _ => domainTurn s
  | .command _ _ _ _ => commandTurn s
  | .request m bs => requestTurn m bs s
  | .setting m x => applySetting m x s
  | .op _ _ i =>
    match i with
    | .trapEntry => boundaryOp i s
    | .fbipInterrupt => boundaryOp i s
    | .preipInterrupt => boundaryOp i s
    | .mcipInterrupt => boundaryOp i s
    | i => if domainOp i && (!s.enginesMove || s.me.frozen) || commandOp i && !s.enginesMove then s.waits else exec i s

/-- Operations of a core that issue nothing: a die that withholds cycles goes on with them (22 R439). -/
def ownPace : Instr → Bool
  | .accessPerformed | .wickAccept | .wickReturn | .tlbinvDone | .pageFaultRecord | .commandRetire | .commitExchange | .commitRetire => true
  | .unitStart | .preempt | .unithang | .remoteAtomicResponse _ _ _ => true
  | _ => false

/-- Whether a turn is held back: a stopped hub holds everything but module reset (20 R414), a core that is not out of
reset holds its own agents, and while a die withholds cycles no engine or control core of it issues (22 R439). -/
def Who.blocked (w : Who) (s : State) : Bool :=
  match w with
  | .op _ _ .moduleReset => false
  | .op l _ i => s.hub.st = .stopped || (!moduleOp i && (!s.alive l || (!ownPace i && s.hot (dieOf l))))
  | .request _ _ => s.hub.st = .stopped
  | .setting _ _ => s.hub.st = .stopped
  | w => !s.alive w.lcore || s.hot (dieOf w.lcore)

/-- The turn that comes next: the agenda's first, or, where it lists none, one of the control core that was last at work. -/
def State.nextTurn (s : State) : Turn :=
  match s.agenda with
  | t :: _ => t
  | [] => { who := .control s.cur.lcore }

/-- The state as the agent of a turn finds it: the turn has left the agenda, and its cycles have passed. -/
def State.begin (s : State) (t : Turn) : State :=
  let s1 := State.pass { s with agenda := s.agenda.drop 1, note := .ok } t.cycles
  { s1 with cur := t.who.cur s1 }

/-- A turn. -/
def takeTurn (t : Turn) (s : State) : Out :=
  if t.who.blocked s then s.waits else t.who.act s

/-! ## An instruction where the next step finds it -/

/-- The part up, with the die of a core out of reset. -/
def State.powered (s : State) (lcore : Nat) : State :=
  let h := s.hub
  let r := setFld h.ready (Ready.die (dieOf lcore)) 1 1
  { s with hub := { h with st := .up, ready := r } }

/-- The control core's instruction in its instruction store, at the pc. -/
def State.placeControl (s : State) (bs : List Byte) : State :=
  let l := s.cur.lcore
  let s1 := (s.powered l).updCore l (fun c =>
    { c with istore := c.istore.writeN c.pc.toNat bs, ifetch := c.ifetch.writeN c.pc.toNat bs,
             ctxbusy := c.ctxbusy && !c.ctxrt })
  { s1 with agenda := [{ who := .control l }] }

/-- Physical frames of the tables that `placeLine` makes: the root, the table below it; its one leaf is a page of 512 MiB
at physical address 0, which holds the line. -/
def fetchRoot : Nat := 0x20000000
def fetchTable : Nat := 0x20010000
/-- The flags of the leaf: valid, leaf, readable, writable, of the user. -/
def fetchLeaf : Nat := 0x2F

/-- A unit on the core whose line engine is at work on a command. -/
def State.placeUnit (s : State) (f : Frame) (e : Eng) : State :=
  let l := s.cur.lcore
  (s.powered l).updCore l (fun c =>
    let u : Run := c.unit.getD { job := 0, launch := 0, lid := 1, idx := 0 }
    { c with unit := some u, ctxbusy := false, cmds := [{ frame := { f with dw0 := c.seqno ++ f.dw0.setWidth 32 }, seq := c.seqno, st := if e = .X then .queued else .running }],
             ph := { c.ph with stage := .run } })

/-- A line where its owner's engine enters it: at virtual address 0, in a page that the core's table maps, with a CODE
command of that engine at work and the core's other engines idle. -/
def State.placeLine (s : State) (e : Eng) (bs : List Byte) : State :=
  let l := s.cur.lcore
  let f : Frame := { dw0 := BitVec.ofNat 64 (1 + 256 * engCode e) }
  let s1 := s.placeUnit f e
  let mem := ((s1.hbm.writeN fetchRoot (leBytes 8 (fetchTable + 1))).writeN fetchTable (leBytes 8 fetchLeaf)).writeN 0 bs
  let s2 := { s1 with hbm := mem }
  let s3 := s2.updCore l (fun c =>
    let w : Line := { upc := {}, st := .run, seq := c.seqno, next := c.vcycle }
    let c1 := { c with ptroot := BitVec.ofNat 64 (fetchRoot + 1), tlbA := [], tlbM := [], tlbV := [],
                       lineA := {}, lineM := {}, lineV := {}, fwait := [], fbuf := [], flights := [], mwork := [] }
    c1.setLine e w)
  { s3 with agenda := [{ who := if e = .A then .engineA l else .domain l }] }

/-- A command frame at the head of its engine's queue. -/
def State.placeFrame (s : State) (l16 : List Word) : State :=
  let l := s.cur.lcore
  let f := Frame.ofList l16
  let q := (s.coreAt l).seqno
  let s1 := s.placeUnit f .X
  { s1 with agenda := [{ who := .command l (engOf f.engCode) q false }] }

end Sys2Proof.Machine
end

