-- ==== Sys2Proof/Machine/Step.lean ====
section
/-! DEFINITION. The step: the next turn of the agenda takes place (log entry 1). -/

namespace Sys2Proof.Machine

/-- One step of the module. -/
def step (s : State) : Host.Outcome State Fault Refusal :=
  if Config.cores ≤ s.nextTurn.who.lcore then .fault .noSuchCore
  else takeTurn s.nextTurn (s.begin s.nextTurn)

/-- The state with an instruction where the next step fetches it (log entry 1): `nbits` up to 64 for the control core, 512 for a line,
1,024 for a command frame. -/
def State.withFetchWord (s : State) (nbits w : Nat) : State :=
  if nbits ≤ 64 then s.placeControl (leBytes 8 w)
  else if nbits ≤ 512 then
    match ownerOf (BitVec.ofNat 64 w) with
    | some e => s.placeLine e (leBytes 64 w)
    | none => s.placeLine .A (leBytes 64 w)
  else s.placeFrame ((List.range 16).map (fun k => BitVec.ofNat 64 (w / 2 ^ (64 * k))))

end Sys2Proof.Machine
end

