-- ==== Sys2Proof/Laws/State.lean ====
section
/-! SUPPORT. Small laws of State: sparse maps, the places of the state, and one lemma per field for each update that the
meanings share. -/

namespace Sys2Proof.Machine

/-! ## Sparse maps -/

theorem SMap.get_put_same {α : Type} (m : SMap α) (k : Nat) (v d : α) : SMap.get (SMap.put m k v) k d = v := by
  induction m with
  | nil => simp [SMap.put, SMap.get]
  | cons p t ih =>
    obtain ⟨j, u⟩ := p
    by_cases h1 : k < j
    · simp [SMap.put, h1, SMap.get]
    · by_cases h2 : j = k
      · simp [SMap.put, h2, SMap.get]
      · simp [SMap.put, h1, h2, SMap.get, ih]

theorem SMap.get_put_other {α : Type} (m : SMap α) (k n : Nat) (v d : α) (h : n ≠ k) :
    SMap.get (SMap.put m k v) n d = SMap.get m n d := by
  have h' : k ≠ n := fun e => h e.symm
  induction m with
  | nil => simp [SMap.put, SMap.get, h']
  | cons p t ih =>
    obtain ⟨j, u⟩ := p
    by_cases h1 : k < j
    · simp [SMap.put, h1, SMap.get, h']
    · by_cases h2 : j = k
      · subst h2; simp [SMap.put, SMap.get, h']
      · by_cases h3 : j = n
        · subst h3; simp [SMap.put, h1, h2, SMap.get]
        · simp only [SMap.put, h1, h2, if_false, SMap.get, h3, ih]

/-! ## Places of the state -/

@[simp] theorem State.coreAt_setCore (s : State) (n : Nat) (c : Core) : (s.setCore n c).coreAt n = c :=
  SMap.get_put_same s.core n c {}
theorem State.coreAt_setCore_other (s : State) (n k : Nat) (c : Core) (h : k ≠ n) : (s.setCore n c).coreAt k = s.coreAt k :=
  SMap.get_put_other s.core n k c {} h
@[simp] theorem State.setCore_cluster (s : State) (n : Nat) (c : Core) : (s.setCore n c).cluster = s.cluster := rfl
@[simp] theorem State.setCore_die (s : State) (n : Nat) (c : Core) : (s.setCore n c).die = s.die := rfl
@[simp] theorem State.setCore_hub (s : State) (n : Nat) (c : Core) : (s.setCore n c).hub = s.hub := rfl
@[simp] theorem State.setCore_hbm (s : State) (n : Nat) (c : Core) : (s.setCore n c).hbm = s.hbm := rfl
@[simp] theorem State.setCore_poison (s : State) (n : Nat) (c : Core) : (s.setCore n c).poison = s.poison := rfl
@[simp] theorem State.setCore_now (s : State) (n : Nat) (c : Core) : (s.setCore n c).now = s.now := rfl
@[simp] theorem State.setCore_agenda (s : State) (n : Nat) (c : Core) : (s.setCore n c).agenda = s.agenda := rfl
@[simp] theorem State.setCore_cur (s : State) (n : Nat) (c : Core) : (s.setCore n c).cur = s.cur := rfl
@[simp] theorem State.setCore_note (s : State) (n : Nat) (c : Core) : (s.setCore n c).note = s.note := rfl
@[simp] theorem State.setCore_draws (s : State) (n : Nat) (c : Core) : (s.setCore n c).draws = s.draws := rfl

@[simp] theorem State.me_updMe (s : State) (f : Core → Core) : (s.updMe f).me = f s.me :=
  SMap.get_put_same s.core s.cur.lcore (f s.me) {}
theorem State.coreAt_updMe_other (s : State) (f : Core → Core) (k : Nat) (h : k ≠ s.cur.lcore) :
    (s.updMe f).coreAt k = s.coreAt k := SMap.get_put_other s.core s.cur.lcore k (f s.me) {} h
@[simp] theorem State.updMe_cluster (s : State) (f : Core → Core) : (s.updMe f).cluster = s.cluster := rfl
@[simp] theorem State.updMe_die (s : State) (f : Core → Core) : (s.updMe f).die = s.die := rfl
@[simp] theorem State.updMe_hub (s : State) (f : Core → Core) : (s.updMe f).hub = s.hub := rfl
@[simp] theorem State.updMe_hbm (s : State) (f : Core → Core) : (s.updMe f).hbm = s.hbm := rfl
@[simp] theorem State.updMe_poison (s : State) (f : Core → Core) : (s.updMe f).poison = s.poison := rfl
@[simp] theorem State.updMe_now (s : State) (f : Core → Core) : (s.updMe f).now = s.now := rfl
@[simp] theorem State.updMe_agenda (s : State) (f : Core → Core) : (s.updMe f).agenda = s.agenda := rfl
@[simp] theorem State.updMe_cur (s : State) (f : Core → Core) : (s.updMe f).cur = s.cur := rfl
@[simp] theorem State.updMe_note (s : State) (f : Core → Core) : (s.updMe f).note = s.note := rfl
@[simp] theorem State.updMe_draws (s : State) (f : Core → Core) : (s.updMe f).draws = s.draws := rfl

@[simp] theorem State.me_note (s : State) (n : Note) : ({ s with note := n } : State).me = s.me := rfl
@[simp] theorem State.coreAt_note (s : State) (n : Note) (k : Nat) : ({ s with note := n } : State).coreAt k = s.coreAt k := rfl

/-! ## Registers of the control core -/

@[simp] theorem Core.xr_zero (c : Core) : c.xr (0#5) = 0#64 := rfl
@[simp] theorem Core.wx_zero (c : Core) (v : Word) : c.wx (0#5) v = c := rfl

theorem Core.xr_wx (c : Core) (r k : Reg) (v : Word) : (c.wx r v).xr k = if k = r ∧ r ≠ 0 then v else c.xr k := by
  by_cases hr : r = 0#5
  · subst hr; simp
  · by_cases hk : k = r
    · subst hk; simp [Core.wx, Core.xr, hr, SMap.get_put_same]
    · have hn : k.toNat ≠ r.toNat := fun e => hk (BitVec.eq_of_toNat_eq e)
      by_cases h0 : k = 0#5
      · subst h0; simp [hk, hr]
      · simp [Core.wx, Core.xr, hr, h0, hk, SMap.get_put_other _ _ _ _ _ hn]

@[simp] theorem Core.advance_x (c : Core) (n : Nat) : (c.advance n).x = c.x := rfl
@[simp] theorem Core.advance_pc (c : Core) (n : Nat) : (c.advance n).pc = c.pc + BitVec.ofNat 64 n := rfl
@[simp] theorem Core.xr_advance (c : Core) (n : Nat) (r : Reg) : (c.advance n).xr r = c.xr r := rfl
@[simp] theorem Core.wx_pc (c : Core) (r : Reg) (v : Word) : (c.wx r v).pc = c.pc := by unfold Core.wx; split <;> rfl
@[simp] theorem Core.wx_minstret (c : Core) (r : Reg) (v : Word) : (c.wx r v).minstret = c.minstret := by
  unfold Core.wx; split <;> rfl
@[simp] theorem Core.wx_mcountinhibit (c : Core) (r : Reg) (v : Word) : (c.wx r v).mcountinhibit = c.mcountinhibit := by
  unfold Core.wx; split <;> rfl
@[simp] theorem Core.counted_pc (c : Core) : c.counted.pc = c.pc := by unfold Core.counted; split <;> rfl
@[simp] theorem Core.counted_x (c : Core) : c.counted.x = c.x := by unfold Core.counted; split <;> rfl
@[simp] theorem Core.xr_counted (c : Core) (r : Reg) : c.counted.xr r = c.xr r := by unfold Core.counted; split <;> rfl

/-- The core with only registers, pc and the count of instructions changed. -/
theorem Core.wx_eq (c : Core) (r : Reg) (v : Word) : c.wx r v = { c with x := (c.wx r v).x } := by
  unfold Core.wx; split <;> rfl

theorem Core.counted_eq (c : Core) :
    c.counted = { c with minstret := if c.mcountinhibit.getLsbD 2 then c.minstret else c.minstret + 1 } := by
  unfold Core.counted; split <;> rfl

/-! ## Registers of the line engines -/

theorem Core.vget_vput (c : Core) (k n : Nat) (v : Vec) : (c.vput k v).vget n = if n = k then v else c.vget n := by
  by_cases h : n = k
  · subst h; simp [Core.vput, Core.vget, SMap.get_put_same]
  · simp [Core.vput, Core.vget, h, SMap.get_put_other _ _ _ _ _ h]

theorem Core.pget_pput (c : Core) (k n : Nat) (v : Pred) :
    (c.pput k v).pget n = if n = k ∧ k ≠ 0 then v else c.pget n := by
  by_cases h0 : k = 0
  · subst h0; simp [Core.pput]
  · by_cases h : n = k
    · subst h; simp [Core.pput, Core.pget, h0, SMap.get_put_same]
    · by_cases hn : n = 0
      · subst hn; simp [Core.pget, h0, h]
      · simp [Core.pput, Core.pget, h0, hn, h, SMap.get_put_other _ _ _ _ _ h]

theorem Core.gget_gput (c : Core) (k n : Nat) (v : Word) :
    (c.gput k v).gget n = if n = k ∧ k ≠ 0 then v else c.gget n := by
  by_cases h0 : k = 0
  · subst h0; simp [Core.gput]
  · by_cases h : n = k
    · subst h; simp [Core.gput, Core.gget, h0, SMap.get_put_same]
    · by_cases hn : n = 0
      · subst hn; simp [Core.gget, h0, h]
      · simp [Core.gput, Core.gget, h0, hn, h, SMap.get_put_other _ _ _ _ _ h]

theorem Core.apget_apput (c : Core) (k n : Nat) (v : Pred) :
    (c.apput k v).apget n = if n = k ∧ k ≠ 0 then v else c.apget n := by
  by_cases h0 : k = 0
  · subst h0; simp [Core.apput]
  · by_cases h : n = k
    · subst h; simp [Core.apput, Core.apget, h0, SMap.get_put_same]
    · by_cases hn : n = 0
      · subst hn; simp [Core.apget, h0, h]
      · simp [Core.apput, Core.apget, h0, hn, h, SMap.get_put_other _ _ _ _ _ h]

/-! ## Lines of the engines -/

@[simp] theorem Core.line_setLine (c : Core) (e : Eng) (l : Line) (h : e ≠ .X) : (c.setLine e l).line e = l := by
  cases e <;> first | rfl | exact absurd rfl h
theorem Core.line_setLine_other (c : Core) (e d : Eng) (l : Line) (h : d ≠ e) : (c.setLine e l).line d = c.line d := by
  cases e <;> cases d <;> first | rfl | exact absurd rfl h

end Sys2Proof.Machine
end

