-- ==== Sys2Proof/Safety.lean ====
section
/-! DEFINITION. The terms in which claims about a run are stated: what stays as it was, how an instruction of the control
core retires, when a native word is legal and its token moves can complete, and the invariant of memory. -/

namespace Sys2Proof.Machine

/-- All but the core at work, and the note of how the operation went, is as it was. -/
structure SameElse (s t : State) : Prop where
  cores   : ∀ n, n ≠ s.cur.lcore → t.coreAt n = s.coreAt n
  cluster : t.cluster = s.cluster
  die     : t.die = s.die
  hub     : t.hub = s.hub
  hbm     : t.hbm = s.hbm
  poison  : t.poison = s.poison
  now     : t.now = s.now
  agenda  : t.agenda = s.agenda
  cur     : t.cur = s.cur
  draws   : t.draws = s.draws

/-- The core at work is as it was but for what `f` gives it, and so is everything else. -/
structure Becomes (s t : State) (c : Core) : Prop where
  note : t.note = .ok
  me   : t.me = c
  rest : SameElse s t

/-- minstret after an instruction that counts, unless mcountinhibit.IR is set. -/
def Core.instretNext (c : Core) : Word := if c.mcountinhibit.getLsbD 2 then c.minstret else c.minstret + 1

/-- An instruction of the control core retires, having made of its core `c` but for these: x[rd] holds `v` unless rd is x0, every
other x register is as it was, the pc is `pc`, and the instruction counts. Nothing else of the module changes. -/
structure RetiresAs (s t : State) (c : Core) (rd : Reg) (v pc : Word) : Prop where
  note : t.note = .ok
  x    : ∀ r, t.x r = if r = rd ∧ rd ≠ 0 then v else s.x r
  me   : t.me = { c with x := t.me.x, pc := pc, minstret := s.me.instretNext }
  rest : SameElse s t

/-- An instruction of the control core retires, and nothing but its register, the pc and the count changes. -/
abbrev Retires (s t : State) (rd : Reg) (v pc : Word) : Prop := RetiresAs s t s.me rd v pc

/-- A trap is taken: the saved registers, status, mode and pc as the spec gives them (20 R406), and nothing else changes but
the reservation and the remote request, which end (14 R318, R323), and the list of handlers at work. -/
structure TakesTrap (s t : State) (cause val : Word) : Prop where
  note    : t.note = .trap cause val
  mepc    : t.me.mepc = s.me.pc
  mcause  : t.me.mcause = cause
  mtval   : t.me.mtval = val
  mpie    : t.me.mstatus.getLsbD 7 = s.me.mstatus.getLsbD 3
  mie     : t.me.mstatus.getLsbD 3 = false
  mpp     : fld t.me.mstatus 11 2 = match s.me.mode with | .U => 0 | .M => 3
  others  : ∀ k, k ≠ 3 → k ≠ 7 → k ≠ 11 → k ≠ 12 → t.me.mstatus.getLsbD k = s.me.mstatus.getLsbD k
  mode    : t.me.mode = .M
  pc      : t.me.pc = (if s.me.mtvec.getLsbD 0 ∧ cause.getLsbD 63 then (s.me.mtvec &&& ~~~(3#64)) + 4 * (cause &&& ~~~(0x8000000000000000#64)) else s.me.mtvec &&& ~~~(3#64))
  only    : t.me = { s.me with mepc := t.me.mepc, mcause := t.me.mcause, mtval := t.me.mtval, mstatus := t.me.mstatus, mode := t.me.mode,
                               pc := t.me.pc, resv := none, rmt := none, rmtans := none, handling := t.me.handling }
  rest    : SameElse s t

/-- A native word is legal on the engine at work (05 R97, R110), and no uncorrectable error stands on the engine's paths (20 R415). -/
structure Legal (s : State) (i : Instr) (r : Row) (w : NWord) : Prop where
  row   : nativeRow i = some (r, w)
  fits  : wordBad s.cur.eng r w = []
  sound : s.me.hits.find? (fun h => h.1 = s.cur.eng) = none

/-- The token moves of a word that are still to come can all be made (02 R46, 12 R265). -/
def TokensReady (s : State) (ms : List Move) : Prop := (s.moves (ms.drop (min s.ln.moved ms.length))).2.2 = true

/-- The state once the remaining token moves of a word are made. -/
def State.finished (s : State) (ms : List Move) : State :=
  let skip := min s.ln.moved ms.length
  { (s.moves (ms.drop skip)).1.updLn (fun l => { l with moved := l.moved - skip }) with note := .ok }

/-- A word of a line engine acts: its core becomes `c` but for the tokens that its moves `ms` move and the counts of moves made, and
nothing else of the module changes. -/
structure Acts (s t : State) (c : Core) (ms : List Move) : Prop where
  note : t.note = .ok
  tok  : t.me.tok = (s.finished ms).me.tok
  only : t.me = { c with
    tok := t.me.tok
    lineA := { c.lineA with moved := t.me.lineA.moved }
    lineM := { c.lineM with moved := t.me.lineM.moved }
    lineV := { c.lineV with moved := t.me.lineV.moved } }
  rest : SameElse s t

/-- shp0 stands as a vector grant, for a word that reads VL (03 R56, R61). -/
def GrantStands (s : State) (n cls : Nat) : Prop := (s.shp n).getLsbD 58 = false ∧ shpClass (s.shp n) = cls

/-- The three source operands of a word of engine V, in order, with the state after their pops (02 R44). -/
structure Sources (s : State) (r : Row) (w : NWord) (s3 : State) (a b c : Vec) : Prop where
  pops : ∃ s1 s2, s.source r w 0 = some (s1, a) ∧ s1.source r w 1 = some (s2, b) ∧ s2.source r w 2 = some (s3, c)

/-- A word of engine V can issue now: legal, no source marked pending under SHRD (15 R328), its grant standing, its sources
there without an uncorrectable error, room in Wick's queue if it needs Wick (07 R158), and its token moves ready. -/
structure VectorReady (s : State) (i : Instr) (r : Row) (w : NWord) (s3 : State) (a b c : Vec) : Prop where
  legal  : Legal s i r w
  clear  : shadowRead s r w = false
  grant  : readsVL r.op = true → GrantStands s 0 1
  whole  : s.operandBad r w = none
  srcs   : Sources s r w s3 a b c
  room   : wickWord s.fmode r w = true → s.wickFull = false
  tokens : TokensReady s3 (bitMoves .V w)

/-- The result of a word of engine V in flight (15 R324, R327): due the delay nibble after the core's virtual cycle, available then
unless the nibble is below the word's true latency or Wick computes it, and carrying the place of its word. One that writes
accumulator SRAM is due no earlier than those from before a fence (14 R313). -/
def State.flightOf (s : State) (r : Row) (w : NWord) (lands : List Landing) (fl : Flags) : Flight :=
  { eng := s.cur.eng, due := if lands.any Landing.isAcc then max (s.me.vcycle + w.lat.toNat) s.ln.fence else s.me.vcycle + w.lat.toNat, lands := lands, flags := fl,
    ready := !wickWord s.fmode r w && trueLat r.op ≤ w.lat.toNat, avail := s.now + trueLat r.op, wick := wickWord s.fmode r w,
    shchk := Fmode.shchk s.fmode, shrd := Fmode.shrd s.fmode, line := s.cur.line, slot := s.cur.slot, seq := s.cur.seq, issued := s.me.vcycle }

/-- The request of a word that Wick serves (07 R158). -/
def State.requestFor (s : State) (w : NWord) : WickReq :=
  { lcore := s.cur.lcore, seq := s.cur.seq, line := s.cur.line, slot := s.cur.slot, due := s.me.vcycle + w.lat.toNat }

/-- What the issue of a word of engine V changes: its result is in flight, the queues that its sources name are popped, its tokens
have moved, a word that Wick serves has entered the die's queue, and nothing else has changed: no register, no predicate, no
flag and no byte of any memory. `s3` is the state after the pops. -/
structure Issues (s s3 t : State) (r : Row) (w : NWord) (lands : List Landing) (fl : Flags) : Prop where
  note   : t.note = .ok
  flight : t.me.flights = s.me.flights ++ [s.flightOf r w lands fl]
  queues : t.me.q = s3.me.q
  tokens : t.me.tok = (s3.finished (bitMoves .V w)).me.tok
  only   : t.me = { s.me with
    flights := t.me.flights, q := t.me.q, tok := t.me.tok
    lineA := { s.me.lineA with moved := t.me.lineA.moved }
    lineM := { s.me.lineM with moved := t.me.lineM.moved }
    lineV := { s.me.lineV with moved := t.me.lineV.moved } }
  cores  : ∀ n, n ≠ s.cur.lcore → t.coreAt n = s.coreAt n
  dies   : ∀ d, t.dieAt d = if wickWord s.fmode r w ∧ d = dieOf s.cur.lcore
    then { s.dieAt d with wick := (s.dieAt d).wick ++ [s.requestFor w] } else s.dieAt d
  rest   : t.cluster = s.cluster ∧ t.hub = s.hub ∧ t.hbm = s.hbm ∧ t.poison = s.poison ∧ t.now = s.now ∧ t.agenda = s.agenda ∧
    t.cur = s.cur ∧ t.draws = s.draws

/-- A word of engine A that its guard lets act. -/
structure AccessReady (s : State) (i : Instr) (r : Row) (w : NWord) : Prop where
  legal : Legal s i r w
  guard : s.guardHolds w = true

/-- A control word of any line engine that its guard, where it takes one, lets act. -/
structure ControlReady (s : State) (i : Instr) (r : Row) (w : NWord) : Prop where
  legal : Legal s i r w
  clear : s.cur.eng = .A ∨ shadowRead s r w = false
  guard : r.guard = true → s.guardHolds w = true

/-- A word of engine M that does not idle (09 R189). -/
structure MatrixReady (s : State) (i : Instr) (r : Row) (w : NWord) : Prop where
  legal : Legal s i r w
  clear : shadowReadM s i = false
  goes  : mIdle s.me i = false

/-- A portable word that the control core executes (05 R88), with fields that its definition allows. -/
def PortReady (i : Instr) (p : PWord) : Prop := ∃ r, portRow i = some (r, p) ∧ controlForm i = true ∧ r.ok p = true

/-- HBM is in its canonical form: addresses strictly rise, and no listed byte is what an unlisted one reads as. -/
def MemoryInv (s : State) : Prop := s.hbm.wf = true

end Sys2Proof.Machine

namespace Sys2Proof.Claims
open Sys2Proof.Machine

/-! ## Words of engine V -/

/-- The native words of groups 0 and 1 whose result depends on registers, queues and literals alone: all but VDEQ, which reads
scales, and SETROT, which writes no register. -/
def vectorWord : Instr → Bool
  | .vadd (.nat _) | .vsub (.nat _) | .vmul (.nat _) | .vfma (.nat _) | .vfms (.nat _) | .vfnma (.nat _) | .vfnms (.nat _)
  | .vmin (.nat _) | .vmax (.nat _) | .vminn (.nat _) | .vmaxn (.nat _) | .vabs (.nat _) | .vneg (.nat _) | .vcpysgn (.nat _)
  | .vrecpe (.nat _) | .vrsqrte (.nat _) | .vexp2e (.nat _) | .vlog2e (.nat _) | .vrecps (.nat _) | .vrsqrts (.nat _)
  | .vdiv (.nat _) | .vsqrt (.nat _) | .viadd (.nat _) | .visub (.nat _) | .vimul (.nat _) | .vimulh (.nat _) | .vimad (.nat _)
  | .vimin (.nat _) | .vimax (.nat _) | .vand (.nat _) | .vor (.nat _) | .vxor (.nat _) | .vshl (.nat _) | .vshr (.nat _)
  | .vsra (.nat _) | .vcvt (.nat _) | .vcvtsr (.nat _) | .vquant (.nat _) | .vscale (.nat _) | .vclass (.nat _) | .vcmp (.nat _)
  | .vsel (.nat _) | .vdadd (.nat _) | .vdmul (.nat _) | .vdfma (.nat _) | .vmov (.nat _) | .vbcast (.nat _) | .vperm (.nat _)
  | .vslideup (.nat _) | .vslidedn (.nat _) | .vzip (.nat _) | .vunzip (.nat _) | .vextr (.nat _) | .vins (.nat _) | .viota (.nat _)
  | .vcompress (.nat _) | .vexpand (.nat _) | .vredsum (.nat _) | .vredmax (.nat _) | .vredmin (.nat _) | .vredisum (.nat _)
  | .vscanInc (.nat _) | .vscanExc (.nat _) | .vdot (.nat _) | .pand (.nat _) | .por (.nat _) | .pxor (.nat _) | .pandn (.nat _)
  | .pnot (.nat _) | .pmov (.nat _) | .pcnt (.nat _) | .pfirst (.nat _) | .ptail (.nat _) | .pset (.nat _) | .ppack (.nat _)
  | .punpack (.nat _) => true
  | _ => false

/-- Whether a result lands only in the destination that its word names: the renamed vector register or predicate, the queue,
the g register that carries the element of a VEXTR to an x register (08 R161, 15 R333), or, for PUNPACK, one of the eight predicates
from the one named. -/
def landsIn (s : State) (i : Instr) (w : NWord) : Landing → Prop
  | .vreg n _ _ => isVreg w.dst = true ∧ n = s.vphys w.dst.toNat
  | .push q _ _ => isVreg w.dst = false ∧ q = w.dst.toNat
  | .greg k _ => (∃ f, i = .vextr f) ∧ s.step.bind (·.out) = some k
  | .pred n _ _ => ∃ k, (k = 0 ∨ (k < 8 ∧ ∃ f, i = .punpack f)) ∧ w.dst.toNat + k ≠ 0 ∧ n = s.pphys (w.dst.toNat + k)
  | _ => False

/-- The active elements of a word of width `w` under shp0 and its guard (03 R57, R59). -/
def active (s : State) (g : Pred) (w : Nat) : List Nat := (List.range (s.elems w)).filter (guarded g w)

/-- How many landings a word's result has: one, but for PUNPACK's eight predicates without p0 (08 R181), and for a VEXTR to an x register
whose element 0 is not active (08 R165). -/
def landCount (s : State) (w : NWord) : Instr → Nat
  | .punpack _ => if w.dst = 0 then 7 else 8
  | .vextr _ => if (s.step.bind (·.out)).isSome ∧ 0 ∉ active s (s.guardBits w) (width w.ty.toNat) then 0 else 1
  | _ => 1

/-- Element `i` of width `w` of a register or queue entry (04 R68). -/
def element (v : Vec) (w i : Nat) : BitVec w := v.extractLsb' (w * i) w

/-- The integer and logical words on elements as bit vectors (07 R144-R146): `sgn` where the type is an INT type. -/
def intResult (sgn : Bool) (w : Nat) (x y z : BitVec w) : Instr → Option (BitVec w)
  | .viadd (.nat _) => some (x + y)
  | .visub (.nat _) => some (x - y)
  | .vimul (.nat _) => some (x * y)
  | .vimulh (.nat _) => some (if sgn then ((x.signExtend (2 * w)) * (y.signExtend (2 * w))).extractLsb' w w
      else ((x.setWidth (2 * w)) * (y.setWidth (2 * w))).extractLsb' w w)
  | .vimad (.nat _) => some (x * y + z)
  | .vimin (.nat _) => some (if (if sgn then x.sle y else x.ule y) then x else y)
  | .vimax (.nat _) => some (if (if sgn then x.sle y else x.ule y) then y else x)
  | .vand (.nat _) => some (x &&& y)
  | .vor (.nat _) => some (x ||| y)
  | .vxor (.nat _) => some (x ^^^ y)
  | .vshl (.nat _) => some (if w ≤ y.toNat then 0 else x <<< y.toNat)
  | .vshr (.nat _) => some (if w ≤ y.toNat then 0 else x >>> y.toNat)
  | .vsra (.nat _) => some (if w ≤ y.toNat then BitVec.fill w x.msb else x.sshiftRight y.toNat)
  | _ => none

/-- Element `j` of `n`, or zero outside them (08 R163). -/
def inRange (v : Vec) (w n j : Nat) : BitVec w := if j < n then element v w j else 0

/-- The words that copy elements or bits (08 R164-R169, 07 R149): element `i` of the result, of `n` elements, from the sources, the
selecting predicate `p` and the count, index or mode `k` of the word; an index outside 0 to n − 1 reads as zero. -/
def moveResult (a b : Vec) (p : Pred) (w n k i : Nat) : Instr → Option (BitVec w)
  | .vmov (.nat _) => some (element a w i)
  | .vbcast (.nat _) => some (inRange a w n k)
  | .vperm (.nat _) => some (inRange a w n (element b w i).toNat)
  | .vslideup (.nat _) => some (if k ≤ i then element a w (i - k) else if k ≤ i + n then element b w (i + n - k) else 0)
  | .vslidedn (.nat _) => some (if i + k < n then element a w (i + k) else if i + k - n < n then element b w (i + k - n) else 0)
  | .viota (.nat _) => some (BitVec.ofNat w i)
  | .vsel (.nat _) => some (if p.getLsbD (i * w / 32) then element a w i else element b w i)
  | .vzip (.nat _) => some (inRange (if i % 2 = 0 then a else b) w n (i / 2 + k % 32 * ((n + 1) / 2)))
  | .vunzip (.nat _) => some (if i < (n + 1) / 2 then inRange a w n (2 * i + k % 32) else inRange b w n (2 * (i - (n + 1) / 2) + k % 32))
  | .vexpand (.nat _) => some (element a w ((List.range i).filter (guarded p w)).length)
  | _ => none

/-- The bit-wise predicate words (08 R179, R180). -/
def predResult (x y g : Pred) (k : Nat) : Instr → Option Pred
  | .pand (.nat _) => some (x &&& y)
  | .por (.nat _) => some (x ||| y)
  | .pxor (.nat _) => some (x ^^^ y)
  | .pandn (.nat _) => some (x &&& ~~~y)
  | .pnot (.nat _) => some (~~~x)
  | .pmov (.nat _) => some x
  | .pset (.nat _) => some (BitVec.ofNat 64 (2 ^ min k 64 - 1))
  | .pfirst (.nat _) => some (match (List.range 64).find? (fun c => (x &&& g).getLsbD c) with
    | some c => (1 : Pred) <<< c
    | none => 0)
  | _ => none

/-- The sign words on the pattern of a floating type of width `w` (07 R138): a NaN x gives the canonical NaN. -/
def signResult (F : Fmt) (x y : Nat) : Instr → Option Nat
  | .vabs (.nat _) => some (if (decodeF F x).isNan then F.cnan else x % 2 ^ (F.w - 1))
  | .vneg (.nat _) => some (if (decodeF F x).isNan then F.cnan else x ^^^ 2 ^ (F.w - 1))
  | .vcpysgn (.nat _) => some (if (decodeF F x).isNan then F.cnan else x % 2 ^ (F.w - 1) + y / 2 ^ (F.w - 1) * 2 ^ (F.w - 1))
  | _ => none

/-! ## Rounding, streams, Wick and landings -/

/-- The seven floating formats (04 R65). -/
def formats : List Fmt := [fp32, bf16, fp16, e4m3, e5m2, e2m1, fp64]

/-- The number that a finite value is. -/
def ratOf : Machine.Num → Rat
  | .fin neg m e => (if neg then -(m : Rat) else m) * (if 0 ≤ e then (2 : Rat) ^ e.toNat else 1 / (2 : Rat) ^ (-e).toNat)
  | _ => 0

def finite : Machine.Num → Bool
  | .fin _ _ _ => true
  | _ => false

def distance (a b : Rat) : Rat := if a ≤ b then b - a else a - b

/-- The values of a stream's elements that VDEQ decodes: the position in the row and the pattern of each active element (07 R155). -/
def streamPicks (s : State) (w : NWord) (ws : Nat) (a c : Vec) : List (Nat × Nat) :=
  (active s (s.guardBits w) (width w.ty.toNat)).map (fun i =>
    (elem c 32 1 + i, elem a ws (elem c 32 1 + i - elem c 32 2)))

/-! ## Floating values of engine V -/

/-- A magnitude with a sign. -/
def signed (neg : Bool) (v : Rat) : Machine.Num := .fin neg v.num.natAbs (-(v.den.log2 : Int))

/-- A dyadic number as an exact value; `z` is the sign of a zero. -/
def exact (v : Rat) (z : Bool) : Machine.Num := signed (if v = 0 then z else v < 0) v

/-- 2^k. -/
def twoTo (k : Int) : Rat := if 0 ≤ k then (2 : Rat) ^ k.toNat else 1 / (2 : Rat) ^ (-k).toNat

/-- A NaN among the operands gives the canonical NaN, with NV where one is signalling; `k` is the result otherwise (07 R136). -/
def nanFirst (F : Fmt) (xs : List Machine.Num) (k : Nat × Flags) : Nat × Flags :=
  if xs.any Machine.Num.isNan then (F.cnan, if xs.any Machine.Num.isSig then Flag.nv else 0) else k

def infinity (F : Fmt) (neg : Bool) : Nat := withSign F neg (F.maxP + 1)

/-- The rounded sum of two terms that are not NaN (07 R136); a zero takes its sign under 04 R83. -/
def sumResult (F : Fmt) (fm : Word) (x y : Machine.Num) : Nat × Flags :=
  match x, y with
  | .inf a, .inf b => if a = b then (infinity F a, 0) else (F.cnan, Flag.nv)
  | .inf a, _ => (infinity F a, 0)
  | _, .inf b => (infinity F b, 0)
  | x, y => roundTo F fm (rmode fm) (exact (ratOf x + ratOf y)
      (if x.isZero && y.isZero && x.sign = y.sign then x.sign else rmode fm = .rdn))

/-- The exact product of two values that are not NaN; none for 0·Inf. -/
def product (x y : Machine.Num) : Option Machine.Num :=
  if finite x && finite y then some (exact (ratOf x * ratOf y) (x.sign != y.sign))
  else if x.isZero || y.isZero then none
  else some (.inf (x.sign != y.sign))

/-- ±(x·y) ± z (07 R136). -/
def fusedResult (F : Fmt) (fm : Word) (np nz : Bool) (x y z : Machine.Num) : Nat × Flags :=
  nanFirst F [x, y, z] (match product x y with
    | none => (F.cnan, Flag.nv)
    | some p => sumResult F fm (if np then p.neg else p) (if nz then z.neg else z))

/-- (k − x·y)/2^h (07 R141): of 0·Inf, k/2^h. -/
def stepResult (F : Fmt) (fm : Word) (k : Rat) (h : Int) (x y : Machine.Num) : Nat × Flags :=
  nanFirst F [x, y] (match product x y with
    | none => roundTo F fm (rmode fm) (exact (k * twoTo (-h)) false)
    | some (.inf s) => (infinity F (!s), 0)
    | some p => roundTo F fm (rmode fm) (exact ((k - ratOf p) * twoTo (-h)) (rmode fm = .rdn)))

/-- Order with −0 below +0 (07 R137), of values that are not NaN. -/
def below : Machine.Num → Machine.Num → Bool
  | .inf a, .inf b => a && !b
  | .inf a, _ => a
  | _, .inf b => !b
  | x, y => ratOf x < ratOf y || (x.isZero && y.isZero && x.sign && !y.sign)

/-- VMIN, VMAX, VMINN and VMAXN on flushed patterns (07 R137): `mx` the larger, `num` the other operand for a lone NaN. -/
def extremeResult (F : Fmt) (mx num : Bool) (x y : Nat) : Nat × Flags :=
  let a := decodeF F x
  let b := decodeF F y
  (if a.isNan && num && !b.isNan then y
   else if b.isNan && num && !a.isNan then x
   else if a.isNan || b.isNan then F.cnan
   else if (if mx then below a b else below b a) then y else x,
   if a.isSig || b.isSig then Flag.nv else 0)

/-- The bit of VCLASS for a pattern (07 R148). -/
def classBit (F : Fmt) (x : Nat) : Nat :=
  let neg := x / 2 ^ (F.w - 1) = 1
  let e := x % 2 ^ (F.w - 1) / 2 ^ F.mb
  let m := x % 2 ^ F.mb
  if e = 2 ^ (F.w - 1 - F.mb) - 1 then (if m = 0 then (if neg then 0 else 7) else if m < 2 ^ (F.mb - 1) then 8 else 9)
  else if e = 0 then (if m = 0 then (if neg then 3 else 4) else if neg then 2 else 5)
  else if neg then 1 else 6

/-- The floating words whose result is a rounded exact value, a choice of an operand, or a class: the result from the flushed patterns
`x`, `y`, `z` of an element, and `k`, the unflushed y as a signed integer (07 R136, R137, R139, R141, R148, R157). -/
def floatResult (F : Fmt) (fm : Word) (x y z : Nat) (k : Int) : Instr → Option (Nat × Flags)
  | .vadd (.nat _) | .vdadd (.nat _) => some (nanFirst F [decodeF F x, decodeF F y] (sumResult F fm (decodeF F x) (decodeF F y)))
  | .vsub (.nat _) => some (nanFirst F [decodeF F x, decodeF F y] (sumResult F fm (decodeF F x) (decodeF F y).neg))
  | .vmul (.nat _) | .vdmul (.nat _) => some (nanFirst F [decodeF F x, decodeF F y] (match product (decodeF F x) (decodeF F y) with
      | none => (F.cnan, Flag.nv)
      | some (.inf s) => (infinity F s, 0)
      | some p => roundTo F fm (rmode fm) p))
  | .vfma (.nat _) | .vdfma (.nat _) => some (fusedResult F fm false false (decodeF F x) (decodeF F y) (decodeF F z))
  | .vfms (.nat _) => some (fusedResult F fm false true (decodeF F x) (decodeF F y) (decodeF F z))
  | .vfnma (.nat _) => some (fusedResult F fm true true (decodeF F x) (decodeF F y) (decodeF F z))
  | .vfnms (.nat _) => some (fusedResult F fm true false (decodeF F x) (decodeF F y) (decodeF F z))
  | .vrecps (.nat _) => some (stepResult F fm 2 0 (decodeF F x) (decodeF F y))
  | .vrsqrts (.nat _) => some (stepResult F fm 3 1 (decodeF F x) (decodeF F y))
  | .vmin (.nat _) => some (extremeResult F false false x y)
  | .vmax (.nat _) => some (extremeResult F true false x y)
  | .vminn (.nat _) => some (extremeResult F false true x y)
  | .vmaxn (.nat _) => some (extremeResult F true true x y)
  | .vscale (.nat _) => some (match decodeF F x with
      | .fin neg m e => roundTo F fm (rmode fm) (.fin neg m (e + k))
      | .inf neg => (infinity F neg, 0)
      | .nan sig => (F.cnan, if sig then Flag.nv else 0))
  | .vclass (.nat _) => some (2 ^ classBit F x, 0)
  | _ => none

/-! ### Estimates, division and square root (07 R140-R143) -/

/-- The largest whole number of units of 2^−400 that is no greater than `v`. -/
def units (v : Rat) : Nat := (v * (2 : Rat) ^ 400).floor.toNat

/-- The same of the square root of `v`. -/
def rootUnits (v : Rat) : Nat := Nat.sqrt (v * (2 : Rat) ^ 800).floor.toNat

/-- The 12 leading bits of a number, zeros below. -/
def keep12 (n : Nat) : Nat := n / 2 ^ (n.log2 - 11) * 2 ^ (n.log2 - 11)

/-- est of a number whose leading bits are those of n·2^e: truncated to 12 bits, then rounded RTZ with neither NX nor UF. -/
def estOf (F : Fmt) (fm : Word) (neg : Bool) (n : Nat) (e : Int) : Nat × Flags :=
  let r := roundTo F fm .rtz (.fin neg (keep12 n) e)
  (r.1, r.2 &&& ~~~(Flag.nx ||| Flag.uf))

/-- A number with the neighbours in any format of `v` > 0, of which `n` is the count of whole units and `whole` whether there is no
rest: half a unit stands for any rest, so that rounding it is rounding `v`. -/
def standIn (n : Nat) (whole : Bool) : Rat := (2 * n + if whole then 0 else 1) / (2 : Rat) ^ 401

/-- rne32 (07 R142). -/
def rne32R (v : Rat) : Rat := ratOf (decodeF fp32 (roundTo fp32 0 .rne (exact v false)).1)

def quotientStep (mb w : Rat) : Rat :=
  let e := rne32R (1 - mb * w)
  rne32R (w + w * e)

/-- div_seq for |x| = mx·2^ex and |y| = my·2^ey, neither zero, and the quotient's sign (07 R142). -/
def quotientSeq (F : Fmt) (fm : Word) (s : Bool) (mx : Nat) (ex : Int) (my : Nat) (ey : Int) : Nat × Flags :=
  let ma := mx * twoTo (-(mx.log2 : Int))
  let mb := my * twoTo (-(my.log2 : Int))
  let w := quotientStep mb (quotientStep mb (keep12 (units (1 / mb)) / (2 : Rat) ^ 400))
  let q := rne32R (ma * w)
  let rem := ma - mb * q
  let r := roundTo F fm (rmode fm) (signed s ((q + rem * w) * twoTo (mx.log2 + ex - (my.log2 + ey))))
  (r.1, r.2 ||| if rem = 0 then 0 else Flag.nx)

def rootStep (g h : Rat) : Rat × Rat :=
  let e := rne32R (1 / 2 - g * h)
  (rne32R (g + g * e), rne32R (h + h * e))

/-- sqrt_seq for x = mx·2^ex > 0 (07 R142). -/
def rootSeq (F : Fmt) (fm : Word) (mx : Nat) (ex : Int) : Nat × Flags :=
  let k := (mx.log2 + ex) / 2
  let m := mx * twoTo (ex - 2 * k)
  let w := keep12 (rootUnits (1 / m)) / (2 : Rat) ^ 400
  let g1 := rootStep (rne32R (m * w)) (w / 2)
  let g2 := rootStep g1.1 g1.2
  let rem := m - g2.1 * g2.1
  let r := roundTo F fm (rmode fm) (signed false ((g2.1 + rem * g2.2) * twoTo k))
  (r.1, r.2 ||| if rem = 0 then 0 else Flag.nx)

/-- VDIV, VSQRT, VRECPE and VRSQRTE (07 R140, R142, R143). -/
def quotientResult (F : Fmt) (fm : Word) (x y : Machine.Num) : Instr → Option (Nat × Flags)
  | .vdiv (.nat _) => some (nanFirst F [x, y] (
      let s := x.sign != y.sign
      match x, y with
      | .fin _ mx ex, .fin _ my ey =>
        if mx = 0 && my = 0 then (F.cnan, Flag.nv)
        else if my = 0 then (infinity F s, Flag.dz)
        else if mx = 0 then (withSign F s 0, 0)
        else if Fmode.exactds fm then
          let v := distance (ratOf x) 0 / distance (ratOf y) 0
          roundTo F fm (rmode fm) (signed s (standIn (units v) (v * (2 : Rat) ^ 400 = units v)))
        else quotientSeq F fm s mx ex my ey
      | .inf _, .inf _ => (F.cnan, Flag.nv)
      | .inf _, _ => (infinity F s, 0)
      | _, _ => (withSign F s 0, 0)))
  | .vsqrt (.nat _) => some (nanFirst F [x] (match x with
      | .fin neg m e =>
        if m = 0 then (withSign F neg 0, 0)
        else if neg then (F.cnan, Flag.nv)
        else if Fmode.exactds fm then
          roundTo F fm (rmode fm) (signed false (standIn (rootUnits (ratOf x)) (ratOf x * (2 : Rat) ^ 800 = rootUnits (ratOf x) * rootUnits (ratOf x))))
        else rootSeq F fm m e
      | .inf false => (infinity F false, 0)
      | _ => (F.cnan, Flag.nv)))
  | .vrecpe (.nat _) => some (nanFirst F [x] (match x with
      | .fin neg m _ => if m = 0 then (infinity F neg, Flag.dz) else estOf F fm neg (units (1 / distance (ratOf x) 0)) (-400)
      | _ => (withSign F x.sign 0, 0)))
  | .vrsqrte (.nat _) => some (nanFirst F [x] (match x with
      | .fin neg m _ =>
        if m = 0 then (infinity F neg, Flag.dz) else if neg then (F.cnan, Flag.nv) else estOf F fm false (rootUnits (1 / ratOf x)) (-400)
      | .inf false => (0, 0)
      | _ => (F.cnan, Flag.nv)))
  | _ => none

/-- VEXP2E of a finite x (07 R140), by a number within a part in 2^63 of 2^x: its 12 bits `c` and exponent `k` − 11, where x is
`k` + b/2^64 or less than 2^−64 above it, and `n` is 2^64. Beyond ±2^14 the value is past every format of the word. -/
def Exp2Result (F : Fmt) (fm : Word) (n : Nat) (x : Rat) (r : Nat × Flags) : Prop :=
  ((2 : Rat) ^ 14 ≤ x → r = (F.maxP, if Fmode.sat fm then Flag.satf else Flag.of)) ∧
  (x ≤ -(2 : Rat) ^ 14 → r = (0, 0)) ∧
  (distance x 0 < (2 : Rat) ^ 14 → ∃ (k : Int) (b c : Nat), b < n ∧ 2048 ≤ c ∧ c < 4096 ∧
    k * n + b ≤ x * n ∧ x * n < k * n + b + 1 ∧
    (c / 2048 : Rat) ^ n ≤ (2 : Rat) ^ (b + 1) ∧ (2 : Rat) ^ b ≤ ((c + 1) / 2048 : Rat) ^ n ∧ r = estOf F fm false c (k - 11))

/-- VLOG2E of a finite x > 0 (07 R140), by a number within 2^−63 of log2 x: `v` units of 1/`n`, where `n` is 2^64. -/
def Log2Result (F : Fmt) (fm : Word) (n : Nat) (x : Rat) (r : Nat × Flags) : Prop :=
  (x = 1 → r = (0, 0)) ∧
  (x ≠ 1 → ∃ v : Nat, (2 : Rat) ^ v ≤ 4 * (if x < 1 then 1 / x else x) ^ n ∧ (if x < 1 then 1 / x else x) ^ n ≤ 4 * (2 : Rat) ^ v ∧
    ((∃ e : Nat, x = (2 : Rat) ^ e ∨ x = 1 / (2 : Rat) ^ e) → (2 : Rat) ^ v = (if x < 1 then 1 / x else x) ^ n) ∧
    r = estOf F fm (x < 1) v (-64))

/-- What VEXP2E and VLOG2E give for an operand (07 R140). -/
def TranscendentalResult (F : Fmt) (fm : Word) (x : Machine.Num) (r : Nat × Flags) : Instr → Prop
  | .vexp2e (.nat _) => match x with
      | .nan sig => r = (F.cnan, if sig then Flag.nv else 0)
      | .inf neg => r = (if neg then 0 else infinity F false, 0)
      | x => ∀ n, n = 2 ^ 64 → Exp2Result F fm n (ratOf x) r
  | .vlog2e (.nat _) => match x with
      | .nan sig => r = (F.cnan, if sig then Flag.nv else 0)
      | .inf neg => r = if neg then (F.cnan, Flag.nv) else (infinity F false, 0)
      | .fin neg m e => if m = 0 then r = (infinity F true, Flag.dz) else if neg then r = (F.cnan, Flag.nv)
          else ∀ n, n = 2 ^ 64 → Log2Result F fm n (ratOf (.fin neg m e)) r
  | _ => False

/-! ### Conversions (07 R150-R154) -/

/-- An integer element of a type (04 R67). -/
def integer (ty : Nat) (w : Nat) (x : BitVec w) : Int := if [8, 9, 10, 12].contains ty then x.toInt else x.toNat

/-- The number that a whole one is rounded to (04 R84). -/
def wholeOf (mode : RMode) (v : Rat) : Int :=
  let f := v.floor
  let d := v - f
  match mode with
  | .rdn => f
  | .rup => if d = 0 then f else f + 1
  | .rne => if d < 1 / 2 ∨ (d = 1 / 2 ∧ f % 2 = 0) then f else f + 1
  | _ => if d = 0 ∨ 0 ≤ v then f else f + 1

/-- The least and the greatest value of an integer type of width `w`. -/
def limits (ty w : Nat) : Int × Int :=
  if [8, 9, 10, 12].contains ty then (-(2 : Int) ^ (w - 1), (2 : Int) ^ (w - 1) - 1) else (0, (2 : Int) ^ w - 1)

/-- sat_int (04 R75, R84): NV alone where it clamps, NX where it drops a fraction. -/
def clamped (ty : Nat) (mode : RMode) (x : Machine.Num) : Nat × Flags :=
  let w := width ty
  let l := limits ty w
  let out (v : Int) (f : Flags) : Nat × Flags := ((v % (2 : Int) ^ w).toNat, f)
  match x with
  | .nan _ => (0, Flag.nv)
  | .inf neg => out (if neg then l.1 else l.2) Flag.nv
  | x =>
    let t := wholeOf mode (ratOf x)
    if t < l.1 then out l.1 Flag.nv else if l.2 < t then out l.2 Flag.nv else out t (if (t : Rat) = ratOf x then 0 else Flag.nx)

/-- The value of a source element (04 R65, R67): a floating one is flushed. -/
def sourceValue (src : Nat) (fm : Word) (x : BitVec (width src)) : Machine.Num :=
  if src = 7 then (if x.toNat = 0xFF then .nan false else .fin false 1 (x.toNat - 127))
  else match fmtOf src with
    | some F => decodeF F (flushIn F fm x.toNat)
    | none => exact (integer src (width src) x) false

/-- The result of a conversion (07 R151): `mode` where it rounds to a floating format. -/
def conversion (src dst : Nat) (fm : Word) (mode : RMode) (rnd : Bool) (x : BitVec (width src)) : Nat × Flags :=
  let v := sourceValue src fm x
  if dst = 7 then match v with
    | .nan sig => (0xFF, if sig then Flag.nv else 0)
    | .inf _ => (0xFE, Flag.satf)
    | .fin _ m e => if m = 0 then (0, 0) else ((min (max (m.log2 + e + 127) 0) 254).toNat, 0)
  else match fmtOf dst with
    | some G => roundTo G fm mode v
    | none => clamped dst (if rnd || src = 13 then rmode fm else .rtz) v

/-- The mode of stochastic rounding for narrow-side element `n` and the coordinates in a register (07 R153, 04 R77). -/
def stochastic (s : State) (v : Vec) (n : Nat) : RMode :=
  .sr (srBits s.lid s.cap.srseed ((element v 32 63).setWidth 16) (element v 32 61 + BitVec.ofNat 32 n) (element v 32 62))

/-- The element of VQUANT (07 R154): `e8` its block's scale. -/
def quantized (ty : Nat) (fm : Word) (mode : RMode) (x e8 : Nat) : Nat × Flags :=
  let v := match decodeF fp32 (flushIn fp32 fm x) with
    | .nan sig => .nan sig
    | .inf neg => if e8 = 0xFF then .nan false else .inf neg
    | .fin neg m e => if e8 = 0xFF then .nan false else .fin neg m (e + 127 - e8)
  match fmtOf ty with
  | some G => roundTo G fm mode v
  | none => clamped ty (rmode fm) v

/-! ### Comparisons, reductions and dot products (07 R147, 08 R171-R177) -/

/-- A comparison of two floating values (07 R147, 05 R108). -/
def floatCondition (c : Nat) (x y : Machine.Num) : Bool × Flags :=
  let lt (x y : Machine.Num) : Bool := below x y && !(x.isZero && y.isZero)
  let nan := x.isNan || y.isNan
  (match c with
   | 0 => !nan && !lt x y && !lt y x
   | 1 => nan || lt x y || lt y x
   | 2 => !nan && lt x y
   | 3 => !nan && !lt y x
   | 4 => !nan && lt y x
   | 5 => !nan && !lt x y
   | 6 => !nan
   | _ => nan,
   if x.isSig || y.isSig || (nan && 2 ≤ c && c ≤ 5) then Flag.nv else 0)

def intCondition (c : Nat) (x y : Int) : Bool :=
  match c with
  | 0 => x = y
  | 1 => x ≠ y
  | 2 => x < y
  | 3 => x ≤ y
  | 4 => y < x
  | 5 => y ≤ x
  | 6 => true
  | _ => false

/-- The condition of VCMP on two elements. -/
def condition (ty : Nat) (fm : Word) (c : Nat) (x y : BitVec (width ty)) : Bool × Flags :=
  match fmtOf ty with
  | some F => floatCondition c (decodeF F (flushIn F fm x.toNat)) (decodeF F (flushIn F fm y.toNat))
  | none => (intCondition c (integer ty (width ty) x) (integer ty (width ty) y), 0)

/-- The node of a sum (08 R173): a value and the flags so far. -/
def sumStep (fm : Word) (l r : Machine.Num × Flags) : Machine.Num × Flags :=
  let p := nanFirst fp32 [l.1, r.1] (sumResult fp32 fm l.1 r.1)
  (decodeF fp32 p.1, l.2 ||| r.2 ||| p.2)

/-- Lane `i` of the fixed tree of 2^K leaves after `d` levels (08 R172). -/
def treeLane (node : Machine.Num × Flags → Machine.Num × Flags → Machine.Num × Flags) (leaf : Nat → Machine.Num) (K : Nat) :
    Nat → Nat → Machine.Num × Flags
  | 0, i => (leaf i, 0)
  | d + 1, i => node (treeLane node leaf K d i) (treeLane node leaf K d (i + 2 ^ (K - (d + 1))))

/-- Lane `i` after `t` steps of the doubling schedule (08 R176): its value, and the flags of its own last node. -/
def scanLane (fm : Word) (leaf : Nat → Machine.Num) : Nat → Nat → Machine.Num × Flags
  | 0, i => (leaf i, 0)
  | t + 1, i => if 2 ^ t ≤ i then sumStep fm ((scanLane fm leaf t i).1, 0) ((scanLane fm leaf t (i - 2 ^ t)).1, 0) else ((scanLane fm leaf t i).1, 0)

/-- The least K with n ≤ 2^K. -/
def levels (n : Nat) : Nat := if n ≤ 1 then 0 else (n - 1).log2 + 1

/-- A leaf of a sum: the flushed element where it contributes, else −0 (08 R172). -/
def sumLeaf (F : Fmt) (fm : Word) (act : List Nat) (v : Vec) (i : Nat) : Machine.Num :=
  if i ∈ act then decodeF F (flushIn F fm (element v F.w i).toNat) else .fin true 0 0

/-- dot_group (04 R81, R82): an accumulator and pairs of elements, all flushed and decoded. -/
def dotResult (fm : Word) (acc : Machine.Num) (ab : List (Machine.Num × Machine.Num)) : Nat × Flags :=
  nanFirst fp32 (acc :: ab.flatMap (fun p => [p.1, p.2])) (
    let ps := ab.map (fun p => product p.1 p.2)
    let terms := acc :: ps.filterMap id
    let s := (terms.map ratOf).sum
    if ps.contains none || (terms.contains (.inf false) && terms.contains (.inf true)) then (fp32.cnan, Flag.nv)
    else if terms.contains (.inf false) then (infinity fp32 false, 0)
    else if terms.contains (.inf true) then (infinity fp32 true, 0)
    else if s = 0 then (withSign fp32 (terms.all (fun t => t.isZero && t.sign)) 0, 0)
    else roundTo fp32 fm .rne (exact s false))

/-! ## RV64 -/

/-- The values that RV64I, M, Zba, Zbb, Zbs and Zicond give a register-to-register operation, as the standard words them: products
as halves of the full product, divisions by zero and their overflow by the standard's table. -/
def aluSpec (a b : Word) : AluOp → Word
  | .add => a + b
  | .sub => a - b
  | .sll => a <<< (b.toNat % 64)
  | .slt => if a.toInt < b.toInt then 1 else 0
  | .sltu => if a.toNat < b.toNat then 1 else 0
  | .xor => a ^^^ b
  | .srl => a >>> (b.toNat % 64)
  | .sra => a.sshiftRight (b.toNat % 64)
  | .or => a ||| b
  | .and => a &&& b
  | .mul => a * b
  | .mulh => ((a.signExtend 128) * (b.signExtend 128)).extractLsb' 64 64
  | .mulhsu => ((a.signExtend 128) * (b.setWidth 128)).extractLsb' 64 64
  | .mulhu => ((a.setWidth 128) * (b.setWidth 128)).extractLsb' 64 64
  | .div => if b = 0 then -1 else BitVec.ofInt 64 (a.toInt.tdiv b.toInt)
  | .divu => if b = 0 then -1 else BitVec.ofNat 64 (a.toNat / b.toNat)
  | .rem => if b = 0 then a else BitVec.ofInt 64 (a.toInt.tmod b.toInt)
  | .remu => if b = 0 then a else BitVec.ofNat 64 (a.toNat % b.toNat)
  | .sh1add => 2 * a + b
  | .sh2add => 4 * a + b
  | .sh3add => 8 * a + b
  | .andn => a &&& ~~~b
  | .orn => a ||| ~~~b
  | .xnor => ~~~(a ^^^ b)
  | .max => if a.toInt < b.toInt then b else a
  | .maxu => if a.toNat < b.toNat then b else a
  | .min => if a.toInt < b.toInt then a else b
  | .minu => if a.toNat < b.toNat then a else b
  | .rol => (a <<< (b.toNat % 64)) ||| (a >>> (64 - b.toNat % 64))
  | .ror => (a >>> (b.toNat % 64)) ||| (a <<< (64 - b.toNat % 64))
  | .bclr => BitVec.ofBoolListLE ((List.range 64).map (fun k => a.getLsbD k && decide (k ≠ b.toNat % 64)))
  | .bext => if a.getLsbD (b.toNat % 64) then 1 else 0
  | .binv => a ^^^ BitVec.twoPow 64 (b.toNat % 64)
  | .bset => a ||| BitVec.twoPow 64 (b.toNat % 64)
  | .czeroEqz => if b = 0 then 0 else a
  | .czeroNez => if b = 0 then a else 0

/-- A 32-bit result in a register (RV64I). -/
def word32 (v : BitVec 32) : Word := v.signExtend 64

/-- The operations on the low 32 bits of their operands (RV64I, M, Zba, Zbb). -/
def aluWSpec (a b : Word) : AluOpW → Word
  | .addw => word32 (a.setWidth 32 + b.setWidth 32)
  | .subw => word32 (a.setWidth 32 - b.setWidth 32)
  | .sllw => word32 (a.setWidth 32 <<< (b.toNat % 32))
  | .srlw => word32 (a.setWidth 32 >>> (b.toNat % 32))
  | .sraw => word32 ((a.setWidth 32).sshiftRight (b.toNat % 32))
  | .mulw => word32 (a.setWidth 32 * b.setWidth 32)
  | .divw => word32 (if b.setWidth 32 = 0#32 then -1 else BitVec.ofInt 32 ((a.setWidth 32).toInt.tdiv (b.setWidth 32).toInt))
  | .divuw => word32 (if b.setWidth 32 = 0#32 then -1 else BitVec.ofNat 32 ((a.setWidth 32).toNat / (b.setWidth 32).toNat))
  | .remw => word32 (if b.setWidth 32 = 0#32 then a.setWidth 32 else BitVec.ofInt 32 ((a.setWidth 32).toInt.tmod (b.setWidth 32).toInt))
  | .remuw => word32 (if b.setWidth 32 = 0#32 then a.setWidth 32 else BitVec.ofNat 32 ((a.setWidth 32).toNat % (b.setWidth 32).toNat))
  | .addUw => (a &&& 0xFFFFFFFF) + b
  | .sh1addUw => 2 * (a &&& 0xFFFFFFFF) + b
  | .sh2addUw => 4 * (a &&& 0xFFFFFFFF) + b
  | .sh3addUw => 8 * (a &&& 0xFFFFFFFF) + b
  | .rolw => word32 ((a.setWidth 32 <<< (b.toNat % 32)) ||| (a.setWidth 32 >>> (32 - b.toNat % 32)))
  | .rorw => word32 ((a.setWidth 32 >>> (b.toNat % 32)) ||| (a.setWidth 32 <<< (32 - b.toNat % 32)))

/-- The operations with an immediate, from its 64 bits `v` sign-extended; a shift takes the low 6 or, on 32 bits, 5 bits of it. -/
def immSpec (a v : Word) : ImmOp → Word
  | .addi => a + v
  | .slti => if a.toInt < v.toInt then 1 else 0
  | .sltiu => if a.toNat < v.toNat then 1 else 0
  | .xori => a ^^^ v
  | .ori => a ||| v
  | .andi => a &&& v
  | .slli => a <<< (v.toNat % 64)
  | .srli => a >>> (v.toNat % 64)
  | .srai => a.sshiftRight (v.toNat % 64)
  | .rori => aluSpec a v .ror
  | .bclri => aluSpec a v .bclr
  | .bexti => aluSpec a v .bext
  | .binvi => aluSpec a v .binv
  | .bseti => aluSpec a v .bset
  | .addiw => word32 (a.setWidth 32 + v.setWidth 32)
  | .slliw => word32 (a.setWidth 32 <<< (v.toNat % 32))
  | .srliw => word32 (a.setWidth 32 >>> (v.toNat % 32))
  | .sraiw => word32 ((a.setWidth 32).sshiftRight (v.toNat % 32))
  | .roriw => aluWSpec a v .rorw
  | .slliUw => (a &&& 0xFFFFFFFF) <<< (v.toNat % 64)

/-- The operations of one operand (Zbb). -/
def unarySpec (a : Word) : UnOp → Word
  | .clz => BitVec.ofNat 64 ((List.range 64).takeWhile (fun k => !a.getLsbD (63 - k))).length
  | .ctz => BitVec.ofNat 64 ((List.range 64).takeWhile (fun k => !a.getLsbD k)).length
  | .cpop => BitVec.ofNat 64 ((List.range 64).filter (fun k => a.getLsbD k)).length
  | .clzw => BitVec.ofNat 64 ((List.range 32).takeWhile (fun k => !a.getLsbD (31 - k))).length
  | .ctzw => BitVec.ofNat 64 ((List.range 32).takeWhile (fun k => !a.getLsbD k)).length
  | .cpopw => BitVec.ofNat 64 ((List.range 32).filter (fun k => a.getLsbD k)).length
  | .sextB => (a.setWidth 8).signExtend 64
  | .sextH => (a.setWidth 16).signExtend 64
  | .zextH => a &&& 0xFFFF
  | .orcB => BitVec.ofBoolListLE ((List.range 64).map (fun k => a.extractLsb' (8 * (k / 8)) 8 != 0))
  | .rev8 => BitVec.ofBoolListLE ((List.range 64).map (fun k => a.getLsbD (8 * (7 - k / 8) + k % 8)))

/-- What a CSR instruction writes (Zicsr). -/
def csrNew (old v : Word) : CsrOp → Word
  | .rw => v
  | .rs => old ||| v
  | .rc => old &&& ~~~v

/-- The newest byte at a physical address that the core has stored and not yet performed (14 R305). -/
def bufferedByte (c : Core) (a : Nat) : Option Byte :=
  ((c.sbuf.filter (fun e => e.addr ≤ a && a < e.addr + e.data.length)).getLast?).bind (fun e => e.data[a - e.addr]?)

/-- The byte that the control core's load sees: its own newest store of it, or memory as its die reads it (14 R305, R310). -/
def seenByte (s : State) (a : Nat) : Byte :=
  (bufferedByte s.me a).getD ((s.physRead (dieOf s.cur.lcore) a 1).getD 0 0)

/-- The low `n` bytes of a value, least significant first (00 R7). -/
def lowBytes (n : Nat) (v : Word) : List Byte := (List.range n).map (fun k => v.extractLsb' (8 * k) 8)

/-- The entry of a table page at `t` that an address selects at a level (19 R387, R388). -/
def tableEntry (s : State) (t va lvl : Nat) : Word :=
  BitVec.ofNat 64 (leNat (s.hbm.readN (t + 8 * (va / 2 ^ (16 + 13 * lvl) % 8192)) 8))

/-- An entry that points to the table at page frame `p`. -/
def TableEntry (e : Word) (p : Nat) : Prop := p < 2 ^ 36 ∧ e = BitVec.ofNat 64 (2 ^ 16 * p + 1)

/-- A leaf of a 64 KiB page that its bits allow to be used (19 R387, R389), of page frame `p`. -/
structure LeafEntry (e : Word) (p : Nat) : Prop where
  valid  : fld e 0 2 = 3
  frame  : fld e 16 36 = p
  room   : 65536 * p + 65536 ≤ Config.hbmBytes
  user   : e.getLsbD 5 = true
  kind   : fld e 60 2 ≠ 3
  repl   : ¬ (e.getLsbD 62 = true ∧ fld e 60 2 = 1)
  write  : e.getLsbD 3 = true → e.getLsbD 2 = true
  zero   : e.getLsbD 4 = false ∧ fld e 6 10 = 0 ∧ fld e 52 8 = 0 ∧ e.getLsbD 63 = false

/-- What a load of a width makes of its bytes: the least significant first, sign-extended or, for LBU, LHU and LWU, zero-extended. -/
def loadValue : MemW → List Byte → Word
  | .b, bs => (BitVec.ofNat 8 (leNat bs)).signExtend 64
  | .h, bs => (BitVec.ofNat 16 (leNat bs)).signExtend 64
  | .w, bs => (BitVec.ofNat 32 (leNat bs)).signExtend 64
  | _, bs => BitVec.ofNat 64 (leNat bs)

/-- Bytes that a load or store of a width moves. -/
def accessBytes : MemW → Nat
  | .b | .bu => 1
  | .h | .hu => 2
  | .w | .wu => 4
  | .d => 8

/-- Whether a branch is taken. -/
def branchTaken (a b : Word) : BrCond → Bool
  | .eq => a == b
  | .ne => a != b
  | .lt => decide (a.toInt < b.toInt)
  | .ge => decide (b.toInt ≤ a.toInt)
  | .ltu => decide (a.toNat < b.toNat)
  | .geu => decide (b.toNat ≤ a.toNat)

/-! ## Words of the control core -/

/-- How a sequence number answers WAITSEQ (06 R119): 2 for one that no CMDPUSH of the unit has given, 1 for one whose command was
discarded, 0 for one whose command has retired. A pending one gives no answer yet. -/
def seqAnswer (c : Core) (q : BitVec 32) : Option Word :=
  if 2 ^ 31 ≤ (c.seqno - 1 - q).toNat then some 2
  else if c.cmds.any (fun m => m.seq = q) then none
  else if c.gone.contains q then some 1
  else some 0

/-- What CANCEL makes of its operands (06 R120): the status, and the request where the status is 0. From machine mode a name that
the issuer's job does not hold is looked up in the module; from user mode with no unit there is nothing to name. -/
def cancelOutcome (s : State) (p : PWord) : Nat × CancelReq :=
  let issuer := s.me.unit.map (·.job)
  let here := resolveCancel s issuer issuer (levelOf p.imm18.toNat) (s.x p.vs1)
  if s.me.mode = .M ∧ here.1 = 2 then resolveCancel s none issuer (levelOf p.imm18.toNat) (s.x p.vs1)
  else if s.me.mode = .U ∧ issuer = none then (2, here.2) else here

/-- The end of a bridge (15 R334): the g registers that GOUT names are handed to the x registers, every other x register but x0
keeps its value, the core goes to the exit that g31 selects, and BRSEQ.V is clear. -/
structure BridgeEnds (s t : State) (d : List Word) : Prop where
  note : t.note = .ok
  x    : ∀ r : Reg, t.x r = if r ≠ 0 ∧ (d.getD 1 0).getLsbD (32 + r.toNat) = true then s.me.gget r.toNat else s.x r
  pc   : t.me.pc = let n := fld (s.me.gget 31) 0 3; BitVec.ofNat 64 (fld (d.getD (3 + n / 4) 0) (16 * (n % 4)) 16)
  only : t.me = { s.me with x := t.me.x, pc := t.me.pc, minstret := s.me.instretNext, brseq := s.me.brseq &&& 0x7FFFFFFFFFFFFFFF }
  rest : SameElse s t

/-- The atomics of R315 on 32-bit words, where the type is INT32 or UINT32. -/
def atomicInt (sgn : Bool) (old v cmp : BitVec 32) : Atom → BitVec 32
  | .add => old + v
  | .max => if (if sgn then old.slt v else old.ult v) then v else old
  | .min => if (if sgn then v.slt old else v.ult old) then v else old
  | .xchg => v
  | .cas => if old = cmp then v else old
  | .or => old ||| v
  | .and => old &&& v

/-- The words of each operation, portable or native. -/
def atomWord (f : Form) : Atom → Instr
  | .add => .aadd f
  | .max => .amax f
  | .min => .amin f
  | .xchg => .axchg f
  | .cas => .acas f
  | .or => .aor f
  | .and => .aand f

/-- The op of a remote request (14 R320). -/
def remoteOp : Atom → BitVec 3
  | .add => 0
  | .max => 1
  | .min => 2
  | .xchg => 3
  | .cas => 4
  | .or => 5
  | .and => 6

/-- What stands before a remote atomic is sent (14 R323): with a unit at work, its running phase has made the early commit of 02 R37. -/
def committedFirst (s s2 : State) : Prop :=
  (s.me.unit = none ∧ s2 = s) ∨
  (s.me.unit ≠ none ∧ s.me.ph.stage = .run ∧ s.me.ph.acc37 = true ∧ s2 = s) ∨
  (s.me.unit ≠ none ∧ s.me.ph.stage = .run ∧ s.me.ph.acc37 = false ∧ s.me.ph.mixed = false ∧
    s2 = (earlyCommit s s.cur.lcore).updMe (fun c => { c with ph := { c.ph with acc37 := true } }))

/-- The remote forms. -/
def remoteWord (p : PWord) : Atom → Instr
  | .add => .aaddRmt p
  | .max => .amaxRmt p
  | .min => .aminRmt p
  | .xchg => .axchgRmt p
  | .cas => .acasRmt p
  | .or => .aorRmt p
  | .and => .aandRmt p

/-! ## Control words of the line engines -/

/-- The words that act as a whole under a guard: those of engine A, and the control words that take a guard. -/
def guardedWord : Instr → Bool
  | .gadd _ | .gsub _ | .gmul _ | .gshl _ | .gshr _ | .gand _ | .gor _ | .gli _ | .gmovx _ | .gcmp _ | .ald (.nat _) | .alds (.nat _)
  | .aldx _ | .ast (.nat _) | .asts (.nat _) | .astx _ | .apref (.nat _) | .vspill (.nat _) | .vfill (.nat _) | .anest _ | .pwld (.nat _)
  | .rclaim (.nat _) | .rpub (.nat _) | .rwfill (.nat _) | .rwfree (.nat _) | .rcons (.nat _) | .rskip (.nat _) | .ldacq (.nat _)
  | .strel (.nat _) | .aadd (.nat _) | .amax (.nat _) | .amin (.nat _) | .axchg (.nat _) | .acas (.nat _) | .aor (.nat _)
  | .aand (.nat _) => true
  | _ => false

def guardedControl : Instr → Bool
  | .pbr _ | .br _ | .brl _ | .ret _ | .loop _ | .halt _ | .trapvNative _ | .setrot _ | .tkgive _ | .tktake _ | .flset (.nat _)
  | .flclr (.nat _) | .flwaitSet (.nat _) | .flwaitClr (.nat _) | .flwaitTake (.nat _) | .evsigSet (.nat _) | .evsigClr (.nat _)
  | .evsigPost (.nat _) | .evwait (.nat _) | .evwaitClr (.nat _) | .fencevAcq (.nat _) | .fencevRel (.nat _) | .fencevSc (.nat _)
  | .nopv _ => true
  | _ => false

/-- The micro-program counter after one turn of LOOP (06 R127): LC falls to no less than 0, and the bases of V and M step back. -/
def loopTurn (e : Eng) (u : Upc) : Upc :=
  { u with
    lc := if u.lc = 0 then 0 else u.lc - 1
    vrb := if e = .A then u.vrb else if u.vrb = 0 then 511 else u.vrb - 1
    prb := if e = .A then u.prb else if u.prb = 0 then 47 else u.prb - 1 }

/-- An event change of the command at work: pending in the phase, or deferred while the command is tentative (12 R268, 13 R285). -/
def signalled (s : State) (n : Nat) (v : Bool) : Core :=
  if s.isTent then s.me.updCmd s.cur.eng s.cur.seq (fun m => { m with ev := m.ev ++ [(n, v)] })
  else { s.me with ph := { s.me.ph with
    evSet := setFld s.me.ph.evSet n 1 (if v then 1 else 0), evClr := setFld s.me.ph.evClr n 1 (if v then 0 else 1) } }

/-- The place among the landings of a change that acts behind the engine's earlier words. -/
def behind (s : State) (l : Landing) : Core :=
  { s.me with flights := s.me.flights ++ [
    { eng := s.cur.eng, due := s.me.lastDue s.cur.eng, lands := [l], line := s.cur.line, slot := s.cur.slot, seq := s.cur.seq, issued := s.me.vcycle }] }

/-- The latest landing of an engine's results in flight that writes accumulator SRAM. -/
def accDue (c : Core) (e : Eng) : Nat :=
  (c.flights.filter (fun f => f.eng = e && f.lands.any Landing.isAcc)).foldl (fun d f => max d f.due) 0

/-- The mark of a release: on engine A, the phase's later stores follow its earlier ones in the drain; on M and V, no later result lands in
accumulator SRAM before those in flight (14 R308, R313). -/
def marked (c : Core) (e : Eng) : Core :=
  if e = .A then { c with ph := { c.ph with fenced := true } } else c.updLine e (fun l => { l with fence := max l.fence (accDue c e) })

/-- What a fence of the line first makes its own engine read: on M, the operands that its words at work have yet to read from memory. -/
def readFirst (s : State) : Except Out State := if s.cur.eng = .M then readsAhead s s.me.mwork else .ok s

/-! ## Words of engine A -/

/-- What the arithmetic words of engine A give (11 R229): modulo 2^64, shifts by the low six bits. -/
def addressResult (x y : Word) : Instr → Option Word
  | .gadd _ => some (x + y)
  | .gsub _ => some (x - y)
  | .gmul _ => some (x * y)
  | .gshl _ => some (x <<< (y.toNat % 64))
  | .gshr _ => some (x >>> (y.toNat % 64))
  | .gand _ => some (x &&& y)
  | .gor _ => some (x ||| y)
  | .gli _ => some x
  | _ => none

/-- The conditions of R108 on signed doublewords, by their codes 0 to 5. -/
def signedCondition (c : Nat) (x y : Word) : Bool :=
  match c with
  | 0 => x == y
  | 1 => x != y
  | 2 => x.slt y
  | 3 => x.sle y
  | 4 => y.slt x
  | _ => y.sle x

/-- A word of engine A that acts and its tokens move: what its core becomes, from the state `s1` that its accesses leave. -/
def Does (i : Instr) (s : State) (r : Row) (w : NWord) (s1 : State) (c : Core) : Prop :=
  AccessReady s i r w → TokensReady s1 (bitMoves .A w) → ∃ t, exec i s = .next t ∧ Acts s1 t c (bitMoves .A w)

/-! ## Words of engine M -/

/-- The core once the result of a word of M is formed: in flight, due its busy time and delay after the virtual cycle, and its word at work
until it lands (09 R188, 15 R324). -/
def formedFor (s : State) (i : Instr) (w : NWord) (busy : Nat) (lands : List Landing) (fl : Flags) : Core :=
  (s.formed (s.work i w busy) lands fl).me

/-- The core once the result of a drain to accumulator SRAM is formed: due no earlier than the writes before a fence (14 R313). -/
def formedBehind (s : State) (i : Instr) (w : NWord) (lands : List Landing) : Core :=
  let m := s.work i w 1
  (s.formed { m with due := max m.due s.ln.fence } lands 0).me

/-- A word of M that acts: what its core becomes, from the state `s1` that its reads and pops leave. -/
def DoesM (i : Instr) (s : State) (r : Row) (w : NWord) (s1 : State) (c : Core) : Prop :=
  MatrixReady s i r w → TokensReady s1 (bitMoves .M w) → ∃ t, exec i s = .next t ∧ Acts s1 t c (bitMoves .M w)

/-- shp1 stands as a matrix grant within the array of the core's gang (03 R55, R56). -/
def MatrixGrant (s : State) : Prop :=
  GrantStands s 1 2 ∧ shpD (s.shp 1) 0 ≤ 64 * s.me.side ∧ shpD (s.shp 1) 1 ≤ 64 * s.me.side

/-- The word of a load of the array once its operand is had (09 R192). -/
def loadWorkOf (s : State) (i : Instr) (left : Bool) (w : NWord) (x : Opnd) : MWork :=
  let ne := ceilDiv s.kk (kpOf w.ty.toNat)
  let m := s.work i w ne
  { (if left then { m with opL := x.es } else { m with opR := x.es }) with pops := popsOf m.t m.o (if left then 0 else 1) x ne }

/-- The word of a product once its operands are had (09 R188). -/
def productWorkOf (s : State) (i : Instr) (sparse : Bool) (w : NWord) (p : MmaPlan) : MWork :=
  let m := s.work i w (mmaBusy s sparse p.l.fmt p.r.fmt)
  { m with opL := p.l.es, opR := p.r.es, pops := popsOf m.t m.o 0 p.l p.nl ++ popsOf m.t m.o 1 p.r p.nr ++
      (if sparse && (s.cmd.bind (·.strm)).isNone then popsOf m.t m.o 2 { fmt := 0, q := some (0x300 + w.c.toNat % 4) } p.nx else []) }

/-- shp2 stands for a polynomial word of a type (10 R211). -/
def PolyGrant (s : State) (ty : Nat) : Prop :=
  GrantStands s 2 3 ∧ shpTy (s.shp 2) = ty ∧ shpD (s.shp 2) 0 ≤ 64 * s.me.side

/-- The rounding of a promotion (10 R208) with the number `T` of R77, at a cell of the whole matrix: the value and its flags. -/
def promotedAt (F : Fmt) (fm : Word) (lid : BitVec 32) (seed : Word) (T i j v : Nat) : Nat × Flags :=
  let x := decodeF fp32 (flushIn fp32 fm v)
  nanFirst F [x] (roundTo F fm (if Fmode.sr fm then .sr (srBits lid seed (BitVec.ofNat 16 T) (BitVec.ofNat 32 i) (BitVec.ofNat 32 j)) else rmode fm) x)

/-- floor(log2 |y|) of a pattern that is finite and not zero. -/
def exponentOf (F : Fmt) (y : Nat) : Option Int :=
  match decodeF F y with
  | .fin _ m e => if m = 0 then none else some (m.log2 + e)
  | _ => none

/-- The largest of some exponents, −32768 where there is none. -/
def largest (es : List Int) : Int := es.foldl max (-32768)

/-- An element of an integer operand as a number. -/
def intElement (fmt : Nat) (es : List Vec) (x k : Nat) : Int :=
  (BitVec.ofNat (width fmt) (entElem es (width fmt) x k)).toInt

/-! ### Floating products (04 R69-R72, R81, 09 R193, R195) -/

/-- An element with no scale. -/
def plainNumber (ty : Nat) (fm : Word) (x : Nat) : Machine.Num :=
  match fmtOf ty with
  | some F => decodeF F (flushIn F fm x)
  | none => .fin false 0 0

/-- The codebook of QN4, in units of 1/128 (04 R71). -/
def codebook (q : Nat) : Int := [-128, -89, -67, -51, -37, -24, -12, 0, 10, 20, 31, 43, 57, 73, 93, 128].getD q 0

/-- An element of a stream, of scale `c` and super-scale `S` (04 R69, R70, R72). -/
def scaledNumber (st : Word × Word) (fm : Word) (x c S : Nat) : Machine.Num × Flags :=
  match stKind st with
  | 1 => (if c = 0xFF then .nan false else match plainNumber (stFmt st) fm x with
      | .fin neg m e => .fin neg m (e + c - 127)
      | y => y, 0)
  | 2 => match decodeF fp32 S with
      | .nan _ => (.nan false, 0)
      | .inf neg => if codebook x * c = 0 then (.nan false, Flag.nv) else (.inf (neg != (codebook x < 0)), 0)
      | .fin neg m e => (.fin (neg != (codebook x < 0)) ((codebook x).natAbs * c * m) (e - 15), 0)
  | _ => (plainNumber (stFmt st) fm x, 0)

/-- The decoded rows or columns of an operand: each element from its entry, a stream's with the scales of its block, which are read at
their addresses, or have been read ahead. -/
def Decoded (fm : Word) (x : Opnd) (es : List Vec) (n K : Nat) (rows : List (List (Machine.Num × Flags))) : Prop :=
  rows.length = n ∧ ∀ i row, rows[i]? = some row → row.length = K ∧ ∀ k v, row[k]? = some v →
    let e := entElem es (width x.fmt) i k
    match x.st with
    | none => v = (plainNumber x.fmt fm e, 0)
    | some st => ∃ c S, v = scaledNumber st fm e c S ∧
        if x.scl = [] then ∃ t u, scales t .M st i (k / 2 ^ stBlk st) = .ok (u, c, S)
        else (c, S) = ((x.scl.find? (fun p => p.1 = (i, k / 2 ^ stBlk st))).map (·.2)).getD (0, 0)

/-- An operand that the array takes as floating: a plain format, or a stream's, whose QN4 elements have their scales (03 R63, 09 R186). -/
def FloatingOpnd (x : Opnd) : Prop :=
  x.fmt ≤ 6 ∧ match x.st with
    | none => x.fmt ≤ 4
    | some st => stFmt st = x.fmt ∧ (x.fmt = 6 → stKind st = 2)

/-- Values of k in a K-group of a width (04 R81). -/
def groupSize (w : Nat) : Nat := if w = 32 then 1 else 128 / w

/-- The pairs of group `q` of a cell, dense (09 R193). -/
def densePairs (g K q : Nat) (L R : Nat → Machine.Num) : List (Machine.Num × Machine.Num) :=
  (List.range (min g (K - g * q))).map (fun d => (L (g * q + d), R (g * q + d)))

/-- The pairs of group `q` of a cell in row `i`, of a 2:4 sparse left operand with its metadata entries (09 R195). -/
def sparsePairs (g K q i : Nat) (xs : List Vec) (L R : Nat → Machine.Num) : List (Machine.Num × Machine.Num) :=
  (List.range ((K + 3) / 4)).flatMap (fun y =>
    let nib := (element (xs.getD (y / 8) 0) 4 (y % 8 * 64 + i)).toNat
    [(0, nib % 4), (1, nib / 4)].filterMap (fun v =>
      if (4 * y + v.2) / g = q ∧ 4 * y + v.2 < K then some (L (2 * y + v.1), R (4 * y + v.2)) else none))

/-- An accumulator through the groups of a cell, with the flags. -/
def throughGroups (fm : Word) (acc : Nat) (groups : List (List (Machine.Num × Machine.Num))) : Nat × Flags :=
  groups.foldl (fun a g => let d := dotResult fm (decodeF fp32 a.1) g; (d.1, a.2 ||| d.2)) (acc, 0)

/-! ### Polynomials (10 R208, R214, R224) -/

/-- A matrix by row and column. -/
abbrev Grid := Nat → Nat → Nat

/-- What a polynomial word computes with. -/
structure PolyJob where
  F    : Fmt
  fm   : Word
  lid  : BitVec 32
  seed : Word
  n    : Nat
  mode : Nat
  nit  : Nat
  glim : Int
  cs   : List Nat
  A    : Grid

/-- The array and MPSTAT while it runs: the flags lie at a cell of the member that sets them. -/
structure PolyAt where
  sM     : Grid
  gM     : Grid
  c0     : Grid
  c1     : Grid
  sNew   : Bool := false
  gNew   : Bool := false
  last   : Int := -32768
  peak   : Int := -32768
  promos : Nat := 0
  steps  : Nat := 0
  psub   : Nat := 0
  ovf    : Bool := false
  grow   : Bool := false
  fl     : List ((Nat × Nat) × Flags) := []

def PolyAt.over (q : PolyAt) : Bool := q.ovf || q.grow

/-- Active cells, row by row. -/
def PolyJob.cells (x : PolyJob) : List (Nat × Nat) := (List.range x.n).flatMap (fun i => (List.range x.n).map (fun j => (i, j)))

/-- A matrix computed at each active cell, +0 elsewhere. -/
def PolyJob.grid (x : PolyJob) (f : Nat → Nat → Nat × Flags) : Grid := fun i j => if i < x.n ∧ j < x.n then (f i j).1 else 0

/-- The flags of such a matrix, each at its own cell. -/
def PolyJob.flags (x : PolyJob) (f : Nat → Nat → Nat × Flags) : List ((Nat × Nat) × Flags) := x.cells.map (fun p => (p, (f p.1 p.2).2))

def PolyJob.num (x : PolyJob) (v : Nat) : Machine.Num := decodeF fp32 (flushIn fp32 x.fm v)

/-- promote (10 R208), to S or mg. -/
def PolyJob.promote (x : PolyJob) (toS : Bool) (psub : Nat) (B : PolyAt → Grid) (q : PolyAt) : PolyAt :=
  if q.over then q
  else
    let y (i j : Nat) : Nat × Flags := promotedAt x.F x.fm x.lid x.seed (0xFF00 + q.promos) i j (B q i j)
    let vals := x.cells.map (fun p => (y p.1 p.2).1)
    let e := largest (vals.filterMap (exponentOf x.F))
    let q := { q with last := e, peak := max q.peak e, promos := q.promos + 1, fl := q.fl ++ x.flags y }
    if vals.any (fun v => !finite (decodeF x.F v)) then { q with ovf := true, psub := psub }
    else if x.glim < e then { q with grow := true, psub := psub }
    else if toS then { q with sM := x.grid y, sNew := true } else { q with gM := x.grid y, gNew := true }

/-- prod (10 R214, R224): the groups of k in turn from +0. The flags of a group are those of the member that holds its rows of the right
matrix. -/
def PolyJob.prod (x : PolyJob) (L R : Grid) : Grid × List ((Nat × Nat) × Flags) :=
  let g := groupSize x.F.w
  let d (v : Nat) : Machine.Num := decodeF x.F (flushIn x.F x.fm v)
  let groups (i j : Nat) : List (List (Machine.Num × Machine.Num)) :=
    (List.range ((x.n + g - 1) / g)).map (fun q => densePairs g x.n q (fun k => d (L i k)) (fun k => d (R k j)))
  (x.grid (fun i j => throughGroups x.fm 0 (groups i j)),
   x.cells.flatMap (fun p => (List.range ((x.n + g - 1) / g)).map (fun q =>
     ((g * q, p.2), (dotResult x.fm (decodeF fp32 (throughGroups x.fm 0 ((groups p.1 p.2).take q)).1) ((groups p.1 p.2).getD q [])).2))))

/-- A product into mc0 or mc1, unless the loop has ended. -/
def PolyJob.into (x : PolyJob) (one : Bool) (L : PolyAt → Grid) (R : PolyAt → Grid) (q : PolyAt) : PolyAt :=
  if q.over then q
  else
    let m := x.prod (L q) (R q)
    if one then { q with c1 := m.1, fl := q.fl ++ m.2 } else { q with c0 := m.1, fl := q.fl ++ m.2 }

/-- An elementwise step on mc0 or mc1, unless the loop has ended. -/
def PolyJob.each (x : PolyJob) (one : Bool) (f : PolyAt → Nat → Nat → Nat × Flags) (q : PolyAt) : PolyAt :=
  if q.over then q
  else if one then { q with c1 := x.grid (f q), fl := q.fl ++ x.flags (f q) } else { q with c0 := x.grid (f q), fl := q.fl ++ x.flags (f q) }

def PolyJob.count (k : Nat) (q : PolyAt) : PolyAt := if q.over then q else { q with steps := k }

/-- (k·δ − b)·2^h, rounded once. -/
def PolyJob.lessThan (x : PolyJob) (k : Rat) (h : Int) (b : Nat) (diag : Bool) : Nat × Flags :=
  let v := x.num b
  nanFirst fp32 [v] (match v with
    | .inf neg => (infinity fp32 (!neg), 0)
    | v => roundTo fp32 x.fm .rne (exact (((if diag then k else 0) - ratOf v) * twoTo h) false))

/-- c·δ, rounded once; off the diagonal its zero has the sign of c, the model's reading (log entry 81). -/
def PolyJob.timesDelta (x : PolyJob) (c : Nat) (diag : Bool) : Nat × Flags :=
  let v := x.num c
  nanFirst fp32 [v] (match product v (if diag then .fin false 1 0 else .fin false 0 0) with
    | none => (fp32.cnan, Flag.nv)
    | some y => roundTo fp32 x.fm .rne y)

/-- Step k of the word's mode (10 R214). -/
def PolyJob.step (x : PolyJob) (k : Nat) (q : PolyAt) : PolyAt :=
  let sM (q : PolyAt) := q.sM
  let gM (q : PolyAt) := q.gM
  let mf (_ : PolyAt) := x.A
  let c0 (q : PolyAt) := q.c0
  let c1 (q : PolyAt) := q.c1
  let c (k : Nat) := x.num (x.cs.getD k 0)
  PolyJob.count k <| match x.mode with
  | 0 => x.each true (fun q i j => dotResult x.fm (decodeF fp32 (q.c1 i j)) [(c k, x.num (q.c0 i j))])
      (x.promote true 0 c0 (x.into false sM mf q))
  | 1 => x.promote true 0 c1
      (x.each true (fun q i j => if i = j then dotResult x.fm (decodeF fp32 (q.c1 i j)) [(c (x.nit - k), .fin false 1 0)] else (q.c1 i j, 0))
      (x.into true sM mf q))
  | 2 => x.promote true 1 c1 (x.into true sM gM (x.promote false 0 c0
      (x.each false (fun q i j => x.lessThan 2 0 (q.c0 i j) (i = j)) (x.into false sM mf q))))
  | _ => x.promote true 2 c1 (x.into true sM gM (x.promote false 1 c0
      (x.each false (fun q i j => x.lessThan 3 (-1) (q.c0 i j) (i = j)) (x.into false sM gM (x.promote false 0 c0 (x.into false sM mf q))))))

/-- The whole word (10 R214): its start, and its steps. -/
def PolyJob.run (x : PolyJob) (q : PolyAt) : PolyAt :=
  let c := x.cs.getD (if x.mode = 1 then x.nit else 0) 0
  let one := (roundTo x.F 0 .rne (.fin false 1 0)).1
  let f (i j : Nat) := x.timesDelta c (i = j)
  let q := { q with c1 := x.grid f, fl := x.flags f }
  (List.range x.nit).foldl (fun q k => x.step (k + 1) q)
    (if x.mode = 0 then { q with sM := x.grid (fun i j => (if i = j then one else 0, 0)), sNew := true } else x.promote true 3 (·.c1) q)

/-- MPSTAT of the word (10 R209). -/
def PolyAt.word (q : PolyAt) (mode : Nat) : Word :=
  BitVec.ofNat 64 ((q.last % 65536).toNat + (q.peak % 65536).toNat * 2 ^ 16 + q.promos * 2 ^ 32 + q.steps * 2 ^ 40 + q.psub * 2 ^ 56 +
    mode * 2 ^ 58 + (if q.grow then 2 ^ 61 else 0) + (if q.ovf then 2 ^ 62 else 0) + 2 ^ 63)

/-- How long a polynomial word keeps the array busy (10 R217). -/
def polyCycles (w n side mode nit : Nat) : Nat :=
  let cyc (k : Nat) : Nat := if w = 32 then 4 * k else (k * w + 15) / 16
  let P := if side = 1 then cyc n else (2 * side - 1) * cyc 64 + 16 * (side - 1)
  let Q := if side = 1 then 2 else 10
  2 + Q + nit * (if mode ≤ 1 then P + Q + 1 else if mode = 2 then 2 * P + 2 * Q + 1 else 3 * P + 3 * Q + 1)

/-! ## Commands, phases and speculation -/

/-- The rows of a transfer from `r` on, `n` of them, each of which can be moved: the state once they are. -/
def rowsDone (f : Frame) : Nat → Nat → State → Option State
  | 0, _, s => some s
  | n + 1, r, s =>
    match oneRow s f r with
    | .ok s1 => rowsDone f n (r + 1) (s1.setRows (r + 1))
    | .stop _ _ => none

/-- A core's unit gains speculations that are due, behind those of its cluster, and nothing else of the module but its core and what the
Almanac's own change is has changed (13 R289). -/
structure DuesGrow (s t : State) (alm : SMap Alm) : Prop where
  note  : t.note = .ok
  own   : ∃ l, t.myCluster = { s.myCluster with alm := alm, dues := s.myCluster.dues ++ l } ∧ ∀ d, d ∈ l → d.1 = s.cur.lcore
  other : ∀ k, k ≠ clusterOf s.cur.lcore → t.clusterAt k = s.clusterAt k
  cores : ∀ n, n ≠ s.cur.lcore → t.coreAt n = s.coreAt n
  rest  : t.die = s.die ∧ t.hub = s.hub ∧ t.hbm = s.hbm ∧ t.poison = s.poison ∧ t.now = s.now ∧ t.cur = s.cur ∧ t.draws = s.draws

/-- The kinds of transfer that engine X makes row by row. -/
def transferOf (f : Frame) : List Instr := [.copy f, .copynd f, .bcast f, .gatherrows f, .reduce f]

/-- The first doubleword of a test's record (22 R435): die, cluster, tests run and status. -/
def testHead (die : Nat) (dw10 : Word) (status : Nat) : Word :=
  BitVec.ofNat 64 (die * 2 ^ 24 + fld dw10 0 6 * 2 ^ 16 + fld dw10 8 3 * 2 ^ 8 + status)

/-- The offset of row `r` of a transfer between two places of memory on one side (12 R251): packed for COPY; for COPYND by the three
signed strides of the side. -/
def rowOffset (f : Frame) (dst : Bool) (r : Nat) : Int :=
  if f.kind = 2 then f.dim 0 * r
  else (r % f.dim 1 : Nat) * strideOf f 1 dst + (r / f.dim 1 % f.dim 2 : Nat) * strideOf f 2 dst + (r / (f.dim 1 * f.dim 2) : Nat) * strideOf f 3 dst

/-! ## Messages of masters -/

/-- A reply's message. -/
def replyTo (r : Req) (type : BitVec 16) (status : Reply) (body : List Item) : Msg :=
  { dest := r.master, type := type, id := r.id, status := status, body := body }

/-- A reply to a request and nothing else: it is sent, or, where the connection is still owed an answer to an earlier request, takes its place
behind that (21 R425). -/
def answered (s : State) (r : Req) (type : BitVec 16) (status : Reply) (body : List Item) : State :=
  if s.hub.answers.all (fun a => a.req.master ≠ r.master) then
    { s with note := .ok, hub := { s.hub with out := s.hub.out ++ [replyTo r type status body] } }
  else { s with note := .ok, hub := { s.hub with answers := s.hub.answers ++ [{ req := r, type := type, msg := some (replyTo r type status body) }] } }

/-- A request whose answer comes later takes its place among those owed. -/
def owed (s : State) (r : Req) (type : BitVec 16) : State :=
  { s with note := .ok, hub := { s.hub with answers := s.hub.answers ++ [{ req := r, type := type }] } }

/-- Another owner, election, or none. -/
def ownBy (s : State) (o : Own) : State := { s with hub := { s.hub with own := o } }

/-- A master owns the module until a time, and is no longer one whose lease has lapsed. -/
def ownedBy (s : State) (m : BitVec 64) (till : Nat) : State :=
  { s with hub := { s.hub with own := .owned m till, lapsed := s.hub.lapsed.filter (· ≠ m) } }

/-- A lease has run out: no one owns the module, and the master's lease has lapsed. -/
def lapsedFrom (s : State) (m : BitVec 64) : State :=
  { s with hub := { s.hub with own := .free, lapsed := s.hub.lapsed.filter (· ≠ m) ++ [m] } }

/-- A connected master's request reaches functions that are all ready (21 R421, R425). -/
def Admitted (s : State) (r : Req) (need : List Nat) : Prop :=
  s.hub.st = .up ∧ s.conn r.master ≠ none ∧ ∀ b, b ∈ need → s.hub.ready.getLsbD b = true

/-- The same, of the owner. -/
def OwnerAsks (s : State) (r : Req) (need : List Nat) : Prop := Admitted s r need ∧ ∃ t, s.hub.own = .owned r.master t ∧ s.now < t

/-- The READYMAP bits of a die's local HBM. -/
def homeBits (die : Nat) : List Nat := [10 + 2 * die, 11 + 2 * die]

/-- Those that a MAP needs: the firmware, the HBM of the page's home die, and for replicated pages the sequencer and every die's HBM. -/
def mapBits (m : MapReq) : List Nat := 1 :: (if m.repl then 45 :: (List.range 8).flatMap homeBits else homeBits (m.home % 8))

/-- The messages that are the owner's alone: the request, the type, and the READYMAP bits of the functions that take them (21 R423, R425). -/
def ownerMessage : Instr → Option (Req × BitVec 16 × List Nat)
  | .clearmc r _ _ => some (r, 0x0004, [])
  | .release r => some (r, 0x0012, [46])
  | .handover r _ => some (r, 0x0013, [46])
  | .createjob r attr => some (r, 0x0020, 43 :: homeBits (dieOf attr.jlo % 8))
  | .endjob r _ => some (r, 0x0021, [43])
  | .map r _ m => some (r, 0x0022, mapBits m)
  | .unmap r _ _ _ => some (r, 0x0023, [1])
  | .load r _ _ => some (r, 0x0030, [1])
  | .submit r _ _ => some (r, 0x0031, [43])
  | .cancelMsg r _ _ _ => some (r, 0x0032, [43])
  | .peer r _ _ _ _ _ => some (r, 0x0033, [44])
  | .selftestMsg r die _ _ => some (r, 0x0034, [43, 34 + die.toNat])
  | .anchors r _ _ => some (r, 0x0035, [1])
  | .reset r => some (r, 0x0040, [1])
  | _ => none

/-! ## Operations of the module -/

/-- The three invalidations: the instruction, its mode, and which entries its mode names (19 R391). -/
def invalidation (wide : Bool) : List (Instr × Nat) := [(.tlbinvAsid wide, 0), (.tlbinvVa wide, 1), (.tlbinvAll wide, 2)]

/-- Whether an invalidation of a mode names an entry (19 R391). -/
def names (mode : Nat) (asid : BitVec 12) (va : Nat) (x : TlbEnt) : Prop :=
  (mode = 0 ∧ x.asid = asid) ∨ (mode = 1 ∧ x.asid = asid ∧ x.page = va / (if x.big then 2 ^ 29 else 65536)) ∨ 2 ≤ mode

/-- All entries of a core's TLBs. -/
def tlbsOf (c : Core) : List TlbEnt := c.tlbC ++ c.tlbA ++ c.tlbM ++ c.tlbV ++ c.tlbX

/-- Nothing changes but what the hub holds besides its launches, instances and jobs. -/
structure HubOnly (s t : State) : Prop where
  note    : t.note = .ok
  core    : t.core = s.core
  cluster : t.cluster = s.cluster
  die     : t.die = s.die
  hbm     : t.hbm = s.hbm
  poison  : t.poison = s.poison
  now     : t.now = s.now
  jobs    : t.hub.jobs = s.hub.jobs
  work    : t.hub.launches = s.hub.launches ∧ t.hub.insts = s.hub.insts
  stage   : t.hub.ready = s.hub.ready ∧ t.hub.st = s.hub.st

/-- A die has stopped: the module for the hub die, else its ready bit is clear and no unit is on it (20 R414). -/
def dieStopped (s t : State) (d : Nat) : Prop :=
  (d = 8 → t.hub.st = .stopped ∧ t.core = s.core ∧ t.hbm = s.hbm) ∧
  (d < 8 → t.hub.ready.getLsbD (2 + d) = false ∧ ∀ k, k < 144 → (t.coreAt (d * 144 + k)).unit = none)

/-- A waiter comes before another: by its level, then by how long it has waited, then by its LID (18 R382). -/
def waitsBefore (now : Nat) (a b : Waiter) : Prop :=
  a.level now < b.level now ∨ (a.level now = b.level now ∧ (a.since < b.since ∨ (a.since = b.since ∧ a.l.lid.toNat < b.l.lid.toNat)))

/-- A bank that exists (20 R410). -/
def realBank (d b : Nat) : Prop := d ≤ 8 ∧ b < 14

/-- An access of a machine-level register from user mode is the illegal-instruction trap. -/
def fromUser (s : State) (i : Instr) (n : Nat) : Prop := s.me.mode = .U → ∃ t, exec i s = .next t ∧ TakesTrap s t 2 (BitVec.ofNat 64 n)

/-! ## The whole machine -/

/-- Operations that are taken at an instruction boundary (20 R408). -/
def atBoundary : Instr → Bool
  | .trapEntry | .fbipInterrupt | .preipInterrupt | .mcipInterrupt => true
  | _ => false

/-- The bits of a native word without tokens or guard, and with a stop bit. -/
def plainWord (ty : BitVec 4) (dst a b c : BitVec 10) (lat : BitVec 4) : NWord :=
  { ty := ty, stop := true, tkp := false, tkn := false, gvp := false, gvn := false, guard := 0, ginv := false, dst := dst, a := a, b := b, c := c, lit := 0, lat := lat }

end Sys2Proof.Claims
end

