-- ==== Sys2Proof/Laws/Issue.lean ====
section
/-! SUPPORT. What each shared operation of issue answers, once: retiring, trapping, and the issue of a word of each engine. -/

namespace Sys2Proof.Machine

theorem SameElse.refl (s : State) : SameElse s s := ⟨fun _ _ => rfl, rfl, rfl, rfl, rfl, rfl, rfl, rfl, rfl, rfl⟩

theorem SameElse.updMe (s : State) (f : Core → Core) (n : Note) : SameElse s { s.updMe f with note := n } :=
  ⟨fun k h => State.coreAt_updMe_other s f k h, rfl, rfl, rfl, rfl, rfl, rfl, rfl, rfl, rfl⟩

theorem SameElse.upd (s : State) (f : Core → Core) : SameElse s (s.updMe f) :=
  ⟨fun k h => State.coreAt_updMe_other s f k h, rfl, rfl, rfl, rfl, rfl, rfl, rfl, rfl, rfl⟩

theorem SameElse.trans {s t u : State} (h : SameElse s t) (g : SameElse t u) : SameElse s u where
  cores n hn := (g.cores n (by rw [h.cur]; exact hn)).trans (h.cores n hn)
  cluster := g.cluster.trans h.cluster
  die := g.die.trans h.die
  hub := g.hub.trans h.hub
  hbm := g.hbm.trans h.hbm
  poison := g.poison.trans h.poison
  now := g.now.trans h.now
  agenda := g.agenda.trans h.agenda
  cur := g.cur.trans h.cur
  draws := g.draws.trans h.draws

/-! ## The control core -/

/-- Retiring answers a next state in which only x[rd], the pc and minstret have changed. -/
theorem State.retire_spec (s : State) (rd : Reg) (v : Word) (n : Nat) :
    ∃ t, s.retire rd v n = .next t ∧ Retires s t rd v (s.me.pc + BitVec.ofNat 64 n) := by
  refine ⟨_, rfl, rfl, ?_, ?_, SameElse.updMe s _ _⟩
  · intro r
    simp only [State.x, State.me_note, State.me_updMe, Core.xr_counted, Core.xr_advance, Core.xr_wx]
  · simp only [State.me_note, State.me_updMe]
    rw [Core.counted_eq]
    conv => lhs; rw [Core.wx_eq]
    rfl

theorem State.retireP_spec (s : State) (rd : Reg) (v : Word) :
    ∃ t, s.retireP rd v = .next t ∧ Retires s t rd v (s.me.pc + 8) := State.retire_spec s rd v 8

/-- A legal portable word of the control core goes to its meaning. -/
theorem withPort_ready {i : Instr} {p : PWord} (h : PortReady i p) (s : State) (k : PWord → Out) : withPort i s k = k p := by
  obtain ⟨r, h1, h2, h3⟩ := h
  simp [withPort, h1, h2, h3]

/-! ## Native words -/

theorem Bad.least_nil : Bad.least [] = none := by decide

theorem withNative_legal {s : State} {i : Instr} {r : Row} {w : NWord} (h : Legal s i r w) (k : Row → NWord → Out) :
    withNative i s k = k r w := by
  unfold withNative
  rw [h.row]
  simp only [h.fits, Bad.least_nil, h.sound]

theorem State.finish_ready (pre s : State) (ms : List Move) (h : TokensReady s ms) :
    State.finish pre s ms = .next (s.finished ms) := by
  unfold TokensReady at h
  unfold State.finish State.finished
  simp only [h, if_true]
  rfl

theorem grantCheck_stands {s : State} {n cls : Nat} (h : GrantStands s n cls) : grantCheck s n cls = none := by
  unfold grantCheck
  rw [if_neg (by rw [h.1]; exact Bool.false_ne_true), if_neg (by rw [h.2]; exact fun e => e rfl)]

/-- A word of engine A that acts. -/
theorem issueA_ready {s : State} {i : Instr} {r : Row} {w : NWord} (h : AccessReady s i r w) (act : Row → NWord → Except Out State)
    {s1 : State} (ha : act r w = .ok s1) (ht : TokensReady s1 (bitMoves .A w)) :
    issueA i s act = .next (s1.finished (bitMoves .A w)) := by
  unfold issueA
  rw [withNative_legal h.legal]
  simp only [h.guard, Bool.not_true, Bool.false_eq_true, if_false, ha]
  exact State.finish_ready _ _ _ ht

/-- A word of engine A whose guard fails does nothing but its token moves (11 R226). -/
theorem issueA_guarded {s : State} {i : Instr} {r : Row} {w : NWord} (h : Legal s i r w) (hg : s.guardHolds w = false)
    (act : Row → NWord → Except Out State) (ht : TokensReady s (bitMoves .A w)) :
    issueA i s act = .next (s.finished (bitMoves .A w)) := by
  unfold issueA
  rw [withNative_legal h]
  simp only [hg, Bool.not_false, if_true]
  exact State.finish_ready _ _ _ ht

/-- A control word that acts. -/
theorem issueC_ready {s : State} {i : Instr} {r : Row} {w : NWord} (h : ControlReady s i r w) (own : NWord → List Move)
    (act : Row → NWord → Except Out State) {s1 : State} (ha : act r w = .ok s1) (ht : TokensReady s1 (own w ++ bitMoves s.cur.eng w)) :
    issueC i s own act = .next (s1.finished (own w ++ bitMoves s.cur.eng w)) := by
  unfold issueC
  rw [withNative_legal h.legal]
  have h1 : (shadowRead s r w && decide (s.cur.eng ≠ .A)) = false := by
    rcases h.clear with h | h <;> simp [h]
  have h2 : (r.guard && !s.guardHolds w) = false := by
    cases hg : r.guard with
    | false => rfl
    | true => simp [h.guard hg]
  simp only [h1, h2, Bool.false_eq_true, if_false, ha]
  exact State.finish_ready _ _ _ ht

/-- A word of engine M that does not idle. -/
theorem issueM_ready {s : State} {i : Instr} {r : Row} {w : NWord} (h : MatrixReady s i r w) (act : Row → NWord → Except Out State)
    {s1 : State} (ha : act r w = .ok s1) (ht : TokensReady s1 (bitMoves .M w)) :
    issueM i s act = .next (s1.finished (bitMoves .M w)) := by
  unfold issueM
  rw [withNative_legal h.legal]
  simp only [h.clear, h.goes, Bool.false_eq_true, if_false, ha]
  exact State.finish_ready _ _ _ ht

/-! ## Token moves -/

/-- A move changes nothing but the token queues of the core at work. -/
theorem State.move_frame {s s1 : State} {m : Move} (h : s.move m = some s1) :
    s1.me = { s.me with tok := s1.me.tok } ∧ SameElse s s1 ∧ s1.note = s.note := by
  unfold State.move at h
  dsimp only at h
  split at h
  · split at h
    · cases h
      exact ⟨by simp only [State.me_updMe], SameElse.upd s _, rfl⟩
    · cases h
  · split at h
    · cases h
    · split at h
      · cases h
        exact ⟨by simp only [State.me_updMe], SameElse.upd s _, rfl⟩
      · cases h

theorem State.moves_frame (ms : List Move) : (s : State) →
    (s.moves ms).1.me = { s.me with tok := (s.moves ms).1.me.tok } ∧ SameElse s (s.moves ms).1 ∧ (s.moves ms).1.note = s.note := by
  induction ms with
  | nil => intro s; exact ⟨rfl, SameElse.refl s, rfl⟩
  | cons m t ih =>
    intro s
    cases hm : s.move m with
    | none => simp only [State.moves, hm]; exact ⟨trivial, SameElse.refl s, trivial⟩
    | some s1 =>
      simp only [State.moves, hm]
      obtain ⟨a1, a2, a3⟩ := State.move_frame hm
      obtain ⟨b1, b2, b3⟩ := ih s1
      exact ⟨b1.trans (by rw [a1]), a2.trans b2, b3.trans a3⟩

/-- Whether a move can be made, and what it leaves in the queues, depends on the tokens and the commands alone. -/
theorem State.move_agree {s s' : State} (hc : s'.cur = s.cur) (hk : s'.me.cmds = s.me.cmds) (ht : s'.me.tok = s.me.tok) (m : Move) :
    (s'.move m).map (fun x => x.me.tok) = (s.move m).map (fun x => x.me.tok) ∧
    (∀ x', s'.move m = some x' → x'.cur = s'.cur ∧ x'.me.cmds = s'.me.cmds) := by
  have he : ∀ e q, s'.me.tentOf e q = s.me.tentOf e q := by
    intro e q; unfold Core.tentOf Core.cmdOf; rw [hk]
  have hs : s'.tent = s.tent := by
    unfold State.tent State.cmd Core.cmdOf; rw [hk, hc]
  constructor
  · unfold State.move
    dsimp only
    rw [ht, hc, hs]
    split
    · split
      · simp only [Option.map_some, State.me_updMe, ht]
      · rfl
    · split
      · rfl
      · simp only [he]
        split
        · simp only [Option.map_some, State.me_updMe, ht]
        · rfl
  · intro x' hx
    obtain ⟨a1, a2, _⟩ := State.move_frame hx
    exact ⟨a2.cur, by rw [a1]⟩

theorem State.moves_agree (ms : List Move) : (s s' : State) → s'.cur = s.cur → s'.me.cmds = s.me.cmds → s'.me.tok = s.me.tok →
    (s'.moves ms).2 = (s.moves ms).2 ∧ (s'.moves ms).1.me.tok = (s.moves ms).1.me.tok := by
  induction ms with
  | nil => intro s s' _ _ ht; exact ⟨rfl, ht⟩
  | cons m t ih =>
    intro s s' hc hk ht
    have hm := (State.move_agree hc hk ht m).1
    cases h : s.move m with
    | none =>
      rw [h] at hm
      cases h' : s'.move m with
      | none => simp only [State.moves, h, h']; exact ⟨trivial, ht⟩
      | some x => rw [h'] at hm; cases hm
    | some x =>
      rw [h] at hm
      cases h' : s'.move m with
      | none => rw [h'] at hm; cases hm
      | some x' =>
        rw [h'] at hm
        simp only [Option.map_some, Option.some.injEq] at hm
        obtain ⟨c1, c2⟩ := (State.move_agree hc hk ht m).2 x' h'
        obtain ⟨f1, f2, _⟩ := State.move_frame h
        have := ih x x' (by rw [c1, f2.cur, hc]) (by rw [c2, hk, f1]) hm
        simp only [State.moves, h, h']
        exact ⟨by rw [Prod.ext_iff] at this; obtain ⟨⟨u, v⟩, _⟩ := this; simp only [u, v], this.2⟩

/-- Token moves stay ready under a change that keeps the turn, the commands, the tokens and the moves made. -/
theorem TokensReady.agree {s s' : State} {ms : List Move} (h : TokensReady s ms) (hc : s'.cur = s.cur)
    (hk : s'.me.cmds = s.me.cmds) (ht : s'.me.tok = s.me.tok) (hm : s'.ln.moved = s.ln.moved) : TokensReady s' ms := by
  unfold TokensReady at h ⊢
  rw [hm, (State.moves_agree _ s s' hc hk ht).1]
  exact h

/-- Once the moves are made, only the tokens and the count of moves made have changed. -/
theorem State.finished_frame (s : State) (ms : List Move) :
    (s.finished ms).note = .ok ∧ SameElse s (s.finished ms) ∧
    (s.finished ms).me = { s.me with
      tok := (s.finished ms).me.tok
      lineA := { s.me.lineA with moved := (s.finished ms).me.lineA.moved }
      lineM := { s.me.lineM with moved := (s.finished ms).me.lineM.moved }
      lineV := { s.me.lineV with moved := (s.finished ms).me.lineV.moved } } := by
  unfold State.finished
  dsimp only
  generalize hk : ms.drop (min s.ln.moved ms.length) = l
  obtain ⟨h1, h2, _⟩ := State.moves_frame l s
  refine ⟨rfl, h2.trans (SameElse.updMe _ _ _), ?_⟩
  simp only [State.me_note, State.updLn, State.me_updMe]
  rw [h1]
  cases (s.moves l).1.cur.eng <;> simp only [Core.updLine, Core.setLine, Core.line]

/-! ## Sources and the issue of a word of engine V -/

/-- Reading a source changes nothing but the queue that it pops. -/
theorem State.source_frame {s s1 : State} {r : Row} {w : NWord} {f : Nat} {v : Vec} (h : s.source r w f = some (s1, v)) :
    s1.me = { s.me with q := s1.me.q } ∧ SameElse s s1 ∧ s1.note = s.note := by
  have pops : ∀ {n : Nat}, (s.pop n).map (fun p => (p.1, p.2.data)) = some (s1, v) →
      s1.me = { s.me with q := s1.me.q } ∧ SameElse s s1 ∧ s1.note = s.note := by
    intro n hp
    unfold State.pop at hp
    cases hh : s.head n with
    | none => rw [hh] at hp; cases hp
    | some x =>
      rw [hh] at hp
      simp only [Option.map_some, Option.some.injEq, Prod.mk.injEq] at hp
      obtain ⟨rfl, _⟩ := hp
      exact ⟨by simp only [State.dropHead, State.me_updMe], SameElse.upd s _, rfl⟩
  have same : ∀ {u : Vec}, (some (s, u) : Option (State × Vec)) = some (s1, v) →
      s1.me = { s.me with q := s1.me.q } ∧ SameElse s s1 ∧ s1.note = s.note := by
    intro u hp
    simp only [Option.some.injEq, Prod.mk.injEq] at hp
    obtain ⟨rfl, _⟩ := hp
    exact ⟨rfl, SameElse.refl s, rfl⟩
  unfold State.source at h
  dsimp only at h
  split at h
  · exact same h
  · split at h
    all_goals first
      | exact same h
      | (split at h
         · exact same h
         · split at h
           · exact pops h
           · exact same h)

theorem Sources.frame {s s3 : State} {r : Row} {w : NWord} {a b c : Vec} (h : Sources s r w s3 a b c) :
    s3.me = { s.me with q := s3.me.q } ∧ SameElse s s3 := by
  obtain ⟨s1, s2, h0, h1, h2⟩ := h.pops
  obtain ⟨a1, a2, _⟩ := State.source_frame h0
  obtain ⟨b1, b2, _⟩ := State.source_frame h1
  obtain ⟨c1, c2, _⟩ := State.source_frame h2
  exact ⟨by rw [c1, b1, a1], a2.trans (b2.trans c2)⟩

/-- A word of engine V that is ready issues, once its own part gives what lands. -/
theorem issueV_ready {s : State} {i : Instr} {r : Row} {w : NWord} {s3 : State} {a b c : Vec} (h : VectorReady s i r w s3 a b c)
    (act : VCtx → VRes) (lands : List Landing) (fl : Flags)
    (ha : act { s := s3, r := r, w := w, a := a, b := b, c := c, g := s.guardBits w } = .ok lands fl) :
    ∃ t, issueV i s act = .next t ∧ Issues s s3 t r w lands fl := by
  obtain ⟨s1, s2, h0, h1, h2⟩ := h.srcs.pops
  obtain ⟨e1, e2⟩ := h.srcs.frame
  have hg : (if readsVL r.op = true then grantCheck s 0 1 else none) = none := by
    split
    · next hr => exact grantCheck_stands (h.grant hr)
    · rfl
  have hw : (wickWord s.fmode r w && s.wickFull) = false := by
    cases hk : wickWord s.fmode r w with
    | false => rfl
    | true => simp [h.room hk]
  generalize hd : (if wickWord s.fmode r w = true then (s3.fly w (trueLat r.op) (wickWord s.fmode r w) lands fl).askWick w
      else s3.fly w (trueLat r.op) (wickWord s.fmode r w) lands fl) = d
  have dcur : d.cur = s3.cur := by subst hd; split <;> rfl
  have dme : d.me = { s3.me with flights := s3.me.flights ++ [s.flightOf r w lands fl] } := by
    have hf : s3.fmode = s.fmode := by unfold State.fmode State.cap State.cmd Core.cmdOf; rw [e1, e2.cur]
    have : (s3.fly w (trueLat r.op) (wickWord s.fmode r w) lands fl).me
        = { s3.me with flights := s3.me.flights ++ [s.flightOf r w lands fl] } := by
      unfold State.fly State.flightOf
      dsimp only
      have hl : s3.ln = s.ln := by unfold State.ln; rw [e1, e2.cur]; cases s.cur.eng <;> rfl
      rw [State.me_updMe, hf, hl, e2.cur, e2.now]
      rw [show s3.me.vcycle = s.me.vcycle by rw [e1]]
    subst hd
    split
    · exact this
    · exact this
  have ht : TokensReady d (bitMoves .V w) := by
    refine h.tokens.agree dcur (by rw [dme]) (by rw [dme]) ?_
    unfold State.ln
    rw [dcur, dme]
    cases s3.cur.eng <;> rfl
  refine ⟨d.finished (bitMoves .V w), ?_, ?_⟩
  · unfold issueV
    rw [withNative_legal h.legal]
    simp only [h.clear, Bool.false_eq_true, if_false]
    rw [hg]
    simp only [h.whole, h0, h1, h2, hw, Bool.false_eq_true, if_false, ha]
    rw [hd]
    exact State.finish_ready _ _ _ ht
  · obtain ⟨f1, f2, f3⟩ := State.finished_frame d (bitMoves .V w)
    have hm : d.ln.moved = s3.ln.moved := by
      unfold State.ln
      rw [dcur, dme]
      cases s3.cur.eng <;> rfl
    have dt : (d.finished (bitMoves .V w)).me.tok = (s3.finished (bitMoves .V w)).me.tok := by
      unfold State.finished
      dsimp only
      rw [hm]
      have := (State.moves_agree ((bitMoves .V w).drop (min s3.ln.moved (bitMoves .V w).length)) s3 d dcur (by rw [dme]) (by rw [dme])).2
      simp only [State.me_note, State.updLn, State.me_updMe]
      generalize (d.moves _).1 = x at *
      generalize (s3.moves _).1 = y at *
      cases x.cur.eng <;> cases y.cur.eng <;> exact this
    have dcores : ∀ n, n ≠ s.cur.lcore → d.coreAt n = s.coreAt n := by
      intro n hn
      have hn3 : n ≠ s3.cur.lcore := by rw [e2.cur]; exact hn
      subst hd
      have : (s3.fly w (trueLat r.op) (wickWord s.fmode r w) lands fl).coreAt n = s3.coreAt n :=
        State.coreAt_updMe_other s3 _ n hn3
      split
      · exact this.trans (e2.cores n hn)
      · exact this.trans (e2.cores n hn)
    have drest : d.cluster = s.cluster ∧ d.hub = s.hub ∧ d.hbm = s.hbm ∧ d.poison = s.poison ∧ d.now = s.now ∧ d.agenda = s.agenda ∧
        d.cur = s.cur ∧ d.draws = s.draws := by
      subst hd
      refine ⟨?_, ?_, ?_, ?_, ?_, ?_, ?_, ?_⟩
      · split <;> exact e2.cluster
      · split <;> exact e2.hub
      · split <;> exact e2.hbm
      · split <;> exact e2.poison
      · split <;> exact e2.now
      · split <;> exact e2.agenda
      · split <;> exact e2.cur
      · split <;> exact e2.draws
    have ddies : ∀ k, d.dieAt k = if wickWord s.fmode r w ∧ k = dieOf s.cur.lcore
        then { s.dieAt k with wick := (s.dieAt k).wick ++ [s.requestFor w] } else s.dieAt k := by
      intro k
      have hdie : ∀ k, s3.dieAt k = s.dieAt k := by intro k; unfold State.dieAt; rw [e2.die]
      have hvc : s3.me.vcycle = s.me.vcycle := by rw [e1]
      subst hd
      cases hk : wickWord s.fmode r w with
      | false => simp only [Bool.false_eq_true, if_false, false_and]; exact hdie k
      | true =>
        simp only [if_true, true_and]
        by_cases hn : k = dieOf s.cur.lcore
        · subst hn
          rw [if_pos rfl]
          simp only [State.askWick, State.dieAt, State.setDie, State.fly, State.updMe_die, State.updMe_cur, e2.cur, e2.die,
            SMap.get_put_same, State.requestFor, State.me_updMe, hvc]
        · rw [if_neg hn]
          simp only [State.askWick, State.dieAt, State.setDie, State.fly, State.updMe_die, State.updMe_cur, e2.cur, e2.die,
            SMap.get_put_other _ _ _ _ _ hn]
    refine ⟨f1, ?_, ?_, dt, ?_, ?_, ?_, ?_⟩
    · rw [f3, dme, e1]
    · rw [f3, dme]
    · conv => lhs; rw [f3, dme, e1]
      conv => rhs; rw [f3, dme, e1]
    · intro n hn
      exact (f2.cores n (by rw [drest.2.2.2.2.2.2.1]; exact hn)).trans (dcores n hn)
    · intro k
      rw [← ddies k]
      unfold State.dieAt
      rw [f2.die]
    · obtain ⟨q1, q2, q3, q4, q5, q6, q7, q8⟩ := drest
      exact ⟨f2.cluster.trans q1, f2.hub.trans q2, f2.hbm.trans q3, f2.poison.trans q4, f2.now.trans q5, f2.agenda.trans q6,
        f2.cur.trans q7, f2.draws.trans q8⟩

end Sys2Proof.Machine
end

