-- ==== Sys2Proof/WellFormed.lean ====
section
/-! DEFINITION. When an instruction is well formed: its fields are those its encoding admits. An operation without an
encoding is well formed with any operands of its types. -/

namespace Sys2Proof

/-- The engines that an engine word may run on, and on which it is legal (05 R110). -/
def nativeWf (e : Eng) (i : Instr) : Bool :=
  match nativeRow i with
  | some (r, w) => (wordBad e r w).isEmpty && ((nativeCtor e r.op w.c).map (fun k => k w)) == some i
  | none => false

/-- A native word is well formed when some engine takes it. -/
def nativeWfAny (i : Instr) : Bool := nativeWf .A i || nativeWf .M i || nativeWf .V i

/-- A portable word is well formed when R85 to R87 and its own definition allow its fields. -/
def portWf (i : Instr) : Bool :=
  match portRow i with
  | some (r, p) => r.ok p && ((portCtor r.grp r.op p.imm18).map (fun k => k p)) == some i
  | none => false

/-- A frame is well formed when its KIND is its constructor's (12 R250). -/
def frameWf (i : Instr) : Bool :=
  match frameRow i with
  | some (k, f) => f.kind = k
  | none => false

/-- Well-formed instructions. -/
def Instr.wf (i : Instr) : Bool :=
  match i with
  | .rv64Instruction r false => r.wf
  | .rv64Instruction (.illegal b) true => b.toNat < 2 ^ 16 && (decode16 (b.setWidth 16)).isNone && controlLen (b.setWidth 16) = 2
  | .rv64Instruction _ true => true
  | i =>
    if (nativeRow i).isSome then nativeWfAny i
    else if (portRow i).isSome then portWf i
    else if (frameRow i).isSome then frameWf i
    else true

end Sys2Proof
end

