-- ==== Sys2Proof/Certificates/Slice0/Obligations.lean ====
section
/-! DEFINITION. The statements for the provers, family by family. -/

open Sys2Proof Sys2Proof.Machine Sys2Proof.Claims

/-- Every word of engine V that reads registers, queues and literals alone issues when it is ready: its result is in flight to the
destination that it names, and nothing else changes (07 R133, R134; 15 R327). The result has one landing there; PUNPACK has one for
each of its predicates but p0 (08 R181), and a VEXTR to an x register has none where element 0 is not active (08 R165). -/
def Obligations.VectorWordsIssue : Prop :=
  ∀ (i : Instr) (s : State) (r : Row) (w : NWord) (s3 : State) (a b c : Vec), vectorWord i = true → s.cur.eng = .V →
    VectorReady s i r w s3 a b c →
    ∃ t lands fl, exec i s = .next t ∧ Issues s s3 t r w lands fl ∧ (∀ l, l ∈ lands → landsIn s i w l) ∧ lands.length = landCount s w i

/-- The integer, logical and shift words write, in every active element and nowhere else, the result of R144 to R146 on its bits,
and set no flag. VABS, VNEG and VCPYSGN change the sign bit of the flushed element alone (07 R138, R134; 04 R76), give the canonical
NaN for a NaN, and set no flag. -/
def Obligations.IntegerAndSignWords : Prop :=
  (∀ (i : Instr) (s : State) (r : Row) (w : NWord) (s3 : State) (a b c : Vec) (F : Fmt) (f : Nat → Nat), s.cur.eng = .V →
    VectorReady s i r w s3 a b c → fmtOf w.ty.toNat = some F →
    (∀ k, signResult F (flushIn F s.fmode (element a F.w k).toNat) (flushIn F s.fmode (element b F.w k).toNat) i = some (f k)) →
    ∃ t, exec i s = .next t ∧
      Issues s s3 t r w (s.vland w.dst F.w ((active s (s.guardBits w) F.w).map (fun k => (k, f k)))) 0) ∧
  ∀ (i : Instr) (s : State) (r : Row) (w : NWord) (s3 : State) (a b c : Vec) (f : Nat → BitVec (width w.ty.toNat)), s.cur.eng = .V →
    VectorReady s i r w s3 a b c →
    (∀ k, intResult ([8, 9, 10, 12].contains w.ty.toNat) (width w.ty.toNat) (element a (width w.ty.toNat) k) (element b (width w.ty.toNat) k)
      (element c (width w.ty.toNat) k) i = some (f k)) →
    ∃ t, exec i s = .next t ∧
      Issues s s3 t r w (s.vland w.dst (width w.ty.toNat) ((active s (s.guardBits w) (width w.ty.toNat)).map (fun k => (k, (f k).toNat)))) 0

/-- The words that copy, broadcast, permute, slide, number, select, interleave, separate and expand elements write what R164 to R170 and 07
R149 give in every active element, and set no flag. A predicate word writes, in the bits that its guard lets it write, what R179 and R180
give, in the predicate that it names. The predicate of VSEL is the one that it names; VEXPAND's is its guard, by which it selects. -/
def Obligations.MoveAndPredicateWords : Prop :=
  (∀ (i : Instr) (s : State) (r : Row) (w : NWord) (s3 : State) (a b c : Vec) (v : Pred), s.cur.eng = .V →
    VectorReady s i r w s3 a b c →
    predResult (s.me.pget (s.pphys w.a.toNat)) (s.me.pget (s.pphys w.b.toNat)) (s.guardBits w) w.c.toNat i = some v →
    ∃ t, exec i s = .next t ∧ Issues s s3 t r w [.pred (s.pphys w.dst.toNat) v (s.guardBits w)] 0) ∧
  ∀ (i : Instr) (s : State) (r : Row) (w : NWord) (s3 : State) (a b c : Vec) (p : Pred) (f : Nat → BitVec (width w.ty.toNat)), s.cur.eng = .V →
    VectorReady s i r w s3 a b c →
    p = (match i with
      | .vsel _ => s.me.pget (s.pphys w.c.toNat)
      | _ => s.guardBits w) →
    (∀ k, moveResult a b p (width w.ty.toNat) (s.elems (width w.ty.toNat)) w.c.toNat k i = some (f k)) →
    ∃ t, exec i s = .next t ∧
      Issues s s3 t r w (s.vland w.dst (width w.ty.toNat) ((active s (s.guardBits w) (width w.ty.toNat)).map (fun k => (k, (f k).toNat)))) 0

/-- A finite pattern of any of the seven formats, decoded and rounded to its own format under any mode, is itself and sets no flag, unless
FMODE.SUB flushes results (04 R65, R74); an infinity is itself too, and a NaN gives the canonical NaN. Rounding to nearest even of a value in
a format's range gives a finite pattern than which none is nearer, the even one of two that are equally near, and sets NX exactly where the
value changes; the directed modes give the nearest on their side (04 R74). -/
def Obligations.RoundingIsRight : Prop :=
  (∀ (F : Fmt) (fm : Word) (mode : RMode) (x : Nat), F ∈ formats → x < 2 ^ F.w →
    (Fmode.sub fm ≠ 2 → finite (decodeF F x) = true → roundTo F fm mode (decodeF F x) = (x, 0)) ∧
    (∀ neg, decodeF F x = .inf neg → roundTo F fm mode (decodeF F x) = (x, 0)) ∧
    (∀ sig, decodeF F x = .nan sig → (roundTo F fm mode (decodeF F x)).1 = F.cnan)) ∧
  ∀ (F : Fmt) (fm : Word) (neg : Bool) (m : Nat) (e : Int), F ∈ formats → Fmode.sub fm ≠ 2 → 0 < m →
    let v := ratOf (.fin neg m e)
    distance v 0 ≤ ratOf (decodeF F F.maxP) →
    let r (mode : RMode) : Nat × Flags := roundTo F fm mode (.fin neg m e)
    let y (mode : RMode) : Rat := ratOf (decodeF F (r mode).1)
    (∀ mode, (mode = .rne ∨ mode = .rtz ∨ mode = .rup ∨ mode = .rdn) →
      (r mode).1 < 2 ^ F.w ∧ finite (decodeF F (r mode).1) = true ∧ ((r mode).2.getLsbD 0 = true ↔ y mode ≠ v)) ∧
    (∀ z, z < 2 ^ F.w → finite (decodeF F z) = true →
      distance v (y .rne) ≤ distance v (ratOf (decodeF F z)) ∧
      (distance v (y .rne) = distance v (ratOf (decodeF F z)) → ratOf (decodeF F z) ≠ y .rne → (r .rne).1 % 2 = 0) ∧
      (v ≤ ratOf (decodeF F z) → y .rup ≤ ratOf (decodeF F z)) ∧ v ≤ y .rup ∧
      (ratOf (decodeF F z) ≤ v → ratOf (decodeF F z) ≤ y .rdn) ∧ y .rdn ≤ v ∧
      (y .rtz = if neg then y .rup else y .rdn))

/-- VDEQ on a stream that may be used writes, in every active element, the decoded and scaled element of its row, rounded to the word's
type, in the state `s4` that the reads of its scales leave (an early commit among it); a stream that may not be used (its FMT 15, or,
as the model reads 03 R63 and 04 R73, a reserved SLOC or misaligned scales of kind 2, log entry 36), or an active element outside the
entry, is STREAMBAD (07 R155, R156, 03 R63). VADDM of a command that is not tentative puts its add of the active words to a row of the core's
own accumulator SRAM in flight (14 R317). -/
def Obligations.StreamAndRowAddWords : Prop :=
  (∀ (s : State) (r : Row) (w : NWord) (s3 s4 : State) (a b c : Vec) (F : Fmt) (xs : List (Machine.Num × Flags)), s.cur.eng = .V →
    VectorReady s (.vdeq (.nat w)) r w s3 a b c → fmtOf w.ty.toNat = some F →
    let st := s.me.stream (w.b.toNat - 0x310)
    let act := active s (s.guardBits w) (width w.ty.toNat)
    let inside (i : Nat) : Prop := elem c 32 2 ≤ elem c 32 1 + i ∧ elem c 32 1 + i - elem c 32 2 < 2048 / width (stFmt st)
    (streamBad st = false → (∀ i, i ∈ act → inside i) →
      decodeRow s3 .A st s.fmode (elem c 32 0) none (streamPicks s w (width (stFmt st)) a c) = .ok (s4, xs) → TokensReady s4 (bitMoves .V w) →
      ∃ t, exec (.vdeq (.nat w)) s = .next t ∧ Issues s4 s4 t r w
        (s.vland w.dst (width w.ty.toNat) (act.zip (xs.map (fun x => (roundTo F s.fmode (rmode s.fmode) x.1).1))))
        (orFlags (xs.map (fun x => (roundTo F s.fmode (rmode s.fmode) x.1).2 ||| x.2)))) ∧
    (streamBad st = true ∨ (∃ i, i ∈ act ∧ ¬ inside i) → exec (.vdeq (.nat w)) s = s.fault { code := 23 })) ∧
  ∀ (s : State) (r : Row) (w : NWord) (s3 : State) (a b c : Vec), s.cur.eng = .V → s.isTent = false →
    VectorReady s (.vaddm (.nat w)) r w s3 a b c →
    ∃ t, exec (.vaddm (.nat w)) s = .next t ∧
      Issues s s3 t r w [.acc w.dst.toNat (if w.ty = 0 then .addF true s.fmode else .addI) a (contMask 32 (active s (s.guardBits w) 32))] 0

/-- Wick takes the oldest request that it has not taken, at most one in 8 cycles, and returns the oldest of its queue, whose result is then
available at its core, with the uncorrectable error that Wick met, if any (07 R159); a result declared too short is available once its
latency has passed, as the model reads 15 R327 (log entry 49). Nothing else changes (07 R158).
Where every result due at the virtual cycle is there and can complete they all land, and leave the flight list; where one cannot
complete none lands, and nothing changes (02 R45, 07 R133, 15 R327). A landing writes the bits that its mask names and no other: of
one vector register, or of one predicate, p0 keeping its ones. -/
def Obligations.ResultsAndLandings : Prop :=
  (∀ s : State,
    let k := dieOf s.cur.lcore
    let d := s.dieAt k
    (∀ l q m, d.wick = l ++ q :: m → (∀ x, x ∈ l → x.taken = true) → q.taken = false → d.wickAt ≤ s.now →
      ∃ t, exec .wickAccept s = .next t ∧ t.note = .ok ∧ t.dieAt k = { d with wick := l ++ { q with taken := true } :: m, wickAt := s.now + 8 } ∧
        (∀ n, n ≠ k → t.dieAt n = s.dieAt n) ∧ t.core = s.core ∧ t.cluster = s.cluster ∧ t.hub = s.hub ∧ t.hbm = s.hbm) ∧
    (∀ q l, d.wick = q :: l → q.taken = true →
      ∃ t, exec .wickReturn s = .next t ∧ t.note = .ok ∧ t.dieAt k = { d with wick := l } ∧ (∀ n, n ≠ k → t.dieAt n = s.dieAt n) ∧
        t.coreAt q.lcore = { s.coreAt q.lcore with flights := (t.coreAt q.lcore).flights } ∧
        (t.coreAt q.lcore).flights = (s.coreAt q.lcore).flights.map (fun f =>
          if f.wick = true ∧ f.seq = q.seq ∧ f.line = q.line ∧ f.slot = q.slot ∧ f.due = q.due then { f with ready := true, bad := f.bad || q.bad } else f) ∧
        (∀ n, n ≠ q.lcore → t.coreAt n = s.coreAt n) ∧ t.cluster = s.cluster ∧ t.hub = s.hub ∧ t.hbm = s.hbm) ∧
    (∀ f, f ∈ s.me.flights → f.wick = false → f.ready = false → f.avail ≤ s.now →
      ∃ t, exec .lateResultArrives s = .next t ∧ t.note = .ok ∧ SameElse s t ∧ t.me = { s.me with flights := t.me.flights } ∧
        t.me.flights = s.me.flights.map (fun f => if f.wick = false ∧ f.ready = false ∧ f.avail ≤ s.now then { f with ready := true } else f))) ∧
  ∀ s : State,
    let due := s.me.flights.filter (fun f => f.due ≤ s.me.vcycle)
    ((∀ f, f ∈ due → f.here s.now = true) →
      (∀ s1 fl, landAll s due = .ok s1 fl → ∃ t, exec .resultLanding s = .next t ∧ t.note = .ok ∧ t.cur = s.cur ∧
        t.me = { s1.me with flights := s1.me.flights.filter (fun f => s.me.vcycle < f.due), mwork := t.me.mwork } ∧
        (∀ n, n ≠ s.cur.lcore → t.coreAt n = s1.coreAt n) ∧ t.cluster = s1.cluster ∧ t.die = s1.die ∧ t.hub = s1.hub ∧ t.hbm = s1.hbm) ∧
      (landAll s due = .blocked → exec .resultLanding s = .next { s with note := .wait })) ∧
    (∀ n d m, ∃ s1, landOne s (.vreg n d m) = .ok s1 0 ∧ SameElse s s1 ∧ s1.me = { s.me with v := s1.me.v, vBad := s1.me.vBad } ∧
      ∀ k b, (s1.me.vget k).getLsbD b = if k = n ∧ m.getLsbD b = true then d.getLsbD b else (s.me.vget k).getLsbD b) ∧
    (∀ n d m, ∃ s1, landOne s (.pred n d m) = .ok s1 0 ∧ SameElse s s1 ∧ s1.me = { s.me with p := s1.me.p } ∧
      ∀ k b, (s1.me.pget k).getLsbD b = if k = n ∧ n ≠ 0 ∧ m.getLsbD b = true then d.getLsbD b else (s.me.pget k).getLsbD b)

/-- The sums, products and fused products of engine V and of Wick, the Newton steps, the minima and maxima, VSCALE and VCLASS write, in
every active element, the exact value rounded once under FMODE.RM, the chosen operand, or the class, from flushed operands, with the flags of
their elements (07 R136, R137, R139, R141, R148, R157). -/
def Obligations.FloatingWords : Prop :=
  ∀ (i : Instr) (s : State) (r : Row) (w : NWord) (s3 : State) (a b c : Vec) (F : Fmt) (f : Nat → Nat × Flags), s.cur.eng = .V →
    VectorReady s i r w s3 a b c → fmtOf w.ty.toNat = some F →
    (∀ k, floatResult F s.fmode (flushIn F s.fmode (element a F.w k).toNat) (flushIn F s.fmode (element b F.w k).toNat)
      (flushIn F s.fmode (element c F.w k).toNat) (element b F.w k).toInt i = some (f k)) →
    let act := active s (s.guardBits w) F.w
    ∃ t, exec i s = .next t ∧ Issues s s3 t r w (s.vland w.dst F.w (act.map (fun k => (k, (f k).1)))) (orFlags (act.map (fun k => (f k).2)))

/-- VDIV and VSQRT give, under EXACTDS, the quotient or root rounded once, and otherwise what div_seq and sqrt_seq give; VRECPE and VRSQRTE
give the exact value truncated to 12 bits; the specials and flags are those of the tables (07 R140, R142, R143). VEXP2E and VLOG2E
give the 12 leading bits of a number within a part in 2^63 of the exact one, the exact one where it is a power of two or log2 of one (07
R140; log entry 20). -/
def Obligations.DivideAndEstimateWords : Prop :=
  (∀ (i : Instr) (s : State) (r : Row) (w : NWord) (s3 : State) (a b c : Vec) (F : Fmt) (f : Nat → Nat × Flags), s.cur.eng = .V →
    VectorReady s i r w s3 a b c → fmtOf w.ty.toNat = some F →
    (∀ k, quotientResult F s.fmode (decodeF F (flushIn F s.fmode (element a F.w k).toNat))
      (decodeF F (flushIn F s.fmode (element b F.w k).toNat)) i = some (f k)) →
    let act := active s (s.guardBits w) F.w
    ∃ t, exec i s = .next t ∧ Issues s s3 t r w (s.vland w.dst F.w (act.map (fun k => (k, (f k).1)))) (orFlags (act.map (fun k => (f k).2)))) ∧
  ∀ (i : Instr) (s : State) (r : Row) (w : NWord) (s3 : State) (a b c : Vec) (F : Fmt), s.cur.eng = .V →
    (i = .vexp2e (.nat w) ∨ i = .vlog2e (.nat w)) → VectorReady s i r w s3 a b c → fmtOf w.ty.toNat = some F →
    let act := active s (s.guardBits w) F.w
    ∃ (t : State) (f : Nat → Nat × Flags), exec i s = .next t ∧ (∀ k, k ∈ act → TranscendentalResult F s.fmode (decodeF F (flushIn F s.fmode (element a F.w k).toNat)) (f k) i) ∧
      Issues s s3 t r w (s.vland w.dst F.w (act.map (fun k => (k, (f k).1)))) (orFlags (act.map (fun k => (f k).2)))

/-- VCVT, VCVTSR and VQUANT judge activity on the wide side and pair wide element i with narrow element PART·(2048/ww) + i; each result is the
source's value rounded to the destination's format, clamped to its integer type, or scaled by its block's E8M0 and rounded, stochastically
with the coordinates of its register where the rules say so (07 R150-R154). -/
def Obligations.ConversionWords : Prop :=
  (∀ (i : Instr) (s : State) (r : Row) (w : NWord) (s3 : State) (a b c : Vec), s.cur.eng = .V →
    (i = .vcvt (.nat w) ∨ i = .vcvtsr (.nat w)) → VectorReady s i r w s3 a b c →
    let src := w.c.toNat % 16
    let dst := w.ty.toNat
    let ww := max (width src) (width dst)
    let act := active s (s.guardBits w) ww
    let narrow (k : Nat) : Nat := w.c.toNat / 16 % 8 * (2048 / ww) + k
    let mode (k : Nat) : RMode :=
      if i = .vcvtsr (.nat w) ∨ (Fmode.sr s.fmode = true ∧ src ≤ 4 ∧ 1 ≤ dst ∧ dst ≤ 4)
      then stochastic s (if w.c.getLsbD 7 then b else 0) (narrow k) else rmode s.fmode
    let f (k : Nat) : Nat × Flags :=
      conversion src dst s.fmode (mode k) (w.c.getLsbD 8) (element a (width src) (if width src = ww then k else narrow k))
    ∃ t, exec i s = .next t ∧ Issues s s3 t r w
      (s.vland w.dst (width dst) (act.map (fun k => (if width src = ww then narrow k else k, (f k).1)))) (orFlags (act.map (fun k => (f k).2)))) ∧
  ∀ (s : State) (r : Row) (w : NWord) (s3 : State) (a b c : Vec), s.cur.eng = .V →
    VectorReady s (.vquant (.nat w)) r w s3 a b c →
    let ty := w.ty.toNat
    let act := active s (s.guardBits w) 32
    let narrow (k : Nat) : Nat := w.c.toNat % 32 * 64 + k
    let f (k : Nat) : Nat × Flags :=
      quantized ty s.fmode (if Fmode.sr s.fmode = true ∧ 3 ≤ ty ∧ ty ≤ 5 then stochastic s b (narrow k) else rmode s.fmode)
        (element a 32 k).toNat (element b 8 (narrow k / if ty = 5 then 4 else 32)).toNat
    ∃ t, exec (.vquant (.nat w)) s = .next t ∧ Issues s s3 t r w
      (s.vland w.dst (width ty) (act.map (fun k => (narrow k, (f k).1)))) (orFlags (act.map (fun k => (f k).2)))

/-- VCMP writes, in the predicate bit of each container with an active element, the AND of its elements' conditions; VEXTR and VINS move the one
element that they name; VCOMPRESS packs the selected elements and writes zeros up to E; PCNT counts bits, PTAIL compares containers with a
count of elements, PPACK and PUNPACK move eight predicates (07 R147, 08 R161, R165, R170, R180, R181). -/
def Obligations.CompareAndPackWords : Prop :=
  ∀ (s : State) (r : Row) (w : NWord) (s3 : State) (a b c : Vec), s.cur.eng = .V →
    let ty := w.ty.toNat
    let e := width ty
    let g := s.guardBits w
    let act := active s g e
    let issues (i : Instr) (lands : List Landing) (fl : Flags) : Prop := ∃ t, exec i s = .next t ∧ Issues s s3 t r w lands fl
    (VectorReady s (.vcmp (.nat w)) r w s3 a b c →
      let cond (k : Nat) : Bool × Flags := condition ty s.fmode (w.c.toNat % 32) (element a e k) (element b e k)
      ∃ d m : Pred, (∀ n, n < 64 → (m.getLsbD n = true ↔ ∃ k, k ∈ act ∧ k * e / 32 = n) ∧
          (d.getLsbD n = true ↔ m.getLsbD n = true ∧ ∀ k, k ∈ act → k * e / 32 = n → (cond k).1 = true)) ∧
        issues (.vcmp (.nat w)) [.pred (s.pphys w.dst.toNat) d m] (orFlags (act.map (fun k => (cond k).2)))) ∧
    (VectorReady s (.vextr (.nat w)) r w s3 a b c →
      let v := inRange a e (s.elems e) w.c.toNat
      issues (.vextr (.nat w)) (match s.step.bind (·.out) with
        | some k => if 0 ∈ act then [.greg k (if [8, 9, 10, 12].contains ty then v.signExtend 64 else v.setWidth 64)] else []
        | none => s.vland w.dst e (if 0 ∈ act then [(0, v.toNat)] else [])) 0) ∧
    (VectorReady s (.vins (.nat w)) r w s3 a b c →
      issues (.vins (.nat w)) (s.vland w.dst e (if w.c.toNat ∈ act then [(w.c.toNat, (element a e 0).toNat)] else [])) 0) ∧
    (VectorReady s (.vcompress (.nat w)) r w s3 a b c →
      ∃ f : Nat → BitVec e, (∀ k, k ∈ act → f (act.filter (· < k)).length = element a e k) ∧ (∀ k, act.length ≤ k → f k = 0) ∧
        issues (.vcompress (.nat w)) (s.vland w.dst e ((List.range (s.elems e)).map (fun k => (k, (f k).toNat)))) 0) ∧
    (VectorReady s (.pcnt (.nat w)) r w s3 a b c →
      let n := ((List.range 64).filter (fun k => (s.me.pget (s.pphys w.a.toNat)).getLsbD k)).length
      issues (.pcnt (.nat w)) (s.vland w.dst 32 ((List.range 64).map (fun k => (k, n)))) 0) ∧
    (VectorReady s (.ptail (.nat w)) r w s3 a b c →
      ∃ d : Pred, (∀ n, n < 64 → (d.getLsbD n = true ↔ n * (32 / e) < s.elems e ∧ (n * (32 / e) : Int) < (element a 32 0).toInt)) ∧
        issues (.ptail (.nat w)) [.pred (s.pphys w.dst.toNat) d g] 0) ∧
    (VectorReady s (.ppack (.nat w)) r w s3 a b c →
      issues (.ppack (.nat w)) (s.vland w.dst 64 ((List.range 32).map (fun k =>
        (k, if k < 8 then (s.me.pget (s.pphys (w.a.toNat + k))).toNat else 0)))) 0) ∧
    (VectorReady s (.punpack (.nat w)) r w s3 a b c →
      issues (.punpack (.nat w)) (((List.range 8).filter (fun k => w.dst.toNat + k ≠ 0)).map (fun k =>
        .pred (s.pphys (w.dst.toNat + k)) (element a 64 k) allOnes)) 0)

/-- The reductions write element 0: VREDSUM the fixed tree of rounded sums, VREDMAX and VREDMIN the extreme of the contributing elements, VREDISUM
the sum modulo 2^32. VSCAN writes the prefix sums, floating ones by the doubling schedule, with the flags of active lanes (log entry
115). VDOT adds the products of each active container to its addend, rounding once (08 R171-R177; 04 R81, R83; log entry 128). -/
def Obligations.ReductionWords : Prop :=
  ∀ (s : State) (r : Row) (w : NWord) (s3 : State) (a b c : Vec), s.cur.eng = .V →
    let ty := w.ty.toNat
    let e := width ty
    let n := s.elems e
    let act := active s (s.guardBits w) e
    let issues (i : Instr) (xs : List (Nat × Nat)) (ew : Nat) (fl : Flags) : Prop :=
      ∃ t, exec i s = .next t ∧ Issues s s3 t r w (s.vland w.dst ew xs) fl
    (∀ F, fmtOf ty = some F → VectorReady s (.vredsum (.nat w)) r w s3 a b c →
      let v := treeLane (sumStep s.fmode) (sumLeaf F s.fmode act a) (levels n) (levels n) 0
      let x := roundTo fp32 0 .rne v.1
      issues (.vredsum (.nat w)) [(0, if act = [] then 0 else x.1)] 32 (if act = [] then 0 else v.2 ||| x.2)) ∧
    (∀ (mx : Bool) F, fmtOf ty = some F → VectorReady s (if mx then .vredmax (.nat w) else .vredmin (.nat w)) r w s3 a b c →
      let x (k : Nat) : Nat := flushIn F s.fmode (element a F.w k).toNat
      let nan := act.any (fun k => (decodeF F (x k)).isNan)
      ∃ v, (nan = true → v = F.cnan) ∧ (act = [] → v = infinity F mx) ∧
        (act ≠ [] → nan = false → (∃ k, k ∈ act ∧ v = x k) ∧
          ∀ k, k ∈ act → (if mx then below (decodeF F v) (decodeF F (x k)) else below (decodeF F (x k)) (decodeF F v)) = false) ∧
        issues (if mx then .vredmax (.nat w) else .vredmin (.nat w)) [(0, v)] e (if act.any (fun k => (decodeF F (x k)).isSig) then Flag.nv else 0)) ∧
    (∀ mx : Bool, fmtOf ty = none → VectorReady s (if mx then .vredmax (.nat w) else .vredmin (.nat w)) r w s3 a b c →
      ∃ v : BitVec e, (act = [] → integer ty e v = if mx then (limits ty e).1 else (limits ty e).2) ∧
        (act ≠ [] → ∃ k, k ∈ act ∧ v = element a e k) ∧
        (∀ k, k ∈ act → if mx then integer ty e (element a e k) ≤ integer ty e v else integer ty e v ≤ integer ty e (element a e k)) ∧
        issues (if mx then .vredmax (.nat w) else .vredmin (.nat w)) [(0, v.toNat)] e 0) ∧
    (VectorReady s (.vredisum (.nat w)) r w s3 a b c →
      issues (.vredisum (.nat w)) [(0, ((act.map (fun k => integer ty e (element a e k))).sum % (2 : Int) ^ 32).toNat)] 32 0) ∧
    (∀ (exc : Bool) F, fmtOf ty = some F → VectorReady s (if exc then .vscanExc (.nat w) else .vscanInc (.nat w)) r w s3 a b c →
      let lane (t i : Nat) : Machine.Num × Flags := scanLane s.fmode (sumLeaf F s.fmode act a) t i
      let out (i : Nat) : Nat × Flags :=
        if exc then (if act.any (· < i) then roundTo F s.fmode (rmode s.fmode) (lane (levels n) (i - 1)).1 else (0, 0))
        else roundTo F s.fmode (rmode s.fmode) (lane (levels n) i).1
      issues (if exc then .vscanExc (.nat w) else .vscanInc (.nat w)) (act.map (fun i => (i, (out i).1))) e
        (orFlags (act.flatMap (fun i => (List.range (levels n)).map (fun t => (lane (t + 1) i).2))) ||| orFlags (act.map (fun i => (out i).2)))) ∧
    (∀ exc : Bool, fmtOf ty = none → VectorReady s (if exc then .vscanExc (.nat w) else .vscanInc (.nat w)) r w s3 a b c →
      issues (if exc then .vscanExc (.nat w) else .vscanInc (.nat w)) (act.map (fun i =>
        (i, ((act.filter (fun k => if exc then k < i else k ≤ i)).map (fun k => (element a e k).toNat)).sum % 2 ^ e))) e 0) ∧
    (VectorReady s (.vdot (.nat w)) r w s3 a b c →
      let cells := (List.range 64).filter (fun i => (s.guardBits w).getLsbD i && i * 32 / e < n)
      let pairs (i : Nat) : List Nat := (List.range n).filter (fun k => k * e / 32 = i)
      let out (i : Nat) : Nat × Flags := match fmtOf ty with
        | some F => dotResult s.fmode (decodeF fp32 (flushIn fp32 s.fmode (element c 32 i).toNat))
            ((pairs i).map (fun k => (decodeF F (flushIn F s.fmode (element a F.w k).toNat), decodeF F (flushIn F s.fmode (element b F.w k).toNat))))
        | none => ((((element c 32 i).toInt + ((pairs i).map (fun k => (element a e k).toInt * (element b e k).toInt)).sum) % (2 : Int) ^ 32).toNat, 0)
      issues (.vdot (.nat w)) (cells.map (fun i => (i, (out i).1))) 32 (orFlags (cells.map (fun i => (out i).2))))

/-- A register-to-register operation, LUI, AUIPC, an operation with an immediate, one on 32 bits and one of one operand each write what
the standard gives, and retire; x0 stays zero (06 R112). -/
def Obligations.RegisterOperations : Prop :=
  ∀ (s : State) (short : Bool) (rd rs1 rs2 : Reg),
    let pc := s.me.pc + (if short then 2 else 4)
    (∀ op : AluOp, ∃ t, exec (.rv64Instruction (.op op rd rs1 rs2) short) s = .next t ∧
      Retires s t rd (aluSpec (s.x rs1) (s.x rs2) op) pc) ∧
    (∀ imm : BitVec 20, ∃ t, exec (.rv64Instruction (.lui rd imm) short) s = .next t ∧
      Retires s t rd (BitVec.ofInt 64 (imm.toInt * 4096)) pc) ∧
    (∀ imm : BitVec 20, ∃ t, exec (.rv64Instruction (.auipc rd imm) short) s = .next t ∧
      Retires s t rd (s.me.pc + BitVec.ofInt 64 (imm.toInt * 4096)) pc) ∧
    (∀ (op : ImmOp) (imm : BitVec 12), ∃ t, exec (.rv64Instruction (.opImm op rd rs1 imm) short) s = .next t ∧
      Retires s t rd (immSpec (s.x rs1) (BitVec.ofInt 64 imm.toInt) op) pc) ∧
    (∀ op : AluOpW, ∃ t, exec (.rv64Instruction (.opW op rd rs1 rs2) short) s = .next t ∧
      Retires s t rd (aluWSpec (s.x rs1) (s.x rs2) op) pc) ∧
    (∀ op : UnOp, ∃ t, exec (.rv64Instruction (.unary op rd rs1) short) s = .next t ∧
      Retires s t rd (unarySpec (s.x rs1) op) pc)

/-- JAL and JALR link and jump, with bit 0 of the target cleared; a branch goes to its target where its condition holds and on
otherwise (06 R112). -/
def Obligations.JumpsAndBranches : Prop :=
  ∀ (s : State) (short : Bool) (rd rs1 rs2 : Reg),
    let next := s.me.pc + (if short then 2 else 4)
    (∀ off : BitVec 20, ∃ t, exec (.rv64Instruction (.jal rd off) short) s = .next t ∧
      Retires s t rd next ((s.me.pc + BitVec.ofInt 64 (2 * off.toInt)) &&& ~~~(1#64))) ∧
    (∀ imm : BitVec 12, ∃ t, exec (.rv64Instruction (.jalr rd rs1 imm) short) s = .next t ∧
      Retires s t rd next ((s.x rs1 + BitVec.ofInt 64 imm.toInt) &&& ~~~(1#64))) ∧
    (∀ (c : BrCond) (off : BitVec 12), ∃ t, exec (.rv64Instruction (.branch c rs1 rs2 off) short) s = .next t ∧
      Retires s t 0 0 (if branchTaken (s.x rs1) (s.x rs2) c then (s.me.pc + BitVec.ofInt 64 (2 * off.toInt)) &&& ~~~(1#64) else next))

/-- A naturally aligned load from the instruction or data store gives its bytes, extended as its width says, and changes nothing
but its register; a misaligned one traps with cause 4 and the address. A naturally aligned store to the data store writes the low bytes
of x[rs2], least significant first, and leaves every other byte of it, and everything else, as it was; a store to the instruction
store is machine mode's alone, and from user mode traps with cause 7; a misaligned one traps with cause 6 (06 R113, 20 R406). -/
def Obligations.LocalLoadsAndStores : Prop :=
  ∀ (s : State) (short : Bool) (k : MemW) (rd rs1 rs2 : Reg) (imm : BitVec 12),
    let a := s.x rs1 + BitVec.ofInt 64 imm.toInt
    let pc := s.me.pc + (if short then 2 else 4)
    (a.toNat % accessBytes k = 0 → ∀ o,
      (placeOf a.toNat = .dstore o → ∃ t, exec (.rv64Instruction (.load k rd rs1 imm) short) s = .next t ∧
        Retires s t rd (loadValue k (s.me.dstore.readN o (accessBytes k))) pc) ∧
      (placeOf a.toNat = .istore o → ∃ t, exec (.rv64Instruction (.load k rd rs1 imm) short) s = .next t ∧
        Retires s t rd (loadValue k (s.me.istore.readN o (accessBytes k))) pc)) ∧
    (a.toNat % accessBytes k ≠ 0 → ∃ t, exec (.rv64Instruction (.load k rd rs1 imm) short) s = .next t ∧ TakesTrap s t 4 a) ∧
    (a.toNat % accessBytes k = 0 → ∀ o,
      (placeOf a.toNat = .dstore o → s.me.dstore.wf = true → ∃ t m, exec (.rv64Instruction (.store k rs1 rs2 imm) short) s = .next t ∧
        RetiresAs s t { s.me with dstore := m } 0 0 pc ∧ m.wf = true ∧
        ∀ n, m.read n = if o ≤ n ∧ n < o + accessBytes k then (s.x rs2).extractLsb' (8 * (n - o)) 8 else s.me.dstore.read n) ∧
      (placeOf a.toNat = .istore o → s.me.mode = .M → s.me.istore.wf = true →
        ∃ t m, exec (.rv64Instruction (.store k rs1 rs2 imm) short) s = .next t ∧
        RetiresAs s t { s.me with istore := m } 0 0 pc ∧ m.wf = true ∧
        ∀ n, m.read n = if o ≤ n ∧ n < o + accessBytes k then (s.x rs2).extractLsb' (8 * (n - o)) 8 else s.me.istore.read n) ∧
      (placeOf a.toNat = .istore o → s.me.mode = .U →
        ∃ t, exec (.rv64Instruction (.store k rs1 rs2 imm) short) s = .next t ∧ TakesTrap s t 7 a)) ∧
    (a.toNat % accessBytes k ≠ 0 → ∃ t, exec (.rv64Instruction (.store k rs1 rs2 imm) short) s = .next t ∧ TakesTrap s t 6 a)

/-- An aligned load or store of the control core outside its stores and the windows goes to memory: in machine mode at its physical address,
in user mode where a leaf of its TLB or the walk of its table puts it. A missing page is the page fault 13 or 15, a page that its entry or
the space does not allow the access fault 5 or 7, with the address. A load gives, byte by byte, the core's own newest buffered
store or memory; a store to an RC or UO page enters the buffer, and one to an SO page is performed after those in it (06 R113, 14
R305, R306, R310, 19 R388, R389, 20 R406). -/
def Obligations.VirtualLoadsAndStores : Prop :=
  (∀ (s : State) (short : Bool) (k : MemW) (rd rs1 rs2 : Reg) (imm : BitVec 12) (va : Nat),
    let a := s.x rs1 + BitVec.ofInt 64 imm.toInt
    let pc := s.me.pc + (if short then 2 else 4)
    let n := accessBytes k
    let load := exec (.rv64Instruction (.load k rd rs1 imm) short) s
    let store := exec (.rv64Instruction (.store k rs1 rs2 imm) short) s
    placeOf a.toNat = .mem va → a.toNat % n = 0 → va = a.toNat ∧
    ((ctlXlate s s.cur.lcore va { rd := true }).2 = .perm → ∃ t, load = .next t ∧ TakesTrap s t 5 a) ∧
    (∀ l e, (ctlXlate s s.cur.lcore va { rd := true }).2 = .missing l e → ∃ t, load = .next t ∧ TakesTrap s t 13 a) ∧
    (∀ s1 pa e big, ctlXlate s s.cur.lcore va { rd := true } = (s1, .ok pa e big) →
      let s2 := if fld e 60 2 = 1 then s1.drainSbuf s.cur.lcore else s1
      s2.replLag s.cur.lcore pa n = false → (fld e 60 2 = 1 → s2.replPending s.cur.lcore = false) →
      (e.getLsbD 62 = true → ∀ b, b ∈ s2.me.sbuf → b.addr + b.data.length ≤ pa ∨ pa + n ≤ b.addr) → s2.memSub (dieOf s.cur.lcore) pa n = none →
      ∃ t, load = .next t ∧ Retires s2 t rd (loadValue k ((List.range n).map (fun j => seenByte s2 (pa + j)))) pc) ∧
    ((ctlXlate s s.cur.lcore va { wr := true }).2 = .perm → ∃ t, store = .next t ∧ TakesTrap s t 7 a) ∧
    (∀ l e, (ctlXlate s s.cur.lcore va { wr := true }).2 = .missing l e → ∃ t, store = .next t ∧ TakesTrap s t 15 a) ∧
    (∀ s1 pa e big, ctlXlate s s.cur.lcore va { wr := true } = (s1, .ok pa e big) →
      (fld e 60 2 ≠ 1 → ∃ t, store = .next t ∧
        RetiresAs s1 t { s1.me with sbuf := s1.me.sbuf ++ [{ addr := pa, data := lowBytes n (s.x rs2), repl := e.getLsbD 62 }] } 0 0 pc) ∧
      (fld e 60 2 = 1 → (s1.drainSbuf s.cur.lcore).replPending s.cur.lcore = false → ∃ t, store = .next t ∧
        Retires ((s1.drainSbuf s.cur.lcore).physWrite s.cur.lcore pa (lowBytes n (s.x rs2)) false) t 0 0 pc))) ∧
  ∀ (s : State) (va : Nat) (w : Want),
    let c := s.me
    (c.mode = .M → va < Config.hbmBytes → ∃ e, ctlXlate s s.cur.lcore va w = (s, .ok va e false) ∧ fld e 60 2 = 0 ∧ e.getLsbD 62 = false) ∧
    (c.mode = .M → Config.hbmBytes ≤ va → ctlXlate s s.cur.lcore va w = (s, .perm)) ∧
    (c.mode = .U → 2 ^ 55 ≤ va ∨ c.ptroot.getLsbD 0 = false → ctlXlate s s.cur.lcore va w = (s, .perm)) ∧
    (c.mode = .U → va < 2 ^ 55 → c.ptroot.getLsbD 0 = true →
      (∀ h, c.tlbC.find? (tlbHit (c.ptroot.extractLsb' 52 12) va) = some h → (w.rd = true → h.ent.getLsbD 2 = true) → (w.wr = true → h.ent.getLsbD 3 = true) →
        ctlXlate s s.cur.lcore va w = (s, .ok (65536 * fld h.ent 16 36 + va % (if h.big then 2 ^ 29 else 65536)) h.ent h.big)) ∧
      (c.tlbC.find? (tlbHit (c.ptroot.extractLsb' 52 12) va) = none →
        let top := tableEntry s (65536 * fld c.ptroot 16 36) va 2
        (top.getLsbD 0 = false → ∃ l e, (ctlXlate s s.cur.lcore va w).2 = .missing l e) ∧
        (∀ p1 p0 f, TableEntry top p1 → TableEntry (tableEntry s (65536 * p1) va 1) p0 → let leaf := tableEntry s (65536 * p0) va 0
          LeafEntry leaf f → (w.rd = true → leaf.getLsbD 2 = true) → (w.wr = true → leaf.getLsbD 3 = true) →
          ∃ s1, ctlXlate s s.cur.lcore va w = (s1, .ok (65536 * f + va % 65536) leaf false) ∧ s1.me = { c with tlbC := s1.me.tlbC } ∧ SameElse s s1)))

/-- MRET in machine mode goes to mepc in the mode that MPP holds, with MIE from MPIE, MPIE set and MPP cleared; in user mode it is
the illegal-instruction trap. WFI ends at once, but for user mode with mstatus.TW set, where it is that trap (06 R112, 20 R406, R409).
FENCE, once every replica has applied the core's stores, and FENCE.I retire: the buffered stores are performed in order, and later
fetches see the stores to the instruction store (06 R113, 14 R310, R313). -/
def Obligations.ReturnWaitAndFences : Prop :=
  (∀ s : State,
    (∀ fm pr su rd rs1, (s.drainSbuf s.cur.lcore).replPending s.cur.lcore = false →
      ∃ t, exec (.fence fm pr su rd rs1) s = .next t ∧ Retires (s.drainSbuf s.cur.lcore) t 0 0 (s.me.pc + 4) ∧ t.me.sbuf = []) ∧
    (∀ imm rd rs1, ∃ t, exec (.fenceI imm rd rs1) s = .next t ∧ RetiresAs s t { s.me with ifetch := s.me.istore } 0 0 (s.me.pc + 4))) ∧
  ∀ s : State,
    (s.me.mode = .M → s.me.orphan = false → ∃ t, exec .mret s = .next t ∧ t.note = .ok ∧ SameElse s t ∧
      t.me.pc = s.me.mepc ∧ t.me.mode = (if fld s.me.mstatus 11 2 = 3 then .M else .U) ∧
      t.me.mstatus.getLsbD 3 = s.me.mstatus.getLsbD 7 ∧ t.me.mstatus.getLsbD 7 = true ∧ fld t.me.mstatus 11 2 = 0 ∧
      (∀ k, k ≠ 3 → k ≠ 7 → k ≠ 11 → k ≠ 12 → t.me.mstatus.getLsbD k = s.me.mstatus.getLsbD k) ∧ t.me.x = s.me.x ∧
      t.me.mepc = s.me.mepc ∧ t.me.mcause = s.me.mcause ∧ t.me.mtval = s.me.mtval ∧ t.me.mtvec = s.me.mtvec ∧
      t.me.mscratch = s.me.mscratch ∧ t.me.acc = s.me.acc ∧ t.me.dstore = s.me.dstore ∧ t.me.istore = s.me.istore) ∧
    (s.me.mode = .U → ∃ t, exec .mret s = .next t ∧ TakesTrap s t 2 0x30200073) ∧
    (∀ short, ¬ (s.me.mode = .U ∧ s.me.mstatus.getLsbD 21 = true) → ∃ t, exec (.rv64Instruction .wfi short) s = .next t ∧
      Retires s t 0 0 (s.me.pc + (if short then 2 else 4))) ∧
    (∀ short, s.me.mode = .U → s.me.mstatus.getLsbD 21 = true → ∃ t, exec (.rv64Instruction .wfi short) s = .next t ∧
      TakesTrap s t 2 0x10500073)

/-- ECALL, EBREAK, TRAPV and the encodings that no instruction has take their trap from any state: cause 8 or 11 with value 0, cause 3
with the pc, cause 24 with the immediate, and cause 2 with the bits found (06 R122, 20 R406). A portable word of the line engines that
reaches the control core, a portable word with a field that its definition does not allow, and a word of the 64-bit length of an op
that nothing assigns are illegal instructions: trap 2, with the whole word as its value, and no other effect (05 R88).
An engine's trap, or an interrupt, that is the first item pending at the boundary is taken: the trap entry of R406, with the engine's own
cause and value, or the interrupt's cause and value 0: so an engine's trap from user mode where no engine before it has one, and an interrupt
that is pending and enabled in user mode where no engine has one and none of those before it in R408's order is. Engine traps come before
interrupts, A's before M's before V's (20 R407, R408). Where the resident runtime handles VSTACK or PREIP, what it does in the same step is
not stated here. -/
def Obligations.TrapsAreTaken : Prop :=
  (∀ s : State,
    (∃ t, exec .ecall s = .next t ∧ TakesTrap s t (match s.me.mode with | .U => 8 | .M => 11) 0) ∧
    (∀ short, ∃ t, exec (.ebreak short) s = .next t ∧ TakesTrap s t 3 s.me.pc) ∧
    (∀ bits short, ∃ t, exec (.rv64Instruction (.illegal bits) short) s = .next t ∧ TakesTrap s t 2 bits) ∧
    (∀ p, PortReady (.trapv p) p → ∃ t, exec (.trapv p) s = .next t ∧ TakesTrap s t 24 (p.imm18.setWidth 64))) ∧
  (∀ (i : Instr) (s : State) (r : PRow) (p : PWord), portRow i = some (r, p) → (controlForm i = false ∨ r.ok p = false) →
    ∃ t, exec i s = .next t ∧ TakesTrap s t 2 ((encodePort i).getD 0)) ∧
  (∀ (x : Word) (s : State), x.extractLsb' 0 7 = 0x3F#7 → decodePort x = none → ∃ t, exec (decodeControl x) s = .next t ∧ TakesTrap s t 2 x) ∧
  ∀ s : State,
    (∀ (e : Eng) (tr : ETrap), pendingItem s s.cur.lcore = some (.engine e) → (s.me.line e).trap = some tr → (tr.cause ≠ 27 ∨ s.me.resident = false) →
      ∃ t, exec .trapEntry s = .next t ∧ t.note = .trap tr.cause tr.val ∧ t.me.mepc = s.me.pc ∧ t.me.mcause = tr.cause ∧ t.me.mtval = tr.val ∧
        t.me.mode = .M ∧ (t.me.line e).trap = none ∧ t.me.handling.head? = some (some e) ∧ SameElse s t) ∧
    (∀ (e : Eng) (tr : ETrap), s.me.mode = .U → (s.me.line e).trap = some tr → tr.cause ≠ 27 →
      (∀ e', e' ≠ .X → engCode e' < engCode e → (s.me.line e').trap = none) →
      ∃ t, exec .trapEntry s = .next t ∧ SameElse s t ∧ t.me.mepc = s.me.pc ∧ t.me.mcause = tr.cause ∧ t.me.mtval = tr.val ∧ t.me.mode = .M ∧
        t.me.pc = s.me.mtvec &&& ~~~(3#64) + (if s.me.mtvec.getLsbD 0 ∧ tr.cause.getLsbD 63 then 4 * (tr.cause &&& ~~~(0x8000000000000000#64)) else 0)) ∧
    (∀ l k m, s.me.mode = .U → (∀ e, (s.me.line e).trap = none) → [18, 17, 16, 11, 3, 7] = l ++ k :: m → k ≠ 17 →
      (∀ j, j ∈ l → (s.mipNow s.cur.lcore &&& s.me.mie).getLsbD j = false) → (s.mipNow s.cur.lcore &&& s.me.mie).getLsbD k = true →
      ∃ t, exec .trapEntry s = .next t ∧ TakesTrap s t (BitVec.ofNat 64 (2 ^ 63 + k)) 0) ∧
    (∀ k, pendingItem s s.cur.lcore = some (.irq k) → (k ≠ 17 ∨ s.me.resident = false) →
      ∃ t, exec .trapEntry s = .next t ∧ TakesTrap s t (BitVec.ofNat 64 (2 ^ 63 + k)) 0) ∧
    (pendingItem s s.cur.lcore = some (.irq 16) →
      ∃ t, exec .fbipInterrupt s = .next t ∧ TakesTrap s t 0x8000000000000010 0) ∧
    (pendingItem s s.cur.lcore = some (.irq 17) → s.me.resident = false →
      ∃ t, exec .preipInterrupt s = .next t ∧ TakesTrap s t 0x8000000000000011 0) ∧
    (pendingItem s s.cur.lcore = some (.irq 18) →
      ∃ t, exec .mcipInterrupt s = .next t ∧ TakesTrap s t 0x8000000000000012 0)

/-- AMO, LR and SC on a word or doubleword of a window that the core may use: the old value in rd, the new one in place, the
reservation set or ended, and nothing else changed; with rl the core's earlier stores come first. AMO and LR do so where the word carries
no uncorrectable error. SC succeeds only while the reservation of its doubleword stands, and otherwise writes 1 and does nothing else.
Misaligned, outside the windows, or on a window that the core may not use, they trap (14 R318). -/
def Obligations.WindowAtomics : Prop :=
  ∀ (s : State) (dbl aq rl : Bool) (rd rs1 rs2 : Reg) (k o : Nat),
    let a := s.x rs1
    let n := if dbl then 8 else 4
    let d := if rl then s.drainSbuf s.cur.lcore else s
    (a.toNat % n = 0 → windowOf a.toNat = some (k, o) → s.windowOk s.cur.lcore k = true →
      let old := leNat (d.accRead k o n)
      let oldReg : Word := if dbl then BitVec.ofNat 64 old else (BitVec.ofNat 32 old).signExtend 64
      ((rl = true → d.replPending s.cur.lcore = false) →
        (d.accPoison k o n = false → ∀ op, ∃ t, exec (.amoWindow op dbl aq rl rd rs1 rs2) s = .next t ∧
          Retires (d.accWrite k o (leBytes n (if dbl then (amoOp op (BitVec.ofNat 64 old) (s.x rs2)).toNat
            else (amoOp op (BitVec.ofNat 32 old) ((s.x rs2).setWidth 32)).toNat)) (some s.cur.lcore)) t rd oldReg (s.me.pc + 4)) ∧
        (d.accPoison k o n = false → ∃ t, exec (.lr dbl aq rl rd rs1) s = .next t ∧ RetiresAs d t { d.me with resv := some (a.toNat / 8 * 8) } rd oldReg (s.me.pc + 4)) ∧
        (s.me.resv = some (a.toNat / 8 * 8) → ∃ t, exec (.sc dbl aq rl rd rs1 rs2) s = .next t ∧
          Retires ((d.updMe (fun c => { c with resv := none })).accWrite k o (leBytes n (s.x rs2).toNat) (some s.cur.lcore)) t rd 0 (s.me.pc + 4))) ∧
      (s.me.resv ≠ some (a.toNat / 8 * 8) → ∃ t, exec (.sc dbl aq rl rd rs1 rs2) s = .next t ∧
        Retires s t rd 1 (s.me.pc + 4))) ∧
    (a.toNat % n ≠ 0 → (∀ op, ∃ t, exec (.amoWindow op dbl aq rl rd rs1 rs2) s = .next t ∧ TakesTrap s t 6 a) ∧
      (∃ t, exec (.lr dbl aq rl rd rs1) s = .next t ∧ TakesTrap s t 4 a) ∧ (∃ t, exec (.sc dbl aq rl rd rs1 rs2) s = .next t ∧ TakesTrap s t 6 a)) ∧
    (a.toNat % n = 0 → (windowOf a.toNat = none ∨ ∃ k o, windowOf a.toNat = some (k, o) ∧ s.windowOk s.cur.lcore k = false) →
      (∀ op, ∃ t, exec (.amoWindow op dbl aq rl rd rs1 rs2) s = .next t ∧ TakesTrap s t 7 a) ∧
      (∃ t, exec (.lr dbl aq rl rd rs1) s = .next t ∧ TakesTrap s t 5 a) ∧ (∃ t, exec (.sc dbl aq rl rd rs1 rs2) s = .next t ∧ TakesTrap s t 7 a))

/-- A Zicsr instruction on a CSR that its mode may read and, where it writes, write retires with the old value, and writes its operand, the
old value with the operand's bits set, or with them clear; a write of minstret is not counted on top of it. A write that waits changes
nothing but what it has performed. Any other access, a write of a read-only CSR among them, is the illegal-instruction trap with the
instruction as its value. From user mode every machine-level CSR is such (00 R10, 06 R112, 19 R397). -/
def Obligations.CsrInstructions : Prop :=
  ∀ (s : State) (short imm : Bool) (op : CsrOp) (rd src : Reg) (num : BitVec 12) (old : Word),
    let pc := s.me.pc + 4
    let run := exec (.rv64Instruction (.csr op rd imm src num) short) s
    let set := csrSet s s.me.mode num.toNat (csrNew old (if imm then src.setWidth 64 else s.x src) op)
    (csrGet s s.me.mode num.toNat = some old → op ≠ .rw → src = 0 → ∃ t, run = .next t ∧ Retires s t rd old pc) ∧
    (csrGet s s.me.mode num.toNat = some old → (op = .rw ∨ src ≠ 0) →
      (∀ s1, set = some (.ok s1) → num ≠ 0xB02 → s1.me.pc = s.me.pc → ∃ t, run = .next t ∧ Retires s1 t rd old pc) ∧
      (num = 0xB02 → s.me.mode = .M → ∃ t, run = .next t ∧ t.note = .ok ∧ SameElse s t ∧ (∀ r, t.x r = if r = rd ∧ rd ≠ 0 then old else s.x r) ∧
        t.me = { s.me with x := t.me.x, pc := pc, minstret := csrNew old (if imm then src.setWidth 64 else s.x src) op }) ∧
      (∀ s1, set = some (.wait s1) → run = .next { s1 with note := .wait }) ∧
      (set = none → ∃ t, run = .next t ∧ TakesTrap s t 2 (csrBits op rd imm src num)) ∧
      (num.toNat / 1024 = 3 → set = none)) ∧
    (csrGet s s.me.mode num.toNat = none → ∃ t, run = .next t ∧ TakesTrap s t 2 (csrBits op rd imm src num)) ∧
    (s.me.mode = .U → num.toNat / 256 % 4 ≠ 0 → csrGet s s.me.mode num.toNat = none)

/-- SETSHAPE stores a request and, in the same step, its grant, and absorbs the grant's record; GETSHAPE reads the grant, the request or
the short condition; SETSTREAM, with no CODE command pending, stores a stream (06 R114-R116, 22 R437). Nothing else changes. -/
def Obligations.ShapeAndStreamWords : Prop :=
  ∀ (s : State) (p : PWord),
    let pc := s.me.pc + 8
    (PortReady (.setshape p) p →
      let n := p.vd.toNat % 8
      let q := requestOf s p
      let g := grantOf (2 ^ s.me.gang.toNat) q
      ∃ t, exec (.setshape p) s = .next t ∧
        RetiresAs s t { s.me with shq := SMap.put s.me.shq n q, shp := SMap.put s.me.shp n g, sig := s.me.sig ++ grantRecord n g } 0 0 pc) ∧
    (PortReady (.getshape p) p →
      let q := SMap.get s.me.shq (p.vs1.toNat % 8) 0
      let g := SMap.get s.me.shp (p.vs1.toNat % 8) 0
      ∃ t, exec (.getshape p) s = .next t ∧
        Retires s t p.vd (if p.imm18 = 0 then g else if p.imm18 = 1 then q else if shortGrant q g then 1 else 0) pc) ∧
    (PortReady (.setstream p) p → (∀ m, m ∈ s.me.cmds → m.frame.kind ≠ 1) →
      ∃ t, exec (.setstream p) s = .next t ∧
        RetiresAs s t { s.me with st := SMap.put s.me.st (p.vd.toNat % 16) (streamOf (s.x p.vs1) (s.x p.vs2)) } 0 0 pc)

/-- The grant of a request is a function of it and of the gang's side (03 R53-R55). A request with a used dimension of 0, a type its class does
not allow, a reserved class or a polynomial above the cap is granted as 0. Any other keeps its class and type: a vector gets the
smaller of its request and 2,048 bits; a matrix sides rounded up to 8 and cut at 64 times the gang's side, and its depth cut at 4,096;
a polynomial its order rounded up to 8 times the side, and the side. TAIL is set exactly where a granted dimension exceeds its request,
MIRRORABLE for a matrix with a side of at most 32 and for an unbound polynomial of order at most 32; other fields are 0. -/
def Obligations.GrantsFollowTheTable : Prop :=
  ∀ (gang : Nat) (q : Word), gang < 3 →
    let g := grantOf (2 ^ gang) q
    let cap := 64 * 2 ^ gang
    let up (v m : Nat) : Nat := (v + m - 1) / m * m
    let kept (d0 d1 d2 : Nat) (tail mirr : Bool) : Prop := shpClass g = shpClass q ∧ shpTy g = shpTy q ∧ shpD g 0 = d0 ∧ shpD g 1 = d1 ∧
      shpD g 2 = d2 ∧ g.getLsbD 56 = tail ∧ g.getLsbD 57 = mirr ∧ fld g 58 6 = 0
    (shpClass q = 1 → shpTy q ≤ 14 → 0 < shpD q 0 → kept (min (shpD q 0) (2048 / width (shpTy q))) 0 0 false false) ∧
    (shpClass q = 2 → shpTy q ∈ [0, 1, 2, 3, 4, 5, 6, 10, 12] → 0 < shpD q 0 → 0 < shpD q 1 → 0 < shpD q 2 →
      let m := min (up (shpD q 0) 8) cap
      let n := min (up (shpD q 1) 8) cap
      kept m n (min (shpD q 2) 4096) (shpD q 0 < m ∨ shpD q 1 < n) (m ≤ 32 ∨ n ≤ 32)) ∧
    (shpClass q = 3 → shpTy q ≤ 4 → 0 < shpD q 0 → up (shpD q 0) (8 * 2 ^ gang) ≤ cap →
      kept (up (shpD q 0) (8 * 2 ^ gang)) (2 ^ gang) 0 (shpD q 0 < up (shpD q 0) (8 * 2 ^ gang)) (gang = 0 ∧ up (shpD q 0) 8 ≤ 32)) ∧
    (shpClass q = 0 ∨ 3 < shpClass q ∨ shpD q 0 = 0 ∨ (shpClass q = 1 ∧ shpTy q = 15) ∨
      (shpClass q = 2 ∧ (shpTy q ∉ [0, 1, 2, 3, 4, 5, 6, 10, 12] ∨ shpD q 1 = 0 ∨ shpD q 2 = 0)) ∨
      (shpClass q = 3 ∧ (4 < shpTy q ∨ cap < up (shpD q 0) (8 * 2 ^ gang))) → g = 0)

/-- CMDPUSH of a frame that can be read and passes the checks, and MNGO of a nest that does, give the sequence number of a new command at
the end of the queue, which holds what the core captured; SEQNO goes on by one, and the command's record is absorbed (06 R117, 09
R204, 22 R437). The frame of a nest is one of kind 1 on engine M, the model's choice (log entry 34). -/
def Obligations.CommandPush : Prop :=
  ∀ (s : State) (p : PWord),
    (∀ s1 bs s2 q, PortReady (.cmdpush p) p → (s.x p.vs1).toNat % 128 = 0 → ctlReadDws s s.cur.lcore (s.x p.vs1).toNat 16 = .ok s1 bs →
      enqueue s1 (Frame.ofList (wordsOf 16 bs)) none none = .ok s2 q →
      ∃ t, exec (.cmdpush p) s = .next t ∧ Retires s2 t p.vd (q.setWidth 64) (s2.me.pc + 8)) ∧
    (PortReady (.cmdpush p) p → (s.x p.vs1).toNat % 128 ≠ 0 → ∃ t, exec (.cmdpush p) s = .next t ∧ TakesTrap s t 4 (s.x p.vs1)) ∧
    (∀ s1 bs k, PortReady (.cmdpush p) p → (s.x p.vs1).toNat % 128 = 0 → ctlReadDws s s.cur.lcore (s.x p.vs1).toNat 16 = .ok s1 bs →
      enqueue s1 (Frame.ofList (wordsOf 16 bs)) none none = .bad k →
      ∃ t, exec (.cmdpush p) s = .next t ∧ TakesTrap s t 25 (s.x p.vs1 ||| BitVec.ofNat 64 k)) ∧
    (∀ s2 q, let e := nestExtent s.me
      let f : Frame := { dw0 := 0x101, dw3 := s.x p.vs1, dw4 := s.x p.vs2, dw13 := BitVec.ofNat 64 (e.1.toNat + (e.2 - e.1).toNat * 2 ^ 32) }
      PortReady (.mngo p) p → 0 ≤ e.1 → e.2 ≤ (Config.spadBytes : Int) → nestBad s.me = false → enqueueReason s f false false = none →
      enqueue s f (some s.me.nest) none = .ok s2 q →
      ∃ t, exec (.mngo p) s = .next t ∧ Retires s2 t p.vd (q.setWidth 64) (s2.me.pc + 8)) ∧
    (∀ f nest group s2 q, enqueue s f nest group = .ok s2 q →
      q = s.me.seqno ∧ s2.me.seqno = s.me.seqno + 1 ∧ s2.me.pc = s.me.pc ∧ s2.me.x = s.me.x ∧
      ∃ m, s2.me.cmds = s.me.cmds ++ [m] ∧ m.seq = q ∧ m.st = .queued ∧ m.cap.fmode = s.me.fmode ∧ m.cap.srseed = s.me.srseed ∧ m.cap.nest = nest ∧
        (∀ k, k < 3 → SMap.get m.cap.shp k 0 = SMap.get s.me.shp k 0 ∧ SMap.get m.cap.shq k 0 = SMap.get s.me.shq k 0) ∧
        s2.me.sig = s.me.sig ++ cmdRecord m.frame q)

/-- RESPOP takes the oldest element of the FIFO that it names; WAITSEQ and MNWAIT answer how a sequence number stands, MNWAIT 3 for one
that is no nest's (06 R118, R119, 09 R206). While there is nothing to answer they wait and change nothing.
A bridge whose pushes are not yet made hands over its registers first, once engine A has no command left, and then makes its pushes,
after which BRSEQ.V is set; a bridge whose pushes are made waits while a command from its first on is pending, and then ends (15 R334).
What a bridge that waits has done is kept, and BRSEQ.V is set after the last push, as the model reads R334 (log entry 56). The four words
complete under these conditions alone. -/
def Obligations.AnswersAndBridges : Prop :=
  (∀ (s s1 : State) (p : PWord) (bs : List Byte), PortReady (.bridge p) p →
    ctlReadDws s s.cur.lcore (s.me.brtab + BitVec.ofNat 64 (64 * p.imm18.toNat)).toNat 8 = .ok s1 bs →
    let d := wordsOf 8 bs
    let r := p.imm18.toNat
    let made (c : Core) : Prop := c.brseq.getLsbD 63 = true ∧ fld c.brseq 32 16 = c.pc.toNat
    let settled (u : State) : Prop := ∀ m, m ∈ u.me.cmds → seqLt m.seq (u.me.brseq.setWidth 32) = true
    (made s1.me → settled s1 → ∃ t, exec (.bridge p) s = .next t ∧ BridgeEnds s1 t d) ∧
    (made s1.me → ¬ settled s1 → exec (.bridge p) s = .next { s1 with note := .wait }) ∧
    (∀ s2, ¬ made s1.me → bridgeStart r d bridgeFuel s1 = .ok s2 →
      s2.me.brseq.getLsbD 63 = true ∧ s2.me.brstep = 0 ∧
      (settled s2 → ∃ t, exec (.bridge p) s = .next t ∧ BridgeEnds s2 t d) ∧
      (¬ settled s2 → exec (.bridge p) s = .next { s2 with note := .wait })) ∧
    (¬ made s1.me → s1.me.bridgeAt = 0 →
      ((∃ m, m ∈ s1.me.cmds ∧ engOf m.frame.engCode = .A) → exec (.bridge p) s = .next { s1 with note := .wait }) ∧
      ((∀ m, m ∈ s1.me.cmds → engOf m.frame.engCode ≠ .A) → ∃ c,
        (∀ k, k < 32 → c.gget k = if (d.getD 1 0).getLsbD k = true then s1.x (BitVec.ofNat 5 k) else s1.me.gget k) ∧
        c = { s1.me with g := c.g, brstep := c.brstep } ∧
        ∀ fuel, bridgeStart r d (fuel + 1) s1 = bridgeStart r d fuel (s1.setMe c)))) ∧
  ∀ (s : State) (p : PWord),
    let pc := s.me.pc + 8
    let q : BitVec 32 := (s.x p.vs1).setWidth 32
    (∀ x l, PortReady (.respop p) p → s.me.fifo (engOf p.imm18.toNat) = x :: l →
      ∃ t, exec (.respop p) s = .next t ∧ RetiresAs s t (s.me.setFifo (engOf p.imm18.toNat) l) p.vd x pc) ∧
    (PortReady (.respop p) p → s.me.fifo (engOf p.imm18.toNat) = [] → exec (.respop p) s = .next { s with note := .wait }) ∧
    (∀ v, PortReady (.waitseq p) p → seqAnswer s.me q = some v → ∃ t, exec (.waitseq p) s = .next t ∧ Retires s t p.vd v pc) ∧
    (PortReady (.waitseq p) p → seqAnswer s.me q = none → exec (.waitseq p) s = .next { s with note := .wait }) ∧
    (∀ v, PortReady (.mnwaitControl p) p → seqAnswer s.me q = some v → (v = 2 ∨ q ∈ s.me.nests) →
      ∃ t, exec (.mnwaitControl p) s = .next t ∧ Retires s t p.vd v pc) ∧
    (PortReady (.mnwaitControl p) p → seqAnswer s.me q = none → q ∈ s.me.nests → exec (.mnwaitControl p) s = .next { s with note := .wait }) ∧
    (PortReady (.mnwaitControl p) p → seqAnswer s.me q ≠ some 2 → q ∉ s.me.nests →
      ∃ t, exec (.mnwaitControl p) s = .next t ∧ Retires s t p.vd 3 pc)

/-- CANCEL reports 2 for a name that stands for nothing the issuer may cancel and 1 for one that has ended, and changes nothing else; it
reports 0 for one that it cancels, whose request takes its place in the scheduler's order; no other core, cluster, die or byte of memory
changes by it. The scheduler applies the requests in that order: a unit that has not started is cancelled, one at work is rolled back
and ends unless its phase is in the commit, which goes on to its end first, and one that has ended, or whose launch has, is left alone.
A cancel of the issuing unit itself applies what was accepted and does not return: the core goes on in the resident runtime, in machine
mode (log entry 8), or waits while its own commit goes on (06 R120, 02 R30, R31, 18 R375). -/
def Obligations.Cancels : Prop :=
  ∀ (s : State) (p : PWord),
    let o := cancelOutcome s p
    (PortReady (.cancel p) p → o.1 ≠ 0 → ∃ t, exec (.cancel p) s = .next t ∧ Retires s t p.vd (BitVec.ofNat 64 o.1) (s.me.pc + 8)) ∧
    (PortReady (.cancel p) p → o.1 = 0 → holdsMe s o.2 = false →
      ∃ t, exec (.cancel p) s = .next t ∧ t.note = .ok ∧ (∀ r, t.x r = if r = p.vd then 0 else s.x r) ∧ t.me.pc = s.me.pc + 8 ∧
        t.me = { s.me with x := t.me.x, pc := t.me.pc, minstret := s.me.instretNext } ∧ t.hub.cancels = s.hub.cancels ++ [o.2] ∧ t.cluster = s.cluster ∧ t.die = s.die ∧ t.hbm = s.hbm ∧
        (∀ n, n ≠ s.cur.lcore → t.coreAt n = s.coreAt n) ∧
        (∀ n l, t.launchAt n = some l → ∃ l0, s.launchAt n = some l0 ∧ (l = l0 ∨ l = { l0 with cancelled := true }))) ∧
    (PortReady (.cancel p) p → o.1 = 0 → holdsMe s o.2 = true →
      let u := applyCancels (acceptCancel s o.2)
      (u.me.unit = none → ∃ t, exec (.cancel p) s = .next t ∧
        Becomes u t { u.me with mode := .M, pc := BitVec.ofNat 64 Config.runtimeTrap, orphan := false }) ∧
      (u.me.unit ≠ none → exec (.cancel p) s = .next { u with note := .wait })) ∧
    (∀ n idx l, s.launchAt n = some l → l.live = true →
      let was := SMap.get l.units idx .complete
      let l1 := { l with units := SMap.put l.units idx .cancelled, kept := SMap.del l.kept idx }
      let after := applyCancel s { level := .unit, n := n, idx := idx }
      let c := s.coreAt (l.lc0 + idx)
      let s0 := stopTests s (dieOf (l.lc0 + idx)) n idx
      (was = .running → c.ph.stage = .run → after = unitEnds (rollback s0 (l.lc0 + idx) 1) (l.lc0 + idx) true) ∧
      (was = .running → c.ph.stage ≠ .run → after = s0.setCore (l.lc0 + idx) { c with ph := { c.ph with ending := true } }) ∧
      (was ≠ .running → was ≠ .complete → was ≠ .cancelled → l1.left ≠ 0 → after.launchAt n = some l1) ∧
      (was = .complete ∨ was = .cancelled → after = s)) ∧
    (∀ r l, s.hub.cancels = r :: l →
      exec .cancelApply s = .next { applyCancel { s with hub := { s.hub with cancels := l } } r with note := .ok }) ∧
    (∀ n l, s.launchAt n = some l → 2 ≤ l.status → cancelLaunch s n = s)

/-- The Almanac words on an entry that the launch holds: TTDECL declares a free entry with a valid descriptor and answers 0, 1 for one
that is declared, 2 for a descriptor that is not valid; TTVER, with nothing pending, answers 2 for an entry that is not the core's
and 1 once a command was pushed; SPECQ reads the entry; TTDROP frees it, with what the core's unit was still due to record on it, and answers 2 where it is not the core's (13 R295-R298).
On an entry that the launch does not hold each is an illegal instruction (R294). -/
def Obligations.AlmanacWords : Prop :=
  ∀ (s : State) (p : PWord),
    let pc := s.me.pc + 8
    let e := p.imm18.toNat % 16
    let al := s.alm e
    (∀ s1 bs, PortReady (.ttdecl p) p → s.hasAlm e = true → (s.x p.vs1).toNat % 64 = 0 →
      ctlReadDws s s.cur.lcore (s.x p.vs1).toNat 8 = .ok s1 bs →
      let d := wordsOf 8 bs
      ((s1.alm e).live.owner ≠ none → ∃ t, exec (.ttdecl p) s = .next t ∧ Retires s1 t p.vd 1 (s1.me.pc + 8)) ∧
      ((s1.alm e).live.owner = none → descOk s1.myCluster d = false → ∃ t, exec (.ttdecl p) s = .next t ∧ Retires s1 t p.vd 2 (s1.me.pc + 8)) ∧
      ((s1.alm e).live.owner = none → descOk s1.myCluster d = true →
        let l : AlmLive := { desc := (List.range 5).map (fun k => (k, d.getD k 0)), owner := some s.cur.lcore, nv := (d.getD 0 0).extractLsb' 8 2, newest := (d.getD 0 0).extractLsb' 6 2, hit := 0, miss := 0, last := 0 }
        ∃ t, exec (.ttdecl p) s = .next t ∧ Retires (s1.setAlm e { live := l, start := l }) t p.vd 0 (s1.me.pc + 8))) ∧
    (PortReady (.ttver p) p → s.hasAlm e = true → s.me.cmds = [] → al.live.owner ≠ some s.cur.lcore →
      ∃ t, exec (.ttver p) s = .next t ∧ Retires s t p.vd 2 pc) ∧
    (PortReady (.ttver p) p → s.hasAlm e = true → s.me.cmds = [] → al.live.owner = some s.cur.lcore → s.me.ph.pushed = true →
      ∃ t, exec (.ttver p) s = .next t ∧ Retires s t p.vd 1 pc) ∧
    (PortReady (.ttver p) p → s.hasAlm e = true → s.me.cmds = [] → al.live.owner = some s.cur.lcore → s.me.ph.pushed = false →
      (∀ r, r < al.live.rows → poisoned s.myCluster.poison (al.live.home + r * al.live.hpitch) al.live.rb = false) →
      ∃ t, exec (.ttver p) s = .next t ∧ t.note = .ok ∧ (∀ r, t.x r = if r = p.vd then 0 else s.x r) ∧ t.me.pc = pc ∧
        (t.alm e).live = al.live.record ∧
        t.myCluster.spad = s.myCluster.spad.writeN (al.live.slot ((al.live.newest.toNat + 1) % 3))
          ((List.range al.live.rows).flatMap (fun r => s.myCluster.spad.readN (al.live.home + r * al.live.hpitch) al.live.rb)) ∧
        t.hub = s.hub ∧ t.hbm = s.hbm) ∧
    (PortReady (.specq p) p → s.hasAlm e = true →
      ∃ t, exec (.specq p) s = .next t ∧ Retires s t p.vd
        (if al.live.owner = none then 0 else if p.imm18.toNat / 16 % 4 = 1 then al.live.hit.setWidth 64
          else if p.imm18.toNat / 16 % 4 = 2 then al.live.miss.setWidth 64
          else BitVec.ofNat 64 ((if al.live.owner = some s.cur.lcore then 2 ^ 63 else 0) + (if al.spec.isSome then 2 ^ 62 else 0) +
            al.live.last.toNat * 2 ^ 60 + al.live.ty * 2 ^ 12 + al.live.order * 2 ^ 10 + al.live.nv.toNat * 2 ^ 8 + al.live.newest.toNat * 2 ^ 6)) pc) ∧
    (PortReady (.ttdrop p) p → s.hasAlm e = true → (∀ m, m ∈ s.me.cmds → m.frame.spec = true → m.frame.tile ≠ e) →
      (al.live.owner = some s.cur.lcore →
        let s1 := s.setAlm e {}
        let s2 := s1.setMyCluster { s1.myCluster with dues := s1.myCluster.dues.filter (fun d => d.1 ≠ s.cur.lcore || d.2.1 ≠ e) }
        ∃ t, exec (.ttdrop p) s = .next t ∧ RetiresAs s2 t { s.me with
          unit := s.me.unit.map (fun u => { u with specs := u.specs.filter (fun q => q.id.1 ≠ e) }) } p.vd 0 pc) ∧
      (al.live.owner ≠ some s.cur.lcore → ∃ t, exec (.ttdrop p) s = .next t ∧ Retires s t p.vd 2 pc)) ∧
    (∀ i, i = .ttdecl p ∨ i = .ttver p ∨ i = .specq p ∨ i = .ttdrop p → PortReady i p → s.hasAlm e = false →
      ∃ t, exec i s = .next t ∧ TakesTrap s t 2 ((encodePort i).getD 0))

/-- The flag, event, fence and ordered words of the control core, and its PWLD, retire with the effect of R267, R268, R313, R314 and R241;
those that wait do so while their condition does not hold. -/
def Obligations.ControlSyncWords : Prop :=
  ∀ (s : State) (p : PWord),
    let pc := s.me.pc + 8
    let n := p.imm18.toNat % 64
    let d := s.drainSbuf s.cur.lcore
    let flag (v : Bool) : Word := setFld s.me.fl n 1 (if v then 1 else 0)
    (PortReady (.flset (.port p)) p → ∃ t, exec (.flset (.port p)) s = .next t ∧ RetiresAs d t { d.me with fl := setFld d.me.fl n 1 1 } 0 0 (d.me.pc + 8)) ∧
    (PortReady (.flclr (.port p)) p → ∃ t, exec (.flclr (.port p)) s = .next t ∧ RetiresAs d t { d.me with fl := setFld d.me.fl n 1 0 } 0 0 (d.me.pc + 8)) ∧
    (PortReady (.flwaitSet (.port p)) p → (s.me.fl.getLsbD n = true → ∃ t, exec (.flwaitSet (.port p)) s = .next t ∧ Retires s t 0 0 pc) ∧
      (s.me.fl.getLsbD n = false → exec (.flwaitSet (.port p)) s = .next { s with note := .wait })) ∧
    (PortReady (.flwaitClr (.port p)) p → (s.me.fl.getLsbD n = false → ∃ t, exec (.flwaitClr (.port p)) s = .next t ∧ Retires s t 0 0 pc) ∧
      (s.me.fl.getLsbD n = true → exec (.flwaitClr (.port p)) s = .next { s with note := .wait })) ∧
    (PortReady (.flwaitTake (.port p)) p → (s.me.fl.getLsbD n = true → ∃ t, exec (.flwaitTake (.port p)) s = .next t ∧ RetiresAs s t { s.me with fl := flag false } 0 0 pc) ∧
      (s.me.fl.getLsbD n = false → exec (.flwaitTake (.port p)) s = .next { s with note := .wait })) ∧
    (PortReady (.evsigSet (.port p)) p → s.hasEvent n = true → ∃ t, exec (.evsigSet (.port p)) s = .next t ∧
      RetiresAs s t { s.me with ph := { s.me.ph with evSet := setFld s.me.ph.evSet n 1 1, evClr := setFld s.me.ph.evClr n 1 0 } } 0 0 pc) ∧
    (PortReady (.evsigClr (.port p)) p → s.hasEvent n = true → ∃ t, exec (.evsigClr (.port p)) s = .next t ∧
      RetiresAs s t { s.me with ph := { s.me.ph with evSet := setFld s.me.ph.evSet n 1 0, evClr := setFld s.me.ph.evClr n 1 1 } } 0 0 pc) ∧
    (PortReady (.evwait (.port p)) p → s.hasEvent n = true → (evView s.me s.myCluster).getLsbD n = true → s.heardAll = true →
      ∃ t, exec (.evwait (.port p)) s = .next t ∧ Retires s t 0 0 pc) ∧
    (PortReady (.evwaitClr (.port p)) p → s.hasEvent n = true → (evView s.me s.myCluster).getLsbD n = true → s.heardAll = true →
      ∃ t, exec (.evwaitClr (.port p)) s = .next t ∧
        RetiresAs s t { s.me with ph := { s.me.ph with evSet := setFld s.me.ph.evSet n 1 0, evClr := setFld s.me.ph.evClr n 1 1 } } 0 0 pc) ∧
    (∀ i, i = .evsigSet (.port p) ∨ i = .evsigClr (.port p) ∨ i = .evwait (.port p) ∨ i = .evwaitClr (.port p) → PortReady i p → s.hasEvent n = false →
      ∃ t, exec i s = .next t ∧ TakesTrap s t 2 ((encodePort i).getD 0)) ∧
    (∀ i, i = .evwait (.port p) ∨ i = .evwaitClr (.port p) → PortReady i p → s.hasEvent n = true →
      ((evView s.me s.myCluster).getLsbD n = false ∨ s.heardAll = false) →
      exec i s = .next { s with note := .wait }) ∧
    (PortReady (.fencevAcq (.port p)) p → ∃ t, exec (.fencevAcq (.port p)) s = .next t ∧ Retires s t 0 0 pc) ∧
    (∀ i, i = .fencevRel (.port p) ∨ i = .fencevSc (.port p) → PortReady i p →
      (d.relWaits s.cur.lcore (p.imm18.toNat % 8) = false → ∃ t, exec i s = .next t ∧ Retires d t 0 0 (d.me.pc + 8)) ∧
      (d.relWaits s.cur.lcore (p.imm18.toNat % 8) = true → exec i s = .next { d with note := .wait })) ∧
    (∀ s1 bs, PortReady (.ldacq (.port p)) p → ctlRead s s.cur.lcore (s.x p.vs1).toNat 8 = .ok s1 bs →
      ∃ t, exec (.ldacq (.port p)) s = .next t ∧ Retires s1 t p.vd (BitVec.ofNat 64 (leNat bs)) (s1.me.pc + 8)) ∧
    (∀ s1 bs, PortReady (.strel (.port p)) p → (s.x p.vs1).toNat % 8 = 0 → d.relWaits s.cur.lcore (p.imm18.toNat % 8) = false →
      ctlWrite d s.cur.lcore (s.x p.vs1).toNat (leBytes 8 (s.x p.vs2).toNat) = .ok s1 bs →
      ∃ t, exec (.strel (.port p)) s = .next t ∧ Retires s1 t 0 0 (s1.me.pc + 8)) ∧
    (PortReady (.pwld (.port p)) p →
      let w := p.vs1.toNat % 8
      let size := 2 ^ (p.imm18.toNat / 65536)
      let o := p.imm18.toNat % 65536
      (s.me.wsizeAt w = 0 → ∃ t, exec (.pwld (.port p)) s = .next t ∧ TakesTrap s t 28 (BitVec.ofNat 64 w)) ∧
      (s.me.wsizeAt w ≠ 0 → s.me.wsizeAt w < o + size → ∃ t, exec (.pwld (.port p)) s = .next t ∧
        RetiresAs s t { s.me with astat := s.me.astat ||| 1 } p.vd 0 pc) ∧
      (∀ s1 bs, s.me.wsizeAt w ≠ 0 → o + size ≤ s.me.wsizeAt w → ctlBytes s s.cur.lcore (s.me.wbaseAt w + o) size = .ok s1 bs →
        ∃ t, exec (.pwld (.port p)) s = .next t ∧ Retires s1 t p.vd (BitVec.ofNat 64 (leNat bs)) (s1.me.pc + 8)))

/-- An atomic of the control core on an aligned word of a window that the core may use: rd takes the old value, extended as its type says,
the word takes what R315 gives under the current FMODE, and no flag is set; with REL the core's earlier stores come first. A misaligned
one traps with cause 6, one outside the windows with cause 7. On INT32 and UINT32 words the sum is modulo 2^32, the larger and the smaller
are signed for INT32, ACAS stores only over its compare value, and no flag is set; AXCHG, ACAS, AOR and AAND work on the bits, whatever
the type (14 R315, R316). -/
def Obligations.ControlAtomics : Prop :=
  (∀ (op : Atom) (ty : Nat) (fm : Word) (old v cmp : BitVec 32), (ty = 8 ∨ ty = 9 ∨ (op ≠ .add ∧ op ≠ .max ∧ op ≠ .min)) →
    atomic op ty fm old.toNat v.toNat cmp.toNat = ((atomicInt (ty = 8) old v cmp op).toNat, 0)) ∧
  ∀ (s : State) (p : PWord) (op : Atom) (k o : Nat), PortReady (atomWord (.port p) op) p →
    let a := s.x p.vs1
    let d := if p.imm18.toNat / 16 % 2 = 1 then s.drainSbuf s.cur.lcore else s
    let old := leNat (d.accRead k o 4)
    let new := (atomic op p.ty.toNat s.me.fmode old (fld (s.x p.vs2) 0 32) (fld (s.x p.vd) 0 32)).1
    (a.toNat % 4 ≠ 0 → ∃ t, exec (atomWord (.port p) op) s = .next t ∧ TakesTrap s t 6 a) ∧
    (a.toNat % 4 = 0 → windowOf a.toNat = none → ∃ t, exec (atomWord (.port p) op) s = .next t ∧ TakesTrap s t 7 a) ∧
    (a.toNat % 4 = 0 → windowOf a.toNat = some (k, o) → s.windowOk s.cur.lcore k = true →
      (p.imm18.toNat / 16 % 2 = 1 → d.relWaits s.cur.lcore (scopeTo (p.imm18.toNat % 8) s.cur.lcore k) = false) →
      d.accPoison k o 4 = false →
      ∃ t, exec (atomWord (.port p) op) s = .next t ∧
        Retires (d.accWrite k o (leBytes 4 new) (some s.cur.lcore)) t p.vd
          (if p.ty = 8 then (BitVec.ofNat 32 old).signExtend 64 else BitVec.ofNat 64 old) (d.me.pc + 8))

/-- A remote atomic ends with the answer that has come: rd takes the old value, extended as the type says, where the status is 0 and 0
where it is not, and the next register takes the status; a block with reserved bits, or a peer entry that is not there or not valid,
ends it with status 3, and a tag first sent more than 100 ms and less than 1 s ago with status 2, and nothing is sent. With a good block, RDMA ready, the
phase's early commit made and the core's stores released at system scope, the request is sent on the peer's queue pair, a first send of
its tag is noted, and the word waits; it waits, too, until all of that holds and while no answer has come (14 R320-R323; 02
R37). The module's name in the request is its serial number, as the model reads R321 (log entry 32). -/
def Obligations.RemoteAtomics : Prop :=
  ∀ (s : State) (p : PWord) (op : Atom), PortReady (remoteWord p op) p →
    let ends (t s0 : State) (old status : Word) : Prop :=
      Retires ((s0.updMe (fun c => c.wx (p.vd + 1) status)).updMe (fun c => { c with rmt := none, rmtans := none })) t p.vd old (s0.me.pc + 8)
    let run := exec (remoteWord p op) s
    (∀ old st, s.me.rmtans = some (old, st) → ∃ t, run = .next t ∧
      ends t s (if st = 0 then (if p.ty = 8 then old.signExtend 64 else old.setWidth 64) else 0) (st.setWidth 64)) ∧
    (∀ r, s.me.rmtans = none → s.me.rmt = some r → run = .next { s with note := .wait }) ∧
    (s.me.rmtans = none → s.me.rmt = none → (s.x p.vs1).toNat % 64 ≠ 0 → ∃ t, run = .next t ∧ TakesTrap s t 4 (s.x p.vs1)) ∧
    (∀ s1 bs, s.me.rmtans = none → s.me.rmt = none → (s.x p.vs1).toNat % 64 = 0 →
      ctlReadDws s s.cur.lcore (s.x p.vs1).toNat 8 = .ok s1 bs →
      let b := wordsOf 8 bs
      let tag := b.getD 4 0
      let peer := (s.me.unit.bind (fun u => SMap.find s.hub.jobs u.job)).bind (fun j => SMap.find j.peers (fld (b.getD 0 0) 0 16))
      let first := s.hub.tags.find? (fun t => t.1 = tag && s.now - t.2 < 1000 * Config.cyclesPerMs)
      let reserved := (b.getD 0 0).toNat / 2 ^ 16 ≠ 0 ∨ b.getD 5 0 ≠ 0 ∨ b.getD 6 0 ≠ 0 ∨ b.getD 7 0 ≠ 0
      (peer = none ∨ reserved ∨ (∃ g q, peer = some (g, q, false)) → ∃ t, run = .next t ∧ ends t s1 0 3) ∧
      (∀ gid qp, peer = some (gid, qp, true) → ¬ reserved →
        (∀ t0, first = some t0 → 100 * Config.cyclesPerMs < s.now - t0.2 → ∃ t, run = .next t ∧ ends t s1 0 2) ∧
        ((∀ t0, first = some t0 → s.now - t0.2 ≤ 100 * Config.cyclesPerMs) →
          (s.isReady 44 = false → run = .next { s with note := .wait }) ∧
          (s1.me.unit ≠ none → (s1.me.ph.stage ≠ .run ∨ (s1.me.ph.acc37 = false ∧ s1.me.ph.mixed = true)) → run = .next { s with note := .wait }) ∧
          (∀ s2, s.isReady 44 = true → committedFirst s1 s2 →
            let d := s2.drainSbuf s.cur.lcore
            let r : RmtReq := { module := Config.serial.setWidth 64, tag := tag, op := remoteOp op, ty := p.ty, raddr := b.getD 1 0,
                                opnd := (b.getD 2 0).setWidth 32, cmp := (b.getD 3 0).setWidth 32 }
            (d.replPending s.cur.lcore = true → run = .next { d with note := .wait }) ∧
            (d.replPending s.cur.lcore = false → ∃ t, run = .next t ∧ t.note = .wait ∧ t.me = { d.me with rmt := some (tag, s.now) } ∧
              (∀ n, n ≠ s.cur.lcore → t.coreAt n = d.coreAt n) ∧ t.cluster = d.cluster ∧ t.die = d.die ∧ t.hbm = d.hbm ∧
              t.hub = { d.hub with
                tags := if first.isSome then s.hub.tags else s.hub.tags.filter (fun t => t.1 ≠ tag) ++ [(tag, s.now)]
                pkts := d.hub.pkts ++ [{ gid := gid, qp := qp, body := .request r }] })))))

/-- The words of native control flow act as R124 to R128 and R182 say on the engine's own line, and change nothing else but their
tokens: NOPV delays the next bundle of M or V, PBR prepares a target and may set LC, BR, BRL and RET go on at a prepared target, LOOP
while LC exceeds 1, HALT ends the part, TRAPV leaves its trap for the end of the bundle, and SETROT sets the bases. BRL links to the line
that NEXT names, of the line as it was read at its entry. Leaving by a target that is not prepared, and linking where the chain ends, is
NOTARGET (R129). HALT inside a segment is VIGIL's error (R128, 15 R332); that idle cycles alone count as inside is the model's choice, log
entry 128. -/
def Obligations.FlowWords : Prop :=
  ∀ (s : State) (r : Row) (w : NWord),
    let e := s.cur.eng
    let ms := bitMoves e w
    let put (f : Line → Line) : Core := s.me.updLine e f
    let entered (s1 : State) (dws : List Word) : Prop :=
      if (s.me.line e).buf = [] then ∃ s0 bs, fetchLine s e s.cur.line = .ok s0 bs ∧ dws = wordsOf 8 bs ∧
        s1 = s0.updMe (fun c => c.updLine e (fun l => { l with buf := dws }))
      else s1 = s ∧ dws = (s.me.line e).buf
    let inside : Bool := s.ln.checked && (s.ln.since || s.ln.segvc ≠ 0)
    let goes (i : Instr) (c : Core) : Prop := ControlReady s i r w → TokensReady s ms → ∃ t, exec i s = .next t ∧ Acts s t c ms
    goes (.nopv w) (if e = .A then s.me else put (fun l => { l with next := s.me.vcycle + w.c.toNat })) ∧
    goes (.pbr w) (put (fun l => { l with upc := { l.upc with
      bt := SMap.put l.upc.bt w.dst.toNat (s.cur.line + (w.b ++ w.c).signExtend 49, true), lc := if w.a = 0 then l.upc.lc else w.a.setWidth 32 } })) ∧
    (∀ line, s.ln.upc.target w.a.toNat = (line, true) →
      goes (.br w) (put (fun l => { l with goto := some line })) ∧
      goes (.ret w) (put (fun l => { l with goto := some line, upc := { l.upc with bt := SMap.put l.upc.bt w.a.toNat (line, false) } })) ∧
      (∀ s1 dws, entered s1 dws → chainEnd (dws.getD 0 0) = false → ControlReady s (.brl w) r w → s1.ln.upc.target w.a.toNat = (line, true) →
        TokensReady s1 ms → ∃ t, exec (.brl w) s = .next t ∧ Acts s1 t (s1.me.updLine e (fun l => { l with goto := some line, upc := { l.upc with
          bt := SMap.put l.upc.bt w.dst.toNat (s.cur.line + (nextOf (dws.getD 0 0)).signExtend 49, true) } })) ms) ∧
      (1 < s.ln.upc.lc.toNat → goes (.loop w) (put (fun l => { l with goto := some line, upc := loopTurn e l.upc })))) ∧
    (s.ln.upc.lc.toNat ≤ 1 → goes (.loop w) (put (fun l => { l with upc := loopTurn e l.upc }))) ∧
    (ControlReady s (.halt w) r w → inside = true →
      exec (.halt w) s = s.fault { code := 3, addr := s.lineAddr, misc := some (crcFinal s.ln.segcrc ++ s.ln.segvc) }) ∧
    (inside = false → goes (.halt w) (put (fun l => { l with stop := true }))) ∧
    goes (.trapvNative w) (put (fun l => { l with post := some { cause := 24, val := BitVec.ofNat 64 (w.c.toNat + 1024 * engCode e + 4096) } })) ∧
    goes (.setrot w) (put (fun l => { l with upc := { l.upc with
      vrb := if w.c.getLsbD 0 then w.a.setWidth 9 else l.upc.vrb, prb := if w.c.getLsbD 1 then w.b.setWidth 6 else l.upc.prb } })) ∧
    (∀ i, i = .br w ∨ i = .ret w ∨ (i = .loop w ∧ 1 < s.ln.upc.lc.toNat) → ControlReady s i r w → (s.ln.upc.target w.a.toNat).2 = false →
      exec i s = s.fault { code := 28, addr := s.lineAddr }) ∧
    (∀ s1 dws, entered s1 dws → ControlReady s (.brl w) r w → (chainEnd (dws.getD 0 0) = true → exec (.brl w) s = s.fault { code := 28, addr := s.lineAddr }) ∧
      (chainEnd (dws.getD 0 0) = false → (s1.ln.upc.target w.a.toNat).2 = false → exec (.brl w) s = s1.fault { code := 28, addr := s1.lineAddr }))

/-- Token, flag, event and fence words of the line engines. TKGIVE and TKTAKE make their own moves before those of their bits. A flag, or a
post, acts once the engine's earlier words have landed and, on A, its stores are made: at once where that holds, on M and V else in
its place among the landings, which is the model's reading (log entry 75). A wait ends when its condition holds; one for an event also
has its core's replica at what the cluster's last commit made known (14 R303, R310). FENCEV ACQ and REL wait for nothing, and REL leaves
its mark (log entry 84); SC has A's stores made, and from cluster scope on an early commit, and what it released of replicated pages
applied within its scope (12 R264-R268, 14 R308, R310, R313). -/
def Obligations.EngineSyncWords : Prop :=
  ∀ (s : State) (r : Row) (w : NWord),
    let e := s.cur.eng
    let ms := bitMoves e w
    let n := w.a.toNat
    let goes (i : Instr) (own : List Move) (c : Core) : Prop :=
      ControlReady s i r w → TokensReady s (own ++ ms) → ∃ t, exec i s = .next t ∧ Acts s t c (own ++ ms)
    let fence (i : Instr) (s1 : State) (c : Core) : Prop :=
      ControlReady s i r w → TokensReady s1 ms → ∃ t, exec i s = .next t ∧ Acts s1 t c ms
    let now : Prop := if e = .A then s.me.astores = [] else s.me.lastDue e ≤ s.me.vcycle
    let later : Prop := e ≠ .A ∧ s.me.vcycle < s.me.lastDue e
    goes (.tkgive w) (List.replicate n ⟨giveQ e (w.c = 1), true⟩) s.me ∧
    goes (.tktake w) (List.replicate n ⟨takeQ e (w.c = 1), false⟩) s.me ∧
    (s.isTent = false → now → goes (.flset (.nat w)) [] { s.me with fl := setFld s.me.fl n 1 1 } ∧
      goes (.flclr (.nat w)) [] { s.me with fl := setFld s.me.fl n 1 0 }) ∧
    (s.isTent = false → later → goes (.flset (.nat w)) [] (behind s (.flag n true)) ∧ goes (.flclr (.nat w)) [] (behind s (.flag n false))) ∧
    (s.me.fl.getLsbD n = true → goes (.flwaitSet (.nat w)) [] s.me ∧
      (s.isTent = false → goes (.flwaitTake (.nat w)) [] { s.me with fl := setFld s.me.fl n 1 0 })) ∧
    (s.me.fl.getLsbD n = false → goes (.flwaitClr (.nat w)) [] s.me) ∧
    (s.hasEvent n = true → goes (.evsigSet (.nat w)) [] (signalled s n true) ∧ goes (.evsigClr (.nat w)) [] (signalled s n false) ∧
      ((evView s.me s.myCluster).getLsbD n = true → s.myCluster.relUpd ≤ (s.dieAt (dieOf s.cur.lcore)).applied → goes (.evwait (.nat w)) [] s.me ∧ goes (.evwaitClr (.nat w)) [] (signalled s n false))) ∧
    (s.isTent = false → now → (s.me.fifo e).length < 16 → e ≠ .X →
      goes (.evsigPost (.nat w)) [] (s.me.setFifo e (s.me.fifo e ++ [if e = .A then s.me.gget n else (s.me.vget (s.vphys n)).setWidth 64]))) ∧
    (s.isTent = false → later → goes (.evsigPost (.nat w)) [] (behind s (.post (s.vphys n)))) ∧
    (∀ s1, readFirst s = .ok s1 → fence (.fencevAcq (.nat w)) s1 s1.me ∧ fence (.fencevRel (.nat w)) s1 (marked s1.me e)) ∧
    (∀ s1, (e = .A → s.me.astores = []) → w.c.toNat % 8 = 0 → readFirst s = .ok s1 → fence (.fencevSc (.nat w)) s1 (marked s1.me e)) ∧
    (∀ s1 s2, (e = .A → s.me.astores = []) → w.c.toNat % 8 ≠ 0 → beforeEarly s = some s1 → s1.relWaits s.cur.lcore (w.c.toNat % 8) = false →
      readFirst s1 = .ok s2 → fence (.fencevSc (.nat w)) s2 (marked s2.me e))

/-- A word of engine A, or a control word, whose guard fails does nothing but its token moves (06 R123, 11 R226, 12 R264). Token moves that
can all be made append the giver's command to each queue given to and remove the oldest tokens of each queue taken from, in order, and a
queue never holds more than 16 (12 R265). -/
def Obligations.FailedGuardsAndTokens : Prop :=
  (∀ (i : Instr) (s : State) (r : Row) (w : NWord), Legal s i r w → s.guardHolds w = false →
    (guardedWord i = true → TokensReady s (bitMoves .A w) → ∃ t, exec i s = .next t ∧ Acts s t s.me (bitMoves .A w)) ∧
    (guardedControl i = true → r.guard = true → (s.cur.eng = .A ∨ shadowRead s r w = false) → TokensReady s (bitMoves s.cur.eng w) →
      ∃ t, exec i s = .next t ∧ Acts s t s.me (bitMoves s.cur.eng w))) ∧
  (∀ (s : State) (ms : List Move), s.cur.eng ≠ .X → s.ln.moved = 0 → (∀ m, m ∈ ms → m.q < 6) → TokensReady s ms →
    (∀ q, q < 6 → (s.finished ms).me.tok.at q =
      (s.me.tok.at q ++ List.replicate (ms.filter (fun m => m.q = q && m.give)).length s.cur.seq).drop (ms.filter (fun m => m.q = q && !m.give)).length) ∧
    (s.finished ms).ln.moved = 0 ∧ SameElse s (s.finished ms) ∧
    ((∀ q, q < 6 → (s.me.tok.at q).length ≤ 16) → ∀ q, q < 6 → ((s.finished ms).me.tok.at q).length ≤ 16))

/-- The address arithmetic of engine A writes the g register that it names, and g0 stays zero; GMOVX takes a container of the head of qx0,
which is popped; GCMP writes every bit of its predicate, and p0 keeps its ones. Nothing else changes (11 R225, R229). -/
def Obligations.AddressArithmetic : Prop :=
  ∀ (s : State) (r : Row) (w : NWord),
    let ms := bitMoves .A w
    let x := s.gOf r w 0
    let y := s.gOf r w 1
    (∀ i v, addressResult x y i = some v → AccessReady s i r w → TokensReady s ms →
      ∃ t, exec i s = .next t ∧ Acts s t { s.me with g := t.me.g } ms ∧
        ∀ n, t.me.gget n = if n = w.dst.toNat ∧ n ≠ 0 then v else s.me.gget n) ∧
    (∀ h, s.head 0x306 = some h → h.bad = false → AccessReady s (.gmovx w) r w → TokensReady (s.dropHead 0x306) ms →
      ∃ t, exec (.gmovx w) s = .next t ∧ Acts (s.dropHead 0x306) t { s.me with g := t.me.g, q := { s.me.q with qx0 := s.me.q.qx0.drop 1 } } ms ∧
        ∀ n, t.me.gget n = if n = w.dst.toNat ∧ n ≠ 0 then (h.data.extractLsb' (32 * w.c.toNat) 32).setWidth 64 else s.me.gget n) ∧
    (AccessReady s (.gcmp w) r w → TokensReady s ms →
      ∃ t, exec (.gcmp w) s = .next t ∧ Acts s t { s.me with ap := t.me.ap } ms ∧
        ∀ n, t.me.apget n = if n = w.dst.toNat ∧ n ≠ 0 then (if signedCondition w.c.toNat x y then ~~~0 else 0) else s.me.apget n)

/-- The loads of engine A push the bytes read, with zeros above, onto the queue that they name, once it has room and the bytes are had:
ALD and ALDS E elements at the sum of their operands, ALDX a row for each index, VFILL and ANEST the entries of their parts. APREF
changes nothing. The native PWLD and LDACQ give their bytes to a g register or a queue (11 R230-R244, 14 R314). -/
def Obligations.EngineLoads : Prop :=
  ∀ (s : State) (r : Row) (w : NWord) (s1 : State) (bs : List Byte),
    let ty := w.ty.toNat
    let n := byteLen ty (s.elems (width ty))
    let a := (s.gOf r w 0 + s.gOf r w 1).toNat
    let pushed (d : Vec) : Core := { s1.me with q := s1.me.q.set w.dst.toNat (s1.me.q.at w.dst.toNat ++ [{ data := d, mask := ~~~0, eng := s1.cur.eng, seq := s1.cur.seq }]) }
    (GrantStands s 0 1 → s.me.room w.dst.toNat = true → loadA s true a n 4 = .ok s1 bs →
      Does (.ald (.nat w)) s r w s1 (pushed (BitVec.ofNat 2048 (leNat bs)))) ∧
    (GrantStands s 0 1 → s.me.room w.dst.toNat = true → loadA s false a n 4 = .ok s1 bs →
      Does (.alds (.nat w)) s r w s1 (pushed (BitVec.ofNat 2048 (leNat bs)))) ∧
    (∀ h, GrantStands s 0 1 → s.head 0x306 = some h → h.bad = false → 1 ≤ (s.gOf r w 2).toNat → (s.gOf r w 2).toNat ≤ 64 →
      partsFrom (fun t k => gatherRow t w.dst.toNat (s.gOf r w 0 + BitVec.ofNat 64 (contOf h k) * s.gOf r w 1).toNat n k) (s.gOf r w 2).toNat 64 s.prog s = .ok s1 →
      Does (.aldx w) s r w (s1.dropHead 0x306) (s1.dropHead 0x306).me) ∧
    Does (.apref (.nat w)) s r w s s.me ∧
    (partsFrom (fun t k => loadPush t true w.dst.toNat (s.gOf r w 0 + BitVec.ofNat 64 (256 * k)).toNat 256 8 k) w.c.toNat 1023 s.prog s = .ok s1 →
      Does (.vfill (.nat w)) s r w s1 s1.me) ∧
    (let ni := fld (s.me.gget w.b.toNat) 0 16
      let no := fld (s.me.gget w.b.toNat) 16 16
      GrantStands s 0 1 → 1 ≤ ni * no → ni * no ≤ 4095 →
      partsFrom (fun t k => loadPush t (w.c = 0) w.dst.toNat
        (s.gOf r w 0 + BitVec.ofNat 64 (k / ni) * s.me.gget (w.b.toNat + 2) + BitVec.ofNat 64 (k % ni) * s.me.gget (w.b.toNat + 1)).toNat n 4 k)
        (ni * no) 4095 s.prog s = .ok s1 → Does (.anest w) s r w s1 s1.me) ∧
    (let k := w.a.toNat % 8
      let size := 2 ^ (w.a.toNat / 8 % 4)
      let o := w.b.toNat * 1024 + w.c.toNat
      (isG w.dst = true ∨ s.me.room w.dst.toNat = true) → s.me.wsizeAt k ≠ 0 → o + size ≤ s.me.wsizeAt k →
      loadA s true (s.me.wbaseAt k + o) size 1 = .ok s1 bs →
      Does (.pwld (.nat w)) s r w s1 (if isG w.dst then s1.me.gput w.dst.toNat (BitVec.ofNat 64 (leNat bs))
        else pushed (Sys2Proof.Machine.replicate (width ty) (leNat bs)))) ∧
    (let k := w.a.toNat % 8
      let o := w.b.toNat * 1024 + w.c.toNat
      (isG w.dst = true ∨ s.me.room w.dst.toNat = true) →
      (s.me.wsizeAt k = 0 → AccessReady s (.pwld (.nat w)) r w → exec (.pwld (.nat w)) s = s.engineTrap 28 (BitVec.ofNat 64 (k + 4096))) ∧
      (s.me.wsizeAt k ≠ 0 → s.me.wsizeAt k < o + 2 ^ (w.a.toNat / 8 % 4) → s1 = s.setStat 1 →
        Does (.pwld (.nat w)) s r w s1 (if isG w.dst then s1.me.gput w.dst.toNat 0 else pushed 0))) ∧
    (loadA s true (s.gOf r w 0).toNat 8 8 = .ok s1 bs → Does (.ldacq (.nat w)) s r w s1 (s1.me.gput w.dst.toNat (BitVec.ofNat 64 (leNat bs))))

/-- The stores of engine A. AST and ASTS are made at once where their entry is there and no earlier store waits, and else keep their place
with their address known; so does ASTX, which writes the containers that its mask names, once it has its addresses; and so does every
register of VSPILL, which traps below VSLIM and then transfers nothing; STREL writes its doubleword once every earlier store is made.
The oldest store that waits is made once its entry has come and it is not the one that stopped at a missing page; with none to make,
one of the control core's buffered stores is performed, before which no store to a byte of it stands (11 R231-R245, 14 R305, R314). A
vector store or load whose grant has changed or is of another class does not issue (03 R56, R61). The order that A's stores keep among
themselves is log entry 73, ASTX taking VL from shp0 log entry 116, and which of the buffered stores is performed next log entry 11. -/
def Obligations.EngineStores : Prop :=
  ∀ (s : State) (r : Row) (w : NWord) (s1 s2 : State) (bs : List Byte),
    let ty := w.ty.toNat
    let e := s.elems (width ty)
    let a := s.gOf r w 0 + s.gOf r w 1
    let waits (va : Bool) : Core := { s.me with astores := s.me.astores ++ [{ q := w.c.toNat, addr := a, ty := ty, e := e, va := va, seq := s.cur.seq }] }
    let cells (x : QEnt) : List Nat := (List.range 64).map (fun c => (strided (s.gOf r w 0) (contOf x c) (s.gOf r w 1)).toNat)
    (∀ x, GrantStands s 0 1 → s.me.astores = [] → s.pop w.c.toNat = some (s1, x) → x.bad = false →
      (storeA s1 true a.toNat ty e x = .ok s2 bs → Does (.ast (.nat w)) s r w s2 s2.me) ∧
      (storeA s1 false a.toNat ty e x = .ok s2 bs → Does (.asts (.nat w)) s r w s2 s2.me)) ∧
    (GrantStands s 0 1 → (s.me.astores ≠ [] ∨ s.pop w.c.toNat = none) →
      (addrBad s true a.toNat (byteLen ty e) 4 = none → Does (.ast (.nat w)) s r w s (waits true)) ∧
      (addrBad s false a.toNat (byteLen ty e) 4 = none → Does (.asts (.nat w)) s r w s (waits false))) ∧
    (∀ x y s3, GrantStands s 0 1 → s.me.astores = [] → s.pop 0x306 = some (s1, x) → x.bad = false → s1.pop w.c.toNat = some (s3, y) → y.bad = false →
      scatterA s3 (s.elems 32) (cells x) y = .ok s2 bs → Does (.astx w) s r w s2 s2.me) ∧
    (∀ x, GrantStands s 0 1 → s.pop 0x306 = some (s1, x) → x.bad = false → (s.me.astores ≠ [] ∨ s1.pop w.c.toNat = none) →
      Does (.astx w) s r w s1 { s1.me with astores := s1.me.astores ++
        [{ q := w.c.toNat, addr := 0, ty := 0, e := s.elems 32, va := true, seq := s.cur.seq, cells := cells x }] }) ∧
    ((s.prog = 0 → s.me.vslim.toNat ≤ (s.gOf r w 0).toNat ∧ spillFault s (s.gOf r w 0) w.c.toNat = none) →
      partsFrom (fun t k => storeOrKeep t t
        { q := w.b.toNat, addr := s.gOf r w 0 + BitVec.ofNat 64 (256 * k), ty := 0, e := 64, va := true, seq := s.cur.seq, whole := true } k) w.c.toNat 1023 s.prog s = .ok s2 → Does (.vspill (.nat w)) s r w s2 s2.me) ∧
    (AccessReady s (.vspill (.nat w)) r w → s.prog = 0 → (s.gOf r w 0).toNat < s.me.vslim.toNat →
      exec (.vspill (.nat w)) s = s.engineTrap 27 (s.gOf r w 0)) ∧
    (s.me.astores = [] → addrBad s true (s.gOf r w 0).toNat 8 8 = none →
      virtPut s .A true (s.gOf r w 0).toNat ((leBytes 8 (s.gOf r w 1).toNat).map some) = .ok s2 bs → Does (.strel (.nat w)) s r w s2 s2.me) ∧
    (∀ p l x, (∀ f, f ∈ s.me.fwait ++ s.me.fbuf → f.void = false → f.eng = .A → f.acc ≠ 1) → s.me.astores = p :: l →
      ({ s with cur := { s.cur with eng := .A, seq := p.seq, entry := false } } : State).pop p.q = some (s1, x) →
      p.make s1 x = .ok s2 bs →
      ∃ t, exec .accessPerformed s = .next t ∧ t.note = .ok ∧ t.me = { s2.me with astores := l } ∧ SameElse s2 t) ∧
    (s.me.astores = [] ∨ (∃ f, f ∈ s.me.fwait ++ s.me.fbuf ∧ f.void = false ∧ f.eng = .A ∧ f.acc = 1) ∨ (∀ p l, s.me.astores = p :: l →
        ({ s with cur := { s.cur with eng := .A, seq := p.seq, entry := false } } : State).pop p.q = none) →
      s.me.sbuf ≠ [] → ∃ k b t, s.me.sbuf[k]? = some b ∧
        (∀ j c, j < k → s.me.sbuf[j]? = some c → meets c.addr c.data.length b.addr b.data.length = false) ∧
        exec .accessPerformed s = .next t ∧ t.note = .ok ∧ t.me = { s.me with sbuf := s.me.sbuf.eraseIdx k } ∧
        (∀ n, n ≠ s.cur.lcore → t.coreAt n = s.coreAt n) ∧ t.cluster = s.cluster ∧ t.die = s.die ∧
        t.now = s.now ∧ t.cur = s.cur ∧ t.draws = s.draws + 1 ∧
        (b.repl = false → t.hub = s.hub ∧ t.hbm = s.hbm.writeN b.addr b.data ∧ t.poison = cured s.poison b.addr b.data.length) ∧
        (b.repl = true → t.hbm = s.hbm ∧ t.poison = s.poison ∧ t.hub = { s.hub with updates := s.hub.updates ++ [{ addr := b.addr, data := b.data, lcore := s.cur.lcore }] })) ∧
    (∀ i, i ∈ [.ald (.nat w), .alds (.nat w), .aldx w, .anest w, .ast (.nat w), .asts (.nat w), .astx w] → AccessReady s i r w →
      ((s.shp 0).getLsbD 58 = true → exec i s = shapeChg s 0) ∧
      ((s.shp 0).getLsbD 58 = false → shpClass (s.shp 0) ≠ 1 → exec i s = s.fault { code := 21 }))

/-- An atomic of engine A on an aligned word of a window that the core may use: rD takes the old value, extended as the type says, the word
takes what R315 gives, and its flags enter the phase's set. On its own core's SRAM no early commit comes first; on another's the first
of the phase does. AADD is an add-write under the deterministic rules (14 R309, R315, R316, R319). -/
def Obligations.EngineAtomics : Prop :=
  ∀ (s : State) (r : Row) (w : NWord) (op : Atom) (k o : Nat) (s1 s2 : State),
    let a := (s.gOf r w 0).toNat
    let old := leNat (s2.accRead k o 4)
    let res := atomic op w.ty.toNat s.fmode old (fld (s.gOf r w 1) 0 32) (fld (s.me.gget w.dst.toNat) 0 32)
    let s3 := (s2.accWrite k o (leBytes 4 res.1) none).setFlags res.2
    s.isTent = false → (w.c.toNat / 16 % 2 = 1 → s.me.astores = []) → s.behindStore true a 4 = false →
    a + 4 ≤ 2 ^ 55 → a % 4 = 0 → windowOf a = some (k, o) → s.windowOk s.cur.lcore k = true → s1.accPoison k o 4 = false →
    (if k = s.cur.lcore then some s else firstEarly s) = some s1 → (if op = .add then addWrite s1 k o 4 else .ok s1) = .ok s2 →
    AccessReady s (atomWord (.nat w) op) r w → TokensReady s3 (bitMoves .A w) →
    ∃ t, exec (atomWord (.nat w) op) s = .next t ∧
      Acts s3 t (s3.me.gput w.dst.toNat (if w.ty = 8 then (BitVec.ofNat 32 old).signExtend 64 else BitVec.ofNat 64 old)) (bitMoves .A w)

/-- The ring words on a ring of the launch that the unit may use, its command not tentative. RCLAIM reserves a header and the padded payload
at CLM, or gives all ones where the record would cross the wrap point; RSKIP skips to it; RPUB publishes the core's claim of a payload
and TAIL passes every leading published claim; RWFILL answers the record at HEAD, RCONS frees it, and RWFREE ends once there is room
(12 R269-R271). TAIL passes over the published claims that lead the list, and over no other: what it moves by is the sum of their sizes, and the claims
that stay begin with one that is not published (12 R271). -/
def Obligations.RingWords : Prop :=
  (∀ (r : Ring) (l : List Claim),
    let q := r.advance l
    q.tail = r.tail + BitVec.ofNat 32 ((l.takeWhile (·.pub)).map (·.size)).sum ∧ q.claims = l.dropWhile (·.pub) ∧
    q.head = r.head ∧ q.clm = r.clm ∧ q.filled = r.filled ∧ q.base = r.base ∧ q.size2 = r.size2 ∧ q.en = r.en ∧ q.shared = r.shared) ∧
  ∀ (s : State) (r : Row) (w : NWord) (s1 : State),
    let k := w.c.toNat
    let ring := s1.ring k
    let pos := ring.clm.toNat % 2 ^ ring.size2.toNat
    let used := (ring.clm - ring.head).toNat
    let size := 2 ^ ring.size2.toNat
    s.hasRing k = true → s.isTent = false → touchRing s k = some s1 →
    (let len := (s.gOf r w 0).toNat
      let n := 8 + (len + 7) / 8 * 8
      let s2 := s1.setRing k { ring with clm := ring.clm + BitVec.ofNat 32 n, claims := ring.claims ++ [{ pos := pos, len := len, core := s.cur.lcore, size := n }] }
      (n ≤ size → size < pos + n → Does (.rclaim (.nat w)) s r w s1 (s1.me.gput w.dst.toNat (~~~0))) ∧
      (pos + n ≤ size → used + n ≤ size → ring.claims.length < 8 →
        Does (.rclaim (.nat w)) s r w s2 (s2.me.gput w.dst.toNat (BitVec.ofNat 64 (ring.base.toNat + pos + 8))))) ∧
    (pos = 0 → Does (.rskip (.nat w)) s r w s1 (s1.me.gput w.dst.toNat 0)) ∧
    (∀ s2, pos ≠ 0 → used + (size - pos) ≤ size → ringEarly s1 k = some s2 →
      let n := size - pos
      let s3 := (putHeader s2 k (ring.base.toNat + pos) (BitVec.ofNat 64 (n - 8 + 2 ^ 32))).setRing k
        (Ring.advance { ring with clm := ring.clm + BitVec.ofNat 32 n } (ring.claims ++ [{ pos := pos, len := n - 8, core := s.cur.lcore, size := n, pub := true }]))
      Does (.rskip (.nat w)) s r w s3 (s3.me.gput w.dst.toNat (BitVec.ofNat 64 n))) ∧
    (∀ c s2, s.me.astores = [] → ring.claims.find? (fun c => c.core = s.cur.lcore && !c.pub && ring.base.toNat + c.pos + 8 = (s.gOf r w 0).toNat) = some c →
      ringEarly s1 k = some s2 →
      let s3 := (putHeader s2 k (ring.base.toNat + c.pos)
        (BitVec.ofNat 64 (c.len + (if c.len = 0 then 2 else 0) * 2 ^ 32 + (s.gOf r w 1).toNat % 2 ^ 24 * 2 ^ 40))).setRing k
        (ring.advance (ring.claims.map (fun x => if x = c then { x with pub := true } else x)))
      Does (.rpub (.nat w)) s r w s3 s3.me) ∧
    (let h := headerAt s1 k ring.head
     8 ≤ (ring.tail - ring.head).toNat → fld h 32 8 ≠ 1 → readsPoison s1.me s1.myCluster (ring.base.toNat + ring.head.toNat % size) 8 = false → (ring.shared = true → s1.heardAll = true) →
     let s2 := s1.setRing k { ring with filled := some (8 + (fld h 0 32 + 7) / 8 * 8) }
     Does (.rwfill (.nat w)) s r w s2 ((s2.me.gput w.dst.toNat (BitVec.ofNat 64 (ring.base.toNat + ring.head.toNat % size + 8))).gput (w.dst.toNat + 1) h)) ∧
    (∀ n s2, s.me.astores = [] → ring.filled = some n → ringEarly s1 k = some s2 →
      let s3 := s2.setRing k { s2.ring k with head := (s2.ring k).head + BitVec.ofNat 32 n, filled := none }
      Does (.rcons (.nat w)) s r w s3 s3.me) ∧
    ((s.gOf r w 0).toNat ≤ size - used → Does (.rwfree (.nat w)) s r w s1 s1.me)

/-- MZERO clears its banks and sets MIRV where mirroring applies; MTRANS transposes a buffer with its tag; ACCLD drains a row of a bank whose
copies agree, to a register or, by overwriting or by an add, to accumulator SRAM, and may clear it; MPSTAT gives the status and the order
and side of shp2, with zeros above, and may reset it; MPROM rounds the active cells of its block from the bank to its type, counts the
promotion, notes the largest exponent, sets VALID, and leaves MODE, PSUB and STEPS; where an active cell rounds to an infinity or a NaN, and
only there, it sets OVF and leaves the buffer. Each completes under these conditions: it puts these results in flight, with no flag but
MPROM's, and changes nothing else (09 R196-R202, 10 R208, R216). When a drain is due behind a fence, and what ACCLD waits for while its
command is tentative, are log entries 83 and 126. -/
def Obligations.ImmediateMatrixWords : Prop :=
  ∀ (s : State) (r : Row) (w : NWord),
    let row := w.a.toNat
    let n := w.c.toNat % 2
    let clear : List Landing := if w.c.toNat / 2 % 2 = 1 then [.clrRow n row (s.mirrors false)] else []
    ((shpClass (s.shp 1) = 2 → (s.shp 1).getLsbD 58 = false) →
      DoesM (.mzero (.nat w)) s r w s (formedFor s (.mzero (.nat w)) w 1
        ((if w.dst = 2 then [0, 1] else [w.dst.toNat]).map (fun n => .bank n
          { cells := [], mirv := Fmode.mirror s.fmode && shpClass (s.shp 1) = 2 && (s.shp 1).getLsbD 57 })) 0)) ∧
    ((s.me.bufAt (w.c.toNat / 4 % 4)).bad = false → ∃ b : Buf, b.tag = (s.me.bufAt (w.c.toNat / 4 % 4)).tag ∧
      (∀ i j, i < 64 → j < 64 → b.cell i j = (s.me.bufAt (w.c.toNat / 4 % 4)).cell j i) ∧
      DoesM (.mtrans (.nat w)) s r w s (formedFor s (.mtrans (.nat w)) w 64 [.buf (w.c.toNat % 4) b] 0)) ∧
    (MatrixGrant s → drainBad s n row = none → ∃ x : Vec,
      (∀ j, j < 64 → elem x 32 j = if j < s.na ∧ row < s.ma then (s.me.bankAt n).cell row j else 0) ∧
      (w.c.toNat / 4 % 4 = 0 → DoesM (.accld (.nat w)) s r w s (formedFor s (.accld (.nat w)) w 1 (.vreg (s.vphys w.dst.toNat) x (~~~0) :: clear) 0)) ∧
      (w.c.toNat / 4 % 4 ≠ 0 → s.isTent = false → DoesM (.accld (.nat w)) s r w s (formedBehind s (.accld (.nat w)) w
        (.acc w.dst.toNat (if w.c.toNat / 4 % 4 ≠ 2 then .ovw else if w.ty = 0 then .addF true s.fmode else .addI) x (~~~0) :: clear)))) ∧
    (GrantStands s 2 3 → shpD (s.shp 2) 0 ≤ 64 * s.me.side → ∃ x : Vec, elem x 64 0 = s.me.mpstat.toNat ∧ elem x 32 2 = shpD (s.shp 2) 0 ∧ elem x 32 3 = shpD (s.shp 2) 1 ∧ (∀ k, 4 ≤ k → k < 64 → elem x 32 k = 0) ∧
      DoesM (.mpstat (.nat w)) s r w s (formedFor s (.mpstat (.nat w)) w 1
        (.vreg (s.vphys w.dst.toNat) x (~~~0) :: if w.c.toNat % 2 = 1 then [.mpstat 0x80008000] else []) 0)) ∧
    (∀ F, let bank := s.me.bankAt (w.c.toNat / 4 % 2)
      let b := if s.ganged then blockOf s.me.gang s.cur.lcore else (0, 0)
      let old := s.me.mpstat
      let y (i j : Nat) : Nat × Flags := promotedAt F s.fmode s.lid s.cap.srseed 0xFE00 (64 * b.1 + i) (64 * b.2 + j) (bank.cell i j)
      let act := ((List.range 64).flatMap (fun i => (List.range 64).map (fun j => (i, j)))).filter (fun p => 64 * b.1 + p.1 < s.polyN && 64 * b.2 + p.2 < s.polyN)
      let e := largest (act.filterMap (fun p => exponentOf F (y p.1 p.2).1))
      let ovf := act.any (fun p => !finite (decodeF F (y p.1 p.2).1))
      PolyGrant s w.ty.toNat → fmtOf w.ty.toNat = some F → bank.bad = false → ∃ (st : Word) (t : Buf), st.getLsbD 63 = true ∧
      st.getLsbD 62 = (old.getLsbD 62 || ovf) ∧ st.getLsbD 61 = old.getLsbD 61 ∧ fld st 56 4 = fld old 56 4 ∧ fld st 40 8 = fld old 40 8 ∧
      fld st 32 8 = min 255 (fld old 32 8 + 1) ∧ fld st 0 16 = (e % 65536).toNat ∧ fld st 16 16 = (max (old.extractLsb' 16 16).toInt e % 65536).toNat ∧
      t.tag = w.ty ∧ (∀ i j, i < 64 → j < 64 → t.cell i j = if (i, j) ∈ act then (y i j).1 % 2 ^ 32 else 0) ∧
      DoesM (.mprom (.nat w)) s r w s (formedFor s (.mprom (.nat w)) w 2 ((if ovf then [] else [.buf (w.c.toNat % 4) t]) ++ [.mpstat st])
        (orFlags (act.map (fun p => (y p.1 p.2).2)))))

/-- The loads of the array and the products, once their operands are had, are at work: with every entry there their result is formed, and
else they keep their pops; the index entries of MMAS come from its queue, or, in a word of portable code that names its registers, from
these (09 R184-R195, log entry 12). A load from vector registers forms its buffer at once: the elements of the operand's rows and columns
within the shape, zeros elsewhere, and the word's type as its tag (09 R183, R184, R192). -/
def Obligations.LoadsAndProducts : Prop :=
  (∀ (s : State) (r : Row) (w : NWord) (s1 s2 : State), MatrixGrant s →
    (∀ x i left, (i = .mlds (.nat w) ∧ left = true) ∨ ((i = .mldf (.nat w) ∨ i = .mldg (.nat w)) ∧ left = false) → s.kk ≤ 64 →
      opndOf s left (w.c.toNat % 4) 0 w.ty.toNat s.ma s.na s.kk w.a = .ok (s1, x) → startWork s1 (loadWorkOf s i left w x) = .ok s2 →
      DoesM i s r w s2 s2.me) ∧
    (∀ p i sparse, (i = .mma (.nat w) ∧ sparse = false) ∨ (i = .mmas (.nat w) ∧ sparse = true) → planMma s w sparse = .ok (s1, p) →
      (sparse = true → s.cmd.bind (·.strm) = none) → startWork s1 (productWorkOf s i sparse w p) = .ok s2 → DoesM i s r w s2 s2.me) ∧
    (∀ p n x s3, planMma s w true = .ok (s1, p) → s.cmd.bind (·.strm) = some n → regOpnd s1 { fmt := 0 } n p.nx = .ok (s3, x) →
      startWork s3 { productWorkOf s (.mmas (.nat w)) true w p with opX := x.es } = .ok s2 → DoesM (.mmas (.nat w)) s r w s2 s2.me)) ∧
  ∀ (s : State) (m : MWork) (w : NWord) (left : Bool) (n : Nat),
    (m.i = .mlds (.nat w) ∧ left = true ∧ n = 0) ∨ (m.i = .mldf (.nat w) ∧ left = false ∧ n = 1) ∨ (m.i = .mldg (.nat w) ∧ left = false ∧ n = 2) →
    m.pops = [] →
    ∃ b : Buf, startWork s m = .ok (s.formed m [.buf n b] 0) ∧ b.tag = w.ty ∧
      (∀ i j, i < 64 → j < 64 → b.cell i j =
        if left then (if i < s.ma ∧ j < s.kk then entElem m.opL (width w.ty.toNat) i j % 2 ^ 32 else 0)
        else if i < s.kk ∧ j < s.na then entElem m.opR (width w.ty.toNat) j i % 2 ^ 32 else 0)

/-- With FMODE.SAT clear, a product of integer operands adds to every cell of the bank within the shape the exact sum of its products, modulo
2^32, whatever the groups it is taken in; it leaves every other cell and sets no flag. Where mirroring applies and the bank's copies stand,
the copies take the same sum (09 R193, R194, R200, R201, 04 R81). -/
def Obligations.IntegerProducts : Prop :=
  ∀ (s s2 : State) (bank : Bank) (ma na K : Nat) (l r : Opnd) (el er : List Vec) (b : Bank) (fl : Flags),
    ma ≤ 64 → na ≤ 64 → (l.fmt = 10 ∨ l.fmt = 12) → (r.fmt = 10 ∨ r.fmt = 12) → l.st = none → r.st = none → Fmode.sat s.fmode = false →
    product s bank ma na K l r el er [] false = .ok (s2, b, fl) →
    let sums (old new : SMap Cell32) : Prop := ∀ i j, j < 64 →
      ((SMap.get new (64 * i + j) 0).toNat : Int) = if i < ma ∧ j < na then
        ((SMap.get old (64 * i + j) 0).toNat + ((List.range K).map (fun k => intElement l.fmt el i k * intElement r.fmt er j k)).sum) % 2 ^ 32
      else ((SMap.get old (64 * i + j) 0).toNat : Int)
    s2 = s ∧ fl = 0 ∧ sums bank.cells b.cells ∧ b.mirv = (bank.mirv && s.mirrors false) ∧ b.bad = bank.bad ∧
    (b.mirv = true → sums bank.mir b.mir)

/-- A product of floating operands, dense or 2:4 sparse, takes every cell of the bank within the shape through its K-groups in ascending
order, each one exact sum rounded once to nearest even as dot_group says, from elements decoded with their scales; it leaves every other
cell, and its flags are those of the groups and of the decoded elements. Where mirroring applies and the bank's copies stand, the copies go
the same way (04 R69-R72, R81, R82, 09 R193, R195, R200, R201). -/
def Obligations.FloatingProducts : Prop :=
  ∀ (s s1 s2 s3 : State) (bank : Bank) (ma na K : Nat) (l r : Opnd) (el er ex : List Vec) (sparse : Bool) (b : Bank) (fl : Flags)
    (rows cols : List (List (Machine.Num × Flags))),
    let Kl := if sparse then 2 * ((K + 3) / 4) else K
    ma ≤ 64 → na ≤ 64 → FloatingOpnd l → FloatingOpnd r →
    sideRows s l el Kl (List.range ma) = .ok (s1, rows) → sideRows s1 r er K (List.range na) = .ok (s2, cols) →
    Sys2Proof.Machine.product s bank ma na K l r el er ex sparse = .ok (s3, b, fl) →
    let g := groupSize (max (width l.fmt) (width r.fmt))
    let L (i k : Nat) : Machine.Num := (((rows.getD i []).getD k (.fin false 0 0, 0))).1
    let R (j k : Nat) : Machine.Num := (((cols.getD j []).getD k (.fin false 0 0, 0))).1
    let groups (i j : Nat) := (List.range ((K + g - 1) / g)).map (fun q =>
      if sparse then sparsePairs g K q i ex (L i) (R j) else densePairs g K q (L i) (R j))
    let out (old : SMap Cell32) (i j : Nat) : Nat × Flags := throughGroups s.fmode (SMap.get old (64 * i + j) 0).toNat (groups i j)
    let sums (old new : SMap Cell32) : Prop := ∀ i j, j < 64 →
      (SMap.get new (64 * i + j) 0).toNat = if i < ma ∧ j < na then (out old i j).1 % 2 ^ 32 else (SMap.get old (64 * i + j) 0).toNat
    Decoded s.fmode l el ma Kl rows ∧ Decoded s1.fmode r er na K cols ∧ s3 = s2 ∧
    sums bank.cells b.cells ∧ b.mirv = (bank.mirv && s.mirrors sparse) ∧ b.bad = bank.bad ∧ (b.mirv = true → sums bank.mir b.mir) ∧
    fl = orFlags ((List.range ma).flatMap (fun i => (List.range na).map (fun j => (out bank.cells i j).2)) ++ (rows ++ cols).flatMap (fun l => l.map (·.2)))

/-- A polynomial word of a core that is not ganged reads its control value and coefficients and puts its results in flight; in a gang
the last member to come does so for all, once all agree, and every other member goes on with what was formed for it. A promoted value
that differs from its copy is MIRRORMISMATCH with its row, bank and column, and nothing lands (10 R211-R223; a core alone where shp2.DIM1
is not the bound side is log entry 59). -/
def Obligations.PolynomialWords : Prop :=
  ∀ (s : State) (r : Row) (w : NWord) (s1 s2 s3 t : State) (ctl : Word) (bs : List Byte) (i : Instr) (stopT : Bool),
    (i = .mpoly (.nat w) ∧ stopT = false) ∨ (i = .mpolyT (.nat w) ∧ stopT = true) →
    PolyGrant s w.ty.toNat → s.me.bufF.tag = w.ty → s.operandBad r w = none → polyCtl s w = some (s1, ctl) →
    let run (t : State) (ms : List Nat) (code : BitVec 2) : Except Out State :=
      polyAll t ms code i w stopT (fld ctl 48 5) (ctl.extractLsb' 32 16).toInt (coefsOf bs)
    let ends (t : State) (ms : List Nat) (code : BitVec 2) : PSt := polyEnd t ms code w (fld ctl 48 5) (ctl.extractLsb' 32 16).toInt (coefsOf bs)
    let mismatch (t : State) (m : Nat × Nat × Nat) : Out := t.fault { code := 4, addr := BitVec.ofNat 64 (m.1 + 64 * m.2.1 + 256 * m.2.2) }
    let ms := gangOf s.me.gang s.cur.lcore
    (s.me.gangdone = true → DoesM i s r w s1 { s1.me with gangdone := false, gangword := none }) ∧
    (s.me.gangdone = false → fld ctl 0 2 = 0 → s.readBad i = false → polyCoefs s1 (w.c.toNat % 4) ctl = .ok s2 bs →
      (s.ganged = false →
        (run s2 [s.cur.lcore] 0 = .ok t → DoesM i s r w t t.me) ∧
        (∀ m, (ends s2 [s.cur.lcore] 0).miss = some m → MatrixReady s i r w → exec i s = mismatch s2 m)) ∧
      (s.ganged = true → (∀ l, l ∈ ms → l ≠ s.cur.lcore → ∃ g, (s.coreAt l).gangword = some g ∧
          agreeKey (s.asMember l) g.1 g.2.1 = agreeKey s2 i ctl) → agreeKey s2 i ctl ≠ none → gangCommit s2 ms = some s3 →
        (run s3 ms s.me.gang = .ok t → DoesM i s r w t t.me) ∧
        (∀ m, (ends s3 ms s.me.gang).miss = some m → MatrixReady s i r w → exec i s = mismatch s3 m)))

/-- What a polynomial word gives: every member's buffers, banks and MPSTAT hold its block of what the steps of its mode make of the whole
matrix, from mf and the coefficients, with the flags that its own block sets, due when the array is free and its delay has passed. The
members' commands captured one FMODE, SRSEED and order here; members that differ act each on its own block by its own, which is the model's
reading (log entry 59). Nothing else changes (10 R208, R209, R214, R217, R220, R224). -/
def Obligations.PolynomialValues : Prop :=
  ∀ (s : State) (members : List Nat) (code : BitVec 2) (i : Instr) (w : NWord) (stopT : Bool) (nit : Nat) (glim : Int) (cs : List Nat) (F : Fmt)
    (t : State),
    (i = .mpoly (.nat w) ∨ i = .mpolyT (.nat w)) → w.ty.toNat ≤ 4 → w.c.toNat < 4 → nit ≤ 31 → fmtOf w.ty.toNat = some F →
    (code = 0 ∧ members = [s.cur.lcore]) ∨ ((code = 1 ∨ code = 2) ∧ members = gangOf code s.cur.lcore) →
    let at' (l : Nat) : State := if l = s.cur.lcore then s else s.asMember l
    (∀ l, l ∈ members → (at' l).fmode = s.fmode ∧ (at' l).cap.srseed = s.cap.srseed ∧ (at' l).polyN = s.polyN) →
    polyAll s members code i w stopT nit glim cs = .ok t →
    let whole (f : Core → Nat → Nat → Nat) : Grid := fun i j =>
      match members.find? (fun l => blockOf code l = (i / 64, j / 64)) with
      | some l => f (s.coreAt l) (i % 64) (j % 64)
      | none => 0
    let x : PolyJob := { F := F, fm := s.fmode, lid := s.lid, seed := s.cap.srseed, n := min s.polyN (64 * 2 ^ code.toNat), mode := w.c.toNat,
                         nit := nit, glim := glim, cs := cs, A := whole (fun c i j => c.bufF.cell i j) }
    let q := x.run { sM := whole (fun c i j => c.bufS.cell i j), gM := whole (fun c i j => c.bufG.cell i j),
                     c0 := whole (fun c i j => c.mc0.cell i j), c1 := whole (fun c i j => c.mc1.cell i j) }
    (∀ l, l ∉ members → t.coreAt l = s.coreAt l) ∧ t.cluster = s.cluster ∧ t.die = s.die ∧ t.hub = s.hub ∧ t.hbm = s.hbm ∧ t.poison = s.poison ∧
    t.cur = s.cur ∧ t.now = s.now ∧ t.draws = s.draws ∧ t.agenda = s.agenda ∧
    ∀ l, l ∈ members → ∃ (f : Flight) (S G : Buf) (b0 b1 : Bank),
      let b := blockOf code l
      let word : NWord := ((if l = s.cur.lcore then none else (s.coreAt l).gangword.bind (fun g => (polyMode g.1).map (·.2)))).getD w
      let holds (m : Grid) (cell : Nat → Nat → Nat) : Prop := ∀ i j, i < 64 → j < 64 →
        cell i j = if 64 * b.1 + i < x.n ∧ 64 * b.2 + j < x.n then m (64 * b.1 + i) (64 * b.2 + j) % 2 ^ 32 else 0
      t.coreAt l = { s.coreAt l with flights := (s.coreAt l).flights ++ [f], mwork := (t.coreAt l).mwork, gangword := none, gangdone := l ≠ s.cur.lcore } ∧
      f.eng = .M ∧ f.stop = (stopT && q.over) ∧
      f.due + 1 = (s.coreAt l).vcycle + polyCycles F.w (shpD ((at' l).shp 2) 0) (shpD ((at' l).shp 2) 1) w.c.toNat nit + word.lat.toNat ∧
      f.lands = [.buf 0 S] ++ (if 2 ≤ w.c.toNat then [.buf 2 G] else []) ++ (if w.c.toNat ≠ 1 then [.bank 0 b0] else []) ++ [.bank 1 b1, .mpstat (q.word w.c.toNat)] ∧
      f.flags = orFlags ((q.fl.filter (fun e => e.1.1 / 64 = b.1 ∧ e.1.2 / 64 = b.2)).map (·.2)) ∧
      S.tag = (if q.sNew then w.ty else (s.coreAt l).bufS.tag) ∧ G.tag = (if q.gNew then w.ty else (s.coreAt l).bufG.tag) ∧
      holds q.sM S.cell ∧ holds q.gM G.cell ∧ holds q.c0 b0.cell ∧ holds q.c1 b1.cell ∧
      ∀ k, k ∈ [b0, b1] → k.mirv = (at' l).mirrorsPoly ∧ (k.mirv = true → k.mir = k.cells)

/-- Native MNWAIT ends once every earlier word of M has landed; native MGANG at once on a core that is not bound, and on a bound one once
every other member has come as far, whose barrier is then counted (09 R199, 10 R222). A nest's virtual cycle makes its due drain, then its
next step if the array is free, and after the last its command is done; that drain and step have this order within a cycle is the model's
reading (log entry 82; 09 R205, 13 R286). MGANG on the control core answers 1 for a code above 2 and 3 for one that the launch does not
carry, at once; until every member of the gang that its code names has come it waits; the last gives every member its answer, DONE where
all asked for the same code, which binds or releases them, and MISMATCH otherwise, which changes no binding; a member that finds its
answer made takes it (10 R221). That an answer is kept over an interrupt, and that code 0 names a core that is not bound alone, are the
model's choices (log entry 59). -/
def Obligations.BarriersGangsAndNests : Prop :=
  (∀ (s : State) (p : PWord), PortReady (.mgangControl p) p →
    let code : BitVec 2 := (s.x p.vs1).setWidth 2
    let ms := gangOf (if code = 0 then s.me.gang else code) s.cur.lcore
    let asks : Prop := s.me.gangans = none ∧ (s.x p.vs1).toNat < 3 ∧ (code = 0 ∨ (s.launch.map (·.gang)).getD 0 = code.toNat)
    let others (f : Core → Prop) : Prop := ∀ n, n ∈ ms → n ≠ s.cur.lcore → f (s.coreAt n)
    let bound (c : Core) : Core := { c with gang := code, gangord := 0, ph := { c.ph with gang0 := 0 } }
    (∀ st, s.me.gangans = some st → ∃ t, exec (.mgangControl p) s = .next t ∧
      RetiresAs s t { s.me with gangans := none } p.vd (st.setWidth 64) (s.me.pc + 8)) ∧
    (s.me.gangans = none → 3 ≤ (s.x p.vs1).toNat → ∃ t, exec (.mgangControl p) s = .next t ∧ Retires s t p.vd 1 (s.me.pc + 8)) ∧
    (s.me.gangans = none → (s.x p.vs1).toNat < 3 → code ≠ 0 → (s.launch.map (·.gang)).getD 0 ≠ code.toNat →
      ∃ t, exec (.mgangControl p) s = .next t ∧ Retires s t p.vd 3 (s.me.pc + 8)) ∧
    (asks → ¬ others (fun c => c.gangask.isSome = true) →
      ∃ t, exec (.mgangControl p) s = .next t ∧ t.note = .wait ∧ t.me = { s.me with gangask := some code } ∧ SameElse s t) ∧
    (∀ same : Bool, asks → others (fun c => c.gangask.isSome = true) → (same = true ↔ others (fun c => c.gangask = some code)) →
      ∃ t, exec (.mgangControl p) s = .next t ∧ t.note = .ok ∧
        (∀ r, t.x r = if r = p.vd ∧ p.vd ≠ 0 then (if same then 0 else 2) else s.x r) ∧
        t.me = { (if same then bound s.me else s.me) with x := t.me.x, pc := s.me.pc + 8, minstret := s.me.instretNext, gangask := none, gangans := none } ∧
        (∀ n, n ∈ ms → n ≠ s.cur.lcore → t.coreAt n = { (if same then bound (s.coreAt n) else s.coreAt n) with gangask := none, gangans := some (if same then 0 else 2) }) ∧
        (∀ n, n ∉ ms → n ≠ s.cur.lcore → t.coreAt n = s.coreAt n) ∧ t.hbm = s.hbm ∧ t.cluster = s.cluster ∧ t.die = s.die ∧ t.hub = s.hub ∧
        t.poison = s.poison ∧ t.cur = s.cur ∧ t.now = s.now)) ∧
  ∀ (s : State) (r : Row) (w : NWord),
    let ms := bitMoves .M w
    let gang := (gangOf s.me.gang s.cur.lcore).filter (fun l => l ≠ s.cur.lcore)
    (Legal s (.mnwait w) r w → (∀ m, m ∈ s.me.mwork → s.me.vcycle ≤ m.t) → TokensReady s ms →
      ∃ t, exec (.mnwait w) s = .next t ∧ Acts s t s.me ms) ∧
    (Legal s (.mgang w) r w → s.me.gang = 0 → TokensReady s ms → ∃ t, exec (.mgang w) s = .next t ∧ Acts s t s.me ms) ∧
    (Legal s (.mgang w) r w → s.me.gang ≠ 0 → (∀ l, l ∈ gang → (s.coreAt l).reached (s.me.gangord.toNat + 1) = true) → TokensReady s ms →
      ∃ t, exec (.mgang w) s = .next t ∧ Acts s t { s.me with gangord := s.me.gangord + 1, gangword := none } ms) ∧
    (∀ m s1 n1 t0 n, s.cmd = some m → m.st = .running → MatrixGrant s → nestLoad s s.nestAt = .ok (s1, n1) → nestArray s1 n1 = .ok (t0, n) →
      let left (f : Cmd → Cmd) : State := t0.updMe (fun c => c.updCmd t0.cur.eng t0.cur.seq f)
      (t0.nestOver n = false → exec .nestRun s = .next { left (fun m => { m with nest := some n }) with note := .ok }) ∧
      (t0.nestOver n = true → exec .nestRun s = .next { noteDues (left (fun m => { m with nest := some n, st := .done })) with note := .ok }))

/-- SIGNAL, WAITCOUNT and PSWAP are done in the step in which they start; a CODE command's engine begins at its first line with its counter
otherwise clear, what is left of an earlier NOPV still to pass, and a nest command starts without one; an engine that stands at a trap starts
nothing (20 R407); a LINK's chain begins at dw10; a SELFTEST takes its place in its die's order.
A command starts only where its phase runs, its wait events are set, a WAITCOUNT's counter is zero, and, but for one that runs on a
prediction, every predecessor is satisfied; and the speculations of a command that is done are then due (13 R289) (02 R47, 12 R252-R257, R262, 22 R434). -/
def Obligations.SingleStepCommands : Prop :=
  ∀ (s s1 : State) (f : Frame), start s = .ok s1 →
    (∀ i, i = .signal f ∨ i = .waitcount f ∨ i = .pswap f →
      ∃ t, exec i s = .next t ∧ t.me = (s1.setItemSt .done).me ∧ DuesGrow s1 t s1.myCluster.alm) ∧
    (s.itemSt = some .queued → s.ln.trap = none → s.ln.st ≠ .trapped → s.cmd.bind (·.cap.nest) = none → ∃ t, exec (.codeStart f) s = .next t ∧
      Becomes s1 t (s1.me.updLine s1.cur.eng (fun l => { upc := { line := f.dw10.extractLsb' 6 49 }, st := .run, seq := s.cur.seq, next := l.next, fence := l.fence }))) ∧
    (s.ln.trap ≠ none ∨ s.ln.st = .trapped → exec (.codeStart f) s = .next { s with note := .wait }) ∧
    (s.itemSt = some .queued → s.ln.trap = none → s.ln.st ≠ .trapped → s.cmd.bind (·.cap.nest) ≠ none → ∃ t, exec (.codeStart f) s = .next t ∧
      Becomes s1 t (s1.me.updLine s1.cur.eng (fun l => { upc := l.upc, seq := s.cur.seq, next := l.next, fence := l.fence }))) ∧
    (s.itemSt = some .queued → ∃ t, exec (.link f) s = .next t ∧
      Becomes s1 t (s1.me.updCmd s1.cur.eng s1.cur.seq (fun m => { m with chain := some { next := some f.dw10 } }))) ∧
    (s.itemSt = some .queued →
      let k := dieOf s.cur.lcore
      let d := s1.dieAt k
      (∀ x, x ∈ d.lamp → ¬ (x.lcore = some s.cur.lcore ∧ x.seq = s.cur.seq)) →
      let t : Test := { lcore := some s.cur.lcore, unit := s.me.unit.map (fun u => (u.launch, u.idx)), seq := s.cur.seq, req := none, job := (s.me.unit.map (·.job)).getD 0, dw10 := f.dw10, dw11 := f.dw11 }
      let s2 := s1.setDie k { d with lamp := d.lamp ++ [t] }
      (beginTest s2 k = none → exec (.selftest f) s = .next { s2 with note := .ok }) ∧
      (∀ s3, beginTest s2 k = some s3 → exec (.selftest f) s = .next { s3 with note := .ok })) ∧
    (s.itemSt = some .queued → s.cur.entry = false → ∃ m, s.cmd = some m ∧ s.me.ph.stage = .run ∧
      m.frame.dw3 &&& ~~~(evView s.me s.myCluster) = 0 ∧
      (m.frame.dw3 ≠ 0 ∨ m.frame.kind = 8 → s.myCluster.relUpd ≤ (s.dieAt (dieOf s.cur.lcore)).applied) ∧ (m.frame.kind = 8 → dcView s.me s.myCluster m.frame.dcn = 0) ∧
      (m.frame.spec = false → ∀ p, p ∈ m.frame.preds → s.me.satisfied p = true))

/-- A transfer that may start and whose rows can all be moved moves them in order and is done, in one step; a row between two places of
memory is read at its offset from dw10 and written at its offset from dw11. A LINK's next frame, read and found without fault, becomes
the entry at work, and the chain goes on at its NEXT or, where that is 0, ends with it (12 R250, R251, R262, 11 R245). -/
def Obligations.Transfers : Prop :=
  ∀ (s s1 s2 : State) (f : Frame),
    (∀ i, i ∈ transferOf f → s.me.stopped .X s.cur.seq = false → start s = .ok s1 →
      rowsDone f (rowsOf f - s1.itemRows) s1.itemRows s1 = some s2 →
      ∃ t, exec i s = .next t ∧ t.me = ((s2.setItemSt .done).progressed).me ∧ DuesGrow s2 t s2.myCluster.alm) ∧
    (∀ r bs l, f.kind = 2 ∨ f.kind = 3 → f.rop = 0 → f.ssp = false → f.dsp = false →
      virtRead s .X (f.dw10 + BitVec.ofInt 64 (rowOffset f false r)).toNat (f.dim 0) = .ok s1 bs →
      virtWrite s1 .X (f.dw11 + BitVec.ofInt 64 (rowOffset f true r)).toNat (bs.map some) = .ok s2 l → oneRow s f r = .ok s2) ∧
    (∀ m a bs m1, s.cmd = some m → m.chain = some { next := some a, cur := none } → s.cur.entry = false →
      s.me.stopped .X s.cur.seq = false → virtRead s .X a.toNat 128 = .ok s1 bs → s1.cur = s.cur → s1.cmd = some m1 →
      let g := tolerate s1 (Frame.ofList (wordsOf 16 bs))
      enqueueReason s1 g true (g.dw0.getLsbD 14 || Fmode.det s.fmode) = none →
      overlapBad s1.myCluster (firstPhase s1.me.ph.cmds) (checkedOf g m.seq ((s.me.ph.cmds.filter (fun k => k.seq = m.seq)).foldl (fun x k => max x k.entry) 0 + 1) none) = false →
      ∃ t, exec .chainFrameRead s = .next t ∧ t.note = .ok ∧ t.hbm = s1.hbm ∧ t.hub = s1.hub ∧
        ∃ n, t.cmd = some n ∧ n.frame = m1.frame ∧ n.st = m1.st ∧
          n.chain = some { next := if g.next = 0 then none else some (BitVec.ofNat 64 g.next), cur := some { frame := g, addr := a } })

/-- A command whose work is done retires: it leaves the queue for the log, its signals become pending, its counter's decrement too, and its
element is posted; one that is tentative is done and stays. At the end of a phase whose queues are empty the exchange makes every
back granule that holds no tentative work the front one, merges the flags and pending events, and releases the held stores; at the
retire step the phase-ending command's ring record is published or freed, its signals are committed and the next phase begins, and a unit
with nothing left ends (02 R34, 12 R253, R256-R258, R272, 13 R284). -/
def Obligations.RetirementsAndCommits : Prop :=
  ∀ s : State,
    (∀ m s0 s1, s.cmd = some m → s.cur.entry = false → s.me.ph.stage = .run → s.me.workDone m = true → m.frame.phaseEnd = false →
      m.frame.kind ≠ 10 → m.tent = [] → m.ev = [] → s.me.postRoom m.frame m.eng = true → ropEnd s m.frame = .ok s0 () →
      (m.frame.dcpost = true → dcView s0.me s0.myCluster m.frame.dcn ≠ 0) → logRoom s0 m.eng = some s1 →
      ∃ t, exec .commandRetire s = .next t ∧ t.note = .ok ∧
        t.me.cmds = s1.me.cmds.filter (fun k => k.seq ≠ m.seq) ∧ t.me.log = s1.me.log ++ [m] ∧
        t.me.ph.evSet = s1.me.ph.evSet ||| m.frame.dw4 ∧ t.me.ph.evClr = s1.me.ph.evClr &&& ~~~m.frame.dw4 ∧
        SMap.get t.me.ph.dec m.frame.dcn 0 = SMap.get s1.me.ph.dec m.frame.dcn 0 + (if m.frame.dcpost then 1 else 0) ∧
        t.me.fifo m.eng = s1.me.fifo m.eng ++ (if m.frame.res then [BitVec.ofNat 64 (m.seq.toNat + m.frame.kind * 2 ^ 32)] else []) ∧
        t.me.x = s1.me.x ∧ t.me.pc = s1.me.pc ∧ t.hbm = s1.hbm ∧ t.hub = s1.hub ∧ t.die = s1.die) ∧
    (∀ m, s.cmd = some m → s.cur.entry = false → s.me.ph.stage = .run → s.me.workDone m = true → m.frame.phaseEnd = false →
      m.frame.kind ≠ 10 → m.tent ≠ [] → m.st ≠ .done →
      ∃ t, exec .commandRetire s = .next t ∧ t.me = s.me.updCmd s.cur.eng s.cur.seq (fun k => { k with st := .done }) ∧
        DuesGrow s t s.myCluster.alm) ∧
    (∀ q e, s.me.ph.stage = .run → commitBy s.me s.isDue = some (q, e) → s.me.queued = false → s.myCluster.spad.wf = true → s.hbm.wf = true →
      (s.me.ph.back.map (·.1)).Nodup →
      ∃ t, exec .commitExchange s = .next t ∧ t.note = .ok ∧ t.me.ph.stage = .drain q e ∧
        t.me.fxflags = s.me.fxflags ||| s.me.ph.flags ∧ t.me.astat = s.me.astat ||| s.me.ph.stat ∧ t.me.log = [] ∧ t.me.cmds = s.me.cmds ∧
        t.me.ph.flags = 0 ∧ t.me.ph.stat = 0 ∧ t.me.ph.evSet = 0 ∧ t.me.ph.evClr = 0 ∧ t.me.ph.dec = [] ∧
        t.myCluster.ev = (s.myCluster.ev &&& ~~~s.me.ph.evClr) ||| s.me.ph.evSet ∧
        t.me.ph.held = s.me.ph.held.filter (fun h => h.tag.isSome || h.pre.isSome) ∧
        (∀ a, t.myCluster.spad.read a = match SMap.find s.me.ph.firm (a / 64) with
          | some g => g.data.extractLsb' (8 * (a % 64)) 8
          | none => s.myCluster.spad.read a) ∧
        (∀ a, (∀ h, h ∈ s.me.ph.held → h.tag = none → h.pre = none → h.repl = false → ∀ j, j < 64 → h.mask.getLsbD j = true → a ≠ h.addr + j) →
          (∀ r, r ∈ s.me.ph.rels → r.2 = none → r.1.repl = false → a < r.1.addr ∨ r.1.addr + r.1.data.length ≤ a) →
          t.hbm.read a = s.hbm.read a)) ∧
    (∀ q e, s.me.ph.stage = .run → commitBy s.me s.isDue = some (q, e) → s.me.queued = true →
      exec .commitExchange s = ({ s with cur := { s.cur with eng := e, seq := q, entry := false } } : State).fault { code := 20 }) ∧
    (∀ m, m.frame.rop = 0 → commitRop s m = some s) ∧
    (∀ q e m s0, s.me.ph.stage = .drain q e → s.replPending s.cur.lcore = false → s.me.cmdOf e q = some m → s.me.postRoom m.frame e = true →
      commitRop s m = some s0 → s0.me.ph.doomed = false → s0.me.ph.ending = false → (∀ u, s0.me.unit = some u → u.ctlDone = false) →
      (m.frame.dcpost = true → SMap.get s0.myCluster.dc m.frame.dcn 0 ≠ 0) →
      ∃ t, exec .commitRetire s = .next t ∧ t.note = .ok ∧ t.me.cmds = s0.me.cmds.filter (fun k => k.seq ≠ q) ∧ t.me.ph.stage = .run ∧
        t.me.ph.num = s0.me.ph.num + 1 ∧ t.me.ph.run = 1 ∧ t.myCluster.ev = s0.myCluster.ev ||| m.frame.dw4 ∧
        (m.frame.dcpost = true → SMap.get t.myCluster.dc m.frame.dcn 0 = SMap.get s0.myCluster.dc m.frame.dcn 0 - 1) ∧
        t.me.fifo e = s0.me.fifo e ++ (if m.frame.res then [BitVec.ofNat 64 (q.toNat + m.frame.kind * 2 ^ 32)] else []) ∧
        t.hbm = s0.hbm ∧ t.hub = s0.hub) ∧
    (∀ q e, s.me.ph.stage = .drain q e → s.replPending s.cur.lcore = false → s.me.cmds = [] → s.me.ph.doomed = false →
      (∃ u, s.me.unit = some u ∧ u.ctlDone = true) → (∀ k, k ∈ s.me.ph.cmds → k.pend = false) →
      ∃ t, exec .commitRetire s = .next t ∧ t.note = .ok ∧ t.me.unit = none)

/-- The oldest ready command of an entry that is not busy decides its speculation: it runs without prediction where the entry has no version,
or an opportunistic one's producer has retired; else the prediction is formed in the entry's buffer and the speculation is the entry's.
The oldest due speculation of the cluster records the real tile and is counted: 3 where it did not run, 1 and a hit where it passes, 2 and a miss where
it fails, and then no command stays tentative on it (13 R280, R282, R289-R291). -/
def Obligations.Speculations : Prop :=
  ∀ (s : State) (entry : BitVec 4),
    let e := entry.toNat
    let al := s.alm e
    let decided (m : Cmd) (ran : Bool) : Core → Core := fun c => { c with unit := c.unit.map (fun u => { u with specs := u.specs ++
      [{ id := m.specId, ran := some ran, phase := c.ph.num }] }) }
    (∀ m, decider s e = some m → entryBusy s.me m e = false →
      (al.live.nv = 0 ∨ (m.frame.opportunistic = true ∧ ∀ k, k ∈ s.me.cmds → k.seq ≠ m.specId.2) →
        ∃ t, exec (.specStart entry) s = .next t ∧ t.me = decided m false s.me ∧ DuesGrow s t s.myCluster.alm) ∧
      (al.live.nv ≠ 0 → (m.frame.opportunistic = false ∨ ∃ k, k ∈ s.me.cmds ∧ k.seq = m.specId.2) →
        (tentAtStart s.me m true).length ≤ 2 → versionPoison s.me s.myCluster al.live = none →
        copiesPoison s al.live.pbuf al.live.size = false →
        ∃ t, exec (.specStart entry) s = .next t ∧ DuesGrow s t (SMap.put s.myCluster.alm e { al with spec := some m.specId }) ∧
          t.me = decided m true (backWrite s.me s.myCluster none almAuthor al.live.pbuf (predictTile s.me s.myCluster al.live)))) ∧
    (∀ i l, s.myCluster.dues = (s.cur.lcore, i) :: l → i.1 = e → (∀ m, m ∈ s.me.cmds → m.st ≠ .done) → al.saved = [] →
      (∀ k, k ∈ s.me.cmds → k.seq ≠ i.2) → ((s.me.spec i).bind (·.ran) = some true → memberReady s i = false) →
      resolvePoison s.me s.myCluster al.live (decide ((s.me.spec i).bind (·.ran) = some true)) = none →
      copiesPoison s (al.live.slot al.live.nextSlot) al.live.size = false →
      let pass := tilePasses al.live (homeTile s.me s.myCluster al.live) (spadBytes s.me s.myCluster al.live.pbuf al.live.size)
      let up (n : BitVec 32) : BitVec 32 := if n = ~~~0 then n else n + 1
      ∃ t, exec (.specResolve entry) s = .next t ∧ t.note = .ok ∧ t.hbm = s.hbm ∧ t.hub = s.hub ∧ (t.alm e).spec = none ∧
        (t.alm e).live = { al.live.record with
          last := if (s.me.spec i).bind (·.ran) = some true then (if pass then 1 else 2) else 3
          hit := if (s.me.spec i).bind (·.ran) = some true ∧ pass = true then up al.live.hit else al.live.hit
          miss := if (s.me.spec i).bind (·.ran) = some true ∧ pass = false then up al.live.miss else al.live.miss } ∧
        ((s.me.spec i).bind (·.ran) = some true → ∀ m, m ∈ t.me.cmds → i ∉ m.tent))

/-- A message that is the owner's alone gets NOTREADY while a function that it needs is not ready, and NOTOWNER from any other master, with
no effect but the reply; a request of any kind before the part is up, or of a master that is not connected, does nothing. That NOTREADY
comes before NOTOWNER, and which bits each message needs, are the model's reading (log entry 40). The answers of a connection leave in the
order of its requests: what may leave is its oldest answers as far as they are formed, and what stays is the rest (21 R419, R421,
R423, R425). -/
def Obligations.OwnersMessages : Prop :=
  (∀ (i : Instr) (s : State) (r : Req) (type : BitVec 16) (need : List Nat), ownerMessage i = some (r, type, need) →
    (s.hub.st = .up → s.conn r.master ≠ none → (∃ b, b ∈ need ∧ s.hub.ready.getLsbD b = false) → exec i s = .next (answered s r type .notReady [])) ∧
    (Admitted s r need → (∀ t, s.hub.own = .owned r.master t → t ≤ s.now) → exec i s = .next (answered s r type .notOwner [])) ∧
    (s.conn r.master = none ∨ s.hub.st = .inReset ∨ s.hub.st = .stopped → exec i s = .next { s with note := .wait }) ∧
    (s.conn r.master ≠ none → s.hub.st = .recovery → exec i s = .next (answered s r type .notReady []))) ∧
  ∀ (s : State) (m : BitVec 64),
    let mine (l : List Answer) : List Answer := l.filter (fun a => a.req.master = m)
    let t := s.flush m
    t.hub.out = s.hub.out ++ ((mine s.hub.answers).takeWhile (fun a => a.msg.isSome)).filterMap (·.msg) ∧
    mine t.hub.answers = (mine s.hub.answers).dropWhile (fun a => a.msg.isSome) ∧
    t.hub.answers.filter (fun a => a.req.master ≠ m) = s.hub.answers.filter (fun a => a.req.master ≠ m) ∧
    t = { s with hub := { s.hub with out := t.hub.out, answers := t.hub.answers } }

/-- STATUS and ATTEST answer any connected master, in recovery too; READ gives the doublewords of an item, and BADMSG for an item that is not
mapped (log entry 99). A claim of a master with the OWNER right opens or joins an election, whose close makes the claim with the lowest
value, then identity, the owner for 5 s from the close; the owner renews, releases and hands over, but to no master that may only observe
(log entry 44); a lease that runs out lapses, before any later request (21 R422, R423, R425, R426). -/
def Obligations.StatusAndOwnership : Prop :=
  ∀ (s : State) (r : Req),
    let lease := 5000 * 1800000
    let up : Prop := s.conn r.master ≠ none ∧ (s.hub.st = .up ∨ s.hub.st = .recovery)
    (up → exec (.status r) s = .next (answered s r 0x0001 .ok [.word s.hub.ready, .word (s.owner.getD 0), .word r.master,
      .word (BitVec.ofNat 64 (leaseLeft s r.master)), .word (s.hub.release.setWidth 64)])) ∧
    (∀ nonce, up → nonce.length = 32 → exec (.attest r nonce) s = .next (answered s r 0x0002 .ok
      [.bytes (report s nonce), .bytes (Ed448.sign Config.deviceKey (report s nonce)), .bytes (Ed448.publicKey Config.deviceKey), .bytes Config.deviceCert])) ∧
    (∀ nonce, up → nonce.length ≠ 32 → exec (.attest r nonce) s = .next (answered s r 0x0002 .badMsg [])) ∧
    (∀ item ws, Admitted s r [] → readItem s item = some ws → exec (.read r item) s = .next (answered s r 0x0003 .ok (ws.map .word))) ∧
    (∀ item, Admitted s r [] → readItem s item = none → exec (.read r item) s = .next (answered s r 0x0003 .badMsg [])) ∧
    (∀ d b : BitVec 4, OwnerAsks s r [] → d.toNat ≤ 8 → b.toNat < 14 → ∃ t, exec (.clearmc r d b) s = .next (answered t r 0x0004 .ok []) ∧
      t = { s with hub := { s.hub with bank := t.hub.bank } } ∧
      (t.bankAt d.toNat b.toNat).status = (s.bankAt d.toNat b.toNat).status &&& 0x7FFFFFFFFFFFFFFF ∧
      ∀ d' b', d' ≤ 8 → b' < 14 → (d', b') ≠ (d.toNat, b.toNat) → t.bankAt d' b' = s.bankAt d' b') ∧
    (∀ (p : BitVec 8) c, Admitted s r [46] → s.conn r.master = some c →
      let opens (u : State) : State := owed (ownBy u (.elect [(r, p)] (s.now + 100 * 1800000))) r 0x0010
      (c.2.1 = false → exec (.claim r p) s = .next (answered s r 0x0010 .notOwner [])) ∧
      (c.2.1 = true → s.hub.own = .free → exec (.claim r p) s = .next (opens s)) ∧
      (∀ o t, c.2.1 = true → s.hub.own = .owned o t → t ≤ s.now → exec (.claim r p) s = .next (opens (lapsedFrom s o))) ∧
      (∀ cs t, c.2.1 = true → s.hub.own = .elect cs t → s.now < t → exec (.claim r p) s = .next (owed (ownBy s (.elect (cs ++ [(r, p)]) t)) r 0x0010)) ∧
      (∀ o t, c.2.1 = true → s.hub.own = .owned o t → s.now < t → exec (.claim r p) s = .next (answered s r 0x0010 .owned []))) ∧
    (∀ cs t, s.hub.own = .elect cs t → t ≤ s.now → cs ≠ [] → ∃ w, w ∈ cs ∧
      (∀ c, c ∈ cs → w.2 < c.2 ∨ (w.2 = c.2 ∧ w.1.master ≤ c.1.master)) ∧
      exec .electionClose s = .next { cs.foldl (fun u c => u.answer c.1 0x0010 (if c = w then .granted else .lost)) (ownedBy s w.1.master (t + lease)) with note := .ok }) ∧
    (∀ t, Admitted s r [46] → s.hub.own = .owned r.master t →
      (s.now < t → exec (.renew r) s = .next (answered (ownedBy s r.master (s.now + lease)) r 0x0011 .ok [])) ∧
      (t ≤ s.now → exec (.renew r) s = .next (answered (lapsedFrom s r.master) r 0x0011 .lapsed []))) ∧
    (Admitted s r [46] → s.hub.own = .free → exec (.renew r) s = .next (answered s r 0x0011 (if s.hub.lapsed.contains r.master then .lapsed else .notOwner) [])) ∧
    (OwnerAsks s r [46] → exec (.release r) s = .next (answered (ownBy s .free) r 0x0012 .ok [])) ∧
    (∀ heir c, OwnerAsks s r [46] → s.conn heir = some c → c.2.1 = true →
      let t := answered (ownedBy s heir (s.now + lease)) r 0x0013 .ok []
      exec (.handover r heir) s = .next { t with hub := { t.hub with out := t.hub.out ++ [{ dest := heir, type := 0x0013, id := 0, status := .ok, body := [] }] } }) ∧
    (∀ heir, OwnerAsks s r [46] → (∀ c, s.conn heir = some c → c.2.1 = false) → exec (.handover r heir) s = .next (answered s r 0x0013 .notConnected [])) ∧
    (∀ o t, s.hub.own = .owned o t → t ≤ s.now → exec .leaseExpiry s = .next { lapsedFrom s o with note := .ok })

/-- What the owner's messages do once they are taken: a job is created with the lowest free address-space id, ended, given memory and peers;
an object is loaded with the symbols that the runtime supplies, or refused without a trace; a launch is submitted or cancelled; a test, new
anchors and module reset (17 R362, 18 R369-R375, 21 R425, R431, R445, 22 R434). BADMSG for attributes out of range (log entry 125), the
root page on the die of JLO and the freeing of frames once nothing of them is held (log entry 45), a test's RESULT as a physical address
(log entry 48), the symbols of the runtime (log entry 127) and the readiness bits (log entry 40) are the model's choices. -/
def Obligations.JobMessages : Prop :=
  ∀ (s s1 : State) (r : Req) (job : Nat) (j : Job),
    (∀ attr a root, OwnerAsks s r (43 :: homeBits (dieOf attr.jlo % 8)) → attrOk attr = true → freeAsid s = some a → allocFrame s (dieOf attr.jlo) 1 = some (s1, root) →
      exec (.createjob r attr) s = .next (answered { s1 with hub := { s1.hub with
          jobs := SMap.put s1.hub.jobs s.hub.nextJob { attr := attr, asid := BitVec.ofNat 12 a, root := root, home := dieOf attr.jlo }
          nextJob := s.hub.nextJob + 1 } } r 0x0020 .ok [.word (BitVec.ofNat 64 s.hub.nextJob), .word (BitVec.ofNat 64 a)])) ∧
    (∀ attr, OwnerAsks s r (43 :: homeBits (dieOf attr.jlo % 8)) → attrOk attr = false → exec (.createjob r attr) s = .next (answered s r 0x0020 .badMsg [])) ∧
    (OwnerAsks s r [43] → s.openJob job = some j →
      let k := { j with ended := true, ending := some r, status := if j.count = 0 then (if j.anyCancelled then 3 else 2) else j.status }
      exec (.endjob r job) s = .next (owed (writeJobRec (s.setJob job k) job) r 0x0021)) ∧
    (s.jobAt job = some j → j.ending = some r → (∀ l, l ∈ s.hub.launches → l.2.job = job → l.2.live = false) →
      (∀ f, f ∈ jobFrames s j → frameBusy s f.1 f.2 = false) →
      ∃ t, exec (.endjobDone job) s = .next t ∧ t.note = .ok ∧ t.jobAt job = some { j with ending := none } ∧ t.hbm = s.hbm ∧
        t.hub.out = (s.answer r 0x0021 .ok).hub.out ∧ t.hub.answers = (s.answer r 0x0021 .ok).hub.answers ∧ t.hub.launches = s.hub.launches) ∧
    (∀ m, OwnerAsks s r (mapBits m) → s.openJob job = some j → mapBad m = false → m.len ≠ 0 →
      let a := mapRange m
      (leavesIn s j.root a.1 (a.2 * mapSize m) ≠ [] → exec (.map r job m) s = .next (answered s r 0x0022 .overlap [])) ∧
      (leavesIn s j.root a.1 (a.2 * mapSize m) = [] → mapPages j.root m.home m.big m.kind.toNat m.repl m.w a.2 a.1 s = none →
        exec (.map r job m) s = .next (answered s r 0x0022 .noSpace [])) ∧
      (leavesIn s j.root a.1 (a.2 * mapSize m) = [] → mapPages j.root m.home m.big m.kind.toNat m.repl m.w a.2 a.1 s = some s1 →
        exec (.map r job m) s = .next (answered (rebindWindows s1 job) r 0x0022 .ok []) ∧
        ((∀ l, l ∈ s1.hub.launches → l.2.job = job → l.2.status ≠ 1) → rebindWindows s1 job = s1))) ∧
    (∀ va len, OwnerAsks s r [1] → s.openJob job = some j → va.toNat + len ≤ 2 ^ 55 →
      let ls := leavesIn s j.root va.toNat len
      let u := s.hub.unmaps ++ [{ req := r, job := job, va := va.toNat, len := len, frames := ls.map (fun l => (ePfn l.ent * 65536, l.size)) }]
      ∃ t, exec (.unmap r job va len) s = .next t ∧ t.note = .ok ∧ t.hub.unmaps = u ∧ t.hub.out = s.hub.out ∧
        t.hub.answers = s.hub.answers ++ [{ req := r, type := 0x0023 }] ∧
        ((∀ l, l ∈ s.hub.launches → l.2.job = job → l.2.status ≠ 1) →
          t.hbm = ls.foldl (fun h l => h.writeWord l.eaddr 8 0) s.hbm ∧ t.hub = { s.hub with unmaps := u, answers := t.hub.answers })) ∧
    (∀ u, s.hub.unmaps.find? (fun u => u.frames.all (fun f => !frameBusy s f.1 f.2)) = some u → ∃ t, exec .unmapDone s = .next t ∧ t.note = .ok ∧
      t.hub.unmaps = s.hub.unmaps.erase u ∧ t.hub.out = (s.answer u.req 0x0023 .ok).hub.out ∧ t.hub.answers = (s.answer u.req 0x0023 .ok).hub.answers ∧
      t.hbm = s.hbm ∧ t.core = s.core) ∧
    (∀ g, OwnerAsks s r [1] → s.openJob job = some j →
      let k := supplied j g.syms
      let refused (code : Nat) (e : LoadErr) : State := answered s r 0x0030 (.code code) [errField e.sect, errField e.off, errField e.rel, errField e.sym]
      (s.hbmReady j.home = false → exec (.load r job g) s = .next (answered s r 0x0030 .notReady [])) ∧
      (s.hbmReady j.home = true →
        (∀ e, planLoad s k g = .error e → exec (.load r job g) s = .next (refused e.code e)) ∧
        (∀ p, planLoad s k g = .ok p → commitLoad s job k p = none → exec (.load r job g) s = .next (refused 11 { code := 11 })) ∧
        (∀ p, planLoad s k g = .ok p → commitLoad s job k p = some s1 → exec (.load r job g) s =
          .next (answered s1 r 0x0030 .ok (loadReply (j.loads.length + 1) p))))) ∧
    (∀ va n, OwnerAsks s r [43] → s.openJob job = some j → submitDesc s job j va = (s1, n) → exec (.submit r job va) s =
      .next (answered s1 r 0x0031 (if n = 0 then .ok else .code n) [])) ∧
    (∀ va, OwnerAsks s r [43] → s.openJob job = some j → va.toNat % 256 ≠ 0 → exec (.submit r job va) s = .next (answered s r 0x0031 (.code 16) [])) ∧
    (∀ level sel q n, OwnerAsks s r [43] → resolveCancel s (some job) (some job) level sel = (n, q) → exec (.cancelMsg r job level sel) s =
      .next (if n = 0 then answered (acceptCancel s q) r 0x0032 .ok [] else answered s r 0x0032 (.code n) [])) ∧
    (∀ entry gid qp valid, OwnerAsks s r [44] → s.openJob job = some j → entry < 4096 → exec (.peer r job entry gid qp valid) s =
      .next (answered (s.setJob job { j with peers := SMap.put j.peers entry (gid, qp, valid) }) r 0x0033 .ok [])) ∧
    (∀ (die : BitVec 3) dw10 dw11, OwnerAsks s r [43, 34 + die.toNat] → fld dw10 8 3 ≠ 0 → fld dw10 0 6 < 36 → dw10 &&& 0xFFFFFFFFFFFFF8C0 = 0 →
      dw11.toNat % 64 = 0 → dw11.toNat + 64 ≤ 2 ^ 40 →
      let d := s.dieAt die.toNat
      let s2 := owed (s.setDie die.toNat { d with lamp := d.lamp ++ [{ lcore := none, seq := 0, req := some r, job := 0, dw10 := dw10, dw11 := dw11 }] }) r 0x0034
      exec (.selftestMsg r die dw10 dw11) s = .next { (beginTest s2 die.toNat).getD s2 with note := .ok }) ∧
    (∀ list deny, OwnerAsks s r [1] → list.length ≤ 8 → deny.length ≤ 256 →
      let u := answered s r 0x0035 .ok []
      ∃ t, exec (.anchors r list deny) s = .next t ∧ t = { u with hub := { u.hub with anchors := list, deny := deny, conns := t.hub.conns, answers := t.hub.answers } } ∧
      (∀ c, c ∈ t.hub.conns ↔ c ∈ s.hub.conns ∧ c.1 ∉ deny ∧ (if list = [] then c.2.2.1 = true else ∃ a, a ∈ list ∧ c.2.2.2 = some a.ident)) ∧
      ∀ a, a ∈ t.hub.answers ↔ a ∈ u.hub.answers ∧ ∀ c, c ∈ s.hub.conns → c.1 = a.req.master → c ∈ t.hub.conns) ∧
    (OwnerAsks s r [1] → ((∀ a, a ∈ s.hub.answers → a.req.master ≠ r.master) →
        exec (.reset r) s = .next { moduleReset (answered s r 0x0040 .ok []) with note := .ok }) ∧
      ((∃ a, a ∈ s.hub.answers ∧ a.req.master = r.master) → exec (.reset r) s = .next { s with note := .wait }))

/-- A record in a bank: CNT counts corrected ones and stops at 255; the first record, or one of a higher class, fills the bank, with OVER set
where another was lost; one of no higher class sets OVER and changes nothing else (20 R413). What a contained fault does to the unit at work,
once it is logged: nothing for POISONOUT; a roll back of the running phase, and another run, for UNCORR, VIGIL and MIRRORMISMATCH, three runs
at most, unless the phase cannot be replayed; else a roll back and the cancel of the launch. A fault met while a commit drains waits for its
retire step. A roll back returns the flags to the phase's start and every command to its queue, in sequence order, with none of its effects
(20 R415, R417, R418, 02 R39). -/
def Obligations.RecordsAndContainedFaults : Prop :=
  (∀ (b : McBank) (r : Rec), r.cls < 4 → r.code < 65536 →
    let n := b.log r
    let valid := b.status.getLsbD 63
    let cnt := fld b.status 30 8
    fld n.status 30 8 = (if r.cls = 1 then min 255 (cnt + 1) else cnt) ∧ n.ceint = b.ceint ∧ n.cnint = b.cnint ∧ n.status.getLsbD 63 = true ∧
    (valid = false ∨ fld b.status 60 2 < r.cls → fld n.status 60 2 = r.cls ∧ fld n.status 0 16 = r.code ∧ n.addr = r.addr ∧ n.misc = r.misc ∧
      n.status.getLsbD 62 = valid ∧ fld n.status 16 8 = r.sub % 256 ∧ fld n.status 24 4 = r.eng % 16) ∧
    (valid = true → r.cls ≤ fld b.status 60 2 → n.status.getLsbD 62 = true ∧ n.addr = b.addr ∧ n.misc = b.misc ∧ n.phys = b.phys ∧
      ∀ k, k ≠ 62 → (k < 30 ∨ 38 ≤ k) → n.status.getLsbD k = b.status.getLsbD k)) ∧
  ∀ (s : State) (u : Run) (n code : Nat), (s.coreAt n).unit = some u →
    let c := s.coreAt n
    let again : Prop := code = 1 ∨ code = 3 ∨ code = 4
    (c.ph.stage = .run → code = 5 → dealWith s n code = s) ∧
    (c.ph.stage = .run → again → c.ph.nonrepl = false → c.ph.run < 3 → dealWith s n code = rollback s n (c.ph.run + 1)) ∧
    (c.ph.stage = .run → code ≠ 5 → ¬ (again ∧ c.ph.nonrepl = false ∧ c.ph.run < 3) → dealWith s n code = cancelLaunch (rollback s n 1) u.launch) ∧
    (∀ e q, c.ph.stage = .drain e q → code ≠ 5 → dealWith s n code = s.setCore n { c with ph := { c.ph with doomed := true } }) ∧
    (∀ k, let d := (rollback s n k).coreAt n
      d.fl = c.ph.flags0 ∧ d.log = [] ∧ d.flights = [] ∧ d.astores = [] ∧ d.q = {} ∧ d.tok = {} ∧ d.fwait = [] ∧ d.mwork = [] ∧
      d.lineA = {} ∧ d.lineM = {} ∧ d.lineV = {} ∧ d.ph.run = k ∧ d.ph.nonrepl = c.ph.nonrepl ∧ d.ph.back = [] ∧ d.ph.held = [] ∧ d.ph.flags = 0 ∧
      d.ph.evSet = 0 ∧ d.ph.evClr = 0 ∧ d.ph.dec = [] ∧ (∀ m, m ∈ d.cmds ↔ ∃ x, (x ∈ c.log ∨ x ∈ c.cmds) ∧ m = x.rewind) ∧
      d.x = c.x ∧ d.pc = c.pc ∧ d.v = c.v ∧ d.p = c.p ∧ d.g = c.g ∧ d.acc = c.acc ∧ d.fxflags = c.fxflags ∧ (rollback s n k).hbm = s.hbm) ∧
    (∀ (m : Cmd), m.rewind.st = .queued ∧ m.rewind.seq = m.seq ∧ m.rewind.frame = m.frame ∧ m.rewind.cap = m.cap ∧ m.rewind.rows = 0 ∧ m.rewind.tent = [])

/-- Fault records, invalidation, micro-program counters, saves and restores, and the writes of control registers: each in machine mode has its
effect, and from user mode is the illegal-instruction trap. A micro-program counter that moves an engine to another bundle leaves what the
engine has begun of the old one. A pre-emption asks every core on which a member of the unit's gang runs. The model's own choices here: a
save without a unit ends OK with length 0 (log entry 42), the trap of an operation that is no CSR instruction has the CSR's number in mtval
(log entry 104), what a save waits for (log entry 109), and that a ring set up again keeps its claims (log entry 30) (02 R47, 03 R64,
12 R269, 18 R383, R384, 19 R391-R400, R405, 20 R412). -/
def Obligations.PagingAndContext : Prop :=
  ∀ s : State,
    let d := s.drainSbuf s.cur.lcore
    let clear : Prop := s.me.mode = .M ∧ d.replPending s.cur.lcore = false
    (∀ r l, s.me.fwait = r :: l → (r.gen = s.me.gen → s.me.fbuf.length < 16 → ∃ t, exec .pageFaultRecord s = .next t ∧
        Becomes s t { s.me with fwait := l, fbuf := s.me.fbuf ++ [r] }) ∧
      (r.gen ≠ s.me.gen → ∃ t, exec .pageFaultRecord s = .next t ∧ Becomes s t (Core.retry { s.me with fwait := l } r))) ∧
    (∀ n : BitVec 5, fromUser s (.fbflush n) 0x7C7 ∧ (clear → ∃ t, exec (.fbflush n) s = .next t ∧ t.note = .ok ∧ SameElse d t ∧
      t.me.fbuf = d.me.fbuf.drop n.toNat ∧ t.me.gen = d.me.gen + 1 ∧ t.me.fbn = n ∧ t.me.x = d.me.x ∧ t.me.cmds = d.me.cmds)) ∧
    (∀ wide i m, (i, m) ∈ invalidation wide → fromUser s i 0x7C8 ∧ (clear → s.me.tlbbusy = false → ∃ t, exec i s = .next t ∧
      Becomes d t { d.me with tlbbusy := true, tlbwide := wide, tlbmode := BitVec.ofNat 2 m, tlbkey := (d.me.ptroot.extractLsb' 52 12, d.me.tlbva.toNat) })) ∧
    (s.me.tlbbusy = true → ∃ t, exec .tlbinvDone s = .next t ∧ t.note = .ok ∧ t.me.tlbbusy = false ∧ t.hub = s.hub ∧ t.hbm = s.hbm ∧ t.cluster = s.cluster ∧
      ∀ n, List.Sublist (tlbsOf (t.coreAt n)) (tlbsOf (s.coreAt n)) ∧
        ((s.me.tlbwide = true ∨ n = s.cur.lcore) → ∀ x, x ∈ tlbsOf (t.coreAt n) → ¬ names s.me.tlbmode.toNat s.me.tlbkey.1 s.me.tlbkey.2 x) ∧
        (s.me.tlbwide = false → n ≠ s.cur.lcore → t.coreAt n = s.coreAt n)) ∧
    (∀ (k : BitVec 3) v, fromUser s (.upcWrite k v) (0x7D1 + k.toNat) ∧ (s.me.mode = .M →
      let e := s.me.upcEng
      let l := s.me.line e
      let u := l.upc.setWord e k.toNat v
      let stays : Prop := u.line = l.upc.line ∧ u.slot = l.upc.slot
      (s.me.halted e = true → ∃ t, exec (.upcWrite k v) s = .next t ∧ t.note = .ok ∧ SameElse s t ∧
        (stays → t.me = s.me.updLine e (fun l => { l with upc := u, buf := [], resumed := true })) ∧
        (¬ stays → s.me.upcsel ≠ 3 → t.me.line e = { l with upc := u, buf := [], resumed := true, moved := 0, done := 0, gnew := [], pnew := [] } ∧
          t.me = { s.me with lineA := t.me.lineA, lineM := t.me.lineM, lineV := t.me.lineV, g := t.me.g, ap := t.me.ap } ∧
          (e ≠ .A → t.me.g = s.me.g ∧ t.me.ap = s.me.ap) ∧ (∀ e', e' ≠ e → t.me.line e' = s.me.line e') ∧
          (e = .A → t.me.g = l.gnew.foldl (fun m p => if p.1 = 0 then m else SMap.put m p.1 p.2) s.me.g))) ∧
      (s.me.halted e = false → ∃ t, exec (.upcWrite k v) s = .next t ∧ Becomes s t s.me))) ∧
    (∀ (u : Upc) (e : Eng) (v : Word), (u.setWord e 0 v).words.getD 0 0 = v ∧
      (e ≠ .A → (u.setWord e 1 v).words.getD 1 0 = v &&& 0xFFFFFFFFFFFE0000) ∧
      (∀ k, k < 4 → (u.setWord e (2 + k) v).words.getD (2 + k) 0 = v &&& 0xFFFFFFFFFFFF8001)) ∧
    (fromUser s .ctxSave 0x7E0 ∧ (s.me.mode = .M → s.me.ctxbusy = false → ∃ t, exec .ctxSave s = .next t ∧
      Becomes s t { s.me with ctxbusy := true, ctxsave := true, ctxrt := false, preip := false })) ∧
    (s.me.ctxbusy = true → s.me.ctxsave = true → s.me.unit = none → ∃ t, exec .ctxSaveWrite s = .next t ∧
      Becomes s t { s.me with ctxbusy := false, ctxsave := false, ctxstat := 0, ctxlen := 0 }) ∧
    (∀ u, s.me.ctxbusy = true → s.me.ctxsave = true → s.me.unit = some u → s.me.ctxrt = false → saveWaits s = false →
      let body := imageBody s
      let total := 576 + body.length
      let a := s.me.ctxptr.toNat
      (s.me.ctxlen.toNat < total → ∃ t, exec .ctxSaveWrite s = .next t ∧ t.note = .ok ∧ t.me.ctxbusy = false ∧ t.me.ctxstat = 1 ∧ t.me.unit = some u ∧
        t.me.cmds = s.me.cmds ∧ t.me.ph = s.me.ph ∧ t.hbm = s.hbm) ∧
      (total ≤ s.me.ctxlen.toNat → a + total ≤ 2 ^ 40 → ∃ t, exec .ctxSaveWrite s = .next t ∧ t.note = .ok ∧ t.me.ctxbusy = false ∧ t.me.ctxstat = 0 ∧
        t.me.ctxlen = BitVec.ofNat 32 total ∧ t.me.unit = none ∧ t.me.cmds = [] ∧
        t.hbm = (s.hbm.writeN a (imageHeader s.cur.lcore u total)).writeN (a + 576) body)) ∧
    (s.me.ctxbusy = false → fromUser s .ctxRestore 0x7E0 ∧ (s.me.mode = .M → ∃ t, exec .ctxRestore s = .next t ∧
      Becomes s t { s.me with ctxbusy := true, ctxsave := false, ctxrt := false })) ∧
    (s.me.ctxbusy = true → s.me.ctxsave = false → s.me.restoring = none → s.me.ctxrt = false →
      (checkImage s = none → ∃ t, exec .ctxRestore s = .next t ∧ Becomes s t { s.me with ctxbusy := false, ctxstat := 2 }) ∧
      (∀ n l u x base, checkImage s = some (n, l, u, x) → placeUnit s n l s.cur.lcore = some base →
        (∀ q, q ∈ (recsAt (x.getD 10 []).length (x.getD 10 [])).getD [] → recBad q.1 = false) →
        ∃ t, exec .ctxRestore s = .next t ∧ t.note = .ok ∧ t.me.ctxbusy = false ∧ t.me.ctxstat = 0 ∧ t.me.pc = s.me.pc ∧
          ∀ k, k < 32 → t.me.gget k = if k = 0 then 0 else dwAt (x.getD 3 []) (8 * k))) ∧
    (∀ u l w, s.me.unit = some u → s.me.preip = false → s.me.ctxbusy = false → w ∈ waitersOn s s.cur.lcore → w.level s.now + 3 ≤ u.pri →
      s.launchAt u.launch = some l →
      ∃ t, exec .preempt s = .next t ∧ t.note = .ok ∧ t.hub = s.hub ∧ t.hbm = s.hbm ∧
        ∀ n, ((∃ k r, k ∈ gangUnits l u.idx ∧ n = l.lc0 + k ∧ (s.coreAt n).unit = some r ∧ r.launch = u.launch) → t.coreAt n = { s.coreAt n with preip := true }) ∧
          ((∀ k r, k ∈ gangUnits l u.idx → n = l.lc0 + k → (s.coreAt n).unit = some r → r.launch ≠ u.launch) → t.coreAt n = s.coreAt n)) ∧
    (∀ dd b, fromUser s .mcctlClrcnt 0x7F4 ∧ (s.me.mode = .M → s.me.mcSel = some (dd, b) → ∃ t, exec .mcctlClrcnt s = .next t ∧ HubOnly s t ∧
      t.bankAt dd b = { s.bankAt dd b with status := (s.bankAt dd b).status &&& 0xFFFFFFC03FFFFFFF })) ∧
    (∀ v, let k := s.me.ringsel.toNat
      (s.hasRing k = false → ∃ t, exec (.ringcfgWrite v) s = .next t ∧ TakesTrap s t 2 0x861) ∧
      (s.hasRing k = true → ∃ t, exec (.ringcfgWrite v) s = .next t ∧ t.note = .ok ∧ t.hub = s.hub ∧ t.hbm = s.hbm ∧ t.me.x = s.me.x ∧
        ((s.ring k).en = true → t.ring k = { s.ring k with en := v.getLsbD 29 }) ∧
        ((s.ring k).en = false → (t.ring k).shared = v.getLsbD 30 ∧ (t.ring k).size2 = v.extractLsb' 24 5 ∧ (t.ring k).base = v.extractLsb' 0 21 ∧
          (t.ring k).head = (s.ring k).head ∧ (t.ring k).tail = (s.ring k).tail ∧ (t.ring k).clm = (s.ring k).clm ∧
          (t.ring k).claims = (s.ring k).claims ∧
          (t.ring k).en = (v.getLsbD 29 && (t.ring k).legal)))) ∧
    (∀ num v, (csrSet s s.me.mode num.toNat v = none → ∃ t, exec (.csrWrite num v) s = .next t ∧ TakesTrap s t 2 (num.setWidth 64)) ∧
      (∀ s1, csrSet s s.me.mode num.toNat v = some (.ok s1) → exec (.csrWrite num v) s = .next { s1 with note := .ok })) ∧
    (∀ v, (∃ t, exec (.csrWrite 0x800 v) s = .next t ∧ Becomes s t { s.me with
        fmode := if v.getLsbD 3 = true ∧ v.getLsbD 4 = true then (v &&& 0x7E7) ||| (s.me.fmode &&& 0x18) else v &&& 0x7FF }) ∧
      (∃ t, exec (.csrWrite 0x803 v) s = .next t ∧ Becomes s t { s.me with fxflags := s.me.fxflags &&& ~~~(v.setWidth 6) }))

/-- Bring-up, readiness, the scheduler's start of a unit, connections, RDMA, and the clock of a die: module reset returns all but the boot
flash; the ROM starts the firmware or recovery; a function's bit is set once; the waiter that comes before all others on a core starts, with
its registers, windows and mode as its launch gives them; a queue pair answers on its connection; a die withholds cycles at 100.0 °C, above
330 W over 100 ms or above 400 W over 10 ms, and trips at 115.0 °C. The model's own choices here: what module reset keeps (log entry 101), a
cleared bit not set again (log entry 102), the form of a reading (log entry 47), the answers of RDMA (log entry 100) and the queue pairs'
set-up (log entry 131) (18 R379-R382, 21 R419-R425, R429, 22 R439). -/
def Obligations.HubOperations : Prop :=
  ∀ s : State,
    (∃ t, exec .moduleReset s = .next t ∧ t.core = [] ∧ t.cluster = [] ∧ t.hbm = [] ∧ t.poison = [] ∧ t.now = 0 ∧
      t.hub = { flash := s.hub.flash, anchors := s.hub.anchors, deny := s.hub.deny, out := s.hub.out, pkts := s.hub.pkts } ∧
      (∀ n, n < 8 → t.dieAt n = { fw := (s.dieAt n).fw }) ∧ t.agenda = { cycles := 0, who := .op 0 .A .boot } :: s.agenda) ∧
    (s.hub.st = .inReset → imageOk s.hub.flash = true → exec .boot s =
      .next { s with note := .ok, hub := { s.hub with st := .up, release := s.hub.flash.release, ready := s.hub.ready ||| 3 } }) ∧
    (s.hub.st = .inReset → imageOk s.hub.flash = false → exec .boot s =
      .next { s with note := .ok, hub := { s.hub with st := .recovery, ready := s.hub.ready ||| 0x40000000000 } }) ∧
    (∀ (die : BitVec 4) fw, s.hub.st = .recovery → (die = 8 → exec (.imageUpload die fw) s = .next { s with note := .ok, hub := { s.hub with flash := fw } }) ∧
      (die.toNat < 8 → exec (.imageUpload die fw) s = .next { s.setDie die.toNat { s.dieAt die.toNat with fw := fw } with note := .ok })) ∧
    (∀ bit : BitVec 6, s.hub.st = .up → 2 ≤ bit.toNat → bit.toNat ≤ 46 → s.hub.cleared.getLsbD bit.toNat = false →
      (bit.toNat < 10 → imageOk (s.dieAt (bit.toNat - 2)).fw = true) →
      exec (.functionReady bit) s = .next { s with note := .ok, hub := { s.hub with ready := s.hub.ready ||| BitVec.twoPow 64 bit.toNat } }) ∧
    (∀ port : BitVec 3, ∃ t, exec (.ethernetLinkDown port) s = .next t ∧ t.note = .ok ∧
      t.hub = { s.hub with ready := s.hub.ready &&& ~~~(BitVec.twoPow 64 (26 + port.toNat)), cleared := s.hub.cleared ||| (s.hub.ready &&& BitVec.twoPow 64 (26 + port.toNat)) } ∧
      t.me = (if s.me.rmt.isSome = true ∧ s.me.rmtans = none then { s.me with rmtans := some (0, 1) } else s.me) ∧
      (∀ n, n ≠ s.cur.lcore → t.coreAt n = s.coreAt n) ∧ t.hbm = s.hbm ∧ t.cluster = s.cluster) ∧
    (∀ h m o, admits s h = some (m, o) → ∃ t, exec (.controlHandshake h) s = .next t ∧
      (∀ key, h.cert = some key → m = BitVec.ofNat 64 (leNat (shake256 key 8))) ∧ h.cert ≠ none ∧ 0x0808 ∈ h.sigs ∧
      t = { s with note := .ok, hub := { s.hub with
        conns := s.hub.conns.filter (fun c => c.1 ≠ m) ++ [(m, o, h.mgmt, if h.chainOk then some h.anchor else none)], answers := t.hub.answers } } ∧
      t.hub.answers = (if s.hub.conns.any (fun c => c.1 = m) then s.hub.answers.filter (fun a => a.req.master ≠ m) else s.hub.answers)) ∧
    (∀ h, admits s h = none → exec (.controlHandshake h) s = .next { s with note := .ok }) ∧
    (∀ m, s.conn m ≠ none → exec (.controlConnectionLoss m) s = .next { s with note := .ok, hub := { s.hub with
      conns := s.hub.conns.filter (fun c => c.1 ≠ m), answers := s.hub.answers.filter (fun a => a.req.master ≠ m) } }) ∧
    (∀ w s1, canTake s s.cur.lcore = true → chosen s s.cur.lcore = some w → w.ready s = true → startGroup w.n s w.group = some s1 →
      exec .unitStart s = .next { s1 with note := .ok }) ∧
    (∀ w base s1, canTake s s.cur.lcore = true → w ∈ waitersOn s s.cur.lcore → (∀ v, v ∈ waitersOn s s.cur.lcore → v ≠ w → waitsBefore s.now w v) →
      w.l.gang = 0 → w.saved = false → s.launchAt w.n = some w.l → placeUnit s w.n w.l s.cur.lcore = some base → startUnit s w.n w.l w.idx base = some s1 →
      exec .unitStart s = .next { s1 with note := .ok }) ∧
    (∀ n l u base s1 j ld k, startUnit s n l u base = some s1 → s.jobAt l.job = some j → kernelOf j l.handle = some (ld, k) → l.lc0 + u = s.cur.lcore →
      s1.me.mode = .U ∧ s1.me.pc = k.entry ∧ s1.x 4 = l.vstop0 + BitVec.ofNat 64 u * l.stride ∧ s1.x 2 = l.sstop0 + BitVec.ofNat 64 u * l.stride ∧
      (∀ r : Reg, r ≠ 0 → r ≠ 2 → r ≠ 4 → s1.x r = Config.startX r.toNat) ∧
      s1.me.vslim = (l.vstop0 + BitVec.ofNat 64 u * l.stride - BitVec.ofNat 64 l.vssize) &&& (BitVec.allOnes 55).setWidth 64 ∧
      s1.me.fmode = l.fmode ∧ s1.me.srseed = l.srseed ∧ s1.me.fxflags = 0 ∧ s1.me.astat = 0 ∧ s1.me.seqno = 0 ∧ s1.me.v = [] ∧ s1.me.p = [] ∧ s1.me.g = [] ∧
      s1.me.cmds = [] ∧ s1.me.fl = 0 ∧ s1.me.gang = 0 ∧ s1.me.acc = s.me.acc ∧ s1.me.dstore = s.me.dstore ∧
      ∃ r, s1.me.unit = some r ∧ r.launch = n ∧ r.idx = u ∧ r.lid = l.lid ∧ r.job = l.job) ∧
    (∀ (qp : BitVec 24) (q : QPair) va, s.hub.st = .up → s.hub.ready.getLsbD 44 = true → SMap.find s.hub.qps qp.toNat = some q → 0 < q.mtu →
      let sends (op : RdmaOp) (s1 : State) (ps : List Packet) : Prop := exec (.rdmaPacket { qp := qp, via := .rc } va op) s = .next { s1 with note := .ok, hub := { s1.hub with
        pkts := s1.hub.pkts ++ ps.map (fun p => { gid := q.gid, qp := q.peer, body := p }) } }
      (s.openJob q.job = none → ∀ op, sends op s [.nak]) ∧
      (∀ j, s.openJob q.job = some j → sends .atomicStd s [.nak] ∧
        (∀ bs, q.mtu < bs.length → sends (.write bs) s [.nak] ∧ sends (.send bs) s [.nak]) ∧ (∀ bs, bs.length ≤ q.mtu → sends (.send bs) s [.ack]) ∧
        (∀ bs, bs.length ≤ q.mtu → (∀ k, k < bs.length → (jobPa s j.root (va.toNat + k) { wr := true }).isSome = true) →
          sends (.write bs) (jobWrite s j.root va.toNat bs) [.ack]) ∧
        (∀ bs k, k < bs.length → jobPa s j.root (va.toNat + k) { wr := true } = none → sends (.write bs) s [.nak]) ∧
        (∀ n, jobRead s j.root va.toNat n = none → sends (.read n) s [.nak]) ∧
        (∀ n bs, jobRead s j.root va.toNat n = some bs → s.poison = [] → ∃ parts : List (List Byte), parts.flatten = bs ∧ (∀ c, c ∈ parts → c.length ≤ q.mtu) ∧
          sends (.read n) s (parts.map .data)))) ∧
    (∀ (route : Route) va op, s.hub.st = .up → s.hub.ready.getLsbD 44 = true → (route.via ≠ .rc ∨ SMap.find s.hub.qps route.qp.toNat = none) →
      exec (.rdmaPacket route va op) s = .next { s with note := .ok }) ∧
    (∀ (die : BitVec 4) (temp : BitVec 16) (power : MeanPower), die.toNat ≤ 8 →
      let hot : Bool := 800 ≤ temp.toInt || 330 < power.ms100.toNat || 400 < power.ms10.toNat
      let word : Word := (0 : BitVec 16) ++ power.ms10 ++ temp ++ (if hot then 1 else 0 : BitVec 16)
      let more : Word := if hot = true ∧ s.hot die.toNat = false then 1 else 0
      (temp.toInt < 920 → ∃ t, exec (.cycleWithhold die temp power) s = .next t ∧ t.note = .ok ∧ t.hbm = s.hbm ∧ t.now = s.now ∧ t.cluster = s.cluster ∧
        (die.toNat < 8 → t.hub = s.hub ∧ (t.dieAt die.toNat).thstat = word ∧ (t.dieAt die.toNat).thrcnt = (s.dieAt die.toNat).thrcnt + more) ∧
        (die.toNat = 8 → t.core = s.core ∧ SMap.get t.hub.thermal 0 0 = word ∧ SMap.get t.hub.thermal 1 0 = SMap.get s.hub.thermal 1 0 + more) ∧
        (more = 0 → t.core = s.core)) ∧
      (920 ≤ temp.toInt → ∃ t, exec (.cycleWithhold die temp power) s = .next t ∧ t.note = .ok ∧
        t.bankAt die.toNat 13 = (s.bankAt die.toNat 13).log { cls := 3, sub := 12, code := 64 } ∧ dieStopped s t die.toNat)) ∧
    (∀ n d, (s.pass n).now = s.now + n ∧ (d < 8 → ((s.pass n).dieAt d).thrcnt = (s.dieAt d).thrcnt + if s.hot d = true then BitVec.ofNat 64 n else 0))

/-- Errors of the hardware: a corrected one is recorded and changes nothing else; a fatal one, or a thermal trip, stops its die; a unit that
makes no progress for 2^WDLOG2 cycles is cancelled. Remote atomics: a request is performed once at its target and answered on its connection
again from the replay table; the requester takes the answer with its tag, or INDETERMINATE after 20 ms. A replica applies the update order's
next write, and the last one puts it in HBM; a page migrates with its bytes; a self-test leaves its cluster zero and its record at RESULT.
The model's own choices here: the FMODE of an atomic at its target (log entry 31), migration as one step (log entry 96), and what a test
finds (log entry 47) (02 R50, 14 R310, R311, R321, R322, 20 R414, 22 R435, R439). -/
def Obligations.ErrorsAndMemoryOperations : Prop :=
  ∀ s : State,
    let lcoreOf (l : BitVec 11) : Option Nat := if l.toNat < 1152 then some l.toNat else none
    (∀ (d b : BitVec 4) (sub : BitVec 8) (l : BitVec 11) a, realBank d.toNat b.toNat → ∃ t, exec (.correctedError d b sub l a) s = .next t ∧ HubOnly s t ∧
      t.bankAt d.toNat b.toNat = (s.bankAt d.toNat b.toNat).log { cls := 1, lcore := lcoreOf l, sub := sub.toNat, code := 2, addr := a } ∧
      ∀ x y, y < 16 → (x ≠ d.toNat ∨ y ≠ b.toNat) → t.bankAt x y = s.bankAt x y) ∧
    (∀ (d b : BitVec 4) (sub : BitVec 8) (l : BitVec 11) a, realBank d.toNat b.toNat → ∃ t, exec (.fatalError d b sub l a) s = .next t ∧ t.note = .ok ∧
      t.bankAt d.toNat b.toNat = (s.bankAt d.toNat b.toNat).log { cls := 3, lcore := lcoreOf l, sub := sub.toNat, code := 64, addr := a } ∧
      dieStopped s t d.toNat) ∧
    (∀ d : BitVec 4, d.toNat ≤ 8 → ∃ t, exec (.thermalTrip d) s = .next t ∧ t.note = .ok ∧
      t.bankAt d.toNat 13 = (s.bankAt d.toNat 13).log { cls := 3, sub := 12, code := 64 } ∧ dieStopped s t d.toNat) ∧
    (∀ u, s.me.unit = some u → 2 ^ ((s.jobAt u.job).bind (·.attr.wdlog2)).getD 26 ≤ s.now - u.progress → testRuns s s.cur.lcore = false → s.me.ph.stage = .run →
      exec .unithang s = .next { cancelLaunch (rollback (s.log 8 0 { cls := 2, lcore := some s.cur.lcore, code := 34, misc := u.lid ++ 0#32 }) s.cur.lcore 1) u.launch with note := .ok }) ∧
    (∀ (r : RmtReq) age qp, 25 < age → exec (.remoteAtomicRequest r age qp) s = .next { s with note := .ok }) ∧
    (∀ (r : RmtReq) age (qp : BitVec 24), s.hub.st = .up → s.hub.ready.getLsbD 44 = true → SMap.find s.hub.qps qp.toNat = none →
      exec (.remoteAtomicRequest r age qp) s = .next { s with note := .ok }) ∧
    (∀ (r : RmtReq) age (qp : BitVec 24) (q : QPair), s.hub.st = .up → s.hub.ready.getLsbD 44 = true → age ≤ 25 → SMap.find s.hub.qps qp.toNat = some q →
      let known (x : Replay) : Prop := x.req.module = r.module ∧ x.req.tag = r.tag ∧ s.now - x.time < 150 * 1800000
      let gives (s1 : State) (old : BitVec 32) (st : BitVec 3) : Prop := exec (.remoteAtomicRequest r age qp) s = .next { s1 with note := .ok, hub := { s1.hub with
        pkts := s1.hub.pkts ++ [{ gid := q.gid, qp := q.peer, body := .response r.tag old st }] } }
      (∀ l x m, s.hub.replays = l ++ x :: m → (∀ y, y ∈ l → ¬ known y) → known x → if x.req = r then gives s x.old 0 else gives s 0 4) ∧
      ((∀ x, x ∈ s.hub.replays → ¬ known x) → rmtTarget s q.job r.raddr.toNat = none → gives s 0 3) ∧
      (∀ j k o op, (∀ x, x ∈ s.hub.replays → ¬ known x) → s.jobAt q.job = some j → j.attr.jlo ≤ k → k < j.attr.jhi → k < 1152 → o < Config.accBytes →
        o % 4 = 0 → r.raddr.toNat = Config.windowBase + Config.accBytes * k + o → atomOf r.op.toNat = some op →
        let old := leNat (s.accRead k o 4)
        let s1 := s.accWrite k o (leBytes 4 (atomic op r.ty.toNat Config.remoteFmode old r.opnd.toNat r.cmp.toNat).1) none
        gives { s1 with hub := { s1.hub with replays := s1.hub.replays ++ [{ req := r, old := BitVec.ofNat 32 old, time := s.now }] } } (BitVec.ofNat 32 old) 0)) ∧
    (∀ tag old st t0, s.me.rmt = some (tag, t0) → s.me.rmtans = none →
      (∀ age, age ≤ 25 → ∃ t, exec (.remoteAtomicResponse tag ⟨old, st⟩ age) s = .next t ∧ Becomes s t { s.me with rmtans := some (old, st) }) ∧
      (20 * 1800000 ≤ s.now - t0 → ∃ t, exec .remoteAtomicTimeout s = .next t ∧ Becomes s t { s.me with rmtans := some (0, 1) })) ∧
    (∀ tag ans age, (25 < age ∨ s.me.rmt = none ∨ (∃ t0 t1, s.me.rmt = some (t0, t1) ∧ t0 ≠ tag)) →
      exec (.remoteAtomicResponse tag ans age) s = .next { s with note := .ok }) ∧
    (exec .replayTableExpiry s = .next { s with note := .ok, hub := { s.hub with replays := s.hub.replays.filter (fun x => s.now - x.time < 150 * 1800000) } }) ∧
    (exec .tagRecordLapse s = .next { s with note := .ok, hub := { s.hub with tags := s.hub.tags.filter (fun x => s.now - x.2 < 1000 * 1800000) } }) ∧
    (∀ die : BitVec 3, s.hub.ready.getLsbD 45 = true → (∀ x, x ∈ s.hub.updates.take (s.dieAt die.toNat).applied → x.plain = false) →
      (s.dieAt die.toNat).applied < s.hub.updates.length →
      ((∃ d, d < 8 ∧ d ≠ die.toNat ∧ (s.dieAt d).applied = 0) →
        ∃ t, exec (.replUpdateApply die) s = .next t ∧ t.note = .ok ∧ t.hub = s.hub ∧ t.hbm = s.hbm ∧ t.core = s.core ∧
          t.dieAt die.toNat = { s.dieAt die.toNat with applied := (s.dieAt die.toNat).applied + 1 } ∧ ∀ d, d ≠ die.toNat → t.dieAt d = s.dieAt d) ∧
      (∀ u us, s.hub.updates = u :: us → (s.dieAt die.toNat).applied = 0 → (∀ d, d < 8 → d ≠ die.toNat → 0 < (s.dieAt d).applied) →
        ∃ t, exec (.replUpdateApply die) s = .next t ∧ t.note = .ok ∧ t.hub.updates = us ∧ t.hbm = s.hbm.writeN u.addr u.data ∧ t.core = s.core ∧
          (t.dieAt die.toNat).applied = 0 ∧ ∀ d, d < 8 → d ≠ die.toNat → (t.dieAt d).applied = (s.dieAt d).applied - 1)) ∧
    (∀ job va frame j l ls, s.jobAt job = some j → leavesIn s j.root va.toNat 1 = l :: ls → s.hbm.wf = true → frame % l.size = 0 → frame + l.size ≤ 2 ^ 40 →
      l.size % 65536 = 0 → 0 < l.size →
      let old := ePfn l.ent * 65536
      let d := s.dieAt (frame / 2 ^ 37)
      (∀ r, r ∈ d.used → ¬ (r.1 < frame % 2 ^ 37 / 65536 + l.size / 65536 ∧ frame % 2 ^ 37 / 65536 < r.1 + r.2)) → frameBusy s old l.size = false →
      (frame + l.size ≤ old ∨ old + l.size ≤ frame) → (l.eaddr + 8 ≤ frame ∨ frame + l.size ≤ l.eaddr) → (l.eaddr + 8 ≤ old ∨ old + l.size ≤ l.eaddr) →
      ∃ t, exec (.pageMigration job va frame) s = .next t ∧ t.note = .ok ∧ t.cluster = s.cluster ∧
        (∀ k, k < l.size → t.hbm.read (frame + k) = s.hbm.read (old + k)) ∧ fld (BitVec.ofNat 64 (t.hbm.readWord l.eaddr 8)) 16 36 = frame / 65536 ∧
        (∀ a, (a < frame ∨ frame + l.size ≤ a) → (a < l.eaddr ∨ l.eaddr + 8 ≤ a) → t.hbm.read a = s.hbm.read a) ∧
        (∀ n x, x ∈ tlbsOf (t.coreAt n) →
          let sz := if x.big then 2 ^ 29 else 65536
          ¬ (x.asid = j.asid ∧ x.page * sz < l.va + l.size ∧ l.va < x.page * sz + sz))) ∧
    (∀ t0 l r ws, (s.dieAt (dieOf s.cur.lcore)).lamp = t0 :: l → t0.lcore = none → t0.req = some r → t0.ends ≠ none →
      testReport s (dieOf s.cur.lcore) t0 = some ws → pendingAt s t0.dw11.toNat 64 = false →
      let k := testCluster (dieOf s.cur.lcore) t0.dw10
      ∃ t, exec .selftestDone s = .next t ∧ t.note = .ok ∧ t.cur = s.cur ∧ (t.dieAt (dieOf s.cur.lcore)).lamp = l ∧ t.draws = s.draws + 1 ∧
        t.hbm = s.hbm.writeN t0.dw11.toNat (bytesOf ws) ∧
        (s.hub.answers = [{ req := r, type := 0x0034 }] → t.hub.answers = [] ∧ t.hub.out = s.hub.out ++ [replyTo r 0x0034 .ok []]) ∧
        (t.clusterAt k).spad = [] ∧ (t.clusterAt k).poison = [] ∧ (t.clusterAt k).ring = [] ∧ (t.clusterAt k).ev = 0 ∧ (t.clusterAt k).dc = [] ∧ (t.clusterAt k).alm = [] ∧
        (∀ c, c / 4 = k → (t.coreAt c).acc = [] ∧ (t.coreAt c).accBad = [] ∧ (t.coreAt c).v = [] ∧ (t.coreAt c).vBad = [] ∧ (t.coreAt c).p = []) ∧
        (∀ c, c / 4 ≠ k → (t.coreAt c).acc = (s.coreAt c).acc ∧ (t.coreAt c).v = (s.coreAt c).v)) ∧
    (∀ die t0 e, t0.ends = some e → t0.lcore = none → Config.testFinds s.draws = none → e ≤ s.now →
      testReport s die t0 = some [testHead die t0.dw10 0, 0, 0, BitVec.ofNat 64 (testCycles t0.dw10), 0, 0, 0, 0]) ∧
    (∀ die t0 ws, die < 8 → fld t0.dw10 8 3 ≠ 0 → testReport s die t0 = some ws → ∃ status core site addr cycles, status ≤ 2 ∧ core < 4 ∧ site ≤ 6 ∧ cycles ≤ testCycles t0.dw10 ∧
      ws.length = 8 ∧ fld (ws.getD 0 0) 0 2 = status ∧ fld (ws.getD 0 0) 16 8 = fld t0.dw10 0 6 ∧ fld (ws.getD 0 0) 24 8 = die ∧
      ws.drop 1 = [BitVec.ofNat 64 (core * 256 + site), addr, BitVec.ofNat 64 cycles, 0, 0, 0, 0] ∧
      (status ≠ 1 → core = 0 ∧ site = 0 ∧ addr = 0) ∧ (site = 1 → addr = 0) ∧ (status = 1 → fld (ws.getD 0 0) 8 3 ≠ fld t0.dw10 8 3) ∧
      (status = 2 → ∀ e n, t0.ends = some e → t0.stopped = some n → cycles ≤ testCycles t0.dw10 - (e - n) + 65536))

/-- After reset: the boot ROM is about to run, no function is ready, no master is connected and nobody owns the part; every register whose
reset value the spec gives holds it. The rest are the model's choices: those of which the spec gives none hold zero (log entry 7), memory
that nothing has written reads zero and lists nothing (log entry 6), the pc is 0 (log entry 8), and the machine's standard registers stand as
RISC-V leaves them (log entry 9). The first step is the boot (21 R419, R421, 10 R209). -/
def Obligations.ResetState : Prop :=
  let s := State.reset
  s.hub.st = .inReset ∧ s.hub.ready = 0 ∧ s.hub.own = .free ∧ s.hub.conns = [] ∧ s.hub.jobs = [] ∧ s.hub.launches = [] ∧ s.hub.out = [] ∧ s.hbm = [] ∧
  s.now = 0 ∧ MemoryInv s ∧
  (∀ n, let c := s.coreAt n
    c.mode = .M ∧ c.mpstat = 0x80008000 ∧ c.pc = 0 ∧ (∀ r, c.xr r = 0) ∧ c.fmode = 0 ∧ c.srseed = 0 ∧ c.fxflags = 0 ∧ c.astat = 0 ∧ c.brseq = 0 ∧
    c.seqno = 0 ∧ c.ptroot = 0 ∧ c.gen = 0 ∧ c.fbuf = [] ∧ c.vslim = 0 ∧ c.ringsel = 0 ∧ c.ctxbusy = false ∧ c.tlbbusy = false ∧ c.fl = 0 ∧ c.unit = none ∧
    (∀ k, SMap.get c.shp k 0 = 0 ∧ SMap.get c.shq k 0 = 0 ∧ SMap.get c.nest k 0 = 0 ∧ c.vget k = 0 ∧ c.gget k = 0 ∧ c.wsizeAt k = 0)) ∧
  (∀ d b, (s.bankAt d b).status = 0 ∧ (s.bankAt d b).ceint = false ∧ (s.bankAt d b).cnint = true) ∧
  (∀ n, (s.clusterAt n).ev = 0 ∧ (s.clusterAt n).spad = []) ∧
  ∃ t, step s = .next t ∧ t.now = 0 ∧ t.agenda = [] ∧ (t.hub.st = .up ∧ t.hub.ready = 3 ∨ t.hub.st = .recovery ∧ t.hub.ready = 0x40000000000)

/-- No step takes HBM out of its canonical form, which is the model's own (log entry 6): equal memories stay equal data. -/
def Obligations.MemoryStaysCanonical : Prop :=
  ∀ s t : State, MemoryInv s → step s = .next t → MemoryInv t

/-- Decode and encode agree: every well-formed portable word, native word, standard instruction of 32 bits and command frame decodes from its
encoding to itself, and a portable word that decodes is the encoding of what it decodes to (05 R85-R94, 06 R112, 12 R246). -/
def Obligations.EncodingsAreFaithful : Prop :=
  (∀ i x, portWf i = true → encodePort i = some x → decodePort x = some i ∧ decodeControl x = i ∧ decodeTableWord 64 x.toNat = some i) ∧
  (∀ i x, x.extractLsb' 0 7 = 0x3F#7 → decodePort x = some i → portWf i = true ∧ encodePort i = some x) ∧
  (∀ e i dw l lat next, nativeWf e i = true → encodeNative i = some (dw, l, lat) → decodeNative e dw (l.getD next) lat = .ok i) ∧
  (∀ i (x : BitVec 32) (y : Word), i.wf = true → encode32 i = some x → y.setWidth 32 = x → decodeControl y = i) ∧
  (∀ i l, frameWf i = true → encodeFrame i = some l → decodeFrame l = some i)

/-- Words of the spec's own encodings decode to the instructions that they stand for (05 R85, R92, 06 R112, R114, 11 R228, 12 R246). -/
def Obligations.DecodedWords : Prop :=
  decodePort 0x401000000000603F = some (.setshape { imm18 := 0x10040, vs3 := 0, vs2 := 0, vs1 := 0, pinv := false, pg := 0, ty := 0, vd := 0 }) ∧
  decodePort 0x00000005000A30BF = some (.alds (.port { imm18 := 0, vs3 := 0, vs2 := 0, vs1 := 10, pinv := false, pg := 0, ty := 0, vd := 1 })) ∧
  decodeNative .V 0x00180000C0100BFF 0 4 = .ok (.vadd (.nat (plainWord 1 3 1 2 0x3FF 4))) ∧
  decodeNative .A 0x00080000C0100BFF 0 0 = .ok (.gadd (plainWord 0 3 1 2 0x3FF 0)) ∧
  decodeControl 0x0000000000A00093 = .rv64Instruction (.opImm .addi 1 0 10) false ∧
  decodeControl 0x0000000000000073 = .ecall ∧
  decodeFrame (0x302 :: List.replicate 15 0) = some (.copy { dw0 := 0x302 })

/-- A step is the turn that comes next, its cycles passed. A turn of an operation runs it; a turn of the control core runs the instruction
that the eight bytes at its pc decode to, unless something is pending, and in user mode notes whether the kernel's end is reached; a
turn of a command runs the instruction of its frame; a bundle runs its words in slot order, and goes on once all have acted; a virtual
cycle of the execute domain lands what is due and issues what M and V have to issue in it, or neither; a turn of a request reads its bytes
and does what the message asks, or answers BADMSG. That a run is a list of turns, and that the runtime's work is no instruction of it, are
the model's choices (log entries 1 and 108; 02 R45, 06 R112, 05 R97, 12 R256, 20 R408, 21 R425). -/
def Obligations.StepsRunWhatIsDecoded : Prop :=
  ∀ (s : State) (t : Turn) (l : List Turn), s.agenda = t :: l → t.who.lcore < 1152 →
    let b := s.begin t
    (b.agenda = l ∧ b.now = s.now + t.cycles ∧ b.note = .ok ∧ b.cluster = s.cluster ∧ b.hbm = s.hbm ∧
      (∀ n, { b.coreAt n with unit := (s.coreAt n).unit } = s.coreAt n) ∧
      ((∀ m bs, t.who ≠ .request m bs) → (∀ m x, t.who ≠ .setting m x) → b.cur.lcore = t.who.lcore) ∧
      ((∀ d, d ≤ 8 → s.hot d = false) → b.core = s.core ∧ b.die = s.die ∧ b.hub = s.hub)) ∧
    (t.who.blocked b = true → step s = .next { b with note := .wait }) ∧
    (t.who.blocked b = false →
      (∀ n e i, t.who = .op n e i → atBoundary i = false →
        let held : Bool := domainOp i && (!b.enginesMove || b.me.frozen) || commandOp i && !b.enginesMove
        (held = false → step s = exec i b) ∧ (held = true → step s = .next { b with note := .wait })) ∧
      (∀ n s1, t.who = .control n → (b.me.ctxbusy && b.me.ctxrt) = false → b.me.ctlHit = false → b.me.kernelOver = false → b.me.crossing = false →
        pendingItem b n = none → b.me.pc.toNat + 8 ≤ 65536 →
        let i := decodeControl (BitVec.ofNat 64 (b.me.ifetch.readWord b.me.pc.toNat 8))
        exec i b = .next s1 →
        (b.me.mode = .M ∨ s1.note ≠ .ok → ∃ t, step s = .next t ∧ t.me = s1.me ∧ t.note = s1.note ∧ SameElse s1 t) ∧
        (s1.note = .ok → ∃ t, step s = .next t ∧ t.me = s1.me.endKernel (b.me.mode = .U) i ∧ t.note = .ok ∧ SameElse s1 t)) ∧
      (∀ n e q m k, t.who = .command n e q false → b.enginesMove = true → b.cmd = some m → m.st = .queued → frameCtor m.frame.kind = some k →
        step s = exec (k m.frame) b) ∧
      (∀ n s1 s3 s4 line k i after, t.who = .engineA n → b.enginesMove = true → b.me.lineA.st = .run → b.me.scaleMiss = false →
        nextBundle b .A = .ok s1 line [(k, i)] after → s1.ln.done = 0 → gateA s1 [(k, i)] = true → targetBad s1 line i = false →
        let s2 := s1.updLn (fun l => { l with goto := none, stop := false })
        exec i (s2.atSlot k) = .next s3 →
        (s3.note ≠ .ok → step s = .next s3) ∧
        (s3.note = .ok → goOn (commitWrites (keepWrites s2 s3 i)).bundleIssued line after = .ok s4 → step s = .next { raisePost s4 .A with note := .ok })) ∧
      (∀ n s1 s2 s3, t.who = .domain n → b.enginesMove = true → b.me.frozen = false → b.me.domainBusy = true → execResultLanding b = .next s1 → s1.note = .ok →
        workOn s1 s1.me.mwork = .ok s2 →
        let x : State := { s2 with cur := b.cur }
        let iced (y : State) : State := y.updCore b.cur.lcore (fun c => { c with iced := y.note ≠ .ok })
        (x.me.nesting = none → issueAll .M 64 x = .ok s3) →
        (∀ m, x.me.nesting = some m → ∃ y, exec .nestRun { x with cur := { x.cur with eng := .M, seq := m.seq, entry := false } } = .next y ∧
          y.note = .ok ∧ s3 = { y with cur := x.cur }) →
        (∀ s4, issueAll .V 64 s3 = .ok s4 →
          let s5 := raisePost (raisePost s4 .M) .V
          step s = .next (iced { s5.updMe (fun c => { c with vcycle := c.vcycle + 1 }) with note := .ok })) ∧
        (∀ o1 y, issueAll .V 64 s3 = .error o1 → issueAll .V 64 x = .error (.next y) → step s = .next (iced y)) ∧
        (∀ o1 s4, issueAll .V 64 s3 = .error o1 → issueAll .V 64 x = .ok s4 → step s = .next (iced { x with note := .wait }))) ∧
      (∀ m bs, t.who = .request m bs → b.hub.st = .up → b.conn m ≠ none →
        (∀ run, readRequest m bs = .ok run → step s = run b) ∧ (∀ r type, readRequest m bs = .bad r type → step s = .next (answered b r type .badMsg []))) ∧
      (∀ pre ws u0 k i l s0 n u s1, exec i ((s0.updLn (fun l => { l with upc := u0 })).atSlot k) = .next s1 →
        (s1.note = .ok → issueWords pre ws u0 ((k, i) :: l) s0 n u = issueWords pre ws u0 l s1 (n + moveCount pre i) (if s1.ln.upc = u0 then u else s1.ln.upc)) ∧
        (s1.note ≠ .ok → issueWords pre ws u0 ((k, i) :: l) s0 n u = .error (stopBundle pre ws k n s1))))

/-- A request's bytes: TYPE, FLAGS, ID, LENGTH and STATUS, then the body. It is bad with a nonzero FLAGS or STATUS, a LENGTH that is not its
body's or is over 16 MiB, or an unknown TYPE; a message without a body is read with none and with no other body, and so are a nonce of 32
bytes and a priority value of a doubleword, which is the model's layout (log entry 130) (00 R7, 21 R425). -/
def Obligations.RequestsAreRead : Prop :=
  ∀ (m : BitVec 64) (type flag id len res : Nat) (body : List Byte), type < 65536 → flag < 65536 → id < 2 ^ 32 → len < 2 ^ 32 → res < 2 ^ 32 →
    let bs := leBytes 2 type ++ leBytes 2 flag ++ leBytes 4 id ++ leBytes 4 len ++ leBytes 4 res ++ body
    let r : Req := { master := m, id := BitVec.ofNat 32 id }
    let bad : Prop := readRequest m bs = .bad r (BitVec.ofNat 16 type)
    (flag ≠ 0 ∨ res ≠ 0 ∨ len ≠ body.length ∨ 16777216 < body.length → bad) ∧
    (type ∉ [0x01, 0x02, 0x03, 0x04, 0x10, 0x11, 0x12, 0x13, 0x20, 0x21, 0x22, 0x23, 0x30, 0x31, 0x32, 0x33, 0x34, 0x35, 0x40] → bad) ∧
    (flag = 0 → res = 0 → len = body.length → body.length ≤ 16777216 →
      (∀ i, (type, i) ∈ [(0x01, Instr.status r), (0x11, .renew r), (0x12, .release r), (0x40, .reset r)] →
        if body = [] then readRequest m bs = .ok (exec i) else bad) ∧
      (type = 0x02 → if body.length = 32 then readRequest m bs = .ok (exec (.attest r body)) else bad) ∧
      (type = 0x10 → if body.length = 8 ∧ leNat body < 256 then readRequest m bs = .ok (exec (.claim r (BitVec.ofNat 8 (leNat body)))) else bad))
end

