-- ==== Sys2Proof/Laws/Mem.lean ====
section
/-! SUPPORT. The laws of a byte memory: its canonical form is kept by every operation, a read gives what was written, and
a write leaves every other address alone. -/

namespace Sys2Proof.Machine

theorem Mem.wfFrom_mono (lo hi : Nat) (h : lo ≤ hi) : (m : Mem) → Mem.wfFrom hi m = true → Mem.wfFrom lo m = true
  | [], _ => rfl
  | (a, b) :: t, w => by
    simp only [Mem.wfFrom, Bool.and_eq_true, decide_eq_true_eq] at w ⊢
    exact ⟨⟨Nat.le_trans h w.1.1, w.1.2⟩, w.2⟩

/-- An address below every listed one reads as a byte that nothing has written. -/
theorem Mem.read_below (a : Nat) : (lo : Nat) → (m : Mem) → Mem.wfFrom lo m = true → a < lo → Mem.read m a = 0
  | _, [], _, _ => rfl
  | lo, (j, c) :: t, w, h => by
    simp only [Mem.wfFrom, Bool.and_eq_true, decide_eq_true_eq] at w
    have : j ≠ a := by omega
    simp only [Mem.read, SMap.get, this, if_false]
    exact Mem.read_below a (j + 1) t w.2 (by omega)

theorem Mem.write_wfFrom (a : Nat) (b : Byte) : (lo : Nat) → (m : Mem) → Mem.wfFrom lo m = true → lo ≤ a →
    Mem.wfFrom lo (Mem.write m a b) = true
  | lo, [], _, h => by
    by_cases hb : b = 0#8
    · simp [Mem.write, hb, Mem.wfFrom]
    · simp [Mem.write, hb, Mem.wfFrom, h]
  | lo, (j, c) :: t, w, h => by
    simp only [Mem.wfFrom, Bool.and_eq_true, decide_eq_true_eq] at w
    obtain ⟨⟨hj, hc⟩, ht⟩ := w
    have hc' : ¬c = 0#8 := hc
    by_cases h1 : a < j
    · by_cases hb : b = 0#8
      · simp [Mem.write, h1, hb, Mem.wfFrom, hj, hc', ht]
      · simp [Mem.write, h1, hb, Mem.wfFrom, h, hc', ht, Nat.succ_le_of_lt h1]
    · by_cases h2 : a = j
      · subst h2
        by_cases hb : b = 0#8
        · simp only [Mem.write, Nat.lt_irrefl, if_false, if_true, hb]
          exact Mem.wfFrom_mono _ _ (by omega) t ht
        · simp [Mem.write, hb, Mem.wfFrom, hj, ht]
      · have := Mem.write_wfFrom a b (j + 1) t ht (by omega)
        simp [Mem.write, h1, h2, Mem.wfFrom, hj, hc', this]

/-- A write keeps the canonical form. -/
theorem Mem.write_wf (m : Mem) (a : Nat) (b : Byte) (h : m.wf = true) : (m.write a b).wf = true :=
  Mem.write_wfFrom a b 0 m h (Nat.zero_le a)

theorem Mem.writeN_wf (bs : List Byte) : (m : Mem) → (a : Nat) → m.wf = true → (m.writeN a bs).wf = true := by
  induction bs with
  | nil => intro m a h; exact h
  | cons b t ih => intro m a h; exact ih _ _ (Mem.write_wf m a b h)

theorem Mem.writeWord_wf (m : Mem) (a n v : Nat) (h : m.wf = true) : (m.writeWord a n v).wf = true :=
  Mem.writeN_wf _ m a h

/-- A write leaves every other address alone. -/
theorem Mem.read_write_other (a k : Nat) (b : Byte) (h : k ≠ a) : (m : Mem) → Mem.read (Mem.write m a b) k = Mem.read m k
  | [] => by
    by_cases hb : b = 0#8
    · simp [Mem.write, hb]
    · simp [Mem.write, hb, Mem.read, SMap.get, Ne.symm h]
  | (j, c) :: t => by
    by_cases h1 : a < j
    · by_cases hb : b = 0#8
      · simp [Mem.write, h1, hb]
      · simp [Mem.write, h1, hb, Mem.read, SMap.get, Ne.symm h]
    · by_cases h2 : a = j
      · subst h2
        by_cases hb : b = 0#8
        · simp [Mem.write, hb, Mem.read, SMap.get, Ne.symm h]
        · simp [Mem.write, hb, Mem.read, SMap.get, Ne.symm h]
      · have ih := Mem.read_write_other a k b h t
        simp only [Mem.read] at ih
        by_cases h3 : j = k
        · subst h3; simp [Mem.write, h1, h2, Mem.read, SMap.get]
        · simp only [Mem.write, h1, h2, if_false, Mem.read, SMap.get, h3, ih]

theorem Mem.read_write_same' (a : Nat) (b : Byte) : (lo : Nat) → (m : Mem) → Mem.wfFrom lo m = true →
    Mem.read (Mem.write m a b) a = b
  | _, [], _ => by
    by_cases hb : b = 0#8
    · simp [Mem.write, hb, Mem.read, SMap.get]
    · simp [Mem.write, hb, Mem.read, SMap.get]
  | lo, (j, c) :: t, w => by
    have w0 := w
    simp only [Mem.wfFrom, Bool.and_eq_true, decide_eq_true_eq] at w
    by_cases h1 : a < j
    · by_cases hb : b = 0#8
      · subst hb
        have hj : j ≠ a := by omega
        simp only [Mem.write, h1, if_true, BitVec.ofNat_eq_ofNat, Mem.read, SMap.get, hj, if_false]
        exact Mem.read_below a (j + 1) t w.2 (by omega)
      · simp [Mem.write, h1, hb, Mem.read, SMap.get]
    · by_cases h2 : a = j
      · subst h2
        by_cases hb : b = 0#8
        · subst hb
          simp only [Mem.write, Nat.lt_irrefl, if_false, if_true, BitVec.ofNat_eq_ofNat]
          exact Mem.read_below a (a + 1) t w.2 (by omega)
        · simp [Mem.write, hb, Mem.read, SMap.get]
      · have ih := Mem.read_write_same' a b (j + 1) t w.2
        have hj : ¬j = a := fun e => h2 e.symm
        simp only [Mem.read] at ih
        simp only [Mem.write, h1, h2, if_false, Mem.read, SMap.get, hj]
        exact ih

/-- A read gives the byte written. -/
theorem Mem.read_write_same (m : Mem) (a : Nat) (b : Byte) (h : m.wf = true) : Mem.read (Mem.write m a b) a = b :=
  Mem.read_write_same' a b 0 m h

end Sys2Proof.Machine
end

