-- ==== Sys2Proof/Tests/Slice0.lean ====
section
/-! SUPPORT. The tests: words written out from the spec's encodings, ill-formed terms that WellFormed refuses, a
witness for each statement with hypotheses (witness_<Statement>: a state and operands that meet all its hypotheses
together), the worked examples of spec/, and single steps worked by hand from its rules. The theorems are elaborated
one after another. -/

namespace Sys2Proof.Tests
open Sys2Proof Sys2Proof.Machine Sys2Proof.Claims
set_option Elab.async false

/-- A native word with stop and TKN set, its fields in the order of 05 R92, with its literal and delay nibble. -/
def nw (ty : BitVec 4) (g : BitVec 6) (dst a b c : BitVec 10) (lit : Word) (lat : BitVec 4) : NWord :=
  { ty := ty, stop := true, tkp := false, tkn := true, gvp := false, gvn := false, guard := g, ginv := false, dst := dst, a := a, b := b, c := c, lit := lit, lat := lat }

def pw (imm : BitVec 18) (v3 v2 v1 : BitVec 5) (pg : BitVec 3) (ty : BitVec 4) (vd : BitVec 5) : PWord :=
  { imm18 := imm, vs3 := v3, vs2 := v2, vs1 := v1, pinv := false, pg := pg, ty := ty, vd := vd }

/-- Each word decodes, on its engine, as the instruction beside it, whose literal and nibble stand beside the word. -/
def nativeDecodes (l : List (Eng × Word × Instr)) : Bool :=
  l.all (fun x => match nativeRow x.2.2 with
    | some (_, w) => (match decodeNative x.1 x.2.1 w.lit w.lat with
      | .ok i => i == x.2.2
      | .error _ => false)
    | none => false)

def portDecodes (l : List (Word × Instr)) : Bool := l.all (fun x => decodePort x.1 == some x.2)

theorem test_decode_varith1 : nativeDecodes [
    (.V, 0x002A0A00C110A3FF, .vadd (.nat (nw 2 5 3 0x11 0x28 0x3FF 0x0 9))),
    (.V, 0x012A0A19C75233FF, .vsub (.nat (nw 2 5 103 0x75 0x8C 0x3FF 0x0 9))),
    (.V, 0x022A0A32CD93C3FF, .vmul (.nat (nw 2 5 203 0xD9 0xF0 0x3FF 0x0 9))),
    (.V, 0x032A0A4BD3D55179, .vfma (.nat (nw 2 5 303 0x13D 0x154 0x179 0x0 9))),
    (.V, 0x042A0A64DA16E1DD, .vfms (.nat (nw 2 5 403 0x1A1 0x1B8 0x1DD 0x0 9))),
    (.V, 0x052A0A7DE0587241, .vfnma (.nat (nw 2 5 503 0x205 0x21C 0x241 0x0 9))),
    (.V, 0x062A0A00C110A04D, .vfnms (.nat (nw 2 5 3 0x11 0x28 0x4D 0x0 9))),
    (.V, 0x082A0A19C75233FF, .vmin (.nat (nw 2 5 103 0x75 0x8C 0x3FF 0x0 9))),
    (.V, 0x092A0A32CD93C3FF, .vmax (.nat (nw 2 5 203 0xD9 0xF0 0x3FF 0x0 9))),
    (.V, 0x0A2A0A4BD3D553FF, .vminn (.nat (nw 2 5 303 0x13D 0x154 0x3FF 0x0 9))),
    (.V, 0x0B2A0A64DA16E3FF, .vmaxn (.nat (nw 2 5 403 0x1A1 0x1B8 0x3FF 0x0 9))),
    (.V, 0x0C2A0A7DE05FFFFF, .vabs (.nat (nw 2 5 503 0x205 0x3FF 0x3FF 0x0 9))),
    (.V, 0x0D2A0A00C11FFFFF, .vneg (.nat (nw 2 5 3 0x11 0x3FF 0x3FF 0x0 9))),
    (.V, 0x0E2A0A19C75233FF, .vcpysgn (.nat (nw 2 5 103 0x75 0x8C 0x3FF 0x0 9)))] = true := by decide +kernel

theorem test_decode_varith2 : nativeDecodes [
    (.V, 0x102A0A32CD9FFFFF, .vrecpe (.nat (nw 2 5 203 0xD9 0x3FF 0x3FF 0x0 9))),
    (.V, 0x112A0A4BD3DFFFFF, .vrsqrte (.nat (nw 2 5 303 0x13D 0x3FF 0x3FF 0x0 9))),
    (.V, 0x142A0A64DA1FFFFF, .vexp2e (.nat (nw 2 5 403 0x1A1 0x3FF 0x3FF 0x0 9))),
    (.V, 0x152A0A7DE05FFFFF, .vlog2e (.nat (nw 2 5 503 0x205 0x3FF 0x3FF 0x0 9))),
    (.V, 0x172A0A00C11FFFFF, .vsqrt (.nat (nw 2 5 3 0x11 0x3FF 0x3FF 0x0 9))),
    (.V, 0x122A0A19C75233FF, .vrecps (.nat (nw 2 5 103 0x75 0x8C 0x3FF 0x0 9))),
    (.V, 0x132A0A32CD93C3FF, .vrsqrts (.nat (nw 2 5 203 0xD9 0xF0 0x3FF 0x0 9))),
    (.V, 0x162A0A4BD3D553FF, .vdiv (.nat (nw 2 5 303 0x13D 0x154 0x3FF 0x0 9))),
    (.V, 0x18EA0A64DA16E3FF, .viadd (.nat (nw 14 5 403 0x1A1 0x1B8 0x3FF 0x0 9))),
    (.V, 0x19EA0A7DE05873FF, .visub (.nat (nw 14 5 503 0x205 0x21C 0x3FF 0x0 9))),
    (.V, 0x1DEA0A00C110A3FF, .vimin (.nat (nw 14 5 3 0x11 0x28 0x3FF 0x0 9))),
    (.V, 0x1EEA0A19C75233FF, .vimax (.nat (nw 14 5 103 0x75 0x8C 0x3FF 0x0 9))),
    (.V, 0x1AEA0A32CD93C3FF, .vimul (.nat (nw 14 5 203 0xD9 0xF0 0x3FF 0x0 9))),
    (.V, 0x1BEA0A4BD3D553FF, .vimulh (.nat (nw 14 5 303 0x13D 0x154 0x3FF 0x0 9)))] = true := by decide +kernel

theorem test_decode_varith3 : nativeDecodes [
    (.V, 0x1CEA0A64DA16E1DD, .vimad (.nat (nw 14 5 403 0x1A1 0x1B8 0x1DD 0x0 9))),
    (.V, 0x20EA0A7DE05873FF, .vand (.nat (nw 14 5 503 0x205 0x21C 0x3FF 0x0 9))),
    (.V, 0x21EA0A00C110A3FF, .vor (.nat (nw 14 5 3 0x11 0x28 0x3FF 0x0 9))),
    (.V, 0x22EA0A19C75233FF, .vxor (.nat (nw 14 5 103 0x75 0x8C 0x3FF 0x0 9))),
    (.V, 0x23EA0A32CD93C3FF, .vshl (.nat (nw 14 5 203 0xD9 0xF0 0x3FF 0x0 9))),
    (.V, 0x24EA0A4BD3D553FF, .vshr (.nat (nw 14 5 303 0x13D 0x154 0x3FF 0x0 9))),
    (.V, 0x25EA0A64DA16E3FF, .vsra (.nat (nw 14 5 403 0x1A1 0x1B8 0x3FF 0x0 9))),
    (.V, 0x281A0A00C110A090, .vcvt (.nat (nw 1 5 3 0x11 0x28 0x90 0x0 9))),
    (.V, 0x294A0A00C110A0B0, .vcvtsr (.nat (nw 4 5 3 0x11 0x28 0xB0 0x0 9))),
    (.V, 0x2ACA0A19C7523007, .vquant (.nat (nw 12 5 103 0x75 0x8C 0x7 0x0 9))),
    (.V, 0x2B2A0A32CD9C4915, .vdeq (.nat (nw 2 5 203 0xD9 0x312 0x115 0x0 9))),
    (.V, 0x2C2A0A4BD3D553FF, .vscale (.nat (nw 2 5 303 0x13D 0x154 0x3FF 0x0 9))),
    (.V, 0x2D2A0A64DA1FFFFF, .vclass (.nat (nw 2 5 403 0x1A1 0x3FF 0x3FF 0x0 9))),
    (.V, 0x2E2A0A0153D55007, .vcmp (.nat (nw 2 5 5 0x13D 0x154 0x7 0x0 9)))] = true := by decide +kernel

theorem test_decode_varith4 : nativeDecodes [
    (.V, 0x2FEA0A00C110A01D, .vsel (.nat (nw 14 5 3 0x11 0x28 0x1D 0x0 9))),
    (.V, 0x58DA0A19C75233FF, .vdadd (.nat (nw 13 5 103 0x75 0x8C 0x3FF 0x0 9))),
    (.V, 0x59DA0A32CD93C3FF, .vdmul (.nat (nw 13 5 203 0xD9 0xF0 0x3FF 0x0 9))),
    (.V, 0x5ADA0A4BD3D55179, .vdfma (.nat (nw 13 5 303 0x13D 0x154 0x179 0x0 9)))] = true := by decide +kernel

theorem test_decode_vdata1 : nativeDecodes [
    (.V, 0x60EA0A64DA1FFFFF, .vmov (.nat (nw 14 5 403 0x1A1 0x3FF 0x3FF 0x0 9))),
    (.V, 0x61EA0A7DE05FFFFF, .vbcast (.nat (nw 14 5 503 0x205 0x3FF 0x3FF 0x0 9))),
    (.V, 0x62EA0A00C110A3FF, .vperm (.nat (nw 14 5 3 0x11 0x28 0x3FF 0x0 9))),
    (.V, 0x63EA0A19C75233FF, .vslideup (.nat (nw 14 5 103 0x75 0x8C 0x3FF 0x0 9))),
    (.V, 0x64EA0A32CD93C3FF, .vslidedn (.nat (nw 14 5 203 0xD9 0xF0 0x3FF 0x0 9))),
    (.V, 0x65EA0A4BD3D55001, .vzip (.nat (nw 14 5 303 0x13D 0x154 0x1 0x0 9))),
    (.V, 0x66EA0A64DA16E001, .vunzip (.nat (nw 14 5 403 0x1A1 0x1B8 0x1 0x0 9))),
    (.V, 0x67EA0A7DE05FFFFF, .vextr (.nat (nw 14 5 503 0x205 0x3FF 0x3FF 0x0 9))),
    (.V, 0x68EA0A00C11FFFFF, .vins (.nat (nw 14 5 3 0x11 0x3FF 0x3FF 0x0 9))),
    (.V, 0x69EA0A19FFFFFFFF, .viota (.nat (nw 14 5 103 0x3FF 0x3FF 0x3FF 0x0 9))),
    (.V, 0x6AEA0A32CD9FFFFF, .vcompress (.nat (nw 14 5 203 0xD9 0x3FF 0x3FF 0x0 9))),
    (.V, 0x6BEA0A4BD3DFFFFF, .vexpand (.nat (nw 14 5 303 0x13D 0x3FF 0x3FF 0x0 9)))] = true := by decide +kernel

theorem test_decode_vreduce1 : nativeDecodes [
    (.V, 0x702A0A64DA1FFFFF, .vredsum (.nat (nw 2 5 403 0x1A1 0x3FF 0x3FF 0x0 9))),
    (.V, 0x71EA0A7DE05FFFFF, .vredmax (.nat (nw 14 5 503 0x205 0x3FF 0x3FF 0x0 9))),
    (.V, 0x72EA0A00C11FFFFF, .vredmin (.nat (nw 14 5 3 0x11 0x3FF 0x3FF 0x0 9))),
    (.V, 0x73EA0A19C75FFFFF, .vredisum (.nat (nw 14 5 103 0x75 0x3FF 0x3FF 0x0 9))),
    (.V, 0x74EA0A32CD9FFC00, .vscanInc (.nat (nw 14 5 203 0xD9 0x3FF 0x0 0x0 9))),
    (.V, 0x74EA0A4BD3DFFC01, .vscanExc (.nat (nw 14 5 303 0x13D 0x3FF 0x1 0x0 9))),
    (.V, 0x75AA0A64DA16E1DD, .vdot (.nat (nw 10 5 403 0x1A1 0x1B8 0x1DD 0x0 9)))] = true := by decide +kernel

theorem test_decode_vpred1 : nativeDecodes [
    (.V, 0x800A0A00C110A3FF, .pand (.nat (nw 0 5 3 0x11 0x28 0x3FF 0x0 9))),
    (.V, 0x810A0A00C110A3FF, .por (.nat (nw 0 5 3 0x11 0x28 0x3FF 0x0 9))),
    (.V, 0x820A0A00C110A3FF, .pxor (.nat (nw 0 5 3 0x11 0x28 0x3FF 0x0 9))),
    (.V, 0x840A0A00C110A3FF, .pandn (.nat (nw 0 5 3 0x11 0x28 0x3FF 0x0 9))),
    (.V, 0x830A0A00C11FFFFF, .pnot (.nat (nw 0 5 3 0x11 0x3FF 0x3FF 0x0 9))),
    (.V, 0x850A0A00C11FFFFF, .pmov (.nat (nw 0 5 3 0x11 0x3FF 0x3FF 0x0 9))),
    (.V, 0x86EA007DC11FFFFF, .pcnt (.nat (nw 14 0 503 0x11 0x3FF 0x3FF 0x0 9))),
    (.V, 0x870A0A00C11FFFFF, .pfirst (.nat (nw 0 5 3 0x11 0x3FF 0x3FF 0x0 9))),
    (.V, 0x88EA0A00C75FFFFF, .ptail (.nat (nw 14 5 3 0x75 0x3FF 0x3FF 0x0 9))),
    (.V, 0x890A0032C08FFFFF, .ppack (.nat (nw 0 0 203 0x8 0x3FF 0x3FF 0x0 9))),
    (.V, 0x8A0A000213DFFFFF, .punpack (.nat (nw 0 0 8 0x13D 0x3FF 0x3FF 0x0 9))),
    (.V, 0x8B0A0A00FFFFFC40, .pset (.nat (nw 0 5 3 0x3FF 0x3FF 0x40 0x0 9))),
    (.V, 0x8C0A0AFFC110A003, .setrot (nw 0 5 1023 0x11 0x28 0x3 0x0 0))] = true := by decide +kernel

theorem test_decode_matrix1 : nativeDecodes [
    (.M, 0x004A00FFC11FFC02, .mlds (.nat (nw 4 0 1023 0x11 0x3FF 0x2 0x0 9))),
    (.M, 0x01AA00FFF02FFC00, .mldf (.nat (nw 10 0 1023 0x302 0x3FF 0x0 0x0 9))),
    (.M, 0x02CA00FFC13FFC02, .mldg (.nat (nw 12 0 1023 0x13 0x3FF 0x2 0x0 9))),
    (.M, 0x03AA00004120A00E, .mma (.nat (nw 10 0 1 0x12 0x28 0xE 0x0 9))),
    (.M, 0x044A00005A10A00F, .mmas (.nat (nw 4 0 1 0x1A1 0x28 0xF 0x0 9))),
    (.M, 0x050A0000BFFFFFFF, .mzero (.nat (nw 0 0 2 0x3FF 0x3FF 0x3FF 0x0 9))),
    (.M, 0x068A001343FFFC0B, .accld (.nat (nw 8 0 77 0x3F 0x3FF 0xB 0x0 9))),
    (.M, 0x070A00FFFFFFFC0A, .mtrans (.nat (nw 0 0 1023 0x3FF 0x3FF 0xA 0x0 9))),
    (.M, 0x090A00FFFFFFFFFF, .mnwait (nw 0 0 1023 0x3FF 0x3FF 0x3FF 0x0 0)),
    (.M, 0x203A00FFFFFFFC06, .mprom (.nat (nw 3 0 1023 0x3FF 0x3FF 0x6 0x0 9))),
    (.M, 0x214A00FFDA1FFC03, .mpoly (.nat (nw 4 0 1023 0x1A1 0x3FF 0x3 0x0 9))),
    (.M, 0x224A00FFE05FFC03, .mpolyT (.nat (nw 4 0 1023 0x205 0x3FF 0x3 0x0 9))),
    (.M, 0x230A0000FFFFFC01, .mpstat (.nat (nw 0 0 3 0x3FF 0x3FF 0x1 0x0 9))),
    (.M, 0x240A00FFFFFFFFFF, .mgang (nw 0 0 1023 0x3FF 0x3FF 0x3FF 0x0 0))] = true := by decide +kernel

theorem test_decode_access1 : nativeDecodes [
    (.A, 0x000A0A00C1107BFF, .gadd (nw 0 5 3 0x11 0x1E 0x3FF 0x0 0)),
    (.A, 0x010A0A00C1107BFF, .gsub (nw 0 5 3 0x11 0x1E 0x3FF 0x0 0)),
    (.A, 0x020A0A00C1107BFF, .gmul (nw 0 5 3 0x11 0x1E 0x3FF 0x0 0)),
    (.A, 0x030A0A00C1107BFF, .gshl (nw 0 5 3 0x11 0x1E 0x3FF 0x0 0)),
    (.A, 0x040A0A00C1107BFF, .gshr (nw 0 5 3 0x11 0x1E 0x3FF 0x0 0)),
    (.A, 0x050A0A00C1107BFF, .gand (nw 0 5 3 0x11 0x1E 0x3FF 0x0 0)),
    (.A, 0x060A0A00C1107BFF, .gor (nw 0 5 3 0x11 0x1E 0x3FF 0x0 0)),
    (.A, 0x070A0A00FE1FFFFF, .gli (nw 0 5 3 0x3E1 0x3FF 0x3FF 0xFFFFFFFF80000001 0)),
    (.A, 0x080A0A00F06FFC3F, .gmovx (nw 0 5 3 0x306 0x3FF 0x3F 0x0 0)),
    (.A, 0x090A0A0141107805, .gcmp (nw 0 5 5 0x11 0x1E 0x5 0x0 0)),
    (.A, 0x10EA0AC041107BFF, .ald (.nat (nw 14 5 769 0x11 0x1E 0x3FF 0x0 0))),
    (.A, 0x14EA0AC041107BFF, .alds (.nat (nw 14 5 769 0x11 0x1E 0x3FF 0x0 0))),
    (.A, 0x11EA0AC041107809, .aldx (nw 14 5 769 0x11 0x1E 0x9 0x0 0)),
    (.A, 0x12EA0AFFC1107B05, .ast (.nat (nw 14 5 1023 0x11 0x1E 0x305 0x0 0)))] = true := by decide +kernel

theorem test_decode_access2 : nativeDecodes [
    (.A, 0x15EA0AFFC1107B05, .asts (.nat (nw 14 5 1023 0x11 0x1E 0x305 0x0 0))),
    (.A, 0x13EA0AFFC1107B05, .astx (nw 14 5 1023 0x11 0x1E 0x305 0x0 0)),
    (.A, 0x160A0AFFC1107BFF, .apref (.nat (nw 0 5 1023 0x11 0x1E 0x3FF 0x0 0))),
    (.A, 0x200A0AFFC11C17FF, .vspill (.nat (nw 0 5 1023 0x11 0x305 0x3FF 0x0 0))),
    (.A, 0x210A0AC0411FFFFF, .vfill (.nat (nw 0 5 769 0x11 0x3FF 0x3FF 0x0 0))),
    (.A, 0x22EA0AC081F0FFF8, .pwld (.nat (nw 14 5 770 0x1F 0x3F 0x3F8 0x0 0))),
    (.A, 0x23CA0AC041107401, .anest (nw 12 5 769 0x11 0x1D 0x1 0x0 0))] = true := by decide +kernel

theorem test_decode_sync1 : nativeDecodes [
    (.V, 0xC00A0AFFC10FFC01, .tkgive (nw 0 5 1023 0x10 0x3FF 0x1 0x0 0)),
    (.A, 0xC10A0AFFC10FFC01, .tktake (nw 0 5 1023 0x10 0x3FF 0x1 0x0 0)),
    (.M, 0xC20A00FFC3FFFFFF, .flset (.nat (nw 0 0 1023 0x3F 0x3FF 0x3FF 0x0 0))),
    (.V, 0xC30A0AFFC3FFFFFF, .flclr (.nat (nw 0 5 1023 0x3F 0x3FF 0x3FF 0x0 0))),
    (.A, 0xC40A0AFFC3FFFC00, .flwaitSet (.nat (nw 0 5 1023 0x3F 0x3FF 0x0 0x0 0))),
    (.M, 0xC40A00FFC3FFFC01, .flwaitClr (.nat (nw 0 0 1023 0x3F 0x3FF 0x1 0x0 0))),
    (.V, 0xC40A0AFFC3FFFC02, .flwaitTake (.nat (nw 0 5 1023 0x3F 0x3FF 0x2 0x0 0))),
    (.A, 0xC80A0A00C11FFC3F, .rclaim (.nat (nw 0 5 3 0x11 0x3FF 0x3F 0x0 0))),
    (.A, 0xC90A0AFFC110783F, .rpub (.nat (nw 0 5 1023 0x11 0x1E 0x3F 0x0 0))),
    (.A, 0xCA0A0A01BFFFFC3F, .rwfill (.nat (nw 0 5 6 0x3FF 0x3FF 0x3F 0x0 0))),
    (.A, 0xCB0A0AFFC11FFC3F, .rwfree (.nat (nw 0 5 1023 0x11 0x3FF 0x3F 0x0 0))),
    (.A, 0xCC0A0AFFFFFFFC3F, .rcons (.nat (nw 0 5 1023 0x3FF 0x3FF 0x3F 0x0 0))),
    (.A, 0xCD0A0A00FFFFFC3F, .rskip (.nat (nw 0 5 3 0x3FF 0x3FF 0x3F 0x0 0))),
    (.A, 0xD00A0AFFC3FFFC00, .evsigSet (.nat (nw 0 5 1023 0x3F 0x3FF 0x0 0x0 0)))] = true := by decide +kernel

theorem test_decode_sync2 : nativeDecodes [
    (.M, 0xD00A00FFC3FFFC01, .evsigClr (.nat (nw 0 0 1023 0x3F 0x3FF 0x1 0x0 0))),
    (.V, 0xD00A0AFFC11FFC02, .evsigPost (.nat (nw 0 5 1023 0x11 0x3FF 0x2 0x0 0))),
    (.A, 0xD10A0AFFC3FFFC00, .evwait (.nat (nw 0 5 1023 0x3F 0x3FF 0x0 0x0 0))),
    (.M, 0xD10A00FFC3FFFC01, .evwaitClr (.nat (nw 0 0 1023 0x3F 0x3FF 0x1 0x0 0))),
    (.V, 0xE00A0AFFFFFFFC03, .fencevAcq (.nat (nw 0 5 1023 0x3FF 0x3FF 0x3 0x0 0))),
    (.A, 0xE00A0AFFFFFFFC0B, .fencevRel (.nat (nw 0 5 1023 0x3FF 0x3FF 0xB 0x0 0))),
    (.M, 0xE00A00FFFFFFFC13, .fencevSc (.nat (nw 0 0 1023 0x3FF 0x3FF 0x13 0x0 0))),
    (.A, 0xE10A0A00C11FFC03, .ldacq (.nat (nw 0 5 3 0x11 0x3FF 0x3 0x0 0))),
    (.A, 0xE20A0AFFC1107803, .strel (.nat (nw 0 5 1023 0x11 0x1E 0x3 0x0 0))),
    (.A, 0xE3EA0A00C110781B, .aadd (.nat (nw 14 5 3 0x11 0x1E 0x1B 0x0 0))),
    (.A, 0xE4EA0A00C110781B, .amax (.nat (nw 14 5 3 0x11 0x1E 0x1B 0x0 0))),
    (.A, 0xE5EA0A00C110781B, .amin (.nat (nw 14 5 3 0x11 0x1E 0x1B 0x0 0))),
    (.A, 0xE6EA0A00C110781B, .axchg (.nat (nw 14 5 3 0x11 0x1E 0x1B 0x0 0))),
    (.A, 0xE7EA0A00C110781B, .acas (.nat (nw 14 5 3 0x11 0x1E 0x1B 0x0 0)))] = true := by decide +kernel

theorem test_decode_sync3 : nativeDecodes [
    (.A, 0xE8EA0A00C110781B, .aor (.nat (nw 14 5 3 0x11 0x1E 0x1B 0x0 0))),
    (.A, 0xE9EA0A00C110781B, .aand (.nat (nw 14 5 3 0x11 0x1E 0x1B 0x0 0))),
    (.V, 0xEA8A0AFFE05FFFFF, .vaddm (.nat (nw 8 5 1023 0x205 0x3FF 0x3FF 0x0 9)))] = true := by decide +kernel

theorem test_decode_flow1 : nativeDecodes [
    (.A, 0xF00A00FFFFFFFFFF, .nopv (nw 0 0 1023 0x3FF 0x3FF 0x3FF 0x0 0)),
    (.M, 0xF10A00007FF55555, .pbr (nw 0 0 1 0x3FF 0x155 0x155 0x0 0)),
    (.V, 0xF20A0AFFC02FFFFF, .br (nw 0 5 1023 0x2 0x3FF 0x3FF 0x0 0)),
    (.A, 0xF30A0A00402FFFFF, .brl (nw 0 5 1 0x2 0x3FF 0x3FF 0x0 0)),
    (.M, 0xF40A00FFC02FFFFF, .ret (nw 0 0 1023 0x2 0x3FF 0x3FF 0x0 0)),
    (.V, 0xF50A0AFFC02FFFFF, .loop (nw 0 5 1023 0x2 0x3FF 0x3FF 0x0 0)),
    (.A, 0xF60A0AFFFFFFFFFF, .halt (nw 0 5 1023 0x3FF 0x3FF 0x3FF 0x0 0)),
    (.M, 0xF70A00FFFFFFFFFF, .trapvNative (nw 0 0 1023 0x3FF 0x3FF 0x3FF 0x0 0))] = true := by decide +kernel

theorem test_decode_group0_1 : portDecodes [
    (0x000001E8990001BF, .vadd (.port (pw 0x0 0 30 17 3 2 3))),
    (0x000001E8990081BF, .vsub (.port (pw 0x0 0 30 17 3 2 3))),
    (0x000001E8990101BF, .vmul (.port (pw 0x0 0 30 17 3 2 3))),
    (0x000013E8990181BF, .vfma (.port (pw 0x0 9 30 17 3 2 3))),
    (0x000013E8990201BF, .vfms (.port (pw 0x0 9 30 17 3 2 3))),
    (0x000013E8990281BF, .vfnma (.port (pw 0x0 9 30 17 3 2 3))),
    (0x000013E8990301BF, .vfnms (.port (pw 0x0 9 30 17 3 2 3))),
    (0x000001E8990401BF, .vmin (.port (pw 0x0 0 30 17 3 2 3))),
    (0x000001E8990481BF, .vmax (.port (pw 0x0 0 30 17 3 2 3))),
    (0x000001E8990501BF, .vminn (.port (pw 0x0 0 30 17 3 2 3))),
    (0x000001E8990581BF, .vmaxn (.port (pw 0x0 0 30 17 3 2 3))),
    (0x00000008990601BF, .vabs (.port (pw 0x0 0 0 17 3 2 3))),
    (0x00000008990681BF, .vneg (.port (pw 0x0 0 0 17 3 2 3))),
    (0x000001E8990701BF, .vcpysgn (.port (pw 0x0 0 30 17 3 2 3))),
    (0x00000008990801BF, .vrecpe (.port (pw 0x0 0 0 17 3 2 3))),
    (0x00000008990881BF, .vrsqrte (.port (pw 0x0 0 0 17 3 2 3)))] = true := by decide +kernel

theorem test_decode_group0_2 : portDecodes [
    (0x00000008990A01BF, .vexp2e (.port (pw 0x0 0 0 17 3 2 3))),
    (0x00000008990A81BF, .vlog2e (.port (pw 0x0 0 0 17 3 2 3))),
    (0x00000008990B81BF, .vsqrt (.port (pw 0x0 0 0 17 3 2 3))),
    (0x000001E8990901BF, .vrecps (.port (pw 0x0 0 30 17 3 2 3))),
    (0x000001E8990981BF, .vrsqrts (.port (pw 0x0 0 30 17 3 2 3))),
    (0x000001E8990B01BF, .vdiv (.port (pw 0x0 0 30 17 3 2 3))),
    (0x000001E89F0C01BF, .viadd (.port (pw 0x0 0 30 17 3 14 3))),
    (0x000001E89F0C81BF, .visub (.port (pw 0x0 0 30 17 3 14 3))),
    (0x000001E89F0E81BF, .vimin (.port (pw 0x0 0 30 17 3 14 3))),
    (0x000001E89F0F01BF, .vimax (.port (pw 0x0 0 30 17 3 14 3))),
    (0x000001E89F0D01BF, .vimul (.port (pw 0x0 0 30 17 3 14 3))),
    (0x000001E89F0D81BF, .vimulh (.port (pw 0x0 0 30 17 3 14 3))),
    (0x000013E89F0E01BF, .vimad (.port (pw 0x0 9 30 17 3 14 3))),
    (0x000001E89F1001BF, .vand (.port (pw 0x0 0 30 17 3 14 3))),
    (0x000001E89F1081BF, .vor (.port (pw 0x0 0 30 17 3 14 3))),
    (0x000001E89F1101BF, .vxor (.port (pw 0x0 0 30 17 3 14 3)))] = true := by decide +kernel

theorem test_decode_group0_3 : portDecodes [
    (0x000001E89F1181BF, .vshl (.port (pw 0x0 0 30 17 3 14 3))),
    (0x000001E89F1201BF, .vshr (.port (pw 0x0 0 30 17 3 14 3))),
    (0x000001E89F1281BF, .vsra (.port (pw 0x0 0 30 17 3 14 3))),
    (0x002401E8989401BF, .vcvt (.port (pw 0x90 0 30 17 3 1 3))),
    (0x002C01E89A1481BF, .vcvtsr (.port (pw 0xB0 0 30 17 3 4 3))),
    (0x0001C1E89E1501BF, .vquant (.port (pw 0x7 0 30 17 3 12 3))),
    (0x800012D8991581BF, .vdeq (.port (pw 0x20000 9 13 17 3 2 3))),
    (0x000001E8991601BF, .vscale (.port (pw 0x0 0 30 17 3 2 3))),
    (0x00000008991681BF, .vclass (.port (pw 0x0 0 0 17 3 2 3))),
    (0x0001C1E8991702BF, .vcmp (.port (pw 0x7 0 30 17 3 2 5))),
    (0x00000DE89F1781BF, .vsel (.port (pw 0x0 6 30 17 3 14 3))),
    (0x000001E89EAC01BF, .vdadd (.port (pw 0x0 0 30 17 3 13 3))),
    (0x000001E89EAC81BF, .vdmul (.port (pw 0x0 0 30 17 3 13 3))),
    (0x000013E89EAD01BF, .vdfma (.port (pw 0x0 9 30 17 3 13 3)))] = true := by decide +kernel

theorem test_decode_group1_1 : portDecodes [
    (0x000000089F0011BF, .vmov (.port (pw 0x0 0 0 17 3 14 3))),
    (0x000000089F0091BF, .vbcast (.port (pw 0x0 0 0 17 3 14 3))),
    (0x000001E89F0111BF, .vperm (.port (pw 0x0 0 30 17 3 14 3))),
    (0x000000089F0191BF, .vslideup (.port (pw 0x0 0 0 17 3 14 3))),
    (0x000000089F0211BF, .vslidedn (.port (pw 0x0 0 0 17 3 14 3))),
    (0x000041E89F0291BF, .vzip (.port (pw 0x1 0 30 17 3 14 3))),
    (0x000041E89F0311BF, .vunzip (.port (pw 0x1 0 30 17 3 14 3))),
    (0x000000089F0391BF, .vextr (.port (pw 0x0 0 0 17 3 14 3))),
    (0x000000089F0411BF, .vins (.port (pw 0x0 0 0 17 3 14 3))),
    (0x000000001F0491BF, .viota (.port (pw 0x0 0 0 0 3 14 3))),
    (0x000000089F0511BF, .vcompress (.port (pw 0x0 0 0 17 3 14 3))),
    (0x000000089F0591BF, .vexpand (.port (pw 0x0 0 0 17 3 14 3))),
    (0x00000008990811BF, .vredsum (.port (pw 0x0 0 0 17 3 2 3))),
    (0x000000089F0891BF, .vredmax (.port (pw 0x0 0 0 17 3 14 3))),
    (0x000000089F0911BF, .vredmin (.port (pw 0x0 0 0 17 3 14 3))),
    (0x000000089F0991BF, .vredisum (.port (pw 0x0 0 0 17 3 14 3)))] = true := by decide +kernel

theorem test_decode_group1_2 : portDecodes [
    (0x000000089F0A11BF, .vscanInc (.port (pw 0x0 0 0 17 3 14 3))),
    (0x000040089F0A11BF, .vscanExc (.port (pw 0x1 0 0 17 3 14 3))),
    (0x000013E89D0A91BF, .vdot (.port (pw 0x0 9 30 17 3 10 3))),
    (0x00000063181012BF, .pand (.port (pw 0x0 0 6 6 3 0 5))),
    (0x00000063181092BF, .por (.port (pw 0x0 0 6 6 3 0 5))),
    (0x00000063181112BF, .pxor (.port (pw 0x0 0 6 6 3 0 5))),
    (0x00000063181212BF, .pandn (.port (pw 0x0 0 6 6 3 0 5))),
    (0x00000003181192BF, .pnot (.port (pw 0x0 0 0 6 3 0 5))),
    (0x00000003181292BF, .pmov (.port (pw 0x0 0 0 6 3 0 5))),
    (0x00000003071311BF, .pcnt (.port (pw 0x0 0 0 6 0 14 3))),
    (0x00000003181392BF, .pfirst (.port (pw 0x0 0 0 6 3 0 5))),
    (0x000000089F1412BF, .ptail (.port (pw 0x0 0 0 17 3 14 5))),
    (0x00000000001491BF, .ppack (.port (pw 0x0 0 0 0 0 0 3))),
    (0x000000088015103F, .punpack (.port (pw 0x0 0 0 17 0 0 0))),
    (0x00100000181592BF, .pset (.port (pw 0x40 0 0 0 3 0 5)))] = true := by decide +kernel

theorem test_decode_group2_1 : portDecodes [
    (0x000000088600203F, .mlds (.port (pw 0x0 0 0 17 0 12 0))),
    (0x000000088600A03F, .mldf (.port (pw 0x0 0 0 17 0 12 0))),
    (0x000000088601203F, .mldg (.port (pw 0x0 0 0 17 0 12 0))),
    (0x000381E90501A0BF, .mma (.port (pw 0xE 0 30 18 0 10 1))),
    (0x000013E8820220BF, .mmas (.port (pw 0x0 9 30 17 0 4 1))),
    (0x000000000002A13F, .mzero (.port (pw 0x0 0 0 0 0 0 2))),
    (0x000241E00403203F, .accld (.port (pw 0x9 0 30 0 0 8 0))),
    (0x000000000003A03F, .mtrans (.port (pw 0x0 0 0 0 0 0 0))),
    (0x000001E8800421BF, .mngo (pw 0x0 0 30 17 0 0 3)),
    (0x000000088004A1BF, .mnwaitControl (pw 0x0 0 0 17 0 0 3)),
    (0x000000000210203F, .mprom (.port (pw 0x0 0 0 0 0 4 0))),
    (0x0000C0088210A03F, .mpoly (.port (pw 0x3 0 0 17 0 4 0))),
    (0x0000C0088211203F, .mpolyT (.port (pw 0x3 0 0 17 0 4 0))),
    (0x000040000011A1BF, .mpstat (.port (pw 0x1 0 0 0 0 0 3))),
    (0x00000008801221BF, .mgangControl (pw 0x0 0 0 17 0 0 3))] = true := by decide +kernel

theorem test_decode_group3_1 : portDecodes [
    (0xAAF340089F0831BF, .ald (.port (pw 0x2ABCD 0 0 17 3 14 3))),
    (0xAAF340089F0A31BF, .alds (.port (pw 0x2ABCD 0 0 17 3 14 3))),
    (0xAAF341E89F09303F, .ast (.port (pw 0x2ABCD 0 30 17 3 14 0))),
    (0xAAF341E89F0AB03F, .asts (.port (pw 0x2ABCD 0 30 17 3 14 0))),
    (0xAAF341E8800B303F, .apref (.port (pw 0x2ABCD 0 30 17 0 0 0))),
    (0x00F141B88010303F, .vspill (.port (pw 0x3C5 0 27 17 0 0 0))),
    (0x00F140088010BDBF, .vfill (.port (pw 0x3C5 0 0 17 0 0 27))),
    (0xFFFE0003801131BF, .pwld (.port (pw 0x3FFF8 0 0 7 0 0 3)))] = true := by decide +kernel

theorem test_decode_group4_1 : portDecodes [
    (0x000840000001403F, .flset (.port (pw 0x21 0 0 0 0 0 0))),
    (0x000840000001C03F, .flclr (.port (pw 0x21 0 0 0 0 0 0))),
    (0x000840000002403F, .flwaitSet (.port (pw 0x21 0 0 0 0 0 0))),
    (0x004840000002403F, .flwaitClr (.port (pw 0x121 0 0 0 0 0 0))),
    (0x008840000002403F, .flwaitTake (.port (pw 0x221 0 0 0 0 0 0))),
    (0x00084008980441BF, .rclaim (.port (pw 0x21 0 0 17 3 0 3))),
    (0x000841E89804C03F, .rpub (.port (pw 0x21 0 30 17 3 0 0))),
    (0x000840001805433F, .rwfill (.port (pw 0x21 0 0 0 3 0 6))),
    (0x000840089805C03F, .rwfree (.port (pw 0x21 0 0 17 3 0 0))),
    (0x000840001806403F, .rcons (.port (pw 0x21 0 0 0 3 0 0))),
    (0x000840001806C1BF, .rskip (.port (pw 0x21 0 0 0 3 0 3))),
    (0x000840000008403F, .evsigSet (.port (pw 0x21 0 0 0 0 0 0))),
    (0x004840000008403F, .evsigClr (.port (pw 0x121 0 0 0 0 0 0))),
    (0x008000089808403F, .evsigPost (.port (pw 0x200 0 0 17 3 0 0))),
    (0x000840000008C03F, .evwait (.port (pw 0x21 0 0 0 0 0 0))),
    (0x004840000008C03F, .evwaitClr (.port (pw 0x121 0 0 0 0 0 0)))] = true := by decide +kernel

theorem test_decode_group4_2 : portDecodes [
    (0x0000C0000010403F, .fencevAcq (.port (pw 0x3 0 0 0 0 0 0))),
    (0x0002C0000010403F, .fencevRel (.port (pw 0xB 0 0 0 0 0 0))),
    (0x0004C0000010403F, .fencevSc (.port (pw 0x13 0 0 0 0 0 0))),
    (0x0000C0088010C1BF, .ldacq (.port (pw 0x3 0 0 17 0 0 3))),
    (0x0000C1E88011403F, .strel (.port (pw 0x3 0 30 17 0 0 0))),
    (0x0000C1E88711C1BF, .aadd (.port (pw 0x3 0 30 17 0 14 3))),
    (0x0000C1E8871241BF, .amax (.port (pw 0x3 0 30 17 0 14 3))),
    (0x0000C1E88712C1BF, .amin (.port (pw 0x3 0 30 17 0 14 3))),
    (0x0000C1E8871341BF, .axchg (.port (pw 0x3 0 30 17 0 14 3))),
    (0x0000C1E88713C1BF, .acas (.port (pw 0x3 0 30 17 0 14 3))),
    (0x0000C1E8871441BF, .aor (.port (pw 0x3 0 30 17 0 14 3))),
    (0x0000C1E88714C1BF, .aand (.port (pw 0x3 0 30 17 0 14 3))),
    (0x000000089C15403F, .vaddm (.port (pw 0x0 0 0 17 3 8 0))),
    (0x000000088718443F, .aaddRmt (pw 0x0 0 0 17 0 14 8)),
    (0x000000088718C43F, .amaxRmt (pw 0x0 0 0 17 0 14 8)),
    (0x000000088719443F, .aminRmt (pw 0x0 0 0 17 0 14 8))] = true := by decide +kernel

theorem test_decode_group4_3 : portDecodes [
    (0x000000088719C43F, .axchgRmt (pw 0x0 0 0 17 0 14 8)),
    (0x00000008871A443F, .acasRmt (pw 0x0 0 0 17 0 14 8)),
    (0x00000008871AC43F, .aorRmt (pw 0x0 0 0 17 0 14 8)),
    (0x00000008871B443F, .aandRmt (pw 0x0 0 0 17 0 14 8))] = true := by decide +kernel

theorem test_decode_group6_1 : portDecodes [
    (0x40100000000063BF, .setshape (pw 0x10040 0 0 0 0 0 7)),
    (0x000080038000E1BF, .getshape (pw 0x2 0 0 7 0 0 3)),
    (0x000001E8800166BF, .setstream (pw 0x0 0 30 17 0 0 13)),
    (0x00000008800461BF, .cmdpush (pw 0x0 0 0 17 0 0 3)),
    (0x0000C0000004E1BF, .respop (pw 0x3 0 0 0 0 0 3)),
    (0x00000008800561BF, .waitseq (pw 0x0 0 0 17 0 0 3)),
    (0x000100088005E1BF, .cancel (pw 0x4 0 0 17 0 0 3)),
    (0x00FFC0000006603F, .trapv (pw 0x3FF 0 0 0 0 0 0)),
    (0xAAF340000008603F, .bridge (pw 0x2ABCD 0 0 0 0 0 0))] = true := by decide +kernel

theorem test_decode_group5_1 : portDecodes [
    (0x00024008801051BF, .ttdecl (pw 0x9 0 0 17 0 0 3)),
    (0x000240000010D1BF, .ttver (pw 0x9 0 0 0 0 0 3)),
    (0x00064000001151BF, .specq (pw 0x19 0 0 0 0 0 3)),
    (0x000240000011D1BF, .ttdrop (pw 0x9 0 0 0 0 0 3))] = true := by decide +kernel

/-- Standard words, written out from the RISC-V formats (06 R112). -/
theorem test_decode_standard : ([0x00A00093, 0x123452B7, 0xFFFFF317, 0x008000EF, 0x00008067, 0xFE208EE3, 0xFF812283, 0x01013283,
    0x00513823, 0x405201B3, 0x025231B3, 0x025241BB] : List Word).map decodeControl =
  [ .rv64Instruction (.opImm .addi 1 0 10) false, .rv64Instruction (.lui 5 0x12345) false, .rv64Instruction (.auipc 6 0xFFFFF) false,
    .rv64Instruction (.jal 1 4) false, .rv64Instruction (.jalr 0 1 0) false, .rv64Instruction (.branch .eq 1 2 0xFFE) false,
    .rv64Instruction (.load .w 5 2 0xFF8) false, .rv64Instruction (.load .d 5 2 16) false, .rv64Instruction (.store .d 2 5 16) false,
    .rv64Instruction (.op .sub 3 4 5) false, .rv64Instruction (.op .mulhu 3 4 5) false, .rv64Instruction (.opW .divw 3 4 5) false ] := by
  decide +kernel

theorem test_decode_extensions : ([0x205241B3, 0x405271B3, 0x60021193, 0x63F25193, 0x28121193, 0x0E5271B3, 0x800211F3, 0x8032E1F3,
    0x10500073] : List Word).map decodeControl =
  [ .rv64Instruction (.op .sh2add 3 4 5) false, .rv64Instruction (.op .andn 3 4 5) false, .rv64Instruction (.unary .clz 3 4) false,
    .rv64Instruction (.opImm .rori 3 4 63) false, .rv64Instruction (.opImm .bseti 3 4 1) false, .rv64Instruction (.op .czeroNez 3 4 5) false,
    .rv64Instruction (.csr .rw 3 false 4 0x800) false, .rv64Instruction (.csr .rs 3 true 5 0x803) false,
    .rv64Instruction .wfi false ] := by decide +kernel

theorem test_decode_system : ([0x30200073, 0x00000073, 0x00100073, 0x0330000F, 0x0000100F, 0x100231AF, 0x1A5221AF,
    0x065231AF] : List Word).map decodeControl =
  [ .mret, .ecall, .ebreak false, .fence 0 3 3 0 0, .fenceI 0 0 0, .lr true false false 3 4, .sc false false true 3 4 5,
    .amoWindow .add true true true 3 4 5 ] := by decide +kernel

/-- 16-bit words: c.addi x8,1; c.ebreak; c.lwsp x5,4(x2); c.mv x5,x6; c.jr x1. The word of zeros is illegal. -/
theorem test_decode_compressed : ([0x0405, 0x9002, 0x4292, 0x829A, 0x8082, 0x0000] : List Word).map decodeControl =
  [ .rv64Instruction (.opImm .addi 8 8 1) true, .ebreak true, .rv64Instruction (.load .w 5 2 4) true, .rv64Instruction (.op .add 5 0 6) true,
    .rv64Instruction (.jalr 0 1 0) true, .rv64Instruction (.illegal 0) true ] := by decide +kernel

/-- Frames of each kind, and of two reserved kinds (12 R250). -/
theorem test_decode_frames : ([0x101, 0x302, 0x303, 0x304, 0x305, 0x306, 7, 0x308, 0x309, 0x30A, 0x100C, 0x30B, 0x30D] : List Word).map
    (fun k => decodeFrame (k :: List.replicate 15 5)) =
  (let f (k : Word) : Frame := ⟨k, 5, 5, 5, 5, 5, 5, 5, 5, 5, 5, 5, 5, 5, 5, 5⟩
   [ some (.codeStart (f 0x101)), some (.copy (f 0x302)), some (.copynd (f 0x303)), some (.bcast (f 0x304)), some (.gatherrows (f 0x305)),
     some (.reduce (f 0x306)), some (.signal (f 7)), some (.waitcount (f 0x308)), some (.link (f 0x309)), some (.selftest (f 0x30A)),
     some (.pswap (f 0x100C)), none, none ]) := by decide +kernel

/-- SETSHAPE of R114: `setshape shp0,#64,vec.f32` and `setshape shp1,#2,#2,#2,mat.bf16`. -/
theorem test_decode_setshape : decodePort 0x401000000000603F = some (.setshape (pw 0x10040 0 0 0 0 0 0)) ∧
    decodePort 0x80008201008060BF = some (.setshape (pw 0x20002 1 0 2 0 1 1)) := by decide +kernel

/-- The worked words of 05 and 11: `(p1) vfma.f32 v4,v1,v3,v2` and `alds.f32 v1,(x10)`. -/
theorem test_decode_worked : decodePort 0x000004308801823F = some (.vfma (.port (pw 0 2 3 1 1 0 4))) ∧
    decodePort 0x00000005000A30BF = some (.alds (.port (pw 0 0 0 10 0 0 1))) := by decide +kernel

/-! ## Ill-formed words -/

def cause (e : Eng) (w lit : Word) (lat : BitVec 4) : Nat :=
  match decodeNative e w lit lat with
  | .ok _ => 0
  | .error b => b.code

/-- Native words with one field made illegal, and the DECODE subcode that each gives (05 R110). -/
theorem test_illegal_native : ([(.V, 0x7F080000C0100BFF, 0, 4), (.V, 0x00F80000C0100BFF, 0, 4), (.V, 0x000800C000100BFF, 0, 4), (.V, 0x00080000C0100800, 0, 4),
    (.V, 0x00080000C01F83FF, 0x100000000, 4), (.V, 0x00080100C0100BFF, 0, 4), (.V, 0x00080000C0100BFF, 0, 0), (.V, 0x2E28000140100BE8, 0, 4),
    (.A, 0x00080000C0100BFF, 0, 1), (.M, 0x00080000C0100BFF, 0, 0)] : List (Eng × Word × Word × BitVec 4)).map
      (fun x => cause x.1 x.2.1 x.2.2.1 x.2.2.2) = [1, 2, 3, 3, 4, 5, 7, 3, 7, 3] := by decide +kernel

/-- The same on the terms: each field that a native word may get wrong is refused. -/
theorem test_wf_native : let w := nw 0 0 3 1 2 0x3FF 0 4
    nativeWf .V (.vadd (.nat w)) = true ∧ nativeWf .M (.vadd (.nat w)) = false ∧ nativeWf .V (.vadd (.nat { w with ty := 3 })) = false ∧
    nativeWf .V (.vadd (.nat { w with dst := 0x300 })) = false ∧ nativeWf .V (.vadd (.nat { w with c := 0 })) = false ∧
    nativeWf .V (.vadd (.nat { w with ginv := true })) = false ∧ nativeWf .V (.vadd (.nat { w with lat := 0 })) = false ∧
    nativeWf .V (.vadd (.nat { w with b := 0x3E0, lit := 0x100000000 })) = false ∧
    nativeWf .V (.vscanInc (.nat { w with b := 0x3FF, c := 1 })) = false ∧ nativeWfAny (.vadd (.port (pw 0 0 0 0 0 0 0))) = false := by
  decide +kernel

/-- A portable word with a type, an unused field, a guard, an immediate or a register that its definition does not allow (05 R85-R87). -/
theorem test_wf_port : portWf (.vadd (.port (pw 0 0 2 1 0 0 3))) = true ∧ portWf (.vadd (.port (pw 0 0 2 1 0 3 3))) = false ∧
    portWf (.vadd (.port (pw 0 1 2 1 0 0 3))) = false ∧ portWf (.vadd (.port { pw 0 0 2 1 0 0 3 with pinv := true })) = false ∧
    portWf (.vadd (.port (pw 0x10000 0 2 1 0 0 3))) = false ∧ portWf (.vcmp (.port (pw 0 0 2 1 0 0 8))) = false ∧
    portWf (.cmdpush (pw 0 0 0 1 1 0 3)) = false ∧ portWf (.aaddRmt (pw 0 0 0 1 0 0 3)) = false ∧
    portWf (.evsigClr (.port (pw 33 0 0 0 0 0 0))) = false := by decide +kernel

theorem test_wf_frame : frameWf (.copy { dw0 := 0x302 }) = true ∧ frameWf (.copy { dw0 := 0x303 }) = false ∧ frameWf .mret = false := by decide +kernel

/-- Shift amounts out of range, an immediate on an operation without one, and a long illegal word that is none. -/
theorem test_wf_standard : Instr.wf (.rv64Instruction (.opImm .slli 1 2 64) false) = false ∧ Instr.wf (.rv64Instruction (.opImm .slliw 1 2 32) false) = false ∧
    Instr.wf (.rv64Instruction (.load .d 1 2 8) false) = true ∧ Instr.wf (.rv64Instruction (.illegal 0x00A00093) false) = false ∧
    Instr.wf (.rv64Instruction (.illegal 0x0405) true) = false := by decide +kernel

/-! ## States for the witnesses -/

/-- A CODE command that runs, with its shapes: 64 elements of FP32, a product of 8 by 8 by 8 in BF16, and a polynomial word of FP32. -/
def command (e : Eng) : Cmd :=
  { frame := { dw0 := BitVec.ofNat 64 (1 + 256 * engCode e), dw13 := 0x0000100000000000, dw14 := 0x0000100000000000 }, seq := 7, st := .running
    cap := { shp := [(0, 0x0010000000000040), (1, 0x0021000800080008), (2, 0x0030000000010008)] } }

def aRun : Run := { job := 1, launch := 1, lid := 5, idx := 0, vslim0 := 0 }

def aLaunch : Launch := { job := 1, lid := 5, gang := 1, evs := ~~~0, rings := ~~~0, dcs := ~~~0, alms := 0xFFFF, units := [(0, .running)], status := 1 }

def aJob : Job := { attr := { jstat := 0, jlo := 0, jhi := 4, maxpri := 0, wdlog2 := some 26 }, asid := 1, root := 0x10000 }

/-- The hub when it is up: master 9 is connected and owns the part, every function is ready, and one job has one launch at work. -/
def aHub : Hub :=
  { st := .up, ready := ~~~0, conns := [(9, true, false, none), (11, true, false, none)], own := .owned 9 1000000, jobs := [(1, aJob)], launches := [(1, aLaunch)] }

/-- The module with core 0 as given. -/
def ctl (c : Core) : State := { State.reset with core := [(0, c)], hub := aHub, agenda := [] }

/-- The module with core 0 as given, an engine at work on command 7. -/
def on' (e : Eng) (c : Core) : State :=
  { State.reset with
    core := [(0, { c with cmds := [command e] })]
    hub := aHub
    agenda := []
    cur := { lcore := 0, eng := e, seq := 7, line := 0x100, slot := 0 } }

def core0 : Core :=
  { mode := .U, unit := some aRun, ph := { run := 1 }, vcycle := 3
    lineA := { st := .run, seq := 7 }, lineM := { st := .run, seq := 7 }, lineV := { st := .run, seq := 7 } }

def onV : State := on' .V { core0 with v := [(1, 0x3F80000000000002), (2, 5)], p := [(0, ~~~0), (5, 0xF0)], st := [(0, (3, 0)), (1, (15, 0))] }

def onward {ε : Type} (r : Except ε State) (f : State → Bool) : Bool :=
  match r with
  | .ok s => f s
  | .error _ => false

def tokensOk (s : State) (ms : List Move) : Bool := (s.moves (ms.drop (min s.ln.moved ms.length))).2.2

/-! ## Engine V -/

/-- What VectorReady asks, as a computation. -/
def vReady (i : Instr) (s : State) : Option (Row × NWord × State × Vec × Vec × Vec) :=
  match nativeRow i with
  | none => none
  | some (r, w) =>
    match s.source r w 0 with
    | none => none
    | some (s1, a) => match s1.source r w 1 with
      | none => none
      | some (s2, b) => match s2.source r w 2 with
        | none => none
        | some (s3, c) =>
          if (wordBad s.cur.eng r w = [] ∧ s.me.hits.find? (fun h => h.1 = s.cur.eng) = none ∧ s.operandBad r w = none) ∧ shadowRead s r w = false ∧
            (readsVL r.op = true → (s.shp 0).getLsbD 58 = false ∧ shpClass (s.shp 0) = 1) ∧ (wickWord s.fmode r w = true → s.wickFull = false) ∧ (s3.moves ((bitMoves .V w).drop (min s3.ln.moved (bitMoves .V w).length))).2.2 = true
          then some (r, w, s3, a, b, c) else none

theorem vReady_ready {i : Instr} {s s3 : State} {r : Row} {w : NWord} {a b c : Vec} (h : vReady i s = some (r, w, s3, a, b, c)) :
    VectorReady s i r w s3 a b c := by
  unfold vReady at h
  split at h <;> try contradiction
  rename_i r' w' hr
  split at h <;> try contradiction
  rename_i s1 a' h1
  split at h <;> try contradiction
  rename_i s2 b' h2
  split at h <;> try contradiction
  rename_i s3' c' h3
  split at h <;> try contradiction
  rename_i hc
  injection h with h
  injection h with hr' h; injection h with hw h; injection h with hs h; injection h with ha h; injection h with hb hc'
  subst hr' hw hs ha hb hc'
  obtain ⟨⟨fits, sound, unhurt⟩, clear, grant, room, tokens⟩ := hc
  exact ⟨⟨hr, fits, sound⟩, clear, grant, unhurt, ⟨⟨_, _, h1, h2, h3⟩⟩, room, tokens⟩

/-- A state in which a word of V can issue, and whatever else a statement asks of what it reads. -/
theorem vector_witness {i : Instr} {s : State} (P : Row → NWord → State → Vec → Vec → Vec → Bool)
    (h : (match vReady i s with
      | some (r, w, s3, a, b, c) => P r w s3 a b c
      | none => false) = true) : ∃ r w s3 a b c, VectorReady s i r w s3 a b c ∧ P r w s3 a b c = true := by
  split at h
  · rename_i r w s3 a b c hv
    exact ⟨r, w, s3, a, b, c, vReady_ready hv, h⟩
  · contradiction

/-- VADD and VIADD: v3 from v1 and v2, under p5. -/
def wAdd (ty : BitVec 4) : NWord := { nw ty 5 3 1 2 0x3FF 0 4 with tkn := false }

theorem ready_all {s : State} {l : List Instr} (h : l.all (fun i => (vReady i s).isSome) = true) :
    ∀ i ∈ l, ∃ r w s3 a b c, VectorReady s i r w s3 a b c := by
  intro i hi
  have := List.all_eq_true.mp h i hi
  cases hv : vReady i s with
  | none => rw [hv] at this; contradiction
  | some x => obtain ⟨r, w, s3, a, b, c⟩ := x; exact ⟨r, w, s3, a, b, c, vReady_ready hv⟩

/-- PUNPACK of v1 to p0 to p7, and VADD. -/
theorem witness_VectorWordsIssue : (∀ i ∈ [Instr.vadd (.nat (wAdd 0)), .punpack (.nat { wAdd 0 with dst := 0, b := 0x3FF, lat := 2 })], vectorWord i = true ∧ onV.cur.eng = .V) ∧
    ∀ i ∈ [Instr.vadd (.nat (wAdd 0)), .punpack (.nat { wAdd 0 with guard := 0, dst := 0, b := 0x3FF, lat := 2 })],
      ∃ r w s3 a b c, VectorReady onV i r w s3 a b c :=
  ⟨by decide +kernel, ready_all (by decide +kernel)⟩

theorem witness_IntegerAndSignWords : ((∃ r w s3 a b c, VectorReady onV (.viadd (.nat (wAdd 8))) r w s3 a b c ∧ true = true) ∧
      ∀ x y z : BitVec 32, ∃ f : Nat → BitVec 32, ∀ k, intResult true 32 x y z (.viadd (.nat (wAdd 8))) = some (f k)) ∧
    (∃ r w s3 a b c, VectorReady onV (.vneg (.nat { wAdd 0 with b := 0x3FF })) r w s3 a b c ∧ (fmtOf w.ty.toNat).isSome = true) ∧
      ∀ F x y, ∃ f : Nat → Nat, ∀ k, signResult F x y (.vneg (.nat (wAdd 0))) = some (f k) :=
  ⟨⟨vector_witness (fun _ _ _ _ _ _ => true) (by decide +kernel), fun x y _ => ⟨fun _ => x + y, fun _ => rfl⟩⟩,
   vector_witness (fun _ w _ _ _ _ => (fmtOf w.ty.toNat).isSome) (by decide +kernel), fun F x _ => ⟨_, fun _ => rfl⟩⟩

theorem witness_MoveAndPredicateWords : (∃ r w s3 a b c, VectorReady onV (.pand (.nat { wAdd 0 with dst := 6, a := 5, b := 0, lat := 1 })) r w s3 a b c ∧
      (predResult (onV.me.pget (onV.pphys w.a.toNat)) (onV.me.pget (onV.pphys w.b.toNat)) (onV.guardBits w) w.c.toNat (.pand (.nat w))).isSome = true) ∧
    (∀ i ∈ [Instr.vmov (.nat { wAdd 0 with b := 0x3FF }), .vsel (.nat { wAdd 0 with c := 5 }), .vexpand (.nat { wAdd 0 with b := 0x3FF })],
      ∃ r w s3 a b c, VectorReady onV i r w s3 a b c) ∧
    ∀ (a b : Vec) (p : Pred), ∃ f : Nat → BitVec 32, ∀ k, moveResult a b p 32 64 0 k (.vmov (.nat (wAdd 0))) = some (f k) :=
  ⟨vector_witness (fun _ w _ _ _ _ => (predResult (onV.me.pget (onV.pphys w.a.toNat)) (onV.me.pget (onV.pphys w.b.toNat)) (onV.guardBits w) w.c.toNat
    (.pand (.nat w))).isSome) (by decide +kernel), ready_all (by decide +kernel), fun _ _ _ => ⟨_, fun _ => rfl⟩⟩

/-- 1.0, an infinity and a NaN of FP32; 5 lies between the E2M1 numbers 4 and 6, which is the greatest. -/
theorem witness_RoundingIsRight : (fp32 ∈ formats ∧ 0xFF800001 < 2 ^ fp32.w ∧ Fmode.sub 0 ≠ 2 ∧ finite (decodeF fp32 0x3F800000) = true ∧
      decodeF fp32 0x7F800000 = .inf false ∧ decodeF fp32 0x7FC00000 = .nan false) ∧
    e2m1 ∈ formats ∧ Fmode.sub 0 ≠ 2 ∧ distance (ratOf (.fin false 5 0)) 0 ≤ ratOf (decodeF e2m1 e2m1.maxP) ∧
    finite (decodeF e2m1 6) = true ∧ distance (ratOf (.fin true 6 0)) 0 ≤ ratOf (decodeF e2m1 e2m1.maxP) := by decide +kernel

/-- The floating words on FP32, and Wick's on FP64. -/
theorem witness_FloatingWords : (∀ i ∈ [Instr.vadd (.nat (wAdd 0)), .vmul (.nat (wAdd 0)), .vfma (.nat { wAdd 0 with c := 4 }), .vrecps (.nat (wAdd 0)),
      .vmin (.nat (wAdd 0)), .vscale (.nat (wAdd 0)), .vclass (.nat { wAdd 0 with b := 0x3FF }), .vdadd (.nat { wAdd 13 with lat := 15 })],
      ∃ r w s3 a b c, VectorReady onV i r w s3 a b c) ∧
    fmtOf 0 = some fp32 ∧ fmtOf 13 = some fp64 ∧
    ∀ a b c : Vec, ∃ f : Nat → Nat × Flags, ∀ k, floatResult fp32 0 (flushIn fp32 0 (element a 32 k).toNat) (flushIn fp32 0 (element b 32 k).toNat)
      (flushIn fp32 0 (element c 32 k).toNat) (element b 32 k).toInt (.vadd (.nat (wAdd 0))) = some (f k) :=
  ⟨ready_all (by decide +kernel), rfl, rfl, fun _ _ _ => ⟨_, fun _ => rfl⟩⟩

theorem witness_DivideAndEstimateWords : (∀ i ∈ [Instr.vdiv (.nat { wAdd 0 with lat := 15 }), .vsqrt (.nat { wAdd 0 with b := 0x3FF, lat := 15 }),
      .vrecpe (.nat { wAdd 0 with b := 0x3FF }), .vexp2e (.nat { wAdd 0 with b := 0x3FF }), .vlog2e (.nat { wAdd 0 with b := 0x3FF })],
      ∃ r w s3 a b c, VectorReady onV i r w s3 a b c) ∧
    ∀ a b : Vec, ∃ f : Nat → Nat × Flags, ∀ k, quotientResult fp32 0 (decodeF fp32 (flushIn fp32 0 (element a 32 k).toNat))
      (decodeF fp32 (flushIn fp32 0 (element b 32 k).toNat)) (.vdiv (.nat (wAdd 0))) = some (f k) :=
  ⟨ready_all (by decide +kernel), fun _ _ => ⟨_, fun _ => rfl⟩⟩

/-- VCVT of FP32 to BF16, VCVTSR of the same, and VQUANT to E4M3. -/
theorem witness_ConversionWords : ∀ i ∈ [Instr.vcvt (.nat { wAdd 1 with b := 0x3FF, c := 0 }), .vcvtsr (.nat { wAdd 1 with c := 0x80 }),
      .vquant (.nat { wAdd 3 with c := 0 })], ∃ r w s3 a b c, VectorReady onV i r w s3 a b c :=
  ready_all (by decide +kernel)

theorem witness_CompareAndPackWords : ∀ i ∈ [Instr.vcmp (.nat { wAdd 0 with dst := 6, c := 2 }), .vextr (.nat { wAdd 0 with b := 0x3FF, c := 63 }),
      .vins (.nat { wAdd 0 with b := 0x3FF, c := 4 }), .vcompress (.nat { wAdd 0 with b := 0x3FF }), .pcnt (.nat { wAdd 14 with guard := 0, a := 5, b := 0x3FF }),
      .ptail (.nat { wAdd 0 with dst := 6, b := 0x3FF }), .ppack (.nat { wAdd 0 with guard := 0, a := 0, b := 0x3FF }),
      .punpack (.nat { wAdd 0 with guard := 0, dst := 0, b := 0x3FF })], ∃ r w s3 a b c, VectorReady onV i r w s3 a b c :=
  ready_all (by decide +kernel)

theorem witness_ReductionWords : (∀ i ∈ [Instr.vredsum (.nat { wAdd 0 with b := 0x3FF }), .vredmax (.nat { wAdd 0 with b := 0x3FF }), .vredmin (.nat { wAdd 8 with b := 0x3FF }),
      .vredisum (.nat { wAdd 8 with b := 0x3FF }), .vscanInc (.nat { wAdd 0 with b := 0x3FF, c := 0 }), .vscanExc (.nat { wAdd 8 with b := 0x3FF, c := 1 }),
      .vdot (.nat { wAdd 1 with c := 4 }), .vdot (.nat { wAdd 10 with c := 4 })], ∃ r w s3 a b c, VectorReady onV i r w s3 a b c) ∧
    fmtOf 0 = some fp32 ∧ fmtOf 8 = none :=
  ⟨ready_all (by decide +kernel), rfl, rfl⟩

/-- VDEQ's row decodes, in a state where its tokens can move. -/
def rowReady (s3 : State) (w : NWord) (a c : Vec) : Bool :=
  match decodeRow s3 .A (onV.me.stream 0) onV.fmode (elem c 32 0) none (streamPicks onV w (width (stFmt (onV.me.stream 0))) a c) with
  | .ok (s4, _) => tokensOk s4 (bitMoves .V w)
  | .error _ => false

/-- A position whose entry starts far behind its first element. -/
def onVFar : State := onV.updMe (fun c => { c with v := [(4, 0x000000640000000000000000)] })

/-- A stream without scales, one whose format says that it is not there, and an element outside the entry, with a position in v4. -/
theorem witness_StreamAndRowAddWords :
    (∃ r w s3 a b c, VectorReady onV (.vdeq (.nat { wAdd 0 with b := 0x310, c := 4 })) r w s3 a b c ∧
      (streamBad (onV.me.stream (w.b.toNat - 0x310)) = false ∧
        (∀ i ∈ active onV (onV.guardBits w) 32, elem c 32 2 ≤ elem c 32 1 + i ∧ elem c 32 1 + i - elem c 32 2 < 2048 / width (stFmt (onV.me.stream 0))) ∧
        rowReady s3 w a c = true : Bool) = true) ∧
    (∃ r w s3 a b c, VectorReady onV (.vdeq (.nat { wAdd 0 with b := 0x311, c := 4 })) r w s3 a b c ∧ streamBad (onV.me.stream (w.b.toNat - 0x310)) = true) ∧
    (∃ r w s3 a b c, VectorReady onVFar (.vdeq (.nat { wAdd 0 with b := 0x310, c := 4 })) r w s3 a b c ∧
      (active onVFar (onVFar.guardBits w) 32).any (fun i => !(elem c 32 2 ≤ elem c 32 1 + i)) = true) ∧
    onV.isTent = false ∧ ∃ r w s3 a b c, VectorReady onV (.vaddm (.nat { wAdd 0 with dst := 1023, b := 0x3FF })) r w s3 a b c ∧ true = true :=
  ⟨vector_witness (fun _ w s3 a _ c => (streamBad (onV.me.stream (w.b.toNat - 0x310)) = false ∧
        (∀ i ∈ active onV (onV.guardBits w) 32, elem c 32 2 ≤ elem c 32 1 + i ∧ elem c 32 1 + i - elem c 32 2 < 2048 / width (stFmt (onV.me.stream 0))) ∧
        rowReady s3 w a c = true : Bool)) (by decide +kernel),
   vector_witness (fun _ w _ _ _ _ => streamBad (onV.me.stream (w.b.toNat - 0x310))) (by decide +kernel),
   vector_witness (fun _ w _ _ _ c => (active onVFar (onVFar.guardBits w) 32).any (fun i => !(elem c 32 2 ≤ elem c 32 1 + i))) (by decide +kernel),
   by decide +kernel, vector_witness (fun _ _ _ _ _ _ => true) (by decide +kernel)⟩

/-- A request in Wick's queue that it can take, one that it has served, and a result that is late. -/
theorem witness_ResultsAndLandings :
    let q (b : Bool) : WickReq := { lcore := 0, seq := 7, line := 0x100, slot := 0, due := 9, taken := b }
    let s : State := { onV with die := [(0, { wick := [q true, q false], wickAt := 0 })] }
    (s.dieAt 0).wick = [q true] ++ q false :: [] ∧ (s.dieAt 0).wickAt ≤ s.now ∧ (s.dieAt 0).wick = q true :: [q false] ∧
    (let f : Flight := { eng := .V, due := 3, lands := [.vreg 3 1 (~~~0)], ready := false, avail := 0 }
     let t : State := onV.updMe (fun c => { c with flights := [f] })
     (∃ x ∈ t.me.flights, x.wick = false ∧ x.ready = false ∧ x.avail ≤ t.now) ∧
     (∀ x ∈ t.me.flights.filter (fun f => f.due ≤ t.me.vcycle), x.here t.now = true)) := by decide +kernel

/-- Two results due, of which one cannot land: its queue is full. -/
theorem witness_ResultsAndLandings_blocked :
    let e : QEnt := {}
    let f : Flight := { eng := .V, due := 3, lands := [.push 0x304 1 1] }
    let full := onV.updMe (fun c => { c with flights := [f], q := { c.q with qd0 := List.replicate 16 e } })
    landAll full full.me.flights = .blocked ∧ ∃ s1 fl, landAll (onV.updMe (fun c => { c with flights := [f] })) [f] = .ok s1 fl :=
  ⟨rfl, _, _, rfl⟩

/-! ## The control core -/

def idle0 : Core := { mode := .U, unit := some aRun }

/-- x17 holds `a` and x30 holds `b`. -/
def withX (a b : Word) (c : Core) : Core := { c with x := [(17, a), (30, b)] }

def portOk (i : Instr) (p : PWord) : Bool :=
  match portRow i with
  | some (r, q) => decide (q = p) && controlForm i && r.ok p
  | none => false

theorem portOk_ready {i : Instr} {p : PWord} (h : portOk i p = true) : PortReady i p := by
  unfold portOk at h
  split at h
  · rename_i r q hr
    simp only [Bool.and_eq_true, decide_eq_true_eq] at h
    exact ⟨r, by rw [hr, h.1.1], h.1.2, h.2⟩
  · contradiction

def isOk (a : CAcc) (f : State → List Byte → Bool) : Bool :=
  match a with
  | .ok s b => f s b
  | _ => false

theorem isOk_exists {a : CAcc} {f : State → List Byte → Bool} (h : isOk a f = true) : ∃ s b, a = .ok s b ∧ f s b = true := by
  unfold isOk at h
  split at h
  · exact ⟨_, _, rfl, h⟩
  · contradiction

/-- The last doubleword and byte of each store, from either mode, and a misaligned address. -/
theorem witness_LocalLoadsAndStores : let s (a : Word) := ctl (withX a 5 idle0)
    (((s 0x17FF8).x 17).toNat % accessBytes .d = 0 ∧ placeOf 0x17FF8 = .dstore 0x7FF8 ∧ (s 0x17FF8).me.dstore.wf = true) ∧ placeOf 0x10000 = .dstore 0 ∧
    (((s 0xFFFF).x 17).toNat % accessBytes .b = 0 ∧ placeOf 0xFFFF = .istore 0xFFFF ∧ (s 0xFFFF).me.istore.wf = true ∧ (s 0xFFFF).me.mode = .U) ∧
    (ctl { withX 0xFFFF 5 idle0 with mode := .M }).me.mode = .M ∧ ((s 0x10001).x 17).toNat % accessBytes .h ≠ 0 := by decide +kernel

/-- A translation as a computation. -/
def xlOk (x : State × Xl) (f : State → Nat → Word → Bool → Bool) : Bool :=
  match x with
  | (s, .ok pa e big) => f s pa e big
  | _ => false

def xlMissing (x : State × Xl) : Bool :=
  match x with
  | (_, .missing _ _) => true
  | _ => false

def xlPerm (x : State × Xl) : Bool :=
  match x with
  | (_, .perm) => true
  | _ => false

/-- A core in user mode whose TLB has an RC page at 0x40000 and an SO page at 0x50000, and whose table, at 0x10000, maps the page at 0x60000 in
three steps and nothing else. -/
def paged (a : Word) : State :=
  let e (page : Nat) (ent : Word) : TlbEnt := { asid := 1, page := page, big := false, ent := ent }
  { ctl { withX a 5 idle0 with ptroot := 0x0010000000010001, tlbC := [e 4 0x4002F, e 5 0x100000000005002F] } with
    hbm := ((Mem.writeN [] 0x10000 (leBytes 8 0x20001)).writeN 0x20000 (leBytes 8 0x30001)).writeN 0x30030 (leBytes 8 0x7002F) }

/-- Each clause about a load and a store: allowed on an RC page and on an SO page, a page that its space does not have, and one that is not
mapped. -/
theorem witness_VirtualLoadsAndStores :
    let n := accessBytes .d
    let rd (s : State) := ctlXlate s 0 (s.x 17).toNat { rd := true }
    let wr (s : State) := ctlXlate s 0 (s.x 17).toNat { wr := true }
    (placeOf 0x40008 = .mem 0x40008 ∧ ((paged 0x40008).x 17).toNat % n = 0) ∧
    (let s := ctl { withX 0x10000000000 5 idle0 with mode := .M }; placeOf (s.x 17).toNat = .mem (s.x 17).toNat ∧ xlPerm (rd s) = true ∧ xlPerm (wr s) = true) ∧
    xlMissing (rd (paged (2 ^ 45))) = true ∧ xlMissing (wr (paged (2 ^ 45))) = true ∧
    xlOk (rd (paged 0x40008)) (fun s1 pa e _ => decide (fld e 60 2 ≠ 1 ∧ s1.replLag 0 pa n = false ∧ e.getLsbD 62 = false ∧ s1.memSub 0 pa n = none)) = true ∧
    xlOk (rd (paged 0x50008)) (fun s1 pa e _ => decide (fld e 60 2 = 1 ∧ (s1.drainSbuf 0).replLag 0 pa n = false ∧
      (s1.drainSbuf 0).replPending 0 = false ∧ (s1.drainSbuf 0).memSub 0 pa n = none)) = true ∧
    xlOk (wr (paged 0x40008)) (fun _ _ e _ => decide (fld e 60 2 ≠ 1)) = true ∧
    xlOk (wr (paged 0x50008)) (fun s1 _ e _ => decide (fld e 60 2 = 1 ∧ (s1.drainSbuf 0).replPending 0 = false)) = true := by decide +kernel

/-- A TLB that holds the page, a table whose top entry is not valid, and one that leads to a leaf. -/
theorem witness_VirtualLoadsAndStores_walk :
    let s := paged 0
    let c := s.me
    (c.mode = .U ∧ 0x40008 < 2 ^ 55 ∧ c.ptroot.getLsbD 0 = true) ∧
    ((c.tlbC.find? (tlbHit (c.ptroot.extractLsb' 52 12) 0x40008)).any (fun h => h.ent.getLsbD 2 && h.ent.getLsbD 3) = true) ∧
    (c.tlbC.find? (tlbHit (c.ptroot.extractLsb' 52 12) (2 ^ 45)) = none ∧ (tableEntry s (65536 * fld c.ptroot 16 36) (2 ^ 45) 2).getLsbD 0 = false) ∧
    (c.tlbC.find? (tlbHit (c.ptroot.extractLsb' 52 12) 0x60008) = none ∧ tableEntry s (65536 * fld c.ptroot 16 36) 0x60008 2 = BitVec.ofNat 64 (2 ^ 16 * 2 + 1) ∧
      tableEntry s (65536 * 2) 0x60008 1 = BitVec.ofNat 64 (2 ^ 16 * 3 + 1) ∧
      let leaf := tableEntry s (65536 * 3) 0x60008 0
      fld leaf 0 2 = 3 ∧ fld leaf 16 36 = 7 ∧ leaf.getLsbD 5 = true ∧ fld leaf 60 2 ≠ 3 ∧ leaf.getLsbD 62 = false ∧ leaf.getLsbD 2 = true ∧ leaf.getLsbD 3 = true ∧
        leaf.getLsbD 4 = false ∧ fld leaf 6 10 = 0 ∧ fld leaf 52 8 = 0 ∧ leaf.getLsbD 63 = false) ∧
    ((ctl { idle0 with mode := .M }).me.mode = .M ∧ (ctl idle0).me.ptroot.getLsbD 0 = false) := by decide +kernel

theorem witness_ReturnWaitAndFences : let s := ctl idle0
    (s.drainSbuf s.cur.lcore).replPending s.cur.lcore = false ∧ s.me.mode = .U ∧
    (let m := ctl { idle0 with mode := .M, mstatus := 0x1800 }; m.me.mode = .M ∧ m.me.orphan = false) ∧
    (let w := ctl { idle0 with mstatus := 0x200000 }; w.me.mode = .U ∧ w.me.mstatus.getLsbD 21 = true) ∧
    ¬ (s.me.mode = .U ∧ s.me.mstatus.getLsbD 21 = true) := by decide +kernel

/-- TRAPV; a portable VADD on the control core, a CMDPUSH with a field that it does not use, and an op that nothing assigns. -/
theorem witness_TrapsAreTaken_words : PortReady (.trapv (pw 1023 0 0 0 0 0 0)) (pw 1023 0 0 0 0 0 0) ∧
    (portRow (.vadd (.port (pw 0 0 2 1 0 0 3)))).isSome = true ∧ controlForm (.vadd (.port (pw 0 0 2 1 0 0 3))) = false ∧
    (match portRow (.cmdpush (pw 0 0 1 17 0 0 3)) with
      | some (r, p) => r.ok p
      | none => true) = false ∧
    (0xFFFFFFFFFFFFFFBF : Word).extractLsb' 0 7 = 0x3F#7 ∧ decodePort 0xFFFFFFFFFFFFFFBF = none :=
  ⟨portOk_ready (by decide +kernel), by decide +kernel⟩

/-- A trap of engine M, and each of the three interrupts of the part, in user mode, where interrupts are enabled. -/
theorem witness_TrapsAreTaken :
    let t : ETrap := { cause := 24, val := 5 }
    let s := ctl { idle0 with lineM := { st := .trapped, trap := some t } }
    (pendingItem s 0 = some (.engine .M) ∧ (s.me.line .M).trap = some t ∧ t.cause ≠ 27) ∧
    (let q := ctl { idle0 with mie := 0x70000, fbuf := [{ va := 0, gen := 0, level := 0, acc := 0, eng := .X, seq := 0, prog := 0, eaddr := 0 }] }
     pendingItem q 0 = some (.irq 16) ∧ (∀ e ∈ [Eng.A, .M, .V, .X], (q.me.line e).trap = none) ∧ (q.mipNow 0 &&& q.me.mie).getLsbD 16 = true ∧
       (∀ j ∈ [18, 17], (q.mipNow 0 &&& q.me.mie).getLsbD j = false)) ∧
    (let q := ctl { idle0 with mie := 0x70000, preip := true, mtvec := 0x800 }; pendingItem q 0 = some (.irq 17) ∧ q.me.resident = false) := by
  decide +kernel

theorem witness_TrapsAreTaken_check : let q : State := { ctl { idle0 with mie := 0x70000 } with hub := { aHub with bank := [(0, { ceint := true, cnint := true, status := 0x9000000000000000 })] } }
    pendingItem q 0 = some (.irq 18) := by decide +kernel

/-- The first and the last doubleword of the windows that the unit may use; a word beyond the windows, one in a window that is not its
own, and a misaligned one. -/
theorem witness_WindowAtomics : let s (a : Word) := ctl { withX a 0 idle0 with resv := some 0x7E000000000000 }
    (windowOf 0x7E000000000000 = some (0, 0) ∧ (s 0).windowOk 0 0 = true ∧ (s 0x7E000000000000).me.resv = some (((s 0x7E000000000000).x 17).toNat / 8 * 8)) ∧
    (windowOf (0x7E000000000000 + 4 * 262144 - 8) = some (3, 262136) ∧ (s 0).windowOk 0 3 = true ∧ (s 0).me.resv ≠ some (0x7E000000000008 / 8 * 8)) ∧
    windowOf (0x7E000000000000 + 1152 * 262144) = none ∧ (windowOf (0x7E000000000000 + 4 * 262144) = some (4, 0) ∧ (s 0).windowOk 0 4 = false) ∧
    (0x7E000000000004 : Nat) % 8 ≠ 0 ∧ ((s 0).drainSbuf 0).replPending 0 = false ∧ ((s 0).drainSbuf 0).accPoison 3 262136 8 = false := by decide +kernel

def csrDone (r : Option CsrRes) (f : State → Bool) : Bool :=
  match r with
  | some (.ok s) => f s
  | _ => false

def csrWaits (r : Option CsrRes) : Bool :=
  match r with
  | some (.wait _) => true
  | _ => false

/-- CSRs that read, that may be written, whose write waits, that may not be written, and that the mode does not reach. -/
theorem witness_CsrInstructions : let s := ctl (withX 7 0 idle0)
    csrGet s s.me.mode 0x800 = some 0 ∧ csrDone (csrSet s s.me.mode 0x800 (csrNew 0 (s.x 17) .rs)) (fun t => t.me.pc = s.me.pc) = true ∧ csrGet s s.me.mode 0x7C0 = none ∧
    csrGet s s.me.mode 0x300 = none ∧ (csrGet s s.me.mode 0xCC0).isSome = true ∧ (csrSet s s.me.mode 0xCC0 7).isNone = true ∧ (0x7C0 / 256 % 4 ≠ 0) ∧
    (let m := ctl (withX 7 0 { idle0 with mode := .M }); (csrGet m m.me.mode 0xB02).isSome = true) ∧
    (let m : State := { ctl { withX 0x8000000000000001 0 idle0 with mode := .M } with hub := { aHub with updates := [{ addr := 0, data := [1], lcore := 0 }] } }
     (csrGet m m.me.mode 0x7C7).isSome = true ∧ csrWaits (csrSet m m.me.mode 0x7C7 (m.x 17)) = true) := by decide +kernel

theorem witness_ShapeAndStreamWords : PortReady (.setshape (pw 0x10040 0 0 0 0 0 7)) (pw 0x10040 0 0 0 0 0 7) ∧
    PortReady (.getshape (pw 2 0 0 7 0 0 3)) (pw 2 0 0 7 0 0 3) ∧ PortReady (.setstream (pw 0 0 30 17 0 0 15)) (pw 0 0 30 17 0 0 15) ∧
    ∀ m ∈ (ctl idle0).me.cmds, m.frame.kind ≠ 1 :=
  ⟨portOk_ready (by decide +kernel), portOk_ready (by decide +kernel), portOk_ready (by decide +kernel), by decide +kernel⟩

/-- A vector of 65 elements, a product of 9 by 65 by 33, a polynomial of order 9 in a gang of side 2; a type and an order that are refused. -/
theorem witness_GrantsFollowTheTable :
    (shpClass 0x0010000000000041 = 1 ∧ shpTy 0x0010000000000041 ≤ 14 ∧ 0 < shpD 0x0010000000000041 0) ∧
    (let q : Word := 0x0021002100410009; shpClass q = 2 ∧ shpTy q ∈ [0, 1, 2, 3, 4, 5, 6, 10, 12] ∧ 0 < shpD q 0 ∧ 0 < shpD q 1 ∧ 0 < shpD q 2) ∧
    (let q : Word := 0x0030000000000009; shpClass q = 3 ∧ shpTy q ≤ 4 ∧ 0 < shpD q 0 ∧ (shpD q 0 + 15) / 16 * 16 ≤ 128) ∧
    shpClass 0 = 0 ∧ (shpClass 0x0022000800080008 = 2 ∧ shpTy 0x0029000800080008 ∉ [0, 1, 2, 3, 4, 5, 6, 10, 12]) ∧
    (let q : Word := 0x0030000000000041; shpClass q = 3 ∧ 64 < (shpD q 0 + 7) / 8 * 8) := by decide +kernel

/-- A COPY of eight bytes in the data store, and the same frame with a reserved flag set. -/
def copyFrame : Frame := { dw0 := 0x302, dw6 := 0x0001000100010008 }

def storeOf (f : Frame) : Mem := Mem.writeN [] 0 (bytesOf f.dws)

def enqueued (e : Enq) (f : State → BitVec 32 → Bool) : Bool :=
  match e with
  | .ok s q => f s q
  | _ => false

def enqueueBad (e : Enq) : Bool :=
  match e with
  | .bad _ => true
  | _ => false

theorem witness_CommandPush : PortReady (.cmdpush (pw 0 0 0 17 0 0 3)) (pw 0 0 0 17 0 0 3) ∧
    (let s := ctl (withX 0x10000 0 { idle0 with dstore := storeOf copyFrame })
     (s.x 17).toNat % 128 = 0 ∧ isOk (ctlReadDws s 0 (s.x 17).toNat 16) (fun s1 bs => enqueued (enqueue s1 (Frame.ofList (wordsOf 16 bs)) none none) (fun _ _ => true)) = true) ∧
    (let s := ctl (withX 0x10000 0 { idle0 with dstore := storeOf { copyFrame with dw0 := 0x20302 } })
     isOk (ctlReadDws s 0 (s.x 17).toNat 16) (fun s1 bs => enqueueBad (enqueue s1 (Frame.ofList (wordsOf 16 bs)) none none)) = true) ∧
    (ctl (withX 0x10008 0 idle0)).x 17 = 0x10008 ∧ (0x10008 : Nat) % 128 ≠ 0 :=
  ⟨portOk_ready (by decide +kernel), by decide +kernel⟩

/-- A nest of one step on vector shapes of the unit. -/
theorem witness_CommandPush_nest : PortReady (.mngo (pw 0 0 30 17 0 0 3)) (pw 0 0 30 17 0 0 3) ∧
    (let s := ctl (withX 0 0 { idle0 with shp := (command .V).cap.shp, shq := (command .V).cap.shp, nest := (List.range 6).map (fun l => (1 + l, 1)) })
     let e := nestExtent s.me
     let f : Frame := { dw0 := 0x101, dw3 := s.x 17, dw4 := s.x 30, dw13 := BitVec.ofNat 64 (e.1.toNat + (e.2 - e.1).toNat * 2 ^ 32) }
     0 ≤ e.1 ∧ e.2 ≤ (Config.spadBytes : Int) ∧ nestBad s.me = false ∧ enqueueReason s f false false = none ∧
       enqueued (enqueue s f (some s.me.nest) none) (fun _ _ => true) = true) :=
  ⟨portOk_ready (by decide +kernel), by decide +kernel⟩

theorem witness_AnswersAndBridges : PortReady (.respop (pw 3 0 0 0 0 0 3)) (pw 3 0 0 0 0 0 3) ∧ PortReady (.waitseq (pw 0 0 0 17 0 0 3)) (pw 0 0 0 17 0 0 3) ∧
    PortReady (.mnwaitControl (pw 0 0 0 17 0 0 3)) (pw 0 0 0 17 0 0 3) ∧
    (let c : Core := { idle0 with fifoX := [5, 6], seqno := 8, cmds := [command .V], gone := [6], nests := [5, 7] }
     let s := ctl c
     s.me.fifo (engOf 3) = 5 :: [6] ∧ s.me.fifo (engOf 0) = [] ∧ seqAnswer s.me 8 = some 2 ∧ seqAnswer s.me 7 = none ∧ seqAnswer s.me 6 = some 1 ∧
       seqAnswer s.me 5 = some 0 ∧ (5 : BitVec 32) ∈ s.me.nests ∧ (7 : BitVec 32) ∈ s.me.nests ∧ (6 : BitVec 32) ∉ s.me.nests) :=
  ⟨portOk_ready (by decide +kernel), portOk_ready (by decide +kernel), portOk_ready (by decide +kernel), by decide +kernel⟩

/-- A bridge whose commands, from sequence number 7 on, have all retired. -/
theorem witness_AnswersAndBridges_bridge : PortReady (.bridge (pw 0 0 0 0 0 0 0)) (pw 0 0 0 0 0 0 0) ∧
    (let s := ctl { idle0 with pc := 0x40, brtab := 0x10000, brseq := 0x8000004000000007 }
     isOk (ctlReadDws s 0 (s.me.brtab + BitVec.ofNat 64 (64 * 0)).toNat 8) (fun s1 _ => s1.me.brseq.getLsbD 63 && fld s1.me.brseq 32 16 == s1.me.pc.toNat &&
       s1.me.cmds.all (fun m => seqLt m.seq (s1.me.brseq.setWidth 32))) = true) :=
  ⟨portOk_ready (by decide +kernel), by decide +kernel⟩

/-- A bridge of a region without frames at its start, with engine A at rest and with a command of it, and one whose pushes are made while a
command from its first on is pending. -/
theorem witness_AnswersAndBridges_start :
    let s (c : Core) := ctl { c with pc := 0x40, brtab := 0x10000 }
    let d (c : Core) (f : State → List Word → Bool) := isOk (ctlReadDws (s c) 0 0x10000 8) (fun s1 bs => f s1 (wordsOf 8 bs))
    d idle0 (fun s1 d => !(s1.me.brseq.getLsbD 63) && (decide (s1.me.bridgeAt = 0) && (s1.me.cmds.isEmpty &&
      onward (bridgeStart 0 d bridgeFuel s1) (fun s2 => s2.me.cmds.isEmpty)))) = true ∧
    d { idle0 with cmds := [command .A] } (fun s1 _ => decide (s1.me.bridgeAt = 0) && s1.me.cmds.any (fun m => engOf m.frame.engCode = .A)) = true ∧
    d { idle0 with brseq := 0x8000004000000007, cmds := [command .V] } (fun s1 _ => s1.me.brseq.getLsbD 63 && (fld s1.me.brseq 32 16 == s1.me.pc.toNat &&
      s1.me.cmds.any (fun m => !seqLt m.seq (s1.me.brseq.setWidth 32)))) = true := by decide +kernel

/-- Unit 0 of launch 5 itself, its launch 5, and a launch that there is not; a cancel in the order. -/
theorem witness_Cancels : let p := pw 1 0 0 17 0 0 3
    PortReady (.cancel p) p ∧ (cancelOutcome (ctl (withX 99 0 idle0)) p).1 ≠ 0 ∧
    (let s := { ctl (withX 6 0 idle0) with hub := { aHub with launches := [(1, aLaunch), (2, { aLaunch with lid := 6 })] } }
     (cancelOutcome s p).1 = 0 ∧ holdsMe s (cancelOutcome s p).2 = false) ∧
    (let s := ctl (withX 5 0 { idle0 with ph := { run := 1 } })
     (cancelOutcome s p).1 = 0 ∧ holdsMe s (cancelOutcome s p).2 = true ∧ (applyCancels (acceptCancel s (cancelOutcome s p).2)).me.unit = none) ∧
    (let s := ctl (withX 5 0 { idle0 with ph := { stage := .drain 7 .X } })
     holdsMe s (cancelOutcome s p).2 = true ∧ (applyCancels (acceptCancel s (cancelOutcome s p).2)).me.unit ≠ none) ∧
    aLaunch.live = true ∧ SMap.get aLaunch.units 0 .complete = .running ∧ SMap.get aLaunch.units 1 .complete = .complete ∧
    (let l : Launch := { aLaunch with units := [(0, .running), (1, .waiting 0 false)] }
     SMap.get l.units 1 .complete ≠ .running ∧ SMap.get l.units 1 .complete ≠ .complete ∧
       ({ l with units := SMap.put l.units 1 .cancelled, kept := SMap.del l.kept 1 } : Launch).left ≠ 0) ∧
    (let l := { aLaunch with status := 3 }; 2 ≤ l.status) :=
  ⟨portOk_ready (by decide +kernel), by decide +kernel⟩

/-- An entry descriptor that is valid: one row of two FP32 elements. -/
def desc : List Word := [0x0000000200010000, 0x0000000800000000, 0x0000001000000008, 0x0000002000000018, 0, 0, 0, 0]

def tile (owner : Option Nat) : Alm := { live := { desc := (List.range 5).map (fun k => (k, desc.getD k 0)), owner := owner } }

theorem witness_AlmanacWords : PortReady (.ttdecl (pw 15 0 0 17 0 0 3)) (pw 15 0 0 17 0 0 3) ∧ PortReady (.ttver (pw 15 0 0 0 0 0 3)) (pw 15 0 0 0 0 0 3) ∧
    PortReady (.specq (pw 0x2F 0 0 0 0 0 3)) (pw 0x2F 0 0 0 0 0 3) ∧ PortReady (.ttdrop (pw 15 0 0 0 0 0 3)) (pw 15 0 0 0 0 0 3) ∧
    (let s := ctl (withX 0x10000 0 { idle0 with dstore := Mem.writeN [] 0 (bytesOf desc) })
     s.hasAlm 15 = true ∧ (s.x 17).toNat % 64 = 0 ∧
       isOk (ctlReadDws s 0 (s.x 17).toNat 8) (fun s1 bs => decide ((s1.alm 15).live.owner = none) && descOk s1.myCluster (wordsOf 8 bs)) = true) ∧
    (let s := ctl (withX 0x10000 0 idle0)
     isOk (ctlReadDws s 0 (s.x 17).toNat 8) (fun s1 bs => decide ((s1.alm 15).live.owner = none) && !descOk s1.myCluster (wordsOf 8 bs)) = true) ∧
    (let s : State := { ctl { idle0 with ph := { pushed := false } } with cluster := [(0, { alm := [(15, tile (some 0)), (14, tile (some 1))] })] }
     (s.alm 15).live.owner = some s.cur.lcore ∧ (s.alm 14).live.owner ≠ some s.cur.lcore ∧ (s.alm 14).live.owner ≠ none ∧ s.me.cmds = [] ∧ s.me.ph.pushed = false ∧
       (∀ r < (s.alm 15).live.rows, poisoned s.myCluster.poison ((s.alm 15).live.home + r * (s.alm 15).live.hpitch) (s.alm 15).live.rb = false) ∧
       (∀ m ∈ s.me.cmds, m.frame.spec = true → m.frame.tile ≠ 15)) ∧
    (let s : State := { ctl idle0 with hub := { aHub with launches := [(1, { aLaunch with alms := 0 })] } }; s.hasAlm 15 = false) :=
  ⟨portOk_ready (by decide +kernel), portOk_ready (by decide +kernel), portOk_ready (by decide +kernel), portOk_ready (by decide +kernel), by decide +kernel⟩

/-- Every control form of groups 3 and 4, with the number 63 where it takes one. -/
theorem witness_ControlSyncWords_words : ([ .flset (.port (pw 63 0 0 0 0 0 0)), .flclr (.port (pw 63 0 0 0 0 0 0)), .flwaitSet (.port (pw 63 0 0 0 0 0 0)),
      .flwaitClr (.port (pw 319 0 0 0 0 0 0)), .flwaitTake (.port (pw 575 0 0 0 0 0 0)), .evsigSet (.port (pw 63 0 0 0 0 0 0)), .evsigClr (.port (pw 319 0 0 0 0 0 0)),
      .evwait (.port (pw 63 0 0 0 0 0 0)), .evwaitClr (.port (pw 319 0 0 0 0 0 0)), .fencevAcq (.port (pw 0 0 0 0 0 0 0)), .fencevRel (.port (pw 12 0 0 0 0 0 0)),
      .fencevSc (.port (pw 16 0 0 0 0 0 0)), .ldacq (.port (pw 4 0 0 17 0 0 3)), .strel (.port (pw 2 0 30 17 0 0 0)), .pwld (.port (pw 0x30008 0 0 7 0 0 3)) ] :
      List Instr).all (fun i => match portRow i with
        | some (_, p) => portOk i p
        | none => false) = true := by decide +kernel

theorem witness_ControlSyncWords : let s : State := { ctl (withX 0x10008 5 { idle0 with fl := 0x8000000000000000, wsize := [(7, 16)], wbase := [(7, 0x10000)], ph := { evSet := 0x8000000000000000 } }) with agenda := [] }
    s.me.fl.getLsbD 63 = true ∧ s.me.fl.getLsbD 62 = false ∧ s.hasEvent 63 = true ∧ (evView s.me s.myCluster).getLsbD 63 = true ∧
    (evView s.me s.myCluster).getLsbD 62 = false ∧ s.heardAll = true ∧ (s.drainSbuf 0).relWaits 0 4 = false ∧ (s.drainSbuf 0).relWaits 0 2 = false ∧
    (let u : State := { s with hub := { aHub with updates := [{ addr := 0, data := [1], lcore := 0 }] } }; (u.drainSbuf 0).relWaits 0 4 = true) ∧ isOk (ctlRead s 0 (s.x 17).toNat 8) (fun _ _ => true) = true ∧
    isOk (ctlWrite (s.drainSbuf 0) 0 (s.x 17).toNat (leBytes 8 5)) (fun _ _ => true) = true ∧ s.me.wsizeAt 0 = 0 ∧ s.me.wsizeAt 7 ≠ 0 ∧ s.me.wsizeAt 7 < 9 + 8 ∧
    8 + 8 ≤ s.me.wsizeAt 7 ∧ isOk (ctlBytes s 0 (s.me.wbaseAt 7 + 8) 8) (fun _ _ => true) = true ∧
    (State.hasEvent { s with hub := { aHub with launches := [(1, { aLaunch with evs := 0 })] } } 63) = false := by decide +kernel

theorem witness_ControlAtomics : (atomWord (.port (pw 0x14 0 30 17 0 8 3)) .max = .amax (.port (pw 0x14 0 30 17 0 8 3)) ∧
      PortReady (.amax (.port (pw 0x14 0 30 17 0 8 3))) (pw 0x14 0 30 17 0 8 3)) ∧
    (let s := ctl (withX (0x7E000000000000 + 4 * 262144 - 4) 5 idle0)
     (s.x 17).toNat % 4 = 0 ∧ windowOf (s.x 17).toNat = some (3, 262140) ∧ s.windowOk 0 3 = true ∧ (s.drainSbuf 0).relWaits 0 (scopeTo 4 0 3) = false ∧ (s.drainSbuf 0).accPoison 3 262140 4 = false) ∧
    windowOf 0x10000 = none ∧ (0x7E000000000002 : Nat) % 4 ≠ 0 :=
  ⟨⟨rfl, portOk_ready (by decide +kernel)⟩, by decide +kernel⟩

/-- A request block at 0x10000, and a job whose peer entry 3 is valid, 4 is not, and 5 is missing. -/
def rmtBlock (peer : Word) : Mem := Mem.writeN [] 0 (bytesOf [peer, 0x7E0000000000, 5, 0, 77, 0, 0, 0])

def rmtHub : Hub := { aHub with jobs := [(1, { aJob with peers := [(3, 9, 5, true), (4, 9, 5, false)] })] }

def rmtState (c : Core) (peer : Word) : State := { ctl { c with x := [(17, 0x10000)], dstore := rmtBlock peer } with hub := rmtHub }

def rmtReads (s : State) (f : State → List Word → Bool) : Bool := isOk (ctlReadDws s 0 (s.x 17).toNat 8) (fun s1 bs => f s1 (wordsOf 8 bs))

def rmtPeer (s : State) (b : List Word) : Option (BitVec 128 × BitVec 24 × Bool) :=
  (s.me.unit.bind (fun u => SMap.find s.hub.jobs u.job)).bind (fun j => SMap.find j.peers (fld (b.getD 0 0) 0 16))

/-- A request whose answer has come, one that waits, and blocks whose peer entry is missing or not valid; and a good block: with its tag first
sent too long ago, before the RDMA engine is ready, while an early commit cannot be made or the release waits, and with nothing in its way. -/
theorem witness_RemoteAtomics : PortReady (remoteWord (pw 0 0 0 17 0 14 30) .cas) (pw 0 0 0 17 0 14 30) ∧
    (let s := ctl { withX 0x10000 0 idle0 with rmt := some (1, 0), rmtans := some (5, 0) }; s.me.rmtans = some (5, 0)) ∧
    (let s := ctl { withX 0x10000 0 idle0 with rmt := some (1, 0) }; s.me.rmtans = none ∧ s.me.rmt = some (1, 0)) ∧
    ((rmtState idle0 3).me.rmtans = none ∧ (rmtState idle0 3).me.rmt = none ∧ ((rmtState idle0 3).x 17).toNat % 64 = 0) ∧
    rmtReads (rmtState idle0 5) (fun _ b => decide (rmtPeer (rmtState idle0 5) b = none)) = true ∧
    rmtReads (rmtState idle0 4) (fun _ b => decide (rmtPeer (rmtState idle0 4) b = some (9, 5, false))) = true ∧
    rmtReads (rmtState idle0 0x10003) (fun _ b => decide ((b.getD 0 0).toNat / 2 ^ 16 ≠ 0)) = true ∧
    rmtReads (rmtState idle0 3) (fun s1 b => decide (rmtPeer (rmtState idle0 3) b = some (9, 5, true) ∧ b.getD 4 0 = 77 ∧ b.getD 5 0 = 0 ∧ (b.getD 0 0).toNat / 2 ^ 16 = 0 ∧
      s1.me.unit ≠ none ∧ s1.me.ph.stage = .run ∧ s1.me.ph.acc37 = false ∧ s1.me.ph.mixed = false ∧
      (((earlyCommit s1 0).updMe (fun c => { c with ph := { c.ph with acc37 := true } })).drainSbuf 0).replPending 0 = false)) = true ∧
    (rmtState idle0 3).isReady 44 = true ∧ rmtHub.tags = [] ∧
    (let s : State := { rmtState idle0 3 with now := 250000000, hub := { rmtHub with tags := [(77, 0)] } }
     s.hub.tags.find? (fun t => t.1 = 77 && s.now - t.2 < 1000 * Config.cyclesPerMs) = some (77, 0) ∧ 100 * Config.cyclesPerMs < s.now - 0) ∧
    (let s : State := { rmtState idle0 3 with hub := { rmtHub with ready := 0 } }; s.isReady 44 = false) ∧
    (let s : State := rmtState { idle0 with ph := { run := 1, held := [{ addr := 0, mask := 1, data := 0, pre := some ({}, true) }] } } 3; s.me.ph.acc37 = false ∧ s.me.ph.mixed = true) ∧
    (let s : State := { rmtState { idle0 with ph := { run := 1, acc37 := true } } 3 with hub := { rmtHub with updates := [{ addr := 0, data := [1], lcore := 0 }] } }
     s.me.ph.stage = .run ∧ s.me.ph.acc37 = true ∧ (s.drainSbuf 0).replPending 0 = true) ∧
    (0x10020 : Nat) % 64 ≠ 0 :=
  ⟨portOk_ready (by decide +kernel), by decide +kernel⟩

/-! ## Line engines -/

/-- A legal word, and what else a statement asks of its row and fields. -/
def lineOk (i : Instr) (s : State) (P : Row → NWord → Bool) : Bool :=
  match nativeRow i with
  | some (r, w) => (wordBad s.cur.eng r w).isEmpty && (decide (s.me.hits.find? (fun h => h.1 = s.cur.eng) = none) && P r w)
  | none => false

theorem legal_witness {i : Instr} {s : State} {P : Row → NWord → Bool} (h : lineOk i s P = true) : ∃ r w, Legal s i r w ∧ P r w = true := by
  unfold lineOk at h
  split at h
  · rename_i r w hr
    simp only [Bool.and_eq_true, List.isEmpty_iff, decide_eq_true_eq] at h
    exact ⟨r, w, ⟨hr, h.1, h.2.1⟩, h.2.2⟩
  · contradiction

/-- A word of engine A that acts, whose tokens can move. -/
theorem access_witness {i : Instr} {s : State} {P : Row → NWord → Bool}
    (h : lineOk i s (fun r w => s.guardHolds w && (tokensOk s (bitMoves .A w) && P r w)) = true) :
    ∃ r w, AccessReady s i r w ∧ TokensReady s (bitMoves .A w) ∧ P r w = true := by
  obtain ⟨r, w, hl, hp⟩ := legal_witness h
  simp only [Bool.and_eq_true] at hp
  exact ⟨r, w, ⟨hl, hp.1⟩, hp.2.1, hp.2.2⟩

/-- A control word that acts, whose tokens can move. -/
theorem control_witness {i : Instr} {s : State} {P : Row → NWord → Bool}
    (h : lineOk i s (fun r w => (decide (s.cur.eng = .A) || !shadowRead s r w) && ((!r.guard || s.guardHolds w) && (tokensOk s (bitMoves s.cur.eng w) && P r w))) = true) :
    ∃ r w, ControlReady s i r w ∧ TokensReady s (bitMoves s.cur.eng w) ∧ P r w = true := by
  obtain ⟨r, w, hl, hp⟩ := legal_witness h
  simp only [Bool.and_eq_true, Bool.or_eq_true, decide_eq_true_eq, Bool.not_eq_true'] at hp
  exact ⟨r, w, ⟨hl, hp.1, fun hg => hp.2.1.resolve_left (by simp [hg])⟩, hp.2.2.1, hp.2.2.2⟩

/-- A word of engine M that does not idle, whose tokens can move. -/
theorem matrix_witness {i : Instr} {s : State} {P : Row → NWord → Bool}
    (h : lineOk i s (fun r w => !shadowReadM s i && (!mIdle s.me i && (tokensOk s (bitMoves .M w) && P r w))) = true) :
    ∃ r w, MatrixReady s i r w ∧ TokensReady s (bitMoves .M w) ∧ P r w = true := by
  obtain ⟨r, w, hl, hp⟩ := legal_witness h
  simp only [Bool.and_eq_true, Bool.not_eq_true'] at hp
  exact ⟨r, w, ⟨hl, hp.1, hp.2.1⟩, hp.2.2.1, hp.2.2.2⟩

def upc0 (lc : BitVec 32) : Upc := { line := 0x100, lc := lc, bt := [(2, (0x200, true))] }

def flow (e : Eng) (lc : BitVec 32) : State :=
  on' e { core0 with lineA := { core0.lineA with upc := upc0 lc }, lineM := { core0.lineM with upc := upc0 lc }, lineV := { core0.lineV with upc := upc0 lc } }

def still (w : NWord) : NWord := { w with tkn := false }

/-- Each control word of a list acts in a state, and its tokens move. -/
theorem control_all {l : List Instr} {s : State}
    (h : l.all (fun i => lineOk i s (fun r w => (decide (s.cur.eng = .A) || !shadowRead s r w) && ((!r.guard || s.guardHolds w) && tokensOk s (bitMoves s.cur.eng w)))) = true) :
    ∀ i ∈ l, ∃ r w, ControlReady s i r w ∧ TokensReady s (bitMoves s.cur.eng w) := by
  intro i hi
  obtain ⟨r, w, hl, hp⟩ := legal_witness (List.all_eq_true.mp h i hi)
  simp only [Bool.and_eq_true, Bool.or_eq_true, decide_eq_true_eq, Bool.not_eq_true'] at hp
  exact ⟨r, w, ⟨hl, hp.1, fun hg => hp.2.1.resolve_left (by simp [hg])⟩, hp.2.2⟩

/-- A line as it is read, with its first doubleword: the chain goes on, or ends. -/
def fetched (s : State) (ends : Bool) : Bool :=
  match fetchLine s s.cur.eng s.cur.line with
  | .ok _ bs => chainEnd ((wordsOf 8 bs).getD 0 0) == ends
  | _ => false

/-- A line whose words have been read, the first of which is given. -/
def inLine (s : State) (w : Word) : State := s.updMe (fun c => c.updLine s.cur.eng (fun l => { l with buf := [w, 0, 0, 0, 0, 0, 0, 0] }))

/-- Words of control flow on each engine, at the target that is prepared, 2, and at one that is not, 3, and LOOP on both sides of 1. -/
theorem witness_FlowWords :
    let z : BitVec 10 := 0x3FF
    (∀ e ∈ [Eng.V, .M], ∀ i ∈ [Instr.nopv (still (nw 0 0 z z z 5 0 0)), .pbr (still (nw 0 0 3 7 1 2 0 0)), .br (still (nw 0 0 z 2 z z 0 0)), .ret (still (nw 0 0 z 2 z z 0 0)),
      .brl (still (nw 0 0 1 2 z z 0 0)), .loop (still (nw 0 0 z 2 z z 0 0)), .halt (still (nw 0 0 z z z z 0 0)), .trapvNative (still (nw 0 0 z z z 9 0 0))], ∃ r w, ControlReady (flow e 1) i r w ∧ TokensReady (flow e 1) (bitMoves (flow e 1).cur.eng w)) ∧
    (∀ i ∈ [Instr.setrot (still (nw 0 0 z 4 4 3 0 0))], ∃ r w, ControlReady (flow .V 1) i r w ∧ TokensReady (flow .V 1) (bitMoves (flow .V 1).cur.eng w)) ∧
    (∀ e ∈ [Eng.V, .M, .A], ∀ i ∈ [Instr.br (still (nw 0 0 z 3 z z 0 0)), .ret (still (nw 0 0 z 3 z z 0 0)), .loop (still (nw 0 0 z 3 z z 0 0)), .brl (still (nw 0 0 1 3 z z 0 0))],
      ∃ r w, ControlReady (flow e 2) i r w ∧ TokensReady (flow e 2) (bitMoves (flow e 2).cur.eng w)) ∧
    (∀ e ∈ [Eng.V, .M, .A], (flow e 2).ln.upc.target 2 = (0x200, true) ∧ ((flow e 2).ln.upc.target 3).2 = false ∧ 1 < (flow e 2).ln.upc.lc.toNat ∧
      (flow e 1).ln.upc.lc.toNat ≤ 1) :=
  ⟨by intro e he; simp only [List.mem_cons, List.not_mem_nil, or_false] at he; obtain rfl | rfl := he <;> exact control_all (by decide +kernel),
   control_all (by decide +kernel),
   by intro e he; simp only [List.mem_cons, List.not_mem_nil, or_false] at he; obtain rfl | rfl | rfl := he <;> exact control_all (by decide +kernel),
   by decide +kernel⟩

/-- BRL in a line that goes on and in one that ends, to be read and read before; HALT in a segment, by a bundle that issued and by idle
cycles alone, and outside. -/
theorem witness_FlowWords_line :
    let s := flow .V 1
    (∀ b ∈ [false, true], let t : State := { (s.updMe (fun c => { c with ptroot := 0x0010000000010001, tlbV := [{ asid := 1, page := 4, big := false, ent := 0x4002F }] })) with
        cur := { s.cur with line := 0x1000 }, hbm := Mem.writeN [] 0x40000 (leBytes 64 (if b then 4 else 0x10)) }
      t.ln.buf = [] ∧ fetched t b = true) ∧
    ((inLine s 4).ln.buf ≠ [] ∧ chainEnd ((inLine s 4).ln.buf.getD 0 0) = true) ∧ ((inLine s 0x10).ln.buf ≠ [] ∧ chainEnd ((inLine s 0x10).ln.buf.getD 0 0) = false ∧
      (inLine s 0x10).ln.upc.target 2 = (0x200, true) ∧ ((inLine s 0x10).ln.upc.target 3).2 = false) ∧
    (s.ln.checked && (s.ln.since || s.ln.segvc ≠ 0)) = false ∧
    (∀ b ∈ [true, false], let t := s.updMe (fun c => c.updLine .V (fun l => { l with checked := true, since := b, segvc := 2 }))
      (t.ln.checked && (t.ln.since || t.ln.segvc ≠ 0)) = true ∧ (lineOk (.halt (still (nw 0 0 0x3FF 0x3FF 0x3FF 0x3FF 0 0))) t (fun r w => !shadowRead t r w && t.guardHolds w)) = true) := by
  decide +kernel

def accOk (a : Acc) (f : State → List Byte → Bool) : Bool :=
  match a with
  | .ok s b => f s b
  | _ => false

/-- Memory that engine A reads and writes in these witnesses: a window of its job. -/
def win : Word := 0x7E000000000000

def busyTok : Tokens := { am := List.replicate 16 7, vm := [7] }

/-- Sixteen gives at once fill a queue; V's token lets M take. A flag acts at once, or behind a result in flight. -/
theorem witness_EngineSyncWords :
    let s : State := on' .M { core0 with tok := busyTok, fl := 0x8000000000000000, ph := { run := 1, evSet := 1 } }
    let late : State := on' .M { core0 with flights := [{ eng := .M, due := 9, lands := [] }] }
    (∃ r w, ControlReady s (.tkgive (still (nw 0 0 0x3FF 16 0x3FF 1 0 0))) r w ∧ TokensReady s (bitMoves .M w) ∧ tokensOk s (List.replicate 16 ⟨giveQ .M true, true⟩ ++ bitMoves .M w) = true) ∧
    (∃ r w, ControlReady s (.tktake (still (nw 0 0 0x3FF 16 0x3FF 0 0 0))) r w ∧ TokensReady s (bitMoves .M w) ∧ tokensOk s (List.replicate 16 ⟨takeQ .M false, false⟩ ++ bitMoves .M w) = true) ∧
    (∀ i ∈ [Instr.flset (.nat (still (nw 0 0 0x3FF 63 0x3FF 0x3FF 0 0))), .flclr (.nat (still (nw 0 0 0x3FF 63 0x3FF 0x3FF 0 0))), .flwaitSet (.nat (still (nw 0 0 0x3FF 63 0x3FF 0 0 0))),
      .flwaitTake (.nat (still (nw 0 0 0x3FF 63 0x3FF 2 0 0))), .flwaitClr (.nat (still (nw 0 0 0x3FF 0 0x3FF 1 0 0))), .evsigSet (.nat (still (nw 0 0 0x3FF 63 0x3FF 0 0 0))),
      .evsigClr (.nat (still (nw 0 0 0x3FF 63 0x3FF 1 0 0))), .evwait (.nat (still (nw 0 0 0x3FF 0 0x3FF 0 0 0))), .evwaitClr (.nat (still (nw 0 0 0x3FF 0 0x3FF 1 0 0))),
      .evsigPost (.nat (still (nw 0 0 0x3FF 6 0x3FF 2 0 0)))], ∃ r w, ControlReady s i r w ∧ TokensReady s (bitMoves s.cur.eng w)) ∧
    (∀ i ∈ [Instr.flset (.nat (still (nw 0 0 0x3FF 63 0x3FF 0x3FF 0 0))), .evsigPost (.nat (still (nw 0 0 0x3FF 6 0x3FF 2 0 0)))], ∃ r w, ControlReady late i r w ∧ TokensReady late (bitMoves late.cur.eng w)) ∧
    (!s.isTent && (decide (s.me.lastDue .M ≤ s.me.vcycle) && (!late.isTent && (decide (late.me.vcycle < late.me.lastDue .M) && (s.me.fl.getLsbD 63 && (!s.me.fl.getLsbD 0 && (s.hasEvent 63 && (s.hasEvent 0 &&
        ((evView s.me s.myCluster).getLsbD 0 && (decide (s.myCluster.relUpd ≤ (s.dieAt 0).applied) && decide ((s.me.fifo .M).length < 16))))))))))) = true :=
  ⟨control_witness (by decide +kernel), control_witness (by decide +kernel), control_all (by decide +kernel), control_all (by decide +kernel), by decide +kernel⟩

/-- FENCEV on A with nothing to store, of each kind and scope, and on M with an operand that a word at work has yet to read. -/
theorem witness_EngineSyncWords_fence :
    let s : State := on' .A core0
    let m : State := on' .M { core0 with mwork := [{ i := .mldg (.nat (nw 1 0 0x3FF 17 0x3FF 0 0 1)), line := 0, slot := 0, seq := 7, array := false, t := 3, o := 1, due := 5 }] }
    let f (sc : BitVec 10) : NWord := still (nw 0 0 0x3FF 0x3FF 0x3FF sc 0 0)
    (∀ i ∈ [Instr.fencevAcq (.nat (f 4)), .fencevRel (.nat (f 12)), .fencevSc (.nat (f 16)), .fencevSc (.nat (f 20))], ∃ r w, ControlReady s i r w ∧ TokensReady s (bitMoves s.cur.eng w)) ∧
    (∀ i ∈ [Instr.fencevAcq (.nat (f 4)), .fencevRel (.nat (f 12)), .fencevSc (.nat (f 16))], ∃ r w, ControlReady m i r w ∧ TokensReady m (bitMoves m.cur.eng w)) ∧
    s.me.astores = [] ∧ onward (readFirst s) (fun _ => true) = true ∧ onward (readFirst m) (fun _ => true) = true ∧
    (beforeEarly s).elim false (fun s1 => !s1.relWaits 0 4 && onward (readFirst s1) (fun _ => true)) = true :=
  ⟨control_all (by decide +kernel), control_all (by decide +kernel), by decide +kernel, by decide +kernel, by decide +kernel, by decide +kernel⟩

/-- A word of A under the predicate p5, which is clear, and one of V; two gives and one take on queues that hold no token and one. -/
theorem witness_FailedGuardsAndTokens :
    (∃ r w, Legal (on' .A core0) (.gadd (still (nw 0 5 3 1 2 0x3FF 0 0))) r w ∧ ((on' .A core0).guardHolds w == false && (tokensOk (on' .A core0) (bitMoves .A w))) = true) ∧
    guardedWord (.gadd (still (nw 0 5 3 1 2 0x3FF 0 0))) = true ∧
    (∃ r w, Legal (on' .V core0) (.halt (still (nw 0 5 0x3FF 0x3FF 0x3FF 0x3FF 0 0))) r w ∧
      ((on' .V core0).guardHolds w == false && (r.guard && (!shadowRead (on' .V core0) r w && tokensOk (on' .V core0) (bitMoves .V w)))) = true) ∧
    guardedControl (.halt (still (nw 0 5 0x3FF 0x3FF 0x3FF 0x3FF 0 0))) = true ∧
    (let s : State := on' .M { core0 with tok := { vm := [7] } }
     let ms : List Move := [⟨3, false⟩, ⟨1, true⟩, ⟨2, true⟩]
     s.cur.eng ≠ .X ∧ s.ln.moved = 0 ∧ (∀ m ∈ ms, m.q < 6) ∧ TokensReady s ms ∧ (∀ q < 6, (s.me.tok.at q).length ≤ 16)) :=
  ⟨legal_witness (by decide +kernel), by decide +kernel, legal_witness (by decide +kernel), by decide +kernel, by decide +kernel, by decide +kernel, by decide +kernel,
   (by decide +kernel : (State.moves _ _).2.2 = true), by decide +kernel⟩

def indexed : Queues := { qx0 := [{ data := 5, mask := 3, eng := .V, seq := 7 }], qd1 := [{ data := 9, mask := 1, eng := .V, seq := 7 }] }

def onA : State := on' .A { core0 with g := [(1, win), (17, 64), (30, 2)], q := indexed }

theorem witness_AddressArithmetic :
    (∃ r w, AccessReady onA (.gadd (still (nw 0 0 31 1 17 0x3FF 0 0))) r w ∧ TokensReady onA (bitMoves .A w) ∧ (addressResult (onA.gOf r w 0) (onA.gOf r w 1) (.gadd w)).isSome = true) ∧
    (∃ r w, AccessReady onA (.gmovx (still (nw 0 0 0 0x306 0x3FF 63 0 0))) r w ∧ TokensReady onA (bitMoves .A w) ∧ (onA.head 0x306).elim false (fun h => !h.bad) = true) ∧
    (∃ r w, AccessReady onA (.gcmp (still (nw 0 0 15 1 17 5 0 0))) r w ∧ TokensReady onA (bitMoves .A w) ∧ true = true) :=
  ⟨access_witness (by decide +kernel), access_witness (by decide +kernel), access_witness (P := fun _ _ => true) (by decide +kernel)⟩

/-- ALD from a window and ALDS from the scratchpad, into a queue with room. -/
theorem witness_EngineLoads :
    (∃ r w, AccessReady onA (.ald (.nat (still (nw 0 0 0x303 1 0x3FF 0x3FF 0 0)))) r w ∧ TokensReady onA (bitMoves .A w) ∧
      (decide ((onA.shp 0).getLsbD 58 = false ∧ shpClass (onA.shp 0) = 1) && (onA.me.room w.dst.toNat && accOk (loadA onA true (onA.gOf r w 0 + onA.gOf r w 1).toNat 256 4) (fun _ _ => true))) = true) ∧
    (∃ r w, AccessReady onA (.alds (.nat (still (nw 0 0 0x300 17 30 0x3FF 0 0)))) r w ∧ TokensReady onA (bitMoves .A w) ∧
      (decide (byteLen 0 (onA.elems 32) = 256) && accOk (loadA onA false 1024 256 4) (fun _ _ => true)) = true) :=
  ⟨access_witness (by decide +kernel), access_witness (by decide +kernel)⟩

/-- ALDX of one row, ANEST of four entries, and VFILL of two. -/
theorem witness_EngineLoads_parts :
    (∃ r w, AccessReady onA (.aldx (still (nw 0 0 0x300 1 17 2 0 0))) r w ∧ TokensReady onA (bitMoves .A w) ∧ ((onA.head 0x306).elim false (fun h => !h.bad &&
      onward (partsFrom (fun t k => gatherRow t 0x300 (win + BitVec.ofNat 64 (contOf h k) * 64).toNat 256 k) 2 64 onA.prog onA) (fun _ => true))) = true) ∧
    (let s : State := on' .A { core0 with g := [(1, win), (2, 1), (17, 0x20002), (18, 256), (19, 512)] }
     (∃ r w, AccessReady s (.anest (still (nw 0 0 0x300 1 17 0 0 0))) r w ∧ TokensReady s (bitMoves .A w) ∧
       onward (partsFrom (fun t k => loadPush t true 0x300 (win + BitVec.ofNat 64 (k / 2) * 512 + BitVec.ofNat 64 (k % 2) * 256).toNat 256 4 k) 4 4095 s.prog s) (fun _ => true) = true) ∧
     (∃ r w, AccessReady s (.vfill (.nat (still (nw 0 0 0x300 1 0x3FF 2 0 0)))) r w ∧ TokensReady s (bitMoves .A w) ∧
       onward (partsFrom (fun t k => loadPush t true 0x300 (win + BitVec.ofNat 64 (256 * k)).toNat 256 8 k) 2 1023 s.prog s) (fun _ => true) = true)) :=
  ⟨access_witness (by decide +kernel), access_witness (by decide +kernel), access_witness (by decide +kernel)⟩

/-- PWLD at the last doubleword of a window, behind its end, and of a window that is not there; LDACQ. -/
theorem witness_EngineLoads_words : let s : State := on' .A { core0 with g := [(1, win)], wsize := [(7, 16)], wbase := [(7, win)] }
    (∃ r w, AccessReady s (.pwld (.nat (still (nw 0 0 3 31 0 8 0 0)))) r w ∧ TokensReady s (bitMoves .A w) ∧
      (isG w.dst && accOk (loadA s true (s.me.wbaseAt 7 + 8) 8 1) (fun _ _ => true)) = true) ∧
    s.me.wsizeAt 7 = 16 ∧ s.me.wsizeAt 0 = 0 ∧ 16 < 16 + 8 ∧
    (∃ r w, AccessReady s (.pwld (.nat (still (nw 0 0 3 31 0 16 0 0)))) r w ∧ TokensReady s (bitMoves .A w) ∧ (isG w.dst && decide (s.me.wsizeAt 7 < w.b.toNat * 1024 + w.c.toNat + 8)) = true) ∧
    (∃ r w, AccessReady s (.pwld (.nat (still (nw 0 0 0x300 24 0 0 0 0)))) r w ∧ TokensReady s (bitMoves .A w) ∧ s.me.room w.dst.toNat = true) ∧
    (∃ r w, AccessReady s (.apref (.nat (still (nw 0 0 0x3FF 1 1 0x3FF 0 0)))) r w ∧ TokensReady s (bitMoves .A w) ∧ true = true) ∧
    (∃ r w, AccessReady s (.ldacq (.nat (still (nw 0 0 3 1 0x3FF 4 0 0)))) r w ∧ TokensReady s (bitMoves .A w) ∧ accOk (loadA s true (s.gOf r w 0).toNat 8 8) (fun _ _ => true) = true) :=
  ⟨access_witness (by decide +kernel), by decide +kernel, by decide +kernel, by decide, access_witness (by decide +kernel),
   access_witness (by decide +kernel), access_witness (P := fun _ _ => true) (by decide +kernel), access_witness (by decide +kernel)⟩

/-- AST and ASTS whose entry is there, and one of each whose entry is not; STREL. -/
theorem witness_EngineStores :
    (∃ r w, AccessReady onA (.ast (.nat (still (nw 0 0 0x3FF 1 17 0x305 0 0)))) r w ∧ TokensReady onA (bitMoves .A w) ∧
      (onA.me.astores.isEmpty && ((onA.pop w.c.toNat).elim false (fun x => !x.2.bad && accOk (storeA x.1 true (onA.gOf r w 0 + onA.gOf r w 1).toNat 0 64 x.2) (fun _ _ => true)))) = true) ∧
    (∃ r w, AccessReady onA (.asts (.nat (still (nw 0 0 0x3FF 17 0x3FF 0x304 0 0)))) r w ∧ TokensReady onA (bitMoves .A w) ∧
      ((onA.pop w.c.toNat).isNone && (addrBad onA false 64 256 4).isNone) = true) ∧
    (∃ r w, AccessReady onA (.strel (.nat (still (nw 0 0 0x3FF 1 17 4 0 0)))) r w ∧ TokensReady onA (bitMoves .A w) ∧
      (onA.me.astores.isEmpty && ((addrBad onA true win.toNat 8 8).isNone && accOk (virtPut onA .A true win.toNat ((leBytes 8 64).map some)) (fun _ _ => true))) = true) :=
  ⟨access_witness (by decide +kernel), access_witness (by decide +kernel), access_witness (by decide +kernel)⟩

/-- ASTX with its entry and, while another store waits, without; VSPILL at VSLIM, of an entry that is there and of one that is not, and below it; a store of A whose entry has come, and a store of the control core's buffer. -/
theorem witness_EngineStores_parts :
    (∃ r w, AccessReady onA (.astx (still (nw 0 0 0x3FF 1 17 0x305 0 0))) r w ∧ TokensReady onA (bitMoves .A w) ∧
      (onA.me.astores.isEmpty && ((onA.pop 0x306).elim false (fun x => !x.2.bad && ((x.1.pop 0x305).elim false (fun y => !y.2.bad &&
        accOk (scatterA y.1 (onA.elems 32) ((List.range 64).map (fun c => (strided win (contOf x.2 c) 64).toNat)) y.2) (fun _ _ => true)) && (x.1.pop 0x304).isNone)))) = true) ∧
    (let s (l : Word) : State := on' .A { core0 with g := [(1, win)], vslim := l, q := indexed }
     (∃ r w, AccessReady (s win) (.vspill (.nat (still (nw 0 0 0x3FF 1 0x305 1 0 0)))) r w ∧ TokensReady (s win) (bitMoves .A w) ∧
       (decide ((s win).me.vslim.toNat ≤ win.toNat) && ((spillFault (s win) win 1).isNone &&
         ([0x305, 0x304].all (fun q => onward (partsFrom (fun t k => storeOrKeep t t { q := q, addr := win + BitVec.ofNat 64 (256 * k), ty := 0, e := 64, va := true, seq := 7, whole := true } k)
           1 1023 0 (s win)) (fun _ => true))))) = true) ∧ (s win).prog = 0 ∧
     win.toNat < (s (win + 1)).me.vslim.toNat) ∧
    (let p : AStore := { q := 0x305, addr := 64, ty := 0, e := 1, va := false, seq := 7 }
     let s := onA.updMe (fun c => { c with astores := [p], sbuf := [{ addr := 0x100, data := [1] }] })
     s.me.fwait ++ s.me.fbuf = [] ∧ s.me.astores = p :: [] ∧ ((({ s with cur := { s.cur with eng := .A, seq := p.seq, entry := false } } : State).pop p.q).elim false
       (fun x => accOk (p.make x.1 x.2) (fun _ _ => true))) = true ∧ s.me.sbuf ≠ [] ∧
     (let f : FRec := { va := 0, gen := 0, level := 0, acc := 1, eng := .A, seq := 7, prog := 0, eaddr := 0 }
      (s.updMe (fun c => { c with fwait := [f] })).me.fwait = [f] ∧ f.eng = .A ∧ f.acc = 1)) :=
  ⟨access_witness (by decide +kernel), ⟨access_witness (by decide +kernel), by decide +kernel⟩, by decide +kernel⟩

def granted (q : Word) : State := onA.updMe (fun c => { c with cmds := [{ command .A with cap := { shp := [(0, q)] } }] })

def vectorMoves : List Instr :=
  [.ald (.nat (still (nw 0 0 0x303 1 0x3FF 0x3FF 0 0))), .alds (.nat (still (nw 0 0 0x300 17 30 0x3FF 0 0))), .aldx (still (nw 0 0 0x300 1 17 2 0 0)),
   .anest (still (nw 0 0 0x300 1 17 0 0 0)), .ast (.nat (still (nw 0 0 0x3FF 1 17 0x305 0 0))), .asts (.nat (still (nw 0 0 0x3FF 17 0x3FF 0x304 0 0))),
   .astx (still (nw 0 0 0x3FF 1 17 0x305 0 0))]

/-- Each vector load and store under a grant that has changed, and under one of no class. -/
theorem witness_EngineStores_grant :
    (((granted 0x0410000000000040).shp 0).getLsbD 58 = true ∧ ((granted 0).shp 0).getLsbD 58 = false ∧ shpClass ((granted 0).shp 0) ≠ 1) ∧
    vectorMoves.all (fun i => lineOk i (granted 0x0410000000000040) (fun _ w => (granted 0x0410000000000040).guardHolds w)) = true ∧
    vectorMoves.all (fun i => lineOk i (granted 0) (fun _ w => (granted 0).guardHolds w)) = true := by decide +kernel

/-- The last word of the job's last window, on another core than its own. -/
theorem witness_EngineAtomics : let s : State := on' .A { core0 with g := [(1, win + 4 * 262144 - 4), (17, 5)] }
    s.isTent = false ∧ s.me.astores = [] ∧ s.behindStore true (win + 4 * 262144 - 4).toNat 4 = false ∧ (win + 4 * 262144 - 4).toNat % 4 = 0 ∧
    (win + 4 * 262144 - 4).toNat + 4 ≤ 2 ^ 55 ∧ windowOf (win + 4 * 262144 - 4).toNat = some (3, 262140) ∧ s.windowOk 0 3 = true ∧
    (firstEarly s).elim false (fun s1 => !s1.accPoison 3 262140 4 && onward (addWrite s1 3 262140 4) (fun _ => true)) = true ∧
    ∃ r w, AccessReady s (atomWord (.nat (still (nw 8 0 3 1 17 20 0 0))) .add) r w ∧ TokensReady s (bitMoves .A w) ∧ true = true :=
  ⟨by decide +kernel, by decide +kernel, by decide +kernel, by decide +kernel, by decide +kernel, by decide +kernel, by decide +kernel, by decide +kernel,
   access_witness (P := fun _ _ => true) (by decide +kernel)⟩

def ring0 : Ring := { en := true, size2 := 8, base := 0x100, head := 248, tail := 248, clm := 248 }

def onRing (r : Ring) : State :=
  { on' .A { core0 with g := [(1, 8), (17, 0)] } with cluster := [(0, { ring := [(63, r)] })] }

/-- RCLAIM whose record just crosses the wrap point, and one that just fits; RSKIP at position 0 and elsewhere. -/
theorem witness_RingWords :
    let s := onRing ring0
    (∃ r w, AccessReady s (.rclaim (.nat (still (nw 0 0 3 1 0x3FF 63 0 0)))) r w ∧ TokensReady s (bitMoves .A w) ∧
      (s.hasRing 63 && (!s.isTent && (touchRing s 63).elim false (fun t => decide (256 < (t.ring 63).clm.toNat % 256 + 16)))) = true) ∧
    (touchRing s 63).isSome = true ∧ (ringEarly s 63).isSome = true ∧ 248 % 256 + 8 ≤ 2 ^ ring0.size2.toNat ∧ ring0.clm.toNat % 256 ≠ 0 ∧
    ({ ring0 with clm := 256 } : Ring).clm.toNat % 256 = 0 ∧ 0 + (256 - 248) ≤ 256 :=
  ⟨access_witness (by decide +kernel), by decide +kernel⟩

/-- RCLAIM and RWFREE with room for eight bytes and their header. -/
theorem witness_RingWords_room :
    let s := onRing { ring0 with head := 0, tail := 0, clm := 0 }
    (∃ r w, AccessReady s (.rclaim (.nat (still (nw 0 0 3 1 0x3FF 63 0 0)))) r w ∧ TokensReady s (bitMoves .A w) ∧
      (s.hasRing 63 && (!s.isTent && (touchRing s 63).elim false (fun t => decide (0 + 16 ≤ 2 ^ (t.ring 63).size2.toNat ∧ ((t.ring 63).clm - (t.ring 63).head).toNat + 16 ≤ 256 ∧
        (t.ring 63).claims.length < 8)))) = true) ∧
    (∃ r w, AccessReady s (.rwfree (.nat (still (nw 0 0 0x3FF 1 0x3FF 63 0 0)))) r w ∧ TokensReady s (bitMoves .A w) ∧ decide ((s.gOf r w 0).toNat ≤ 256 - 0) = true) ∧
    ({ ring0 with claims := [{ pos := 0, len := 0, core := 0, size := 8, pub := true }] } : Ring).claims.takeWhile (·.pub) ≠ [] :=
  ⟨access_witness (by decide +kernel), access_witness (by decide +kernel), by decide +kernel⟩

/-- A claim that RPUB publishes, and a record that RWFILL answers and RCONS frees. -/
theorem witness_RingWords_records :
    let s := onRing { ring0 with head := 0, tail := 16, clm := 32, claims := [{ pos := 16, len := 8, core := 0, size := 16 }], filled := some 16 }
    (let g : State := s.updMe (fun c => { c with g := [(1, 0x118), (17, 5)] })
     ∃ r w, AccessReady g (.rpub (.nat (still (nw 0 0 0x3FF 1 17 63 0 0)))) r w ∧ TokensReady g (bitMoves .A w) ∧
       ((touchRing g 63).elim false (fun t => ((t.ring 63).claims.find? (fun c => c.core = 0 && !c.pub && (t.ring 63).base.toNat + c.pos + 8 = (g.gOf r w 0).toNat)).isSome && (ringEarly t 63).isSome)) = true) ∧
    (∃ r w, AccessReady s (.rwfill (.nat (still (nw 0 0 6 0x3FF 0x3FF 63 0 0)))) r w ∧ TokensReady s (bitMoves .A w) ∧
      (decide (8 ≤ ((s.ring 63).tail - (s.ring 63).head).toNat) && (decide (fld (headerAt s 63 (s.ring 63).head) 32 8 ≠ 1) && (!(s.ring 63).shared && !readsPoison s.me s.myCluster 0x100 8))) = true) ∧
    (∃ r w, AccessReady s (.rcons (.nat (still (nw 0 0 0x3FF 0x3FF 0x3FF 63 0 0)))) r w ∧ TokensReady s (bitMoves .A w) ∧
      (s.me.astores.isEmpty && (touchRing s 63).elim false (fun t => (t.ring 63).filled.isSome && (ringEarly t 63).isSome)) = true) ∧
    (s.ring 63).filled = some 16 ∧ (s.gOf ⟨eA, 0, t0, .unused, .g, .unused, .unused, true, .ctl, false⟩ (nw 0 0 0 1 0 0 0 0) 0).toNat ≤ 2 ^ (s.ring 63).size2.toNat - 32 :=
  ⟨access_witness (by decide +kernel), access_witness (by decide +kernel), access_witness (by decide +kernel), by decide +kernel⟩

def onM : State := on' .M { core0 with bufF := { tag := 0 }, v := [(17, 0)] }

/-- Each immediate word of M, with shapes that stand. -/
theorem witness_ImmediateMatrixWords :
    (∃ r w, MatrixReady onM (.mzero (.nat (still (nw 0 0 2 0x3FF 0x3FF 0x3FF 0 1)))) r w ∧ TokensReady onM (bitMoves .M w) ∧ decide ((onM.shp 1).getLsbD 58 = false) = true) ∧
    (∃ r w, MatrixReady onM (.mtrans (.nat (still (nw 0 0 0x3FF 0x3FF 0x3FF 10 0 1)))) r w ∧ TokensReady onM (bitMoves .M w) ∧ true = true) ∧
    (∃ r w, MatrixReady onM (.accld (.nat (still (nw 0 0 3 63 0x3FF 3 0 1)))) r w ∧ TokensReady onM (bitMoves .M w) ∧ (decide (w.c.toNat / 4 % 4 = 0) && !onM.isTent) = true) ∧
    (∃ r w, MatrixReady onM (.mpstat (.nat (still (nw 0 0 3 0x3FF 0x3FF 1 0 1)))) r w ∧ TokensReady onM (bitMoves .M w) ∧ true = true) ∧
    (∃ r w, MatrixReady onM (.mprom (.nat (still (nw 0 0 0x3FF 0x3FF 0x3FF 0 0 1)))) r w ∧ TokensReady onM (bitMoves .M w) ∧ true = true) ∧
    MatrixGrant onM ∧ PolyGrant onM 0 ∧ GrantStands onM 2 3 ∧ ((onM.me.bufAt 2).bad = false ∧ drainBad onM 1 63 = none ∧ fmtOf 0 = some fp32 ∧ (onM.me.bankAt 0).bad = false) :=
  ⟨matrix_witness (by decide +kernel), matrix_witness (P := fun _ _ => true) (by decide +kernel), matrix_witness (by decide +kernel),
   matrix_witness (P := fun _ _ => true) (by decide +kernel), matrix_witness (P := fun _ _ => true) (by decide +kernel),
   by unfold MatrixGrant PolyGrant GrantStands; decide +kernel⟩

/-- MPROM of a bank whose one active cell is finite, infinite, or not active; ACCLD to accumulator SRAM. -/
theorem witness_ImmediateMatrixWords_ovf :
    let act : List (Nat × Nat) := [(0, 0)]
    let y (v : Nat) : Nat := (promotedAt fp32 0 5 0 0xFE00 0 0 v).1
    let s : State := onM.updMe (fun c => { c with cmds := [{ command .M with cap := { shp := [(1, 0x0021000800080008), (2, 0x0030000000010008)], shq := [(2, 0x0030000000000001)] } }], mc0 := { cells := [(0, 0x7F800000), (1, 0x7F800000)] } })
    s.polyN = 1 ∧ (s.me.bankAt 0).cell 0 0 = 0x7F800000 ∧ act.any (fun _ => !finite (decodeF fp32 (y 0x7F800000))) = true ∧ act.any (fun _ => !finite (decodeF fp32 (y 0x3F800000))) = false ∧
    (((List.range 64).flatMap (fun i => (List.range 64).map (fun j => (i, j)))).filter (fun p => 64 * 0 + p.1 < s.polyN && 64 * 0 + p.2 < s.polyN)) = act ∧
    lineOk (.accld (.nat (still (nw 0 0 3 63 0x3FF 7 0 1)))) onM (fun _ w => !shadowReadM onM (.accld (.nat w)) && decide (w.c.toNat / 4 % 4 ≠ 0)) = true ∧
    (drainBad s 1 63 = none ∧ s.isTent = false) := by decide +kernel

/-- An entry of indexes in qa0. -/
def onMq : State := { onM with core := onM.core.map (fun x => (x.1, { x.2 with q := { qa0 := [{}] } })) }

/-- A word of portable code whose index entries stand in registers from v3 on. -/
def onMs : State := { onM with core := onM.core.map (fun x => (x.1, { x.2 with cmds := x.2.cmds.map (fun m => { m with strm := some 3 }) })) }

/-- A load of the left buffer, a product of two vector operands, and a sparse one whose index entries come from a queue and from registers. -/
theorem witness_LoadsAndProducts :
    (∃ r w, MatrixReady onM (.mlds (.nat (still (nw 1 0 0x3FF 17 0x3FF 0 0 1)))) r w ∧ TokensReady onM (bitMoves .M w) ∧
      (decide (onM.kk ≤ 64) && (match opndOf onM true (w.c.toNat % 4) 0 w.ty.toNat onM.ma onM.na onM.kk w.a with
        | .ok (s1, x) => onward (startWork s1 (loadWorkOf onM (.mlds (.nat w)) true w x)) (fun _ => true)
        | .error _ => false)) = true) ∧
    (∃ r w, MatrixReady onM (.mma (.nat (still (nw 1 0 1 17 40 0 0 1)))) r w ∧ TokensReady onM (bitMoves .M w) ∧
      (match planMma onM w false with
        | .ok (s1, p) => onward (startWork s1 (productWorkOf onM (.mma (.nat w)) false w p)) (fun _ => true)
        | .error _ => false) = true) ∧
    (∃ r w, MatrixReady onMq (.mmas (.nat (still (nw 1 0 1 17 40 0 0 1)))) r w ∧ TokensReady onMq (bitMoves .M w) ∧
      (decide (onMq.cmd.bind (·.strm) = none) && (match planMma onMq w true with
        | .ok (s1, p) => onward (startWork s1 (productWorkOf onMq (.mmas (.nat w)) true w p)) (fun _ => true)
        | .error _ => false)) = true) ∧
    (∃ r w, MatrixReady onMs (.mmas (.nat (still (nw 1 0 1 17 40 0 0 1)))) r w ∧ TokensReady onMs (bitMoves .M w) ∧
      (decide (onMs.cmd.bind (·.strm) = some 3) && (match planMma onMs w true with
        | .ok (s1, p) => (match regOpnd s1 { fmt := 0 } 3 p.nx with
          | .ok (s3, x) => onward (startWork s3 { productWorkOf onMs (.mmas (.nat w)) true w p with opX := x.es }) (fun _ => true)
          | .error _ => false)
        | .error _ => false)) = true) :=
  ⟨matrix_witness (by decide +kernel), matrix_witness (by decide +kernel), matrix_witness (by decide +kernel), matrix_witness (by decide +kernel)⟩

/-- A load of each buffer from registers, which pops nothing. -/
theorem witness_LoadsAndProducts_buffer :
    let w := nw 1 0 0x3FF 17 0x3FF 0 0 1
    ∀ i ∈ [Instr.mlds (.nat w), .mldf (.nat w), .mldg (.nat w)],
      let m : MWork := { i := i, line := 0, slot := 0, seq := 7, array := false, t := 3, o := 1, due := 5 }
      m.pops = [] ∧ m.i = i := by decide +kernel

/-- One row by one column of four INT8 products, in one group. -/
theorem witness_IntegerProducts : let o : Opnd := { fmt := 10, es := [] }
    o.st = none ∧ Fmode.sat onM.fmode = false ∧ (match product onM {} 1 1 4 o o [0x81FF] [0x0203] [] false with
      | .ok _ => true
      | .error _ => false) = true := by decide +kernel

def rowsOk (r : Except Machine.Acc (State × List (List (Machine.Num × Flags)))) (f : State → Bool) : Bool :=
  match r with
  | .ok x => f x.1
  | .error _ => false

/-- One row by one column of four BF16 products, dense and sparse, on an operand of registers and on a stream without scales. -/
theorem witness_FloatingProducts : let o : Opnd := { fmt := 1, es := [] }
    FloatingOpnd o ∧ FloatingOpnd { fmt := 3, st := some (3, 0), es := [] } ∧
    ∀ sparse ∈ [false, true],
      rowsOk (sideRows onM o [0x3F803F803F803F80] (if sparse then 2 else 4) (List.range 1)) (fun s1 => rowsOk (sideRows s1 o [0x4000400040004000] 4 (List.range 1)) (fun _ => true)) = true ∧
      (match product onM {} 1 1 4 o o [0x3F803F803F803F80] [0x4000400040004000] [0x4] sparse with
        | .ok _ => true
        | .error _ => false) = true :=
  ⟨by unfold FloatingOpnd; decide, by unfold FloatingOpnd; decide +kernel, by decide +kernel⟩

def polyM : State := { on' .M { core0 with bufF := { tag := 0 }, v := [(17, 0)] } with cur := { lcore := 0, eng := .M, seq := 7, line := 0x100, slot := 0 } }

/-- MPOLY with its control value in v17 and one coefficient at the scratchpad's start, on a core that is not ganged. -/
theorem witness_PolynomialWords : let s := polyM
    let w := still (nw 0 0 0x3FF 17 0x3FF 0 0 1)
    (∃ r w', MatrixReady s (.mpoly (.nat w)) r w' ∧ TokensReady s (bitMoves .M w') ∧ (decide (s.operandBad r w' = none) && !s.readBad (.mpoly (.nat w))) = true) ∧ PolyGrant s 0 ∧ s.me.bufF.tag = 0 ∧
    (match polyCtl s w with
      | some (s1, ctl) => fld ctl 0 2 = 0 && accOk (polyCoefs s1 (w.c.toNat % 4) ctl) (fun _ _ => true)
      | none => false) = true ∧ s.me.gangdone = false ∧ s.ganged = false ∧ onward (polyAll s [0] 0 (.mpoly (.nat w)) w false 0 0 [0]) (fun _ => true) = true :=
  ⟨matrix_witness (by decide +kernel), by unfold PolyGrant GrantStands; decide +kernel⟩

/-- A promotion of a mirrored array whose copy an upset has changed; MPOLYT; and a member whose results another has formed. -/
theorem witness_PolynomialWords_mirror :
    let w := still (nw 0 0 0x3FF 17 0x3FF 0 0 1)
    let s : State := { polyM with core := [(0, { polyM.me with mirHits := [(0, 1, 2)], cmds := [{ command .M with cap := { shp := [(2, 0x0230000000010008)], shq := [(2, 0x0030000000000008)], fmode := 0x40 } }] })] }
    (s.mirrorsPoly = true ∧ (polyEnd s [0] 0 w 1 0 [0]).miss = some (1, 0, 2)) ∧
    lineOk (.mpolyT (.nat w)) polyM (fun _ _ => !shadowReadM polyM (.mpolyT (.nat w)) && !mIdle polyM.me (.mpolyT (.nat w))) = true ∧
    (polyM.updMe (fun c => { c with gangdone := true })).me.gangdone = true := by decide +kernel

/-- A core alone, and a gang of four whose commands captured one FMODE, SRSEED and order. -/
theorem witness_PolynomialValues :
    let w := still (nw 0 0 0x3FF 17 0x3FF 0 0 1)
    let c : Core := { core0 with gang := 1, bufF := { tag := 0 }, cmds := [{ command .M with cap := { shp := [(2, 0x0030000000020010)], shq := [(2, 0x0030000000000002)] } }] }
    let g : State := { polyM with core := [(0, c), (1, c), (2, c), (3, c)] }
    (w.ty.toNat ≤ 4 ∧ w.c.toNat < 4 ∧ fmtOf 0 = some fp32 ∧ [polyM.cur.lcore] = [0]) ∧ onward (polyAll polyM [0] 0 (.mpoly (.nat w)) w false 0 0 [0]) (fun _ => true) = true ∧
    (∀ l ∈ gangOf 1 0, let t := if l = g.cur.lcore then g else g.asMember l
      t.fmode = g.fmode ∧ t.cap.srseed = g.cap.srseed ∧ t.polyN = g.polyN) ∧ onward (polyAll g (gangOf 1 0) 1 (.mpoly (.nat w)) w false 0 0 [0]) (fun _ => true) = true := by decide +kernel

def sameKey : Option (Bool × Nat × Nat × Nat × Nat × List Nat) → Option (Bool × Nat × Nat × Nat × Nat × List Nat) → Bool
  | some (a, b, c, d, e, f), some (a', b', c', d', e', f') => a == a' && b == b' && c == c' && d == d' && e == e' && f == f'
  | _, _ => false

/-- The same in a gang of four, whose other members have come, and on a member for which the last has formed the results. -/
theorem witness_PolynomialWords_gang : let w := still (nw 0 0 0x3FF 17 0x3FF 0 0 1)
    let i : Instr := .mpoly (.nat w)
    let c : Core := { core0 with gang := 1, bufF := { tag := 0 }, v := [(17, 0)], cmds := [{ command .M with cap := { shp := [(2, 0x0030000000020010)] } }] }
    let s : State := { polyM with core := [(0, c), (1, { c with gangword := some (i, 0, 0) }), (2, { c with gangword := some (i, 0, 0) }), (3, { c with gangword := some (i, 0, 0) })] }
    (s.ganged && ((gangOf 1 0).all (fun l => l == 0 || ((s.coreAt l).gangword.isSome && sameKey (agreeKey (s.asMember l) i 0) (agreeKey s i 0))) &&
      ((agreeKey s i 0).isSome && (gangCommit s (gangOf 1 0)).isSome))) = true := by decide +kernel

/-- MGANG for a side of four cores where the other three wait, a code above 2, and one that the launch does not carry. -/
theorem witness_BarriersGangsAndNests : PortReady (.mgangControl (pw 0 0 0 17 0 0 3)) (pw 0 0 0 17 0 0 3) ∧
    (let s (v : Word) : State := { ctl (withX v 0 idle0) with core := [(0, withX v 0 idle0), (1, { idle0 with gangask := some 1 }), (2, { idle0 with gangask := some 1 }), (3, { idle0 with gangask := some 1 })] }
     (s 3).me.gangans = none ∧ 3 ≤ ((s 3).x 17).toNat ∧ ((s 2).launch.map (·.gang)).getD 0 ≠ 2 ∧ ((s 1).launch.map (·.gang)).getD 0 = 1 ∧
       (∀ n ∈ gangOf 1 0, n ≠ 0 → ((s 1).coreAt n).gangask = some 1)) ∧
    (ctl { idle0 with gangans := some 2 }).me.gangans = some 2 :=
  ⟨portOk_ready (by decide +kernel), by decide +kernel⟩

/-- Native MNWAIT, and MGANG alone and in a gang that has come; a nest of one step. -/
theorem witness_BarriersGangsAndNests_native :
    (∃ r w, Legal onM (.mnwait (still (nw 0 0 0x3FF 0x3FF 0x3FF 0x3FF 0 0))) r w ∧ (tokensOk onM (bitMoves .M w) && decide (∀ m ∈ onM.me.mwork, onM.me.vcycle ≤ m.t)) = true) ∧
    (∃ r w, Legal onM (.mgang (still (nw 0 0 0x3FF 0x3FF 0x3FF 0x3FF 0 0))) r w ∧ tokensOk onM (bitMoves .M w) = true) ∧ onM.me.gang = 0 ∧
    (let c : Core := { core0 with gang := 1 }
     let s : State := { onM with core := [(0, c), (1, { c with gangord := 1 }), (2, { c with gangord := 1 }), (3, { c with gangord := 1 })] }
     s.me.gang ≠ 0 ∧ ∀ l ∈ (gangOf s.me.gang 0).filter (fun l => l ≠ 0), (s.coreAt l).reached (s.me.gangord.toNat + 1) = true) ∧
    (let m : Cmd := { command .M with cap := { (command .M).cap with nest := some ((List.range 6).map (fun l => (1 + l, 1))) } }
     let s := onM.updMe (fun c => { c with cmds := [m] })
     s.cmd = some m ∧ m.st = .running ∧ ((s.tab 0).getLsbD 4 = true → s.isTent = false) ∧ (match nestLoad s s.nestAt with
       | .ok (s1, n1) => (match nestArray s1 n1 with
         | .ok _ => true
         | .error _ => false)
       | .error _ => false) = true) ∧ MatrixGrant onM :=
  ⟨legal_witness (by decide +kernel), legal_witness (by decide +kernel), by decide +kernel, by decide +kernel, by decide +kernel,
   by unfold MatrixGrant GrantStands; decide +kernel⟩

/-! ## Commands, phases and speculation -/

/-- Core 0 with one command of engine X. -/
def onX (f : Frame) (st : CmdSt) (c : Core) : State :=
  { ctl { c with cmds := [{ frame := f, seq := 7, st := st }] } with cur := { lcore := 0, eng := .X, seq := 7 } }

def started (s : State) (f : State → Bool) : Bool := onward (start s) f

/-- A SIGNAL, a LINK and a SELFTEST that start, and a COPY that starts without a predecessor. -/
theorem witness_SingleStepCommands : let c : Core := { idle0 with ph := { run := 1 } }
    ([0x307, 0x308, 0x309, 0x30A, 0x302] : List Word).all (fun k => started (onX { dw0 := k } .queued c) (fun _ => true) &&
      (decide ((onX { dw0 := k } .queued c).itemSt = some .queued) && !(onX { dw0 := k } .queued c).cur.entry)) = true := by decide +kernel

theorem witness_SingleStepCommands_code : let s := { on' .A core0 with core := [(0, { core0 with cmds := [{ command .A with st := .queued }] })] }
    started s (fun _ => true) = true ∧ s.itemSt = some .queued ∧ s.ln.trap = none ∧ s.ln.st ≠ .trapped ∧ s.cmd.bind (·.cap.nest) = none ∧
    (let t : State := { on' .A core0 with core := [(0, { core0 with cmds := [{ command .A with st := .queued }], lineA := { st := .trapped } })] }
     started t (fun _ => true) = true ∧ t.ln.st = .trapped) ∧
    (let n := { on' .M core0 with core := [(0, { core0 with cmds := [{ command .M with st := .queued, cap := { nest := some [] } }] })] }
     started n (fun _ => true) = true ∧ n.itemSt = some .queued ∧ n.ln.trap = none ∧ n.ln.st ≠ .trapped ∧ n.cmd.bind (·.cap.nest) ≠ none) := by decide +kernel

/-- A SELFTEST of a die on which no test waits, of a cluster that is free and of its own, which is not. -/
theorem witness_SingleStepCommands_test : let s (w : Word) := onX { dw0 := 0x30A, dw10 := w } .queued { idle0 with ph := { run := 1 } }
    let waits (w : Word) (s1 : State) : State :=
      let t : Test := { lcore := some 0, unit := (s w).me.unit.map (fun u => (u.launch, u.idx)), seq := 7, req := none, job := ((s w).me.unit.map (·.job)).getD 0, dw10 := w, dw11 := 0 }
      s1.setDie 0 { s1.dieAt 0 with lamp := (s1.dieAt 0).lamp ++ [t] }
    started (s 0x103) (fun s1 => (s1.dieAt 0).lamp.isEmpty && (beginTest (waits 0x103 s1) 0).isSome) = true ∧
    started (s 0x100) (fun s1 => (s1.dieAt 0).lamp.isEmpty && (beginTest (waits 0x100 s1) 0).isNone) = true ∧ (s 0x103).me.ph.stage = .run := by decide +kernel

/-- A COPY of two rows from one window to another, the last eight bytes of the job's windows among them. -/
theorem witness_Transfers : let f : Frame := { dw0 := 0x302, dw6 := 0x0001000100020008, dw10 := win, dw11 := win + 4 * 262144 - 16 }
    let s := onX f .queued { idle0 with ph := { run := 1 } }
    (.copy f ∈ transferOf f) ∧ s.me.stopped .X s.cur.seq = false ∧ started s (fun s1 => (rowsDone f (rowsOf f - s1.itemRows) s1.itemRows s1).isSome) = true ∧
    (f.kind = 2 ∧ f.rop = 0 ∧ f.ssp = false ∧ f.dsp = false) ∧
    accOk (virtRead s .X (f.dw10 + BitVec.ofInt 64 (rowOffset f false 1)).toNat (f.dim 0)) (fun s1 bs =>
      accOk (virtWrite s1 .X (f.dw11 + BitVec.ofInt 64 (rowOffset f true 1)).toNat (bs.map some)) (fun _ _ => true)) = true := by decide +kernel

/-- A chain whose next frame is a COPY in a window. -/
theorem witness_Transfers_chain : let f : Frame := { dw0 := 0x309, dw10 := win }
    let m : Cmd := { frame := f, seq := 7, st := .running, chain := some { next := some win } }
    let s : State := { ctl { idle0 with cmds := [m], ph := { run := 1 }, acc := storeOf copyFrame } with cur := { lcore := 0, eng := .X, seq := 7 } }
    (s.cmd = some m ∧ m.chain = some { next := some win, cur := none } ∧ s.cur.entry = false ∧ s.me.stopped .X s.cur.seq = false) ∧
    accOk (virtRead s .X win.toNat 128) (fun s1 bs =>
      let g := tolerate s1 (Frame.ofList (wordsOf 16 bs))
      decide (s1.cur = s.cur) && (s1.cmd.isSome && ((enqueueReason s1 g true (g.dw0.getLsbD 14 || Fmode.det s.fmode)).isNone &&
        !overlapBad s1.myCluster (firstPhase s1.me.ph.cmds) (checkedOf g m.seq ((s.me.ph.cmds.filter (fun k => k.seq = m.seq)).foldl (fun x k => max x k.entry) 0 + 1) none)))) = true := by
  decide +kernel

def retiring (f : Frame) (tent : List SpecId) : State :=
  onX f .done { idle0 with ph := { run := 1, back := [(5, { data := 1 })], evSet := 1 } } |>.updMe (fun c => { c with cmds := c.cmds.map (fun m => { m with tent := tent }) })

/-- A command with RES and DCPOST that retires, and a tentative one that is done. -/
theorem witness_RetirementsAndCommits :
    let s : State := { retiring { dw0 := 0x10302, dw5 := 0x83000000, dw4 := 1 } [] with cluster := [(0, { dc := [(3, 1)] })] }
    s.cmd.elim false (fun m => m.tent.isEmpty && (m.ev.isEmpty && (!m.frame.phaseEnd && (m.frame.kind != 10 && (m.frame.res && m.frame.dcpost))))) = true ∧ s.cur.entry = false ∧
    s.me.ph.stage = .run ∧ s.cmd.elim false (fun m => s.me.workDone m && (s.me.postRoom m.frame m.eng && ((match ropEnd s m.frame with
      | .ok s0 _ => decide (dcView s0.me s0.myCluster m.frame.dcn ≠ 0)
      | _ => false) && (logRoom s m.eng).isSome))) = true := by decide +kernel

theorem witness_RetirementsAndCommits_tentative : let m : Cmd := { command .V with tent := [(15, 3)], began := [((15, 3), {})], ended := true }
    let s : State := { on' .V core0 with core := [(0, { core0 with cmds := [m], lineV := { st := .idle, seq := 7 } })] }
    s.cmd = some m ∧ s.me.workDone m = true ∧ m.tent ≠ [] ∧ m.st ≠ .done ∧ m.frame.phaseEnd = false ∧ m.frame.kind ≠ 10 := by decide +kernel

/-- A phase-ending command whose queues are empty, and one that leaves an entry; its retire step; the end of a unit. -/
theorem witness_RetirementsAndCommits_commit :
    let s := (retiring { dw0 := 0x1307, dw4 := 2 } [])
    s.me.ph.stage = .run ∧ commitBy s.me s.isDue = some (7, .X) ∧ s.me.queued = false ∧ s.myCluster.spad.wf = true ∧ s.hbm.wf = true ∧ (s.me.ph.back.map (·.1)).Nodup ∧
    (s.updMe (fun c => { c with q := indexed })).me.queued = true ∧ commitBy (s.updMe (fun c => { c with q := indexed })).me s.isDue = some (7, .X) ∧
    (let t := s.updMe (fun c => { c with ph := { c.ph with stage := .drain 7 .X } })
     t.replPending 0 = false ∧ (t.me.cmdOf .X 7).elim false (fun m => decide (commitRop t m = some t)) = true ∧ t.me.ph.doomed = false ∧ t.me.ph.ending = false ∧ (∀ u ∈ t.me.unit, u.ctlDone = false) ∧
     (∀ m ∈ t.me.cmds, t.me.postRoom m.frame .X = true ∧ m.frame.dcpost = false)) ∧
    (let e := ctl { idle0 with unit := some { aRun with ctlDone := true }, ph := { stage := .drain 0 .X } }
     e.replPending 0 = false ∧ e.me.cmds = [] ∧ e.me.ph.doomed = false ∧ (∃ u ∈ e.me.unit, u.ctlDone = true) ∧ (∀ k ∈ e.me.ph.cmds, k.pend = false)) := by
  decide +kernel

def specFrame : Frame := { dw0 := 0x10008307, dw1 := 3, dw15 := 0xF0 }

def onSpec (nv : BitVec 2) (f : Frame) : State :=
  { ctl { idle0 with seqno := 8, ph := { run := 1 }, cmds := [{ frame := { dw0 := 0x307 }, seq := 3, st := .running }, { frame := f, seq := 7 }] } with
    cur := { lcore := 0 }
    cluster := [(0, { alm := [(15, { live := { (tile (some 0)).live with nv := nv } })] })] }

/-- The entry without a version, and with one; the speculation that is due. -/
theorem witness_Speculations : let s (nv : BitVec 2) := onSpec nv specFrame
    (decider (s 0) 15).elim false (fun m => !entryBusy (s 0).me m 15) = true ∧ ((s 0).alm 15).live.nv = 0 ∧
    (decider (s 1) 15).elim false (fun m => !entryBusy (s 1).me m 15 && !m.frame.opportunistic && decide ((tentAtStart (s 1).me m true).length ≤ 2)) = true ∧ ((s 1).alm 15).live.nv ≠ 0 ∧
    versionPoison (s 1).me (s 1).myCluster ((s 1).alm 15).live = none ∧ copiesPoison (s 1) ((s 1).alm 15).live.pbuf ((s 1).alm 15).live.size = false := by decide +kernel

theorem witness_Speculations_due : let i : SpecId := (15, 3)
    let s : State := { onSpec 1 specFrame with core := [(0, { idle0 with unit := some { aRun with specs := [{ id := i, ran := some true }] }, ph := { run := 1 } })]
                                               cluster := [(0, { alm := [(15, tile (some 0))], dues := [(0, i)] })] }
    s.myCluster.dues = (s.cur.lcore, i) :: [] ∧ copiesPoison s ((s.alm 15).live.slot (s.alm 15).live.nextSlot) (s.alm 15).live.size = false ∧ (∀ m ∈ s.me.cmds, m.st ≠ .done) ∧ (s.alm 15).saved = [] ∧ (∀ k ∈ s.me.cmds, k.seq ≠ i.2) ∧ memberReady s i = false ∧
    resolvePoison s.me s.myCluster (s.alm 15).live (decide ((s.me.spec i).bind (·.ran) = some true)) = none := by decide +kernel

/-! ## The hub -/

def req : Req := { master := 9, id := 77 }

def onHub (h : Hub) : State := { ctl {} with hub := h }

theorem owner_asks (h : Hub) (need : List Nat) (hs : decide ((onHub h).hub.st = .up ∧ (onHub h).conn 9 ≠ none ∧ ∀ b ∈ need, (onHub h).hub.ready.getLsbD b = true) = true)
    (ho : h.own = .owned 9 1000000) : OwnerAsks (onHub h) req need :=
  ⟨⟨(of_decide_eq_true hs).1, (of_decide_eq_true hs).2.1, (of_decide_eq_true hs).2.2⟩, 1000000, ho, (by decide : (0 : Nat) < 1000000)⟩

/-- A message before the scheduler is ready, one of a master that is not the owner, one of no connected master, and one in recovery. -/
theorem witness_OwnersMessages : (∃ need, ownerMessage (.createjob req ⟨0, 0, 4, 0, some 26⟩) = some (req, 0x0020, need) ∧ ∃ b ∈ need, (0 : Word).getLsbD b = false) ∧
    (onHub { aHub with ready := 0 }).conn 9 ≠ none ∧ Admitted (onHub aHub) { req with master := 11 } [43] ∧
    (∀ t, (onHub aHub).hub.own = .owned 11 t → t ≤ (onHub aHub).now) ∧ (onHub aHub).conn 5 = none ∧ (onHub { aHub with st := .recovery }).conn 9 ≠ none :=
  ⟨⟨_, rfl, by decide +kernel⟩, by decide +kernel, by unfold Admitted; decide +kernel, fun t h => by injection h with h1 h2; exact absurd h1 (by decide),
   by decide +kernel⟩

/-- Answers that a connection is owed: the oldest is formed, the next is not. -/
theorem witness_OwnersMessages_answers :
    let a (x : Option Msg) : Answer := { req := req, type := 0x0023, msg := x }
    let s := onHub { aHub with answers := [a (some (replyTo req 0x0023 .ok [])), a none] }
    ((s.hub.answers.filter (fun a => a.req.master = 9)).takeWhile (fun a => a.msg.isSome)) ≠ [] ∧ (s.hub.answers.filter (fun a => a.req.master = 9)).length = 2 := by decide +kernel

theorem witness_StatusAndOwnership : OwnerAsks (onHub aHub) req [46] ∧ Admitted (onHub aHub) req [] ∧ (List.replicate 32 (5 : Byte)).length = 32 ∧
    (readItem (onHub aHub) (.bank 8 13)).isSome = true ∧ readItem (onHub aHub) (.record 1 0) = none ∧ ((onHub aHub).conn 11).isSome = true ∧
    (onHub { aHub with own := .free }).hub.own = .free ∧ (onHub aHub).conn 4 = none :=
  ⟨owner_asks aHub [46] (by decide +kernel) rfl, by unfold Admitted; decide +kernel, by decide +kernel⟩

/-- Claims of a master that may own and of one that may not, of a part that is free, one whose lease has run out, and one that is owned; heirs of
each kind; a renewal in time, late, and of a part that is free. -/
theorem witness_StatusAndOwnership_claims :
    let h : Hub := { aHub with conns := [(9, true, false, none), (12, false, false, none)] }
    let late (own : Own) : State := { onHub { h with own := own } with now := 1000000 }
    Admitted (onHub h) req [46] ∧ Admitted (onHub h) { req with master := 12 } [46] ∧ ((onHub h).conn 9).map (·.2.1) = some true ∧ ((onHub h).conn 12).map (·.2.1) = some false ∧
    (onHub { h with own := .free }).hub.own = .free ∧ (late (.owned 9 1000000)).hub.own = .owned 9 1000000 ∧ (1000000 : Nat) ≤ (late (.owned 9 1000000)).now ∧
    (onHub h).now < 1000000 ∧ Admitted (late (.owned 9 1000000)) req [46] ∧ Admitted (onHub { h with own := .free, lapsed := [9] }) req [46] ∧
    (∀ c, (onHub h).conn 12 = some c → c.2.1 = false) ∧ ((onHub h).conn 4).isNone = true :=
  ⟨by unfold Admitted; decide +kernel, by unfold Admitted; decide +kernel, by decide +kernel, by decide +kernel, by decide +kernel, by decide +kernel, by decide +kernel, by decide +kernel,
   by unfold Admitted; decide +kernel, by unfold Admitted; decide +kernel, by intro c h; injection h with h; subst h; rfl, by decide +kernel⟩

/-- An election with two claims, open and closed; a lease at its end. -/
theorem witness_StatusAndOwnership_election : let cs : List (Req × BitVec 8) := [(req, 5), ({ req with master := 11 }, 5)]
    let s : State := onHub { aHub with own := .elect cs 1 }
    s.hub.own = .elect cs 1 ∧ s.now < 1 ∧ ({ s with now := 1 } : State).now = 1 ∧ cs ≠ [] ∧ ({ onHub aHub with now := 1000000 } : State).hub.own = .owned 9 1000000 := by
  decide +kernel

theorem witness_JobMessages : OwnerAsks (onHub aHub) req [43] ∧ OwnerAsks (onHub aHub) req [1] ∧ OwnerAsks (onHub aHub) req [44] ∧ OwnerAsks (onHub aHub) req [43, 41] ∧
    OwnerAsks (onHub aHub) req (43 :: homeBits (dieOf 0 % 8)) ∧ OwnerAsks (onHub aHub) req (mapBits { va := 0, big := false, len := 65536, kind := 0, repl := true, w := true, home := 0 }) ∧
    attrOk ⟨0, 0, 1152, 11, some 40⟩ = true ∧ attrOk ⟨0, 0, 1152, 11, none⟩ = true ∧ (freeAsid (onHub aHub)).isSome = true ∧ (allocFrame (onHub aHub) 0 1).isSome = true ∧ attrOk ⟨0, 0, 1153, 11, some 40⟩ = false ∧
    ((onHub aHub).openJob 1).isSome = true :=
  ⟨owner_asks aHub _ (by decide +kernel) rfl, owner_asks aHub _ (by decide +kernel) rfl, owner_asks aHub _ (by decide +kernel) rfl, owner_asks aHub _ (by decide +kernel) rfl,
   owner_asks aHub _ (by decide +kernel) rfl, owner_asks aHub _ (by decide +kernel) rfl, by decide +kernel⟩

/-- A job that has ended and whose units have gone; a page to map, the same page once it is mapped, and one to release. -/
theorem witness_JobMessages_pages : let s := onHub aHub
    (let e := onHub { aHub with jobs := [(1, { aJob with ending := some req, ended := true })], launches := [] }
     (e.jobAt 1).map (·.ending) = some (some req) ∧ (∀ l ∈ e.hub.launches, l.2.job = 1 → l.2.live = false) ∧
       ∀ f ∈ jobFrames e { aJob with ending := some req, ended := true }, frameBusy e f.1 f.2 = false) ∧
    (let m : MapReq := { va := 0, big := false, len := 65536, kind := 0, repl := false, w := true, home := 0 }
     mapBad m = false ∧ m.len ≠ 0 ∧ leavesIn s 0x10000 (mapRange m).1 ((mapRange m).2 * mapSize m) = [] ∧
     (mapPages 0x10000 m.home m.big m.kind.toNat m.repl m.w (mapRange m).2 (mapRange m).1 s).elim false (fun t =>
       decide (leavesIn t 0x10000 (mapRange m).1 ((mapRange m).2 * mapSize m) ≠ [])) = true) ∧
    (0 : Word).toNat + 2 ^ 55 ≤ 2 ^ 55 := by decide +kernel

theorem witness_JobMessages_others : let s := onHub aHub
    s.hbmReady aJob.home = true ∧ (onHub { aHub with ready := 0 }).hbmReady aJob.home = false ∧
    (match planLoad s (supplied aJob []) { obj := [], syms := [] } with
      | .error e => e.code == 1
      | .ok _ => false) = true ∧ (0x80 : Word).toNat % 256 ≠ 0 ∧ (4095 : Nat) < 4096 ∧
    (resolveCancel s (some 1) (some 1) .launch 5).1 = 0 ∧ (resolveCancel s (some 1) (some 1) .launch 6).1 = 2 ∧
    (let dw10 : Word := 0x723; fld dw10 8 3 ≠ 0 ∧ fld dw10 0 6 < 36 ∧ dw10 &&& 0xFFFFFFFFFFFFF8C0 = 0) ∧ (2 ^ 40 - 64) % 64 = 0 ∧ 2 ^ 40 - 64 + 64 ≤ 2 ^ 40 ∧
    ({ onHub aHub with hub := { aHub with unmaps := [{ req := req, job := 1, va := 0, len := 65536, frames := [] }] } } : State).hub.unmaps.find?
      (fun u => u.frames.all (fun f => !frameBusy s f.1 f.2)) ≠ none := by decide +kernel

/-- A corrected error, a record of each class over each other; a unit at work whose phase may be replayed, one in its third run, and one whose
commit drains. -/
theorem witness_RecordsAndContainedFaults : let r (k : Nat) : Rec := { cls := k, code := 65535 }
    let s := ctl { idle0 with ph := { run := 1 } }
    (r 3).cls < 4 ∧ (r 1).code < 65536 ∧ (({} : McBank).status.getLsbD 63 = false) ∧
    (let b := ({} : McBank).log (r 1); b.status.getLsbD 63 = true ∧ fld b.status 60 2 < (r 2).cls ∧ (r 1).cls ≤ fld b.status 60 2) ∧
    (s.coreAt 0).unit = some aRun ∧ (s.coreAt 0).ph.stage = .run ∧ (s.coreAt 0).ph.nonrepl = false ∧ (s.coreAt 0).ph.run < 3 ∧
    ((ctl { idle0 with ph := { run := 3 } }).coreAt 0).ph.run = 3 ∧ ((ctl { idle0 with ph := { run := 1, nonrepl := true } }).coreAt 0).ph.nonrepl = true ∧
    ((ctl { idle0 with ph := { stage := .drain 7 .X } }).coreAt 0).ph.stage = .drain 7 .X := by decide +kernel

/-! ## Context, bring-up and errors -/

def aRec : FRec := { va := 0, gen := 0, level := 0, acc := 0, eng := .A, seq := 7, prog := 0, eaddr := 0 }

theorem witness_PagingAndContext : let m (c : Core) := ctl { c with mode := .M }
    (let s := m { idle0 with fwait := [aRec] }; s.me.fwait = aRec :: [] ∧ aRec.gen = s.me.gen ∧ s.me.fbuf.length < 16 ∧ s.me.mode = .M ∧ (s.drainSbuf 0).replPending 0 = false ∧
      s.me.tlbbusy = false) ∧
    (let s := m { idle0 with fwait := [aRec], gen := 1 }; aRec.gen ≠ s.me.gen) ∧ (m { idle0 with tlbbusy := true }).me.tlbbusy = true ∧ (ctl idle0).me.mode = .U ∧
    (m { idle0 with upcsel := 0, lineA := { st := .idle } }).me.halted .A = true ∧ (m { core0 with upcsel := 0 }).me.halted .A = false ∧
    (m { unit := none, ctxbusy := true, ctxsave := true }).me.unit = none ∧ (m {}).me.ctxbusy = false ∧
    (let s := m { ctxbusy := true, ctxsave := false }; checkImage s = none ∧ s.me.restoring = none ∧ s.me.ctxrt = false) ∧
    (let h := m { idle0 with upcsel := 0, lineA := { st := .idle, upc := { line := 5 } } }; let u := h.me.lineA.upc
     (u.setWord .A 0 0x28001).line = u.line ∧ (u.setWord .A 0 0x28001).slot = u.slot ∧ (u.setWord .A 0 0x30001).line ≠ u.line ∧ h.me.upcsel ≠ 3 ∧ h.me.upcEng = .A) ∧
    (m {}).me.mcSel = some (0, 0) ∧ (ctl idle0).hasRing (ctl idle0).me.ringsel.toNat = true ∧ (ctl idle0).hasRing 64 = false ∧ csrSet (ctl idle0) .U 0x7C0 5 = none ∧
    csrDone (csrSet (ctl idle0) .U 0x801 5) (fun _ => true) = true := by decide +kernel

/-- A write of RINGCFG for a ring that is enabled and one that is not; an entry of each mode of invalidation. -/
theorem witness_PagingAndContext_rings :
    let s (r : Ring) : State := { ctl idle0 with cluster := [(0, { ring := [(0, r)] })] }
    ((s { en := true }).hasRing 0 = true ∧ ((s { en := true }).ring 0).en = true ∧ ((s {}).ring 0).en = false) ∧
    (let x : TlbEnt := { asid := 1, page := 4, big := false, ent := 0x4002F }
     (names 0 1 0 x ∧ names 1 1 0x40000 x ∧ names 2 0 0 x)) := ⟨by decide +kernel, by unfold names; decide⟩

/-- A save whose area is too small for any image. -/
theorem witness_PagingAndContext_save : let s := ctl { idle0 with mode := .M, ctxbusy := true, ctxsave := true, ctxptr := 0x20000, ctxlen := 0, ph := { run := 1 } }
    s.me.ctxbusy = true ∧ s.me.ctxsave = true ∧ saveWaits s = false ∧ s.me.ctxrt = false ∧ s.me.ctxlen.toNat < 576 + (imageBody s).length :=
  ⟨rfl, rfl, by decide +kernel, rfl, Nat.lt_of_lt_of_le (by decide : (0 : Nat) < 576) (Nat.le_add_right _ _)⟩

/-- What a master offers that is admitted where no anchor is set. -/
def offer : Handshake :=
  { cert := some [1, 2, 3], chainOk := true, anchor := 4, suites := [0x1302], groups := [0x001E, 0x0201, 0x11ED, 0x001D], sigs := [0x0808], msig := 0x0808, mgmt := true }

theorem witness_HubOperations : (onHub {}).hub.st = .inReset ∧ imageOk { length := 1 } = false ∧ (onHub { st := .recovery }).hub.st = .recovery ∧
    (46 : BitVec 6).toNat ≤ 46 ∧ (onHub aHub).hub.cleared.getLsbD 46 = false ∧ ¬ ((46 : BitVec 6).toNat < 10) ∧
    admits (onHub aHub) { offer with cert := none } = none ∧ admits (onHub aHub) offer = some (identityOf [1, 2, 3], true) ∧ (onHub aHub).conn 9 ≠ none ∧
    (ctl { idle0 with rmt := some (1, 0) }).me.rmt.isSome = true :=
  ⟨by decide +kernel, by simp [imageOk], by decide +kernel, by decide +kernel, by decide +kernel, by decide +kernel, by decide +kernel, rfl, by decide +kernel, by decide +kernel⟩

def qp0 (job : Nat) : State := onHub { aHub with qps := [(5, { job := job, gid := 1, peer := 6, mtu := 1024 })] }

/-- Queue pairs of a job that is there and of one that is not, one that is not there, and another transport; nothing mapped. -/
theorem witness_HubOperations_rdma :
    (qp0 1).hub.st = .up ∧ (qp0 1).hub.ready.getLsbD 44 = true ∧ (SMap.find (qp0 1).hub.qps 5).isSome = true ∧ SMap.find (qp0 1).hub.qps 6 = none ∧
    (qp0 2).openJob 2 = none ∧ ((qp0 1).openJob 1).isSome = true ∧ jobRead (qp0 1) 0x10000 0 1 = none ∧ jobPa (qp0 1) 0x10000 0 { wr := true } = none ∧ (0 : Nat) < 1 ∧
    1024 < (List.replicate 1025 (0 : Byte)).length ∧ (List.replicate 1024 (0 : Byte)).length ≤ 1024 ∧ Transport.ud ≠ Transport.rc := by decide +kernel

/-- Readings of a die at each bound of a temperature and of a mean of power, and at the trip; a die that is hot. -/
theorem witness_HubOperations_clock :
    (8 : BitVec 4).toNat ≤ 8 ∧ (800 : BitVec 16).toInt = 800 ∧ ¬ (800 ≤ (799 : BitVec 16).toInt ∨ 330 < (330 : BitVec 16).toNat ∨ 400 < (400 : BitVec 16).toNat) ∧
    330 < (331 : BitVec 16).toNat ∧ 400 < (401 : BitVec 16).toNat ∧ (919 : BitVec 16).toInt < 920 ∧ 920 ≤ (920 : BitVec 16).toInt ∧
    (let s : State := { onHub aHub with die := [(0, { thstat := 1 })] }; s.hot 0 = true ∧ s.hot 1 = false) := by decide +kernel

theorem witness_ErrorsAndMemoryOperations : realBank 8 13 ∧ ¬ realBank 8 14 ∧
    (let s : State := { ctl { idle0 with ph := { run := 1 } } with now := 2 ^ 26 }
     s.me.unit = some aRun ∧ 2 ^ ((s.jobAt aRun.job).bind (·.attr.wdlog2)).getD 26 ≤ s.now - aRun.progress ∧ testRuns s 0 = false ∧ s.me.ph.stage = .run) ∧
    (let s := ctl { idle0 with rmt := some (1, 0) }; s.me.rmt = some (1, 0) ∧ s.me.rmtans = none ∧ 20 * 1800000 ≤ ({ s with now := 36000000 } : State).now - 0) ∧
    25 < 26 ∧ (ctl idle0).me.rmt = none ∧ (∃ t0 t1, (ctl { idle0 with rmt := some (1, 0) }).me.rmt = some (t0, t1) ∧ t0 ≠ 2) :=
  ⟨by unfold realBank; decide, by unfold realBank; decide, by decide +kernel, by decide +kernel, by decide, by decide +kernel, 1, 0, rfl, by decide⟩

/-- A request that is known and one that is not, of a word of the job's last window, behind it, and not aligned; a queue pair that is not there. -/
theorem witness_ErrorsAndMemoryOperations_requests :
    let r : RmtReq := { module := 3, tag := 5, op := 0, ty := 8, raddr := win + 3 * 262144 + 262140, opnd := 1, cmp := 0 }
    let x : Replay := { req := r, old := 9, time := 0 }
    let s (l : List Replay) : State := { qp0 1 with hub := { (qp0 1).hub with replays := l } }
    (s []).hub.st = .up ∧ (s []).hub.ready.getLsbD 44 = true ∧ SMap.find (s []).hub.qps 6 = none ∧
    (SMap.find (s []).hub.qps 5).map (·.job) = some 1 ∧ (s [x]).hub.replays = [] ++ x :: [] ∧ (x.req.module = r.module ∧ x.req.tag = r.tag ∧ (s [x]).now - x.time < 150 * 1800000) ∧
    x.req = r ∧ x.req ≠ { r with opnd := 2 } ∧ rmtTarget (s []) 1 (win.toNat + 4 * 262144) = none ∧ rmtTarget (s []) 1 (win.toNat + 2) = none ∧
    (s []).jobAt 1 = some aJob ∧ aJob.attr.jlo ≤ 3 ∧ 3 < aJob.attr.jhi ∧ 262140 < Config.accBytes ∧ 262140 % 4 = 0 ∧
    r.raddr.toNat = Config.windowBase + Config.accBytes * 3 + 262140 ∧ (atomOf r.op.toNat).isSome = true := by decide +kernel

/-- A replica that is not the last to apply the oldest update, and one that is. -/
theorem witness_ErrorsAndMemoryOperations_updates :
    let u : Update := { addr := 0, data := [1], lcore := 0 }
    let s (n : Nat) : State := { onHub { aHub with updates := [u] } with die := (List.range 7).map (fun d => (d, { applied := n })) }
    (s 0).hub.ready.getLsbD 45 = true ∧ ((s 0).dieAt 7).applied < (s 0).hub.updates.length ∧ (∃ d < 8, d ≠ 7 ∧ ((s 0).dieAt d).applied = 0) ∧
    (s 1).hub.updates = u :: [] ∧ ((s 1).dieAt 7).applied = 0 ∧ (∀ d < 8, d ≠ 7 → 0 < ((s 1).dieAt d).applied) ∧
    (∀ x ∈ (s 0).hub.updates.take ((s 0).dieAt 7).applied, x.plain = false) := by decide +kernel

/-- A page of 64 KiB that moves to a frame of its die that is free. -/
theorem witness_ErrorsAndMemoryOperations_page :
    (mapPages 0x10000 0 false 0 false true 1 0 { onHub aHub with die := [(0, { used := [(1, 1)] })] }).elim false (fun s =>
      match leavesIn s 0x10000 0 1 with
      | l :: _ => s.hbm.wf && (decide (0x100000 % l.size = 0 ∧ l.size % 65536 = 0 ∧ 0 < l.size ∧ frameBusy s (ePfn l.ent * 65536) l.size = false ∧
            ∀ r ∈ (s.dieAt 0).used, ¬ (r.1 < 16 + l.size / 65536 ∧ 16 < r.1 + r.2)) &&
          (decide (0x100000 + l.size ≤ ePfn l.ent * 65536 ∨ ePfn l.ent * 65536 + l.size ≤ 0x100000) && (decide (l.eaddr + 8 ≤ 0x100000) &&
            decide (l.eaddr + 8 ≤ ePfn l.ent * 65536 ∨ ePfn l.ent * 65536 + l.size ≤ l.eaddr))))
      | [] => false) = true := by decide +kernel

/-- A test of a master at its end. -/
def tested : Test := { lcore := none, seq := 0, req := some req, job := 0, dw10 := 0x103, dw11 := 0x40000, ends := some 0 }

def onTest : State := { onHub { aHub with answers := [{ req := req, type := 0x0034 }] } with die := [(0, { lamp := [tested] })] }

theorem witness_ErrorsAndMemoryOperations_test : (onTest.dieAt 0).lamp = tested :: [] ∧ tested.lcore = none ∧ tested.req = some req ∧ tested.ends = some 0 ∧
    pendingAt onTest 0x40000 64 = false ∧ onTest.hub.answers = [{ req := req, type := 0x0034 }] ∧ fld tested.dw10 8 3 ≠ 0 ∧ 0 ≤ onTest.now ∧
    ∃ ws, testReport onTest 0 tested = some ws := by
  refine ⟨by decide +kernel, rfl, rfl, rfl, by decide +kernel, by decide +kernel, by decide +kernel, Nat.zero_le _, ?_⟩
  have hw : testWanted onTest tested = true := rfl
  have hl : (testsOf tested.dw10).length = 1 := by decide
  have hb : (testsOf tested.dw10).getD 0 8 = 8 := by decide
  have hz : testsTake tested.dw10 0 = 0 := by decide
  have hc : testCycles (ones 8 1) = testCycles tested.dw10 := by decide
  have hf : (testResult 0 tested.dw10 (Config.testFinds onTest.draws)).1 ≤ testCycles tested.dw10 := by
    cases Config.testFinds onTest.draws with
    | none => exact Nat.le_refl _
    | some x =>
      obtain ⟨k, core, site, addr, cyc⟩ := x
      simp only [testResult, hl, Nat.mod_one, hb, hz, hc]
      omega
  simp only [testReport, hw]
  exact ⟨_, by simp only [tested] at hf ⊢; simp; exact ⟨hf, rfl⟩⟩

/-! ## The machine -/

/-- `addi x1, x0, 10` at pc 0x40 in machine mode, and its step. -/
def running : State := { ctl { istore := Mem.writeN [] 0x40 [0x93, 0, 0xA0, 0], ifetch := Mem.writeN [] 0x40 [0x93, 0, 0xA0, 0], pc := 0x40 } with agenda := [{ who := .control 0 }] }

def stepsTo (o : Out) (f : State → Bool) : Bool :=
  match o with
  | .next s => f s
  | _ => false

theorem witness_MemoryStaysCanonical : MemoryInv running ∧ stepsTo (step running) (fun t => t.x 1 = 10 && t.me.pc = 0x44 && t.me.minstret = 1 && t.now = 1) = true :=
  ⟨(by decide +kernel : running.hbm.wf = true), by decide +kernel⟩

theorem witness_EncodingsAreFaithful : portWf (.vadd (.port (pw 0 0 2 1 0 0 3))) = true ∧ (encodePort (.vadd (.port (pw 0 0 2 1 0 0 3)))).isSome = true ∧
    nativeWf .V (.vadd (.nat (wAdd 0))) = true ∧ (encodeNative (.vadd (.nat (wAdd 0)))).isSome = true ∧ Instr.wf .mret = true ∧ encode32 .mret = some 0x30200073 ∧
    frameWf (.copy copyFrame) = true ∧ (encodeFrame (.copy copyFrame)).isSome = true := by decide +kernel

/-- Turns of an operation, of the control core, of a command that starts, one that is held back, one of an operation whose domain is held, and
one of a request, good and bad. -/
theorem witness_StepsRunWhatIsDecoded : let t : Turn := { who := .control 0 }
    let b := running.begin t
    running.agenda = t :: [] ∧ t.who.lcore < 1152 ∧ t.who.blocked b = false ∧ atBoundary .wickAccept = false ∧ (b.me.ctxbusy && b.me.ctxrt) = false ∧ b.me.ctlHit = false ∧
    b.me.kernelOver = false ∧ b.me.crossing = false ∧
    pendingItem b 0 = none ∧ b.me.pc.toNat + 8 ≤ 65536 ∧ stepsTo (exec (decodeControl (BitVec.ofNat 64 (b.me.ifetch.readWord b.me.pc.toNat 8))) b) (fun s => s.note = .ok) = true ∧
    (let s : State := { running with agenda := [{ who := .op 0 .A .wickAccept }], hub := {} }; Who.blocked (.engineA 0) s = true) ∧
    (let s : State := { onX copyFrame .queued { idle0 with ph := { run := 1 } } with agenda := [{ who := .command 0 .X 7 false }] }
     let b := s.begin { who := .command 0 .X 7 false }
     b.enginesMove = true ∧ b.cmd.elim false (fun m => decide (m.st = .queued) && (frameCtor m.frame.kind).isSome) = true) ∧
    (let s := { running with hub := aHub }; s.hub.st = .up ∧ s.conn 9 ≠ none ∧ (∀ d ≤ 8, s.hot d = false)) := by decide +kernel

/-- A STATUS request, and the same with a reserved field set. -/
theorem witness_RequestsAreRead : (1 : Nat) < 65536 ∧ (0 : Nat) < 65536 ∧ (7 : Nat) < 2 ^ 32 ∧
    (match readRequest 9 (leBytes 2 1 ++ leBytes 2 0 ++ leBytes 4 7 ++ leBytes 4 0 ++ leBytes 4 0 ++ []) with
      | .ok _ => true
      | _ => false) = true ∧
    (match readRequest 9 (leBytes 2 1 ++ leBytes 2 1 ++ leBytes 4 7 ++ leBytes 4 0 ++ leBytes 4 0 ++ []) with
      | .bad r t => r == { master := 9, id := 7 } && t == 1
      | _ => false) = true := by decide +kernel

/-! ## Units that start -/

def aKernel : Kernel := { entry := 0x1000, stop := 0x1010, wmask := 0, vssize := 0, vsres := 0, sssize := 0, reqs := [], phases := [] }

/-- A launch of one unit that waits for core 0, of a kernel that is loaded. -/
def onStart (pri : Nat) (c : Core) : State :=
  { ctl c with
    hub := { aHub with
      jobs := [(1, { aJob with loads := [{ kernels := [aKernel], profiles := [], text := [] }] })]
      launches := [(1, aLaunch), (2, { aLaunch with lid := 6, gang := 0, pri := pri, evs := 0, rings := 0, dcs := 0, alms := 0, handle := 0x10000, units := [(0, .waiting 0 false)], status := 0 })] } }

/-- The waiter of core 0 in `onStart`. -/
def aWaiter (pri : Nat) : Option Waiter := (waitersOn (onStart pri {}) 0).head?

/-- One launch waits for core 0: it is chosen, is ready and starts, and comes before all others; another, of a lower level, is behind it. -/
theorem witness_HubOperations_start : let s := onStart 0 {}
    canTake s 0 = true ∧ (chosen s 0).elim false (fun w => w.ready s && (startGroup w.n s w.group).isSome) = true ∧
    (aWaiter 0).elim false (fun w => decide (w ∈ waitersOn s 0 ∧ (∀ v ∈ waitersOn s 0, v = w) ∧ w.l.gang = 0 ∧ w.saved = false ∧ s.launchAt w.n = some w.l) &&
      (placeUnit s w.n w.l 0).elim false (fun base => (startUnit s w.n w.l w.idx base).isSome)) = true ∧
    ((s.jobAt 1).bind (fun j => kernelOf j 0x10000)).isSome = true := by decide +kernel

theorem witness_HubOperations_start_order : (aWaiter 0).elim False (fun v => (aWaiter 1).elim False (fun w => waitsBefore 0 v w)) := by
  exact Or.inl (by decide +kernel)

/-- A unit of priority 3 whose core one of priority 0 waits for. -/
theorem witness_PagingAndContext_preempt : let s := onStart 0 { idle0 with unit := some { aRun with pri := 3 } }
    s.me.unit = some { aRun with pri := 3 } ∧ s.me.preip = false ∧ s.me.ctxbusy = false ∧ (∃ w ∈ waitersOn s 0, w.level s.now + 3 ≤ 3) ∧ (s.launchAt aRun.launch).isSome = true := by decide +kernel

/-- A mapped byte that an RDMA write and read reach, and the byte behind it, which is not mapped. -/
theorem witness_HubOperations_hub :
    (mapPages 0x10000 0 false 0 false true 1 0 { onHub { aHub with qps := [(5, { job := 1, gid := 1, peer := 6, mtu := 1024 })] } with die := [(0, { used := [(1, 1)] })] }).elim false (fun s =>
      decide ((jobPa s 0x10000 65535 { wr := true }).isSome = true ∧ (jobRead s 0x10000 65535 1).isSome = true ∧ jobPa s 0x10000 65536 { wr := true } = none ∧ s.poison = [] ∧
        s.hub.st = .up ∧ s.hub.ready.getLsbD 44 = true ∧ (SMap.find s.hub.qps 5).isSome = true ∧ (s.openJob 1).isSome = true)) = true := by decide +kernel

/-- The core whose engines have read the line that they are in. -/
def coreB : Core :=
  let l : Line := { core0.lineA with buf := List.replicate 8 0 }
  { core0 with lineA := l, lineM := l, lineV := l }

/-- A command of engine A, and one of V, whose one word of portable code comes next, and a nest: bundles of engine A, and virtual cycles of
the execute domain. -/
theorem witness_StepsRunWhatIsDecoded_bundles :
    let word (e : Eng) (i : Instr) : Cmd := { command e with steps := [{ i := i }] }
    let at' (t : Who) (c : Core) : State := State.begin { ctl c with agenda := [{ who := t }] } { who := t }
    (let b := at' (.engineA 0) { coreB with cmds := [word .A (.gadd (still (nw 0 0 31 1 17 0x3FF 0 0)))] }
     b.enginesMove = true ∧ b.me.lineA.st = .run ∧ b.me.scaleMiss = false ∧ (match nextBundle b .A with
       | .ok s1 line [(k, i)] after => decide (s1.ln.done = 0) && (gateA s1 [(k, i)] && (!targetBad s1 line i &&
           stepsTo (exec i ((s1.updLn (fun l => { l with goto := none, stop := false })).atSlot k)) (fun s3 => decide (s3.note = .ok) &&
             onward (goOn (commitWrites (keepWrites (s1.updLn (fun l => { l with goto := none, stop := false })) s3 i)).bundleIssued line after) (fun _ => true))))
       | _ => false) = true) ∧
    (let moves (b : State) (f : State → Bool) : Bool := b.enginesMove && (!b.me.frozen && (b.me.domainBusy && stepsTo (execResultLanding b) (fun s1 => decide (s1.note = .ok) &&
       onward (workOn s1 s1.me.mwork) (fun s2 => f { s2 with cur := b.cur }))))
     moves (at' (.domain 0) { coreB with lineM := {}, cmds := [word .V (.vmov (.nat { wAdd 0 with b := 0x3FF }))] }) (fun x => x.me.nesting.isNone &&
       onward (issueAll .M 64 x) (fun s3 => onward (issueAll .V 64 s3) (fun _ => true))) = true ∧
     moves (at' (.domain 0) { coreB with lineM := {}, cmds := [word .V (.vmov (.nat { wAdd 0 with a := 0x300, b := 0x3FF }))] }) (fun x => x.me.nesting.isNone &&
       onward (issueAll .M 64 x) (fun s3 => (match issueAll .V 64 s3, issueAll .V 64 x with
         | .error _, .error (.next _) => true
         | _, _ => false))) = true ∧
     moves (at' (.domain 0) { coreB with q := { qa0 := [{ eng := .A, seq := 7, data := 0, mask := ~~~0 }] }, cmds := [word .M (.mlds (.nat (still (nw 1 0 0x3FF 0x300 0x3FF 0 0 1)))), word .V (.vmov (.nat { wAdd 0 with a := 0x300, b := 0x3FF }))] })
       (fun x => x.me.nesting.isNone && onward (issueAll .M 64 x) (fun s3 => (match issueAll .V 64 s3, issueAll .V 64 x with
         | .error _, .ok _ => true
         | _, _ => false))) = true ∧
     moves (at' (.domain 0) { coreB with lineM := {}, lineV := {}, cmds := [{ command .M with cap := { (command .M).cap with nest := some ((List.range 6).map (fun l => (1 + l, 1))) } }] })
       (fun x => x.me.nesting.elim false (fun m => stepsTo (exec .nestRun { x with cur := { x.cur with eng := .M, seq := m.seq, entry := false } }) (fun y => decide (y.note = .ok)))) = true) := by
  decide +kernel

/-! ## The spec's worked examples, and single steps worked by hand -/

def flags (nv dz o u nx satf : Nat) : Flags := BitVec.ofNat 6 (satf * 32 + nv * 16 + dz * 8 + o * 4 + u * 2 + nx)

/-- The table of 04, under "Rounding worked to the bit". -/
theorem test_rounding : roundTo bf16 0 .rne (decodeF fp32 0x3F808000) = (0x3F80, flags 0 0 0 0 1 0) ∧ roundTo bf16 0 .rup (decodeF fp32 0x3F808000) = (0x3F81, flags 0 0 0 0 1 0) ∧
    roundTo bf16 0 .rdn (decodeF fp32 0xBF808000) = (0xBF81, flags 0 0 0 0 1 0) ∧ roundTo e4m3 0 .rne (decodeF fp32 0x43E80000) = (0x7E, flags 0 0 0 0 1 0) ∧
    roundTo e4m3 0 .rne (decodeF fp32 0x43FA0000) = (0x7F, flags 0 0 1 0 1 0) := by decide +kernel

def onVec (fm : Word) (v : SMap Vec) (shape : Word) : State :=
  { on' .V core0 with core := [(0, { core0 with v := v, cmds := [{ command .V with cap := { (command .V).cap with shp := [(0, shape)], fmode := fm } }] })] }

/-- What a word of V puts in flight to a vector register: the container's bits and mask, and the flags. -/
def flies (o : Out) (P : Vec → Vec → Flags → Bool) : Bool :=
  stepsTo o (fun t => match t.me.flights with
    | [f] => (match f.lands with
      | [.vreg _ d m] => P d m f.flags
      | _ => false)
    | _ => false)

/-- "A conversion worked to the bit" of 07: VCVT from FP32 to part 1 of BF16. -/
theorem test_vcvt : flies (exec (.vcvt (.nat (still (nw 1 0 10 4 0x3FF 0x10 0 4)))) (onVec 0 [(4, 0x7F800001000000017F7FFFFF3F808000)] 0x0010000000000004))
    (fun d m fl => elem d 16 64 = 0x3F80 && elem d 16 65 = 0x7F80 && elem d 16 66 = 0 && elem d 16 67 = 0x7FC0 && elem m 16 3 = 0 && elem m 16 67 = 0xFFFF &&
      elem m 16 68 = 0 && fl = flags 1 0 1 1 1 0) = true := by decide +kernel

/-- "A quantisation worked to the bit" of 07, with the scale 0.5. -/
theorem test_vquant : flies (exec (.vquant (.nat (still (nw 5 0 20 21 22 0 0 8)))) (onVec 0 [(21, 0x3E00000040E00000C02000003F400000), (22, 0x7E)] 0x0010000000000004))
    (fun d _ fl => elem d 8 0 = 0xE3 && elem d 8 1 = 0x07 && fl = flags 0 0 1 1 1 1) = true := by decide +kernel

/-- "A reduction worked to the bit" of 08, under RNE and under RUP. -/
theorem test_vredsum : let v : SMap Vec := [(8, 0xCB8000003F8000003F8000003F8000003F8000004B800000)]
    flies (exec (.vredsum (.nat (still (nw 0 0 9 8 0x3FF 0x3FF 0 12)))) (onVec 0 v 0x0010000000000006)) (fun d _ fl => elem d 32 0 = 0x40000000 && fl = flags 0 0 0 0 1 0) = true ∧
    flies (exec (.vredsum (.nat (still (nw 0 0 9 8 0x3FF 0x3FF 0 12)))) (onVec 2 v 0x0010000000000006)) (fun d _ _ => elem d 32 0 = 0x40C00000) = true := by decide +kernel

/-- "Grants worked out" of 03: requests of vec.i4 600, mat.bf16 2 by 2 by 2, mat.e4m3 70 by 50 by 5000, mat.u8, and poly.bf16 100 alone and in a gang. -/
theorem test_grants : shpD (grantOf 1 0x001C000000000258) 0 = 512 ∧ grantOf 1 0x0021000200020002 = 0x0321000200080008 ∧
    (let g := grantOf 1 0x0023138800320046; shpD g 0 = 64 ∧ shpD g 1 = 56 ∧ shpD g 2 = 4096) ∧ shpClass (grantOf 1 0x002B000800080008) = 0 ∧
    shpClass (grantOf 1 0x0031000000000064) = 0 ∧ (let g := grantOf 2 0x0031000000000064; shpD g 0 = 112 ∧ shpD g 1 = 2) := by decide +kernel

/-- VADD of 1.0 and −0 in element 0, and of two infinities of unlike sign in element 1; VIADD wraps. -/
theorem test_vadd : flies (exec (.vadd (.nat (still (nw 0 0 3 1 2 0x3FF 0 4)))) (onVec 0 [(1, 0x7F8000003F800000), (2, 0xFF80000080000000)] 0x0010000000000002))
    (fun d _ fl => elem d 32 0 = 0x3F800000 && elem d 32 1 = 0x7FC00000 && fl = flags 1 0 0 0 0 0) = true ∧
    flies (exec (.viadd (.nat (still (nw 8 0 3 1 1 0x3FF 0 4)))) (onVec 0 [(1, 0x80000001)] 0x0018000000000001)) (fun d _ fl => elem d 32 0 = 2 && fl = 0) = true := by decide +kernel

/-- VSRA by more than the width fills with the sign; VSLIDEDN brings in zeros; VREDISUM sums modulo 2^32 in element 0. -/
theorem test_vsra : flies (exec (.vsra (.nat (still (nw 8 0 3 1 2 0x3FF 0 4)))) (onVec 0 [(1, 0x80000000), (2, 40)] 0x0018000000000001)) (fun d _ _ => elem d 32 0 = 0xFFFFFFFF) = true := by
  decide +kernel

theorem test_vslidedn : flies (exec (.vslidedn (.nat (still (nw 8 0 3 1 0x3FF 1 0 4)))) (onVec 0 [(1, 0x0000000500000004)] 0x0018000000000002))
    (fun d _ _ => elem d 32 0 = 5 && elem d 32 1 = 0) = true := by decide +kernel

/-- GSUB wraps, GSHR takes the low six bits of its count, and GCMP compares as signed. -/
theorem test_gsub : stepsTo (exec (.gsub (still (nw 0 0 3 1 2 0x3FF 0 0))) (on' .A { core0 with g := [(2, 1)] })) (fun t => t.me.gget 3 = ~~~0 && t.me.gget 2 = 1) = true := by
  decide +kernel

theorem test_gcmp : stepsTo (exec (.gcmp (still (nw 0 0 3 1 2 2 0 0))) (on' .A { core0 with g := [(1, ~~~0)] })) (fun t => t.me.apget 3 = ~~~0) = true := by decide +kernel

/-- The overflow of DIV and its remainder; SRAW; a jump through its own link register. -/
theorem test_div : stepsTo (exec (.rv64Instruction (.op .div 1 17 30) false) (ctl (withX 0x8000000000000000 (~~~0) idle0))) (fun t => t.x 1 = 0x8000000000000000) = true ∧
    stepsTo (exec (.rv64Instruction (.op .rem 1 17 30) false) (ctl (withX 0x8000000000000000 (~~~0) idle0))) (fun t => t.x 1 = 0) = true := by decide +kernel

theorem test_sraw : stepsTo (exec (.rv64Instruction (.opW .sraw 1 17 30) false) (ctl (withX 0x180000000 33 idle0))) (fun t => t.x 1 = 0xFFFFFFFFC0000000) = true := by decide +kernel

theorem test_jalr : stepsTo (exec (.rv64Instruction (.jalr 17 17 3) true) (ctl (withX 0x100 0 { idle0 with pc := 0x20 }))) (fun t => t.x 17 = 0x22 && t.me.pc = 0x102) = true := by decide +kernel

/-- ECALL from user mode with MIE set, and the MRET that follows it. -/
theorem test_ecall : stepsTo (exec .ecall (ctl { idle0 with pc := 0x44, mstatus := 8, mtvec := 0x801 })) (fun t =>
    t.me.mepc = 0x44 && t.me.mcause = 8 && t.me.mstatus = 0x80 && t.me.pc = 0x800 && t.me.mode = .M) = true := by decide +kernel

theorem test_mret : stepsTo (exec .mret (ctl { idle0 with mode := .M, mepc := 0x48, mstatus := 0x80 })) (fun t =>
    t.me.pc = 0x48 && t.me.mstatus = 0x88 && t.me.mode = .U) = true := by decide +kernel

/-- SETSHAPE asks for 100 FP32 elements and is granted 64; GETSHAPE reads the short condition. -/
theorem test_setshape : stepsTo (exec (.setshape (pw 0x10064 0 0 0 0 0 0)) (ctl idle0)) (fun t => SMap.get t.me.shp 0 0 = 0x0010000000000040 && SMap.get t.me.shq 0 0 = 0x0010000000000064) = true := by
  decide +kernel

/-- TKGIVE gives M's tokens to V; a take of an empty queue waits. -/
theorem test_tkgive : stepsTo (exec (.tkgive (still (nw 0 0 0x3FF 2 0x3FF 1 0 0))) (on' .M core0)) (fun t => t.me.tok.mv = [7, 7]) = true ∧
    stepsTo (exec (.tktake (still (nw 0 0 0x3FF 1 0x3FF 1 0 0))) (on' .M core0)) (fun t => t.note = .token) = true := by decide +kernel

/-- AMOADD.W on a window: the old word sign-extended, the sum in place. -/
theorem test_amoadd : stepsTo (exec (.amoWindow .add false false false 3 17 30) (ctl (withX (win + 4) 1 { idle0 with acc := Mem.writeN [] 4 [0xFF, 0xFF, 0xFF, 0xFF] })))
    (fun t => t.x 3 = ~~~0 && leNat (t.accRead 0 0 8) = 0) = true := by decide +kernel

/-- A record in an empty bank, a corrected one over it, and CLRCNT. -/
theorem test_bank : let b := (({} : McBank).log { cls := 2, code := 17, sub := 4, addr := 0x40 }).log { cls := 1, code := 2 }
    b.addr = 0x40 ∧ fld b.status 0 16 = 17 ∧ fld b.status 30 8 = 1 ∧ b.status.getLsbD 62 = true ∧ b.status.getLsbD 63 = true := by decide +kernel

/-- Lines and words of the SCALEADD listing (05, "A native line worked out"). -/
theorem test_decode_line : nativeDecodes [
    (.V, 0x030002C1300F8301, .vfma (.nat { still (nw 0 1 0x304 0x300 0x3E0 0x301 0x40200000 4) with stop := false })),
    (.V, 0x19880000802F83FF, .visub (.nat (still (nw 8 0 2 2 0x3E0 0x3FF 0x40 2)))), (.V, 0xF00800FFFFFFFC01, .nopv (still (nw 0 0 0x3FF 0x3FF 0x3FF 1 0 0))),
    (.V, 0x2E88000040100802, .vcmp (.nat (still (nw 8 0 1 1 2 2 0 2)))), (.V, 0xF00880FFFFFFFC01, .nopv { still (nw 0 0 0x3FF 0x3FF 0x3FF 1 0 0) with gvn := true })] = true := by decide +kernel

/-! ## Placing an instruction, and running it -/

/-- `addi x1, x0, 10`; the native line of one VADD, whose result flies; and a SIGNAL. -/
theorem test_fetch_control : decodeTableWord 32 0x00A00093 = some (.rv64Instruction (.opImm .addi 1 0 10) false) ∧
    stepsTo (step (State.reset.withFetchWord 32 0x00A00093)) (fun t => t.x 1 = 10) = true := by decide +kernel

/-- A line of V: the link word with CHAINEND, the nibble 4, one VADD, and pads (NOPV 0) in the other slots. -/
def oneWord : Nat :=
  (List.range 6).foldl (fun n k => n + 0xF00800FFFFFFFC00 * 2 ^ (64 * (k + 2))) (0x00180000C0100BFF * 2 ^ 64 + (4 * 2 ^ 32 + 2 * 2 ^ 28 + 4))

theorem test_fetch_line : decodeTableWord 512 oneWord = some (.vadd (.nat (plainWord 1 3 1 2 0x3FF 4))) := by decide +kernel

/-- Reset grants no shape, so the fetched VADD takes the contained fault SHAPEBAD. -/
theorem test_fetch_line_runs : stepsTo (step (State.reset.withFetchWord 512 oneWord)) (fun t => match t.note with | .fault f => f.code == 21 | _ => false) = true := by
  decide +kernel

theorem test_fetch_frame : decodeTableWord 1024 0x307 = some (.signal { dw0 := 0x307 }) ∧
    stepsTo (step (State.reset.withFetchWord 1024 0x307)) (fun t => t.note = .ok && t.me.cmds.all (fun m => m.st = .done)) = true := by decide +kernel

end Sys2Proof.Tests
end

/-! SUPPORT. Bit fields of a doubleword, and what a trap leaves, said once: `takesTrap_takeTrap` for any trap, and `State.trap_spec`
for an exception of an instruction, in the terms of the statements (20 R406). -/

namespace Sys2Proof.Machine

/-! ## Bit fields -/

theorem testBit_fld (w : Word) (lo n k : Nat) : (fld w lo n).testBit k = (decide (k < n) && w.getLsbD (lo + k)) := by
  simp only [fld, Nat.testBit_mod_two_pow, Nat.testBit_div_two_pow, BitVec.getLsbD, Nat.add_comm k lo]

theorem getLsbD_ones (lo n k : Nat) (hk : k < 64) : (ones lo n).getLsbD k = decide (lo ≤ k ∧ k < lo + n) := by
  rw [Bool.eq_iff_iff]
  simp only [ones, BitVec.getLsbD_ofNat, Nat.testBit_mul_two_pow, Nat.testBit_two_pow_sub_one, Bool.and_eq_true, decide_eq_true_eq]
  omega

/-- A field that is set reads as its value, and every other bit stays. -/
theorem getLsbD_setFld (w : Word) (lo n v k : Nat) (hk : k < 64) :
    (setFld w lo n v).getLsbD k = if lo ≤ k ∧ k < lo + n then v.testBit (k - lo) else w.getLsbD k := by
  have hones := getLsbD_ones lo n k hk
  unfold ones at hones
  simp only [setFld, blend, BitVec.getLsbD_or, BitVec.getLsbD_and, BitVec.getLsbD_not, hones, hk, decide_true, Bool.true_and,
    BitVec.getLsbD_ofNat, Nat.testBit_mul_two_pow, Nat.testBit_mod_two_pow]
  by_cases h : lo ≤ k ∧ k < lo + n
  · have hlt : k - lo < n := by omega
    simp [h, hlt]
  · simp [h]

theorem fld_setFld_same (w : Word) (lo n v : Nat) (h : lo + n ≤ 64) : fld (setFld w lo n v) lo n = v % 2 ^ n := by
  refine Nat.eq_of_testBit_eq fun k => ?_
  rw [testBit_fld, Nat.testBit_mod_two_pow]
  by_cases hk : k < n
  · rw [getLsbD_setFld _ _ _ _ _ (by omega), if_pos (by omega), Nat.add_sub_cancel_left]
  · simp [hk]

/-! ## Traps -/

/-- mstatus after a trap (20 R406): MPIE takes MIE, MIE is cleared, and MPP takes the mode. -/
theorem Core.takeTrap_mstatus (c : Core) (cause val : Word) : (c.takeTrap cause val).mstatus =
    setFld (setFld (setFld c.mstatus 7 1 (fld c.mstatus 3 1)) 3 1 0) 11 2 (match c.mode with | .U => 0 | .M => 3) := rfl

/-- The state after a trap, whatever raised it, is as `TakesTrap` says. -/
theorem takesTrap_takeTrap (s : State) (cause val : Word) :
    TakesTrap s { s.updMe (fun c => c.takeTrap cause val) with note := .trap cause val } cause val := by
  have hme : ({ s.updMe (fun c => c.takeTrap cause val) with note := .trap cause val } : State).me = s.me.takeTrap cause val :=
    State.me_updMe s (fun c => c.takeTrap cause val)
  constructor
  case note => rfl
  case rest => exact SameElse.updMe s _ _
  all_goals rw [hme]
  case mpie =>
    rw [Core.takeTrap_mstatus, getLsbD_setFld _ 11 _ _ _ (by decide), if_neg (by decide), getLsbD_setFld _ 3 _ _ _ (by decide),
      if_neg (by decide), getLsbD_setFld _ 7 _ _ _ (by decide), if_pos (by decide), testBit_fld]
    rfl
  case mie =>
    rw [Core.takeTrap_mstatus, getLsbD_setFld _ 11 _ _ _ (by decide), if_neg (by decide), getLsbD_setFld _ 3 _ _ _ (by decide)]
    rfl
  case mpp =>
    rw [Core.takeTrap_mstatus, fld_setFld_same _ _ _ _ (by decide)]
    cases s.me.mode <;> rfl
  case others =>
    intro k h3 h7 h11 h12
    by_cases hk : k < 64
    · rw [Core.takeTrap_mstatus, getLsbD_setFld _ _ _ _ _ hk, if_neg (by omega), getLsbD_setFld _ _ _ _ _ hk, if_neg (by omega),
        getLsbD_setFld _ _ _ _ _ hk, if_neg (by omega)]
    · rw [BitVec.getLsbD_of_ge _ _ (by omega), BitVec.getLsbD_of_ge _ _ (by omega)]
  all_goals rfl

/-- An exception of an instruction answers the trapped state. -/
theorem State.trap_spec (s : State) (cause : Nat) (val : Word) :
    ∃ t, s.trap cause val = .next t ∧ TakesTrap s t (BitVec.ofNat 64 cause) val :=
  ⟨_, rfl, takesTrap_takeTrap s _ val⟩

end Sys2Proof.Machine

/-! PROOF of O19: the accesses that a mode may not make, the equations of a Zicsr instruction (one for each way that it can go),
and the statement from them. -/

namespace Sys2Proof.Machine
open Sys2Proof.Claims

/-! ## Accesses -/

/-- User mode reads no CSR of a higher level (00 R10): bits 9 and 8 of the number are the lowest mode that may. -/
theorem csrGet_user_none (s : State) (n : Nat) (h : n / 256 % 4 ≠ 0) : csrGet s .U n = none := by
  unfold csrGet
  rw [if_pos ⟨rfl, h⟩]

/-- No mode writes a number whose bits 11 and 10 are both set. -/
theorem csrSet_readOnly (s : State) (m : Mode) (n : Nat) (v : Word) (h : n / 1024 = 3) : csrSet s m n v = none := by
  unfold csrSet
  rw [if_pos (Or.inl h)]

theorem csrSet_minstret (s : State) {m : Mode} (hm : m = .M) (v : Word) :
    csrSet s m (0xB02 : BitVec 12).toNat v = some (.ok (s.updMe (fun c => { c with minstret := v }))) := by
  subst hm
  rfl

/-! ## The Zicsr instructions (06 R112) -/

theorem exec_csr (op : CsrOp) (rd : Reg) (imm : Bool) (src : Reg) (num : BitVec 12) (short : Bool) (s : State) :
    exec (.rv64Instruction (.csr op rd imm src num) short) s = csrInstr op rd imm src num s := rfl

section
variable {s : State} {op : CsrOp} {rd src : Reg} {imm : Bool} {num : BitVec 12} {old : Word}

theorem csrInstr_unreadable (hget : csrGet s s.me.mode num.toNat = none) :
    csrInstr op rd imm src num s = s.trap 2 (csrBits op rd imm src num) := by
  simp only [csrInstr, hget]

theorem csrInstr_read (hget : csrGet s s.me.mode num.toNat = some old) (hop : op ≠ .rw) (hsrc : src = 0) :
    csrInstr op rd imm src num s = s.retire rd old 4 := by
  cases op with
  | rw => exact absurd rfl hop
  | rs => simp [csrInstr, hget, hsrc]
  | rc => simp [csrInstr, hget, hsrc]

/-- What a Zicsr instruction that writes does with the write's answer. -/
def csrAnswer (op : CsrOp) (rd : Reg) (imm : Bool) (src : Reg) (num : BitVec 12) (old : Word) (s : State) : Option CsrRes → Out
  | none => s.trap 2 (csrBits op rd imm src num)
  | some (.wait s1) => s1.waits
  | some (.ok s1) => if num.toNat = 0xB02 then (s1.updMe (fun c => (c.wx rd old).advance 4)).done else s1.retire rd old 4

theorem csrInstr_write (hget : csrGet s s.me.mode num.toNat = some old) (hw : op = .rw ∨ src ≠ 0) :
    csrInstr op rd imm src num s = csrAnswer op rd imm src num old s
      (csrSet s s.me.mode num.toNat (csrNew old (if imm then src.setWidth 64 else s.x src) op)) := by
  cases op
  case rw =>
    simp only [csrInstr, hget, csrNew, Bool.not_true, Bool.false_eq_true, if_false]
    rfl
  all_goals
    have hsrc : src ≠ 0 := hw.resolve_left (by decide)
    simp only [csrInstr, hget, csrNew, hsrc, ne_eq, not_false_eq_true, decide_true, Bool.not_true, Bool.false_eq_true, if_false]
    rfl

end

/-- A written minstret holds what was written: the instruction that writes it is not counted. -/
theorem minstret_written (s : State) (rd : Reg) (old new : Word) :
    ∃ t, ((s.updMe (fun c => { c with minstret := new })).updMe (fun c => (c.wx rd old).advance 4)).done = .next t ∧ t.note = .ok ∧
      SameElse s t ∧ (∀ r, t.x r = if r = rd ∧ rd ≠ 0 then old else s.x r) ∧
      t.me = { s.me with x := t.me.x, pc := s.me.pc + 4, minstret := new } := by
  refine ⟨_, rfl, rfl, (SameElse.upd s _).trans (SameElse.updMe _ _ _), fun r => ?_, ?_⟩
  · simp only [State.x, State.me_note, State.me_updMe, Core.xr_advance, Core.xr_wx]
    rfl
  · simp only [State.me_note, State.me_updMe]
    conv => lhs; rw [Core.wx_eq]
    rfl

/-- Settles O19: by the way that the access goes, from one equation each. -/
theorem csrInstructions : Obligations.CsrInstructions := by
  unfold Obligations.CsrInstructions
  intro s short imm op rd src num old
  simp only [exec_csr]
  refine ⟨fun hget hop hsrc => ?_, fun hget hw => ⟨fun s1 hset hnum hpc => ?_, fun hnum hmode => ?_, fun s1 hset => ?_, fun hset => ?_,
    fun hro => csrSet_readOnly s _ _ _ hro⟩, fun hget => ?_, fun hmode hn => hmode ▸ csrGet_user_none s _ hn⟩
  · rw [csrInstr_read hget hop hsrc]
    exact s.retire_spec rd old 4
  · have hne : num.toNat ≠ 0xB02 := fun e => hnum (BitVec.eq_of_toNat_eq e)
    rw [csrInstr_write hget hw, hset, csrAnswer, if_neg hne, ← hpc]
    exact s1.retire_spec rd old 4
  · subst hnum
    rw [csrInstr_write hget hw, csrSet_minstret s hmode, csrAnswer, if_pos (show (0xB02 : BitVec 12).toNat = 0xB02 from rfl)]
    exact minstret_written s rd old _
  · rw [csrInstr_write hget hw, hset]
    rfl
  · rw [csrInstr_write hget hw, hset]
    exact s.trap_spec 2 _
  · rw [csrInstr_unreadable hget]
    exact s.trap_spec 2 _

end Sys2Proof.Machine

/-! PROOF of O60: little-endian fields, a request's header taken apart once, and the messages of each type. -/

namespace Sys2Proof.Machine

/-! ## Numbers as bytes (00 R7) -/

@[simp] theorem length_leBytes (n v : Nat) : (leBytes n v).length = n := by
  induction n generalizing v with
  | zero => rfl
  | succ n ih => simp [leBytes, ih]

/-- The bytes of a number hold it modulo what they can hold. -/
theorem leNat_leBytes (n v : Nat) : leNat (leBytes n v) = v % 256 ^ n := by
  induction n generalizing v with
  | zero => simp [leBytes, leNat, Nat.mod_one]
  | succ n ih =>
    rw [leBytes, leNat, ih, BitVec.toNat_ofNat]
    change v % 256 + 256 * (v / 256 % 256 ^ n) = v % 256 ^ (n + 1)
    rw [Nat.pow_succ', Nat.mod_mul]

/-! ## The header (21 R425) -/

/-- A request as its sender lays it out: TYPE, FLAGS, ID, LENGTH, STATUS and the body. -/
def requestBytes (type flag id len res : Nat) (body : List Byte) : List Byte :=
  leBytes 2 type ++ leBytes 2 flag ++ leBytes 4 id ++ leBytes 4 len ++ leBytes 4 res ++ body

/-- What a request with a sound header comes to, from what `messageOf` makes of its type and body. -/
def arrivalOf (r : Req) (type : Nat) (o : Option (State → Out)) : Arrival := o.elim (.bad r (BitVec.ofNat 16 type)) .ok

section
variable {m : BitVec 64} {type flag id len res : Nat} {body : List Byte}
variable (ht : type < 65536) (hf : flag < 65536) (hi : id < 2 ^ 32) (hl : len < 2 ^ 32) (hr : res < 2 ^ 32)
include ht hf hi hl hr

theorem readRequest_requestBytes : readRequest m (requestBytes type flag id len res body) =
    if flag ≠ 0 ∨ res ≠ 0 ∨ len ≠ body.length ∨ 16777216 < body.length then
      .bad { master := m, id := BitVec.ofNat 32 id } (BitVec.ofNat 16 type)
    else arrivalOf { master := m, id := BitVec.ofNat 32 id } type (messageOf { master := m, id := BitVec.ofNat 32 id } type body) := by
  have hlen : ¬ (requestBytes type flag id len res body).length < 16 := by simp [requestBytes]; omega
  have htype : leNat (((requestBytes type flag id len res body).drop 0).take 2) = type :=
    (leNat_leBytes 2 type).trans (Nat.mod_eq_of_lt ht)
  have hflag : leNat (((requestBytes type flag id len res body).drop 2).take 2) = flag :=
    (leNat_leBytes 2 flag).trans (Nat.mod_eq_of_lt hf)
  have hid : leNat (((requestBytes type flag id len res body).drop 4).take 4) = id :=
    (leNat_leBytes 4 id).trans (Nat.mod_eq_of_lt hi)
  have hlength : leNat (((requestBytes type flag id len res body).drop 8).take 4) = len :=
    (leNat_leBytes 4 len).trans (Nat.mod_eq_of_lt hl)
  have hstatus : leNat (((requestBytes type flag id len res body).drop 12).take 4) = res :=
    (leNat_leBytes 4 res).trans (Nat.mod_eq_of_lt hr)
  have hbody : (requestBytes type flag id len res body).drop 16 = body := rfl
  simp only [readRequest, hlen, htype, hflag, hid, hlength, hstatus, hbody, bodyLimit, if_false]
  cases messageOf { master := m, id := BitVec.ofNat 32 id } type body <;> rfl

/-- A header with a field that it may not have makes the request bad. -/
theorem readRequest_badHeader (h : flag ≠ 0 ∨ res ≠ 0 ∨ len ≠ body.length ∨ 16777216 < body.length) :
    readRequest m (requestBytes type flag id len res body) = .bad { master := m, id := BitVec.ofNat 32 id } (BitVec.ofNat 16 type) := by
  rw [readRequest_requestBytes ht hf hi hl hr, if_pos h]

/-- A request of which there is no message is bad, whatever its header. -/
theorem readRequest_noMessage (h : messageOf { master := m, id := BitVec.ofNat 32 id } type body = none) :
    readRequest m (requestBytes type flag id len res body) = .bad { master := m, id := BitVec.ofNat 32 id } (BitVec.ofNat 16 type) := by
  rw [readRequest_requestBytes ht hf hi hl hr, h]
  exact ite_self _

/-- A request of which there is a message, with a sound header, is that message. -/
theorem readRequest_message {run : State → Out} (hflag : flag = 0) (hres : res = 0) (hlen : len = body.length)
    (hbody : body.length ≤ 16777216) (h : messageOf { master := m, id := BitVec.ofNat 32 id } type body = some run) :
    readRequest m (requestBytes type flag id len res body) = .ok run := by
  rw [readRequest_requestBytes ht hf hi hl hr, h, if_neg (by omega)]
  rfl

end

/-! ## The messages -/

theorem messageOf_unknown (r : Req) (type : Nat) (b : List Byte)
    (h : type ∉ [0x01, 0x02, 0x03, 0x04, 0x10, 0x11, 0x12, 0x13, 0x20, 0x21, 0x22, 0x23, 0x30, 0x31, 0x32, 0x33, 0x34, 0x35, 0x40]) :
    messageOf r type b = none := by
  unfold messageOf
  split
  case h_20 => rfl
  all_goals exact absurd (by decide) h

theorem messageOf_bodyless (r : Req) (type : Nat) (i : Instr) (b : List Byte)
    (h : (type, i) ∈ [(0x01, Instr.status r), (0x11, .renew r), (0x12, .release r), (0x40, .reset r)]) :
    messageOf r type b = if b = [] then some (exec i) else none := by
  simp only [List.mem_cons, Prod.mk.injEq, List.not_mem_nil, or_false] at h
  rcases h with ⟨rfl, rfl⟩ | ⟨rfl, rfl⟩ | ⟨rfl, rfl⟩ | ⟨rfl, rfl⟩ <;> simp only [messageOf, List.length_eq_zero_iff] <;> rfl

theorem messageOf_attest (r : Req) (b : List Byte) :
    messageOf r 0x02 b = if b.length = 32 then some (exec (.attest r b)) else none := rfl

theorem messageOf_claim (r : Req) (b : List Byte) :
    messageOf r 0x10 b = if b.length = 8 ∧ leNat b < 256 then some (exec (.claim r (BitVec.ofNat 8 (leNat b)))) else none := by
  simp only [messageOf]
  by_cases hn : b.length = 8
  · have hdw : bodyDw b 0 = leNat b := by simp [bodyDw, List.take_of_length_le (Nat.le_of_eq hn)]
    by_cases hp : leNat b < 256
    · simp only [bodyLt, hdw, hn, hp, if_true, and_self, Option.map_some]; rfl
    · simp [bodyLt, hdw, hn, hp]
  · simp [hn]

/-- Settles O60: a bad header and an unknown type are bad, and each message is read where its body is as the model lays it out. -/
theorem requestsAreRead : Obligations.RequestsAreRead := by
  unfold Obligations.RequestsAreRead
  intro m type flag id len res body ht hf hi hl hr
  refine ⟨readRequest_badHeader ht hf hi hl hr,
    fun hty => readRequest_noMessage ht hf hi hl hr (messageOf_unknown _ _ _ hty), fun hflag hres hlen hbody => ?_⟩
  have hread {P : Prop} [Decidable P] {run : State → Out}
      (h : messageOf { master := m, id := BitVec.ofNat 32 id } type body = if P then some run else none) :
      if P then readRequest m (requestBytes type flag id len res body) = .ok run
      else readRequest m (requestBytes type flag id len res body) = .bad { master := m, id := BitVec.ofNat 32 id } (BitVec.ofNat 16 type) := by
    by_cases hp : P
    · rw [if_pos hp] at h ⊢
      exact readRequest_message ht hf hi hl hr hflag hres hlen hbody h
    · rw [if_neg hp] at h ⊢
      exact readRequest_noMessage ht hf hi hl hr h
  refine ⟨fun i hmem => hread (messageOf_bodyless _ _ i _ hmem), fun hty => hread ?_, fun hty => hread ?_⟩
  · rw [hty]; exact messageOf_attest _ _
  · rw [hty]; exact messageOf_claim _ _

end Sys2Proof.Machine

/-! PROOF of O31: a word whose guard fails ends with the token moves of its bits, whichever operation it is; and what token moves
leave in each queue. -/

namespace Sys2Proof.Machine
open Sys2Proof.Claims

/-! ## A failed guard (06 R123, 11 R226) -/

/-- A control word whose guard fails makes the moves of its bits, but not its own (06 R123). -/
theorem issueC_guarded {s : State} {i : Instr} {r : Row} {w : NWord} (h : Legal s i r w) (hr : r.guard = true)
    (hg : s.guardHolds w = false) (hc : s.cur.eng = .A ∨ shadowRead s r w = false) (own : NWord → List Move)
    (act : Row → NWord → Except Out State) (ht : TokensReady s (bitMoves s.cur.eng w)) :
    issueC i s own act = .next (s.finished (bitMoves s.cur.eng w)) := by
  have hshadow : (shadowRead s r w && decide (s.cur.eng ≠ .A)) = false := by
    rcases hc with h | h
    · simp only [h, ne_eq, not_true_eq_false, decide_false, Bool.and_false]
    · rw [h, Bool.false_and]
  unfold issueC
  rw [withNative_legal h]
  simp only [hshadow, hr, hg, Bool.not_false, Bool.and_self, Bool.false_eq_true, if_false, if_true]
  exact State.finish_ready _ _ _ ht

/-- Every guarded word of engine A issues by `issueA`: its meaning, unfolded to where it issues, shows the part that acts. -/
theorem exec_guardedWord {i : Instr} (h : guardedWord i = true) (s : State) : ∃ act, exec i s = issueA i s act := by
  unfold guardedWord at h
  split at h
  case h_37 => cases h
  all_goals
    simp only [exec, execGadd, execGsub, execGmul, execGshl, execGshr, execGand, execGor, execGli, execGmovx, execGcmp, execAld,
      execAlds, execAldx, execAst, execAsts, execAstx, execApref, execVspill, execVfill, execAnest, execPwld, execRclaim, execRpub,
      execRwfill, execRwfree, execRcons, execRskip, execLdacq, execStrel, execAadd, execAmax, execAmin, execAxchg, execAcas,
      execAor, execAand, gWord, loadWord, storeWord, ringWord, atomicWord, atomicA]
    exact ⟨_, rfl⟩

/-- Every control word that takes a guard issues by `issueC`, with its own moves and the part that acts. -/
theorem exec_guardedControl {i : Instr} (h : guardedControl i = true) (s : State) : ∃ own act, exec i s = issueC i s own act := by
  unfold guardedControl at h
  split at h
  case h_25 => cases h
  all_goals
    simp only [exec, execNopv, execPbr, execBr, execBrl, execRet, execLoop, execHalt, execTrapvNative, execSetrot, execTkgive,
      execTktake, execFlset, execFlclr, execFlwaitSet, execFlwaitClr, execFlwaitTake, execEvsigSet, execEvsigClr, execEvsigPost,
      execEvwait, execEvwaitClr, execFencevAcq, execFencevRel, execFencevSc, flagWord, flagWait, evsig, evwait, fenceWord]
    exact ⟨_, _, rfl⟩

/-- A word that only makes its token moves leaves its core as it was but for them. -/
theorem State.finished_acts (s : State) (ms : List Move) : Acts s (s.finished ms) s.me ms := by
  obtain ⟨hnote, hrest, honly⟩ := s.finished_frame ms
  exact ⟨hnote, rfl, honly, hrest⟩

/-! ## Token queues after moves (12 R265) -/

/-- The six token queues (02 R46). -/
theorem queue_cases {q : Nat} (hq : q < 6) : q = 0 ∨ q = 1 ∨ q = 2 ∨ q = 3 ∨ q = 4 ∨ q = 5 := by omega

theorem Tokens.at_set (t : Tokens) {k q : Nat} (hk : k < 6) (hq : q < 6) (l : List (BitVec 32)) :
    (t.set k l).at q = if k = q then l else t.at q := by
  rcases queue_cases hk with rfl | rfl | rfl | rfl | rfl | rfl <;>
    rcases queue_cases hq with rfl | rfl | rfl | rfl | rfl | rfl <;> rfl

/-- A move either gives to a queue with room or takes from one that is not empty. -/
theorem State.move_tok {s s1 : State} {m : Move} (h : s.move m = some s1) :
    (m.give = true ∧ (s.me.tok.at m.q).length < qDepth ∧ s1.me.tok = s.me.tok.set m.q (s.me.tok.at m.q ++ [s.cur.seq])) ∨
    (m.give = false ∧ ∃ x l, s.me.tok.at m.q = x :: l ∧ s1.me.tok = s.me.tok.set m.q l) := by
  unfold State.move at h
  dsimp only at h
  split at h
  case isTrue hgive =>
    split at h
    case isTrue hroom =>
      cases h
      exact .inl ⟨hgive, hroom, by rw [State.me_updMe]⟩
    case isFalse => cases h
  case isFalse htake =>
    split at h
    case h_1 => cases h
    case h_2 x l hl =>
      split at h
      case isTrue =>
        cases h
        exact .inr ⟨Bool.eq_false_iff.mpr htake, x, l, hl, by rw [State.me_updMe]⟩
      case isFalse => cases h

/-- The first move of moves that can all be made is made, and the rest from the state that it leaves. -/
theorem State.moves_cons_ready {s : State} {m : Move} {ms : List Move} (h : (s.moves (m :: ms)).2.2 = true) :
    ∃ s1, s.move m = some s1 ∧ (s1.moves ms).2.2 = true ∧ (s.moves (m :: ms)).1 = (s1.moves ms).1 := by
  cases hm : s.move m with
  | none => simp only [State.moves, hm, Bool.false_eq_true] at h
  | some s1 => exact ⟨s1, rfl, by simpa only [State.moves, hm] using h, by simp only [State.moves, hm]⟩

/-- How many of the moves give to queue `q`. -/
def givesTo (q : Nat) (ms : List Move) : Nat := (ms.filter (fun m => m.q = q && m.give)).length
/-- How many of the moves take from queue `q`. -/
def takesFrom (q : Nat) (ms : List Move) : Nat := (ms.filter (fun m => m.q = q && !m.give)).length

theorem givesTo_cons (q : Nat) (m : Move) (ms : List Move) :
    givesTo q (m :: ms) = givesTo q ms + if m.q = q ∧ m.give = true then 1 else 0 := by
  simp only [givesTo, List.filter_cons, Bool.and_eq_true, decide_eq_true_eq]
  split <;> rfl

theorem takesFrom_cons (q : Nat) (m : Move) (ms : List Move) :
    takesFrom q (m :: ms) = takesFrom q ms + if m.q = q ∧ m.give = false then 1 else 0 := by
  simp only [takesFrom, List.filter_cons, Bool.and_eq_true, decide_eq_true_eq, Bool.not_eq_true']
  split <;> rfl

/-- Moves that can all be made append a token for each give and remove the oldest for each take. A take finds a token, so that
it removes the same one whether the gives after it are counted before or behind it. -/
theorem State.moves_at {q : Nat} (hq : q < 6) (ms : List Move) (hms : ∀ m ∈ ms, m.q < 6) (s : State) (h : (s.moves ms).2.2 = true) :
    (s.moves ms).1.me.tok.at q = (s.me.tok.at q ++ List.replicate (givesTo q ms) s.cur.seq).drop (takesFrom q ms) := by
  induction ms generalizing s with
  | nil =>
    simp only [State.moves, givesTo, takesFrom, List.filter_nil, List.length_nil, List.replicate_zero, List.append_nil, List.drop_zero]
  | cons m ms ih =>
    obtain ⟨s1, hm, hready, hlast⟩ := State.moves_cons_ready h
    obtain ⟨hmq, hms⟩ := List.forall_mem_cons.mp hms
    rw [hlast, ih hms s1 hready, (State.move_frame hm).2.1.cur, givesTo_cons, takesFrom_cons]
    by_cases hmq' : m.q = q
    · subst hmq'
      rcases State.move_tok hm with ⟨hgive, -, htok⟩ | ⟨htake, x, l, hl, htok⟩
      · simp only [htok, Tokens.at_set _ hq hq, ↓reduceIte, hgive, Bool.true_eq_false, and_false, and_self, Nat.add_zero,
          List.append_assoc, List.cons_append, List.nil_append, List.replicate_succ]
      · simp only [htok, Tokens.at_set _ hq hq, ↓reduceIte, htake, hl, Bool.false_eq_true, and_false, and_self, Nat.add_zero,
          List.cons_append, List.drop_succ_cons]
    · rcases State.move_tok hm with ⟨-, -, htok⟩ | ⟨-, x, l, -, htok⟩ <;>
        simp only [htok, Tokens.at_set _ hmq hq, hmq', ↓reduceIte, false_and, Nat.add_zero]

/-- No queue holds more than 16 tokens (02 R46). -/
def TokensFit (s : State) : Prop := ∀ q, q < 6 → (s.me.tok.at q).length ≤ 16

/-- A move keeps every queue within 16: a give needs room, and a take only shortens. -/
theorem TokensFit.move {s s1 : State} {m : Move} (hs : TokensFit s) (hmq : m.q < 6) (hm : s.move m = some s1) : TokensFit s1 := by
  intro q hq
  rcases State.move_tok hm with ⟨-, hroom, htok⟩ | ⟨-, x, l, hl, htok⟩ <;> rw [htok, Tokens.at_set _ hmq hq] <;> split
  case inl.isTrue => rw [List.length_append]; exact hroom
  case inr.isTrue =>
    have hlen := hs m.q hmq
    rw [hl, List.length_cons] at hlen
    omega
  all_goals exact hs q hq

theorem TokensFit.moves (ms : List Move) (hms : ∀ m ∈ ms, m.q < 6) {s : State} (hs : TokensFit s) (h : (s.moves ms).2.2 = true) :
    TokensFit (s.moves ms).1 := by
  induction ms generalizing s with
  | nil => exact hs
  | cons m ms ih =>
    obtain ⟨s1, hm, hready, hlast⟩ := State.moves_cons_ready h
    obtain ⟨hmq, hms⟩ := List.forall_mem_cons.mp hms
    rw [hlast]
    exact ih hms (hs.move hmq hm) hready

/-! ## The end of a word none of whose moves was made before -/

theorem State.ln_updLn (s : State) (f : Line → Line) (h : s.cur.eng ≠ .X) : (s.updLn f).ln = f s.ln := by
  simp only [State.ln, State.updLn, State.me_updMe, State.updMe_cur, Core.updLine, Core.line_setLine _ _ _ h]

@[simp] theorem State.tok_updLn (s : State) (f : Line → Line) : (s.updLn f).me.tok = s.me.tok := by
  simp only [State.updLn, State.me_updMe, Core.updLine]
  cases s.cur.eng <;> rfl

theorem State.moves_ln (ms : List Move) (s : State) : (s.moves ms).1.ln = s.ln := by
  obtain ⟨honly, hrest, -⟩ := State.moves_frame ms s
  rw [State.ln, State.ln, hrest.cur, honly]
  cases s.cur.eng <;> rfl

section
variable {s : State} (h0 : s.ln.moved = 0) (ms : List Move)
include h0

theorem tokensReady_of_none_made : TokensReady s ms ↔ (s.moves ms).2.2 = true := by
  rw [TokensReady, h0, Nat.zero_min, List.drop_zero]

theorem State.finished_of_none_made :
    s.finished ms = { (s.moves ms).1.updLn id with note := .ok } := by
  simp only [State.finished, h0, Nat.zero_min, List.drop_zero]
  rfl

theorem State.finished_tok : (s.finished ms).me.tok = (s.moves ms).1.me.tok := by
  rw [State.finished_of_none_made h0, State.me_note, State.tok_updLn]

theorem State.finished_moved (he : s.cur.eng ≠ .X) : (s.finished ms).ln.moved = 0 := by
  have he' : (s.moves ms).1.cur.eng ≠ .X := by rwa [(State.moves_frame ms s).2.1.cur]
  rw [State.finished_of_none_made h0]
  change ((s.moves ms).1.updLn id).ln.moved = 0
  rw [State.ln_updLn _ _ he', State.moves_ln, id, h0]

end

/-- Settles O31: a failed guard leaves only the moves of the bits, and moves leave each queue as `State.moves_at` says and no fuller
than `TokensFit.moves` allows. -/
theorem failedGuardsAndTokens : Obligations.FailedGuardsAndTokens := by
  unfold Obligations.FailedGuardsAndTokens
  refine ⟨fun i s r w hl hg => ⟨fun hi ht => ?_, fun hi hr hc ht => ?_⟩, fun s ms he h0 hms ht => ?_⟩
  · obtain ⟨act, hexec⟩ := exec_guardedWord hi s
    exact ⟨_, hexec.trans (issueA_guarded hl hg act ht), s.finished_acts _⟩
  · obtain ⟨own, act, hexec⟩ := exec_guardedControl hi s
    exact ⟨_, hexec.trans (issueC_guarded hl hr hg hc own act ht), s.finished_acts _⟩
  · have hready := (tokensReady_of_none_made h0 ms).mp ht
    have htok := State.finished_tok h0 ms
    refine ⟨fun q hq => ?_, State.finished_moved h0 ms he, (s.finished_frame ms).2.1, fun hfit q hq => ?_⟩
    · rw [htok]; exact State.moves_at hq ms hms s hready
    · rw [htok]; exact TokensFit.moves ms hms hfit hready q hq

end Sys2Proof.Machine

/-! PROOF of O21: the fields of a packed shape read back, the row of the grant table for each class, and the statement from them. -/

namespace Sys2Proof.Machine

/-! ## A packed shape (03 R51) -/

/-- A bit of a doubleword, as the field of one bit that it is. -/
theorem getLsbD_eq_fld (w : Word) (k : Nat) : w.getLsbD k = decide (fld w k 1 = 1) := by
  rw [fld, BitVec.getLsbD, Nat.testBit_eq_decide_div_mod_eq, Nat.pow_one]

section
variable {cls ty d0 d1 d2 : Nat} (tail mirr : Bool)
variable (hc : cls < 16) (ht : ty < 16) (h0 : d0 < 65536) (h1 : d1 < 65536) (h2 : d2 < 65536)
include hc ht h0 h1 h2

theorem toNat_packShape : (packShape cls ty d0 d1 d2 tail mirr).toNat =
    d0 + d1 * 2 ^ 16 + d2 * 2 ^ 32 + ty * 2 ^ 48 + cls * 2 ^ 52 + tail.toNat * 2 ^ 56 + mirr.toNat * 2 ^ 57 := by
  rw [packShape, BitVec.toNat_ofNat]
  cases tail <;> cases mirr <;> simp only [Bool.toNat_true, Bool.toNat_false, Bool.false_eq_true, if_true, if_false] <;> omega

/-- What each field of a packed shape reads as. -/
theorem packShape_fields :
    let g := packShape cls ty d0 d1 d2 tail mirr
    shpClass g = cls ∧ shpTy g = ty ∧ shpD g 0 = d0 ∧ shpD g 1 = d1 ∧ shpD g 2 = d2 ∧ g.getLsbD 56 = tail ∧ g.getLsbD 57 = mirr ∧
      fld g 58 6 = 0 := by
  simp only [getLsbD_eq_fld, shpClass, shpTy, shpD, fld, toNat_packShape tail mirr hc ht h0 h1 h2]
  cases tail <;> cases mirr <;>
    simp only [Bool.toNat_true, Bool.toNat_false, decide_eq_true_eq, decide_eq_false_iff_not] <;> omega

end

theorem fld_lt (w : Word) (lo n : Nat) : fld w lo n < 2 ^ n := Nat.mod_lt _ (Nat.two_pow_pos n)

/-! ## The table, class by class (03 R53-R55) -/

section
variable {q : Word} (side : Nat)

theorem grantOf_vector (h : shpClass q = 1) : grantOf side q =
    if shpTy q = 15 ∨ shpD q 0 = 0 then 0 else packShape 1 (shpTy q) (min (shpD q 0) (2048 / width (shpTy q))) 0 0 false false := by
  simp only [grantOf, h]

theorem grantOf_matrix (h : shpClass q = 2) : grantOf side q =
    if shpTy q ∉ [0, 1, 2, 3, 4, 5, 6, 10, 12] ∨ shpD q 0 = 0 ∨ shpD q 1 = 0 ∨ shpD q 2 = 0 then 0
    else
      let m := min (upTo (shpD q 0) 8) (64 * side)
      let n := min (upTo (shpD q 1) 8) (64 * side)
      packShape 2 (shpTy q) m n (min (shpD q 2) 4096) (decide (shpD q 0 < m ∨ shpD q 1 < n)) (decide (m ≤ 32 ∨ n ≤ 32)) := by
  have hk : ¬ shpD q 2 < min (shpD q 2) 4096 := Nat.not_lt.mpr (Nat.min_le_left ..)
  simp only [grantOf, h, List.contains_eq_mem, Bool.not_eq_true', decide_eq_false_iff_not, gt_iff_lt, hk, decide_false,
    Bool.or_false, Bool.decide_or]

theorem grantOf_polynomial (h : shpClass q = 3) : grantOf side q =
    if 4 < shpTy q ∨ shpD q 0 = 0 ∨ 64 * side < upTo (shpD q 0) (8 * side) then 0
    else packShape 3 (shpTy q) (upTo (shpD q 0) (8 * side)) side 0 (decide (shpD q 0 < upTo (shpD q 0) (8 * side)))
      (decide (side = 1 ∧ upTo (shpD q 0) (8 * side) ≤ 32)) := by
  simp only [grantOf, h, gt_iff_lt, Bool.decide_and]

theorem grantOf_reserved (h : shpClass q = 0 ∨ 3 < shpClass q) : grantOf side q = 0 := by
  unfold grantOf
  split
  case h_4 => rfl
  all_goals omega

/-- Every class uses dimension 0. -/
theorem grantOf_emptyFirst (h0 : shpD q 0 = 0) : grantOf side q = 0 := by
  have hclass : shpClass q = 1 ∨ shpClass q = 2 ∨ shpClass q = 3 ∨ (shpClass q = 0 ∨ 3 < shpClass q) := by omega
  rcases hclass with hc | hc | hc | hc
  · rw [grantOf_vector _ hc, if_pos (.inr h0)]
  · rw [grantOf_matrix _ hc, if_pos (.inr (.inl h0))]
  · rw [grantOf_polynomial _ hc, if_pos (.inr (.inl h0))]
  · exact grantOf_reserved _ hc

end

/-- A polynomial is mirrorable only where it is unbound, that is of a gang of side 1. -/
theorem unbound_iff (gang d : Nat) : (2 ^ gang = 1 ∧ upTo d (8 * 2 ^ gang) ≤ 32) ↔ (gang = 0 ∧ upTo d 8 ≤ 32) := by
  cases gang with
  | zero => exact and_congr (by decide) Iff.rfl
  | succ n =>
    have hgang : 2 ^ (n + 1) ≠ 1 := by rw [Nat.pow_succ]; omega
    exact iff_of_false (fun h => hgang h.1) (fun h => Nat.succ_ne_zero n h.1)

/-- Settles O21: the table's row for each class, and the fields of what it packs; a side of 4 keeps each dimension within its field. -/
theorem grantsFollowTheTable : Obligations.GrantsFollowTheTable := by
  unfold Obligations.GrantsFollowTheTable
  intro gang q hgang
  have hside : 2 ^ gang ≤ 4 := Nat.pow_le_pow_right (by decide) (Nat.le_of_lt_succ hgang)
  have hty : shpTy q < 16 := fld_lt q 48 4
  have hd (k : Nat) : shpD q k < 65536 := fld_lt q (16 * k) 16
  refine ⟨fun hc ht h0 => ?_, fun hc ht h0 h1 h2 => ?_, fun hc ht h0 hcap => ?_, ?_⟩
  case refine_1 =>
    rw [grantOf_vector _ hc, if_neg (by omega), hc]
    exact packShape_fields false false (by decide) hty (Nat.lt_of_le_of_lt (Nat.min_le_left ..) (hd 0)) (by decide) (by decide)
  case refine_2 =>
    rw [grantOf_matrix _ hc, if_neg (by simp only [ht, not_true_eq_false, false_or]; omega), hc]
    exact packShape_fields _ _ (by decide) hty (Nat.lt_of_le_of_lt (Nat.min_le_right ..) (by omega))
      (Nat.lt_of_le_of_lt (Nat.min_le_right ..) (by omega)) (Nat.lt_of_le_of_lt (Nat.min_le_left ..) (hd 2))
  case refine_3 =>
    change upTo (shpD q 0) (8 * 2 ^ gang) ≤ 64 * 2 ^ gang at hcap
    rw [grantOf_polynomial _ hc, if_neg (by omega), hc]
    rw [decide_eq_decide.mpr (unbound_iff gang (shpD q 0))]
    exact packShape_fields _ _ (by decide) hty (by omega) (by omega) (by decide)
  case refine_4 =>
    rintro (h | h | h0 | ⟨hc, ht⟩ | ⟨hc, h⟩ | ⟨hc, h⟩)
    · exact grantOf_reserved _ (.inl h)
    · exact grantOf_reserved _ (.inr h)
    · exact grantOf_emptyFirst _ h0
    · rw [grantOf_vector _ hc, if_pos (.inl ht)]
    · rw [grantOf_matrix _ hc, if_pos (h.imp_right .inr)]
    · change 4 < shpTy q ∨ 64 * 2 ^ gang < upTo (shpD q 0) (8 * 2 ^ gang) at h
      rw [grantOf_polynomial _ hc, if_pos (h.imp_right .inr)]

end Sys2Proof.Machine

/-! PROOF of O20: a change of the core and then the retiring, once; an equation for each of the three words; and the statement. -/

namespace Sys2Proof.Machine

/-! ## Changes of the core at work, one after another -/

theorem SMap.put_put_same {α : Type} (m : SMap α) (k : Nat) (u v : α) : SMap.put (SMap.put m k u) k v = SMap.put m k v := by
  induction m with
  | nil => simp only [SMap.put, Nat.lt_irrefl, if_false, if_true]
  | cons p t ih =>
    obtain ⟨j, x⟩ := p
    by_cases hlt : k < j
    · simp only [SMap.put, hlt, if_true, Nat.lt_irrefl, if_false]
    · by_cases heq : j = k
      · simp only [SMap.put, heq, if_true, Nat.lt_irrefl, if_false]
      · simp only [SMap.put, hlt, if_false, heq, ih]

theorem State.updMe_updMe (s : State) (f g : Core → Core) : (s.updMe f).updMe g = s.updMe (fun c => g (f c)) := by
  have hput : SMap.put (s.updMe f).core s.cur.lcore (g (s.updMe f).me) = SMap.put s.core s.cur.lcore (g (f s.me)) := by
    rw [State.me_updMe]
    exact SMap.put_put_same _ _ _ _
  exact congrArg (fun m => ({ s with core := m } : State)) hput

/-! ## Retiring after a change of the core -/

/-- A change of the core that no instruction's retiring reads or makes: the x registers, the pc and the count stay. -/
structure KeepsRetiring (c d : Core) : Prop where
  x             : d.x = c.x
  pc            : d.pc = c.pc
  minstret      : d.minstret = c.minstret
  mcountinhibit : d.mcountinhibit = c.mcountinhibit

/-- An instruction that changes its core and then retires. -/
theorem State.retire_updMe_spec (s : State) (f : Core → Core) (hf : KeepsRetiring s.me (f s.me)) (rd : Reg) (v : Word) (n : Nat) :
    ∃ t, (s.updMe f).retire rd v n = .next t ∧ RetiresAs s t (f s.me) rd v (s.me.pc + BitVec.ofNat 64 n) := by
  obtain ⟨t, hrun, hnote, hx, hme, hrest⟩ := (s.updMe f).retire_spec rd v n
  refine ⟨t, hrun, hnote, fun r => ?_, ?_, (SameElse.upd s f).trans hrest⟩
  · rw [hx]
    simp only [State.x, Core.xr, State.me_updMe, hf.x]
  · rw [hme]
    simp only [State.me_updMe, Core.instretNext, hf.pc, hf.minstret, hf.mcountinhibit]

/-! ## The equations of the three words (06 R114-R116) -/

/-- The core that SETSHAPE leaves: the request, its grant, and the grant's record. -/
def Core.shaped (c : Core) (n : Nat) (q g : Word) : Core :=
  { c with shq := SMap.put c.shq n q, shp := SMap.put c.shp n g, sig := c.sig ++ grantRecord n g }

section
variable {p : PWord} (s : State)

theorem exec_setshape (h : PortReady (.setshape p) p) : exec (.setshape p) s =
    (s.updMe (fun c => c.shaped (p.vd.toNat % 8) (requestOf s p) (grantOf (2 ^ s.me.gang.toNat) (requestOf s p)))).retire 0 0 8 := by
  change execSetshape p s = _
  rw [execSetshape, withPort_ready h]
  simp only [State.absorb, State.updMe_updMe]
  rfl

theorem exec_getshape (h : PortReady (.getshape p) p) :
    let q := SMap.get s.me.shq (p.vs1.toNat % 8) 0
    let g := SMap.get s.me.shp (p.vs1.toNat % 8) 0
    exec (.getshape p) s =
      s.retireP p.vd (if p.imm18 = 0 then g else if p.imm18 = 1 then q else if shortGrant q g then 1 else 0) := by
  change execGetshape p s = _
  rw [execGetshape, withPort_ready h]
  dsimp only
  congr 1
  split
  case h_1 h0 => rw [if_pos (BitVec.eq_of_toNat_eq h0)]
  case h_2 h1 =>
    rw [if_neg (fun h0 => by rw [h0] at h1; cases h1), if_pos (BitVec.eq_of_toNat_eq h1)]
  case h_3 h0 h1 => rw [if_neg (fun h => h0 (congrArg BitVec.toNat h)), if_neg (fun h => h1 (congrArg BitVec.toNat h))]

theorem exec_setstream (h : PortReady (.setstream p) p) (hcode : ∀ m, m ∈ s.me.cmds → m.frame.kind ≠ 1) : exec (.setstream p) s =
    (s.updMe (fun c => { c with st := SMap.put c.st (p.vd.toNat % 16) (streamOf (s.x p.vs1) (s.x p.vs2)) })).retire 0 0 8 := by
  have hnone : s.me.cmds.any (fun m => m.frame.kind = 1) = false := by
    simpa only [List.any_eq_false, decide_eq_true_eq] using hcode
  change execSetstream p s = _
  rw [execSetstream, withPort_ready h, if_neg (by rw [hnone]; decide)]
  rfl

end

/-- Settles O20: each word changes its part of the core and retires. -/
theorem shapeAndStreamWords : Obligations.ShapeAndStreamWords := by
  unfold Obligations.ShapeAndStreamWords
  intro s p
  refine ⟨fun h => ?_, fun h => ?_, fun h hcode => ?_⟩
  · rw [exec_setshape s h]
    exact s.retire_updMe_spec _ ⟨rfl, rfl, rfl, rfl⟩ 0 0 8
  · rw [exec_getshape s h]
    exact s.retireP_spec p.vd _
  · rw [exec_setstream s h hcode]
    exact s.retire_updMe_spec _ ⟨rfl, rfl, rfl, rfl⟩ 0 0 8

end Sys2Proof.Machine

/-! PROOF of O5: a word of engine V that ends in the state of its own reads, once; when VDEQ is refused and what it writes; VADDM. -/

namespace Sys2Proof.Machine
open Sys2Proof.Claims

/-! ## Token moves after a change of the core that they do not read (12 R265) -/

/-- A change of the core that no token move reads or makes. -/
structure KeepsMoves (c d : Core) : Prop where
  cmds  : d.cmds = c.cmds
  tok   : d.tok = c.tok
  lines : ∀ e, d.line e = c.line e

section
variable {s : State} {f : Core → Core} (hf : KeepsMoves s.me (f s.me)) {ms : List Move}
include hf

theorem State.cmds_updMe : (s.updMe f).me.cmds = s.me.cmds := by rw [State.me_updMe, hf.cmds]
theorem State.tok_updMe : (s.updMe f).me.tok = s.me.tok := by rw [State.me_updMe, hf.tok]
theorem State.ln_updMe : (s.updMe f).ln = s.ln := by rw [State.ln, State.ln, State.me_updMe, State.updMe_cur, hf.lines]

theorem TokensReady.updMe (h : TokensReady s ms) : TokensReady (s.updMe f) ms :=
  h.agree rfl (State.cmds_updMe hf) (State.tok_updMe hf) (congrArg Line.moved (State.ln_updMe hf))

/-- The moves leave the same queues with the change as without it. -/
theorem State.tok_finished_updMe : ((s.updMe f).finished ms).me.tok = (s.finished ms).me.tok := by
  simp only [State.finished, State.me_note, State.tok_updLn, State.ln_updMe hf]
  exact (State.moves_agree _ s (s.updMe f) rfl (State.cmds_updMe hf) (State.tok_updMe hf)).2

/-- Once the moves are made the core is as the change left it, but for its tokens and the counts of moves made. -/
theorem State.finished_updMe_acts : Acts s ((s.updMe f).finished ms) (f s.me) ms := by
  obtain ⟨hnote, hrest, honly⟩ := (s.updMe f).finished_frame ms
  rw [State.me_updMe] at honly
  exact ⟨hnote, State.tok_finished_updMe hf, honly, (SameElse.upd s f).trans hrest⟩

end

/-! ## A word of engine V whose own reads change the state (07 R156) -/

/-- The core with one more result in flight. -/
def Core.withFlight (c : Core) (f : Flight) : Core := { c with flights := c.flights ++ [f] }

theorem Core.withFlight_keeps (c : Core) (f : Flight) : KeepsMoves c (c.withFlight f) :=
  ⟨rfl, rfl, fun e => by cases e <;> rfl⟩

section
variable {s : State} {r : Row} {w : NWord} (hw : wickWord s.fmode r w = false)
include hw

theorem State.fly_flightOf (lands : List Landing) (fl : Flags) :
    s.fly w (trueLat r.op) false lands fl = s.updMe (fun c => c.withFlight (s.flightOf r w lands fl)) := by
  simp only [State.fly, State.flightOf, hw]
  rfl

/-- A result put in flight, and then the moves of its word: the whole of what the issue of a word changes after its reads. -/
theorem issues_withFlight (lands : List Landing) (fl : Flags) :
    Issues s s ((s.updMe (fun c => c.withFlight (s.flightOf r w lands fl))).finished (bitMoves .V w)) r w lands fl := by
  obtain ⟨hnote, htok, honly, hrest⟩ := State.finished_updMe_acts (s := s) (f := fun c => c.withFlight (s.flightOf r w lands fl))
    (s.me.withFlight_keeps _) (ms := bitMoves .V w)
  refine ⟨hnote, ?_, ?_, htok, ?_, hrest.cores, fun k => ?_, hrest.cluster, hrest.hub, hrest.hbm, hrest.poison, hrest.now,
    hrest.agenda, hrest.cur, hrest.draws⟩
  · rw [honly]; rfl
  · rw [honly]; rfl
  · conv => lhs; rw [honly]
    conv => rhs; rw [honly]
    rfl
  · rw [if_neg (fun h => Bool.false_ne_true (hw.symm.trans h.1)), State.dieAt, State.dieAt, hrest.die]

end

/-- How a ready word of engine V that is not Wick's ends, by what its own part comes to; `s3` is the state after its pops. -/
def endV (s s3 : State) (r : Row) (w : NWord) : VRes → Out
  | .bad f => s.fault f
  | .acc x => s.stopScale x
  | .wait => s.waits
  | .ok lands fl => State.finish s (s3.fly w (trueLat r.op) false lands fl) (bitMoves .V w)
  | .okIn t lands fl => State.finish s (t.fly w (trueLat r.op) false lands fl) (bitMoves .V w)

section
variable {s s3 : State} {i : Instr} {r : Row} {w : NWord} {a b c : Vec} (h : VectorReady s i r w s3 a b c)
variable (hw : ∀ fm, wickWord fm r w = false)
include h hw

theorem issueV_notWick (act : VCtx → VRes) :
    issueV i s act = endV s s3 r w (act { s := s3, r := r, w := w, a := a, b := b, c := c, g := s.guardBits w }) := by
  obtain ⟨s1, s2, h0, h1, h2⟩ := h.srcs.pops
  have hgrant : (if readsVL r.op = true then grantCheck s 0 1 else none) = none := by
    split
    case isTrue hr => exact grantCheck_stands (h.grant hr)
    case isFalse => rfl
  rw [issueV, withNative_legal h.legal, hgrant]
  simp only [h.clear, h.whole, h0, h1, h2, hw, Bool.false_and, Bool.false_eq_true, if_false]
  cases act { s := s3, r := r, w := w, a := a, b := b, c := c, g := s.guardBits w } <;> rfl

/-- A word whose own reads leave `s4` issues in `s4`. -/
theorem issueV_okIn {s4 : State} {act : VCtx → VRes} {lands : List Landing} {fl : Flags}
    (ha : act { s := s3, r := r, w := w, a := a, b := b, c := c, g := s.guardBits w } = .okIn s4 lands fl)
    (ht : TokensReady s4 (bitMoves .V w)) : ∃ t, issueV i s act = .next t ∧ Issues s4 s4 t r w lands fl := by
  refine ⟨_, ?_, issues_withFlight (hw _) lands fl⟩
  rw [issueV_notWick h hw, ha, endV, State.fly_flightOf (hw _)]
  exact State.finish_ready _ _ _ (ht.updMe (f := fun c => c.withFlight _) (s4.me.withFlight_keeps _))

end

/-! ## What the pops of a word's sources leave -/

section
variable {s s3 : State} {r : Row} {w : NWord} {a b c : Vec} (h : Sources s r w s3 a b c)
include h

theorem Sources.cap : s3.cap = s.cap := by
  obtain ⟨hme, hrest⟩ := h.frame
  rw [State.cap, State.cap, State.cmd, State.cmd, hrest.cur, hme]
  rfl

theorem Sources.tent : s3.tent = s.tent := by
  obtain ⟨hme, hrest⟩ := h.frame
  rw [State.tent, State.tent, State.cmd, State.cmd, hrest.cur, hme]
  rfl

theorem Sources.ln : s3.ln = s.ln := by
  obtain ⟨hme, hrest⟩ := h.frame
  rw [State.ln, State.ln, hrest.cur, hme]
  cases s.cur.eng <;> rfl

theorem Sources.fmode : s3.fmode = s.fmode := by rw [State.fmode, h.cap, State.fmode]
theorem Sources.isTent : s3.isTent = s.isTent := by rw [State.isTent, h.tent, State.isTent]
theorem Sources.stream (n : Nat) : s3.me.stream n = s.me.stream n := by rw [h.frame.1]; rfl
theorem Sources.elems (n : Nat) : s3.elems n = s.elems n := by simp only [State.elems, State.shp, h.cap]
theorem Sources.vland (dst : BitVec 10) (n : Nat) (xs : List (Nat × Nat)) : s3.vland dst n xs = s.vland dst n xs := by
  simp only [State.vland, State.vphys, h.ln]

end

/-! ## VDEQ (07 R155, R156) -/

/-- The stream that a VDEQ names. -/
def vdeqStream (s : State) (w : NWord) : Word × Word := s.me.stream (w.b.toNat - 0x310)

/-- Whether element `i` lies in the stream entry, whose position `c` gives. -/
def insideEntry (st : Word × Word) (c : Vec) (i : Nat) : Prop :=
  elem c 32 2 ≤ elem c 32 1 + i ∧ elem c 32 1 + i - elem c 32 2 < 2048 / width (stFmt st)

/-- What a VDEQ is refused for: its stream, or an active element outside the entry. -/
def VdeqRefused (s : State) (w : NWord) (c : Vec) : Prop := streamBad (vdeqStream s w) = true ∨
  ∃ i, i ∈ active s (s.guardBits w) (width w.ty.toNat) ∧ ¬ insideEntry (vdeqStream s w) c i

theorem not_vdeqRefused {s : State} {w : NWord} {c : Vec} (hst : streamBad (vdeqStream s w) = false)
    (hin : ∀ i, i ∈ active s (s.guardBits w) (width w.ty.toNat) → insideEntry (vdeqStream s w) c i) : ¬ VdeqRefused s w c := by
  rintro (hbad | ⟨i, hi, hout⟩)
  · exact Bool.false_ne_true (hst.symm.trans hbad)
  · exact hout (hin i hi)

theorem any_outside_iff (st : Word × Word) (c : Vec) (l : List Nat) :
    l.any (fun i => elem c 32 1 + i < elem c 32 2 || elem c 32 1 + i - elem c 32 2 ≥ 2048 / width (stFmt st)) = true ↔
      ∃ i, i ∈ l ∧ ¬ insideEntry st c i := by
  simp only [List.any_eq_true, Bool.or_eq_true, decide_eq_true_eq, insideEntry, ge_iff_le, Classical.not_and_iff_not_or_not, Nat.not_le, Nat.not_lt]

section
variable {s s3 : State} {r : Row} {w : NWord} {a b c : Vec}
variable (h : VectorReady s (.vdeq (.nat w)) r w s3 a b c)
include h

theorem vdeq_op : r.op = 0x2B :=
  congrArg Row.op (Prod.mk.inj (Option.some.inj (h.legal.row : some (_, w) = some (r, w)))).1.symm

theorem vdeq_notWick (fm : Word) : wickWord fm r w = false := by
  rw [wickWord, vdeq_op h]
  exact Bool.and_false _

/-- The check of the stream and of the active elements. -/
theorem vdeq_check_iff : (streamBad (s3.me.stream (w.b.toNat - 0x310)) ||
    ((List.range (s3.elems (width w.ty.toNat))).filter (guarded (s.guardBits w) (width w.ty.toNat))).any (fun i =>
      elem c 32 1 + i < elem c 32 2 || elem c 32 1 + i - elem c 32 2 ≥ 2048 / width (stFmt (s3.me.stream (w.b.toNat - 0x310))))) = true ↔
    VdeqRefused s w c := by
  rw [Bool.or_eq_true, any_outside_iff, h.srcs.stream, h.srcs.elems]
  rfl

theorem exec_vdeq_bad (hbad : VdeqRefused s w c) : exec (.vdeq (.nat w)) s = s.fault { code := 23 } := by
  change execVdeq (.nat w) s = _
  rw [execVdeq, issueV_notWick h (vdeq_notWick h)]
  exact congrArg (endV s s3 r w) (if_pos ((vdeq_check_iff h).mpr hbad))

theorem exec_vdeq_decoded {F : Fmt} {xs : List (Machine.Num × Flags)} {s4 : State} (hF : fmtOf w.ty.toNat = some F)
    (hgood : ¬ VdeqRefused s w c)
    (hrow : decodeRow s3 .A (vdeqStream s w) s.fmode (elem c 32 0) none (streamPicks s w (width (stFmt (vdeqStream s w))) a c) = .ok (s4, xs))
    (ht : TokensReady s4 (bitMoves .V w)) :
    ∃ t, exec (.vdeq (.nat w)) s = .next t ∧ Issues s4 s4 t r w
      (s.vland w.dst (width w.ty.toNat)
        ((active s (s.guardBits w) (width w.ty.toNat)).zip (xs.map (fun x => (roundTo F s.fmode (rmode s.fmode) x.1).1))))
      (orFlags (xs.map (fun x => (roundTo F s.fmode (rmode s.fmode) x.1).2 ||| x.2))) := by
  change ∃ t, execVdeq (.nat w) s = .next t ∧ _
  rw [execVdeq]
  refine issueV_okIn h (vdeq_notWick h) ((if_neg (mt (vdeq_check_iff h).mp hgood)).trans ?_) ht
  dsimp only [VCtx.ty, VCtx.fm]
  simp only [streamPicks, active, vdeqStream] at hrow
  simp only [h.srcs.stream, h.srcs.elems, h.srcs.fmode, h.srcs.vland, hrow, hF, List.map_map]
  rfl

end

/-! ## VADDM (14 R317) -/

theorem exec_vaddm {s s3 : State} {r : Row} {w : NWord} {a b c : Vec} (h : VectorReady s (.vaddm (.nat w)) r w s3 a b c)
    (htent : s.isTent = false) : ∃ t, exec (.vaddm (.nat w)) s = .next t ∧
      Issues s s3 t r w [.acc w.dst.toNat (if w.ty = 0 then .addF true s.fmode else .addI) a (contMask 32 (active s (s.guardBits w) 32))] 0 := by
  have hint : w.ty.toNat = 0 ↔ w.ty = 0 := ⟨fun e => BitVec.eq_of_toNat_eq e, fun e => congrArg BitVec.toNat e⟩
  change ∃ t, execVaddm (.nat w) s = .next t ∧ _
  rw [execVaddm]
  refine issueV_ready h _ _ 0 ?_
  simp only [VCtx.ty, VCtx.fm, h.srcs.isTent, htent, h.srcs.elems, h.srcs.fmode, hint, Bool.false_eq_true, if_false]
  rfl

/-- Settles O5: VDEQ by whether its stream and elements pass, from the row that its scales decode; VADDM by its one landing. -/
theorem streamAndRowAddWords : Obligations.StreamAndRowAddWords := by
  unfold Obligations.StreamAndRowAddWords
  refine ⟨fun s r w s3 s4 a b c F xs _ h hF => ⟨fun hst hin hrow ht => exec_vdeq_decoded h hF (not_vdeqRefused hst hin) hrow ht, fun hbad => exec_vdeq_bad h hbad⟩,
    fun s r w s3 a b c _ htent h => exec_vaddm h htent⟩

end Sys2Proof.Machine

/-! PROOF of O34: how a word of engine A ends, once; a store made at once or kept; an equation for each store's word; ACCESS_PERFORMED by whether engine A has a store to make; and the statement. -/

namespace Sys2Proof.Machine
open Sys2Proof.Claims

/-! ## How a word of engine A ends -/

/-- How a word of engine A that its guard lets act ends, by what its own part answers. -/
def endA (s : State) (w : NWord) : Except Out State → Out
  | .error o => o
  | .ok s1 => State.finish s s1 (bitMoves .A w)

section
variable {i : Instr} {s s1 : State} {r : Row} {w : NWord}

theorem issueA_acting (h : AccessReady s i r w) (act : Row → NWord → Except Out State) : issueA i s act = endA s w (act r w) := by
  rw [issueA, withNative_legal h.legal, h.guard]
  cases act r w <;> rfl

/-- A word whose part leaves `s1`. -/
theorem does_of_end (hrun : AccessReady s i r w → exec i s = endA s w (.ok s1)) : Does i s r w s1 s1.me :=
  fun h ht => ⟨_, (hrun h).trans (State.finish_ready s s1 _ ht), s1.finished_acts _⟩

/-- A word whose part leaves `s1` with a last change of its core. -/
theorem does_of_end_updMe {f : Core → Core} (hf : KeepsMoves s1.me (f s1.me))
    (hrun : AccessReady s i r w → exec i s = endA s w (.ok (s1.updMe f))) : Does i s r w s1 (f s1.me) :=
  fun h ht => ⟨_, (hrun h).trans (State.finish_ready s _ _ (ht.updMe hf)), State.finished_updMe_acts hf⟩

end

/-! ## A store that is made at once, or keeps its place (11 R235) -/

/-- The core with one more store that waits. -/
def Core.withStore (c : Core) (p : AStore) : Core := { c with astores := c.astores ++ [p] }

theorem Core.withStore_keeps (c : Core) (p : AStore) : KeepsMoves c (c.withStore p) :=
  ⟨rfl, rfl, fun e => by cases e <;> rfl⟩

/-- A word whose part leaves `s1` and a store that waits. -/
theorem does_keeps_place {i : Instr} {s s1 : State} {r : Row} {w : NWord} {p : AStore}
    (hrun : AccessReady s i r w → exec i s = endA s w (.ok (s1.updMe (fun c => c.withStore p)))) : Does i s r w s1 (s1.me.withStore p) :=
  does_of_end_updMe (f := fun c => c.withStore p) (s1.me.withStore_keeps p) hrun

section
variable {pre s s1 s2 : State} {p : AStore} {x : QEnt} {bs : List Byte} {prog : Nat}

theorem storeOrKeep_made (hfirst : s.me.astores = []) (hpop : s.pop p.q = some (s1, x)) (hmake : p.make s1 x = .ok s2 bs) :
    storeOrKeep pre s p prog = .ok s2 := by
  simp only [storeOrKeep, hfirst, List.isEmpty_nil, if_true, hpop, hmake]

theorem storeOrKeep_kept (h : s.me.astores ≠ [] ∨ s.pop p.q = none) : storeOrKeep pre s p prog = .ok (s.updMe (fun c => c.withStore p)) := by
  have hnone : (if s.me.astores.isEmpty then s.pop p.q else none) = none := by
    split
    case isTrue hempty => exact h.resolve_left (fun hne => hne (List.isEmpty_iff.mp hempty))
    case isFalse => rfl
  simp only [storeOrKeep, hnone]
  rfl

/-- A store that names no cells writes its elements. -/
theorem AStore.make_elements (hbad : x.bad = false) (hcells : p.cells = []) (hwhole : p.whole = false) :
    p.make s x = storeA s p.va p.addr.toNat p.ty p.e x := by
  simp only [AStore.make, hbad, hwhole, hcells, List.isEmpty_nil, Bool.not_true, Bool.false_eq_true, if_false]

/-- A store that names cells writes its containers there. -/
theorem AStore.make_cells (hbad : x.bad = false) (hcells : p.cells ≠ []) (hwhole : p.whole = false) :
    p.make s x = scatterA s p.e p.cells x := by
  have hfull : p.cells.isEmpty = false := List.isEmpty_eq_false_iff.mpr hcells
  simp only [AStore.make, hbad, hwhole, hfull, Bool.not_false, Bool.false_eq_true, if_false, if_true]

end

/-! ## The grant of a vector load or store (03 R56, R61) -/

theorem grantCheck_changed {s : State} {n cls : Nat} (h : (s.shp n).getLsbD 58 = true) : grantCheck s n cls = some (shapeChg s n) := by
  rw [grantCheck, if_pos h]

theorem grantCheck_otherClass {s : State} {n cls : Nat} (h : (s.shp n).getLsbD 58 = false) (hcls : shpClass (s.shp n) ≠ cls) :
    grantCheck s n cls = some (s.fault { code := 21 }) := by
  rw [grantCheck, if_neg (by rw [h]; exact Bool.false_ne_true), if_pos hcls]

/-- The vector loads and stores end as their grant says where it does not stand. -/
theorem exec_ungranted {i : Instr} {s : State} {r : Row} {w : NWord} {o : Out}
    (hi : i ∈ [.ald (.nat w), .alds (.nat w), .aldx w, .anest w, .ast (.nat w), .asts (.nat w), .astx w])
    (h : AccessReady s i r w) (hgrant : grantCheck s 0 1 = some o) : exec i s = o := by
  simp only [List.mem_cons, List.not_mem_nil, or_false] at hi
  rcases hi with rfl | rfl | rfl | rfl | rfl | rfl | rfl <;>
    simp only [exec, execAld, execAlds, execAldx, execAnest, execAst, execAsts, execAstx, loadWord, storeWord, issueA_acting h, hgrant, endA]

/-! ## AST and ASTS (11 R231, R234) -/

section
variable {s s1 s2 : State} {r : Row} {w : NWord} {va : Bool} {a n align ty e : Nat} {x : QEnt} {bs : List Byte} {f : Contained}

/-- A store that is made lies at an aligned address. -/
theorem storeA_aligned (h : storeA s va a ty e x = .ok s2 bs) : a % 4 = 0 := by
  refine Decidable.byContradiction fun hal => ?_
  have hbad : ∃ f, storeBad s va a 4 (storeBytes ty e x 0) = some f := by
    rw [storeBad]
    split
    case h_1 f _ => exact ⟨f, rfl⟩
    case h_2 => exact ⟨_, if_pos hal⟩
  obtain ⟨f, hf⟩ := hbad
  rw [storeA, hf] at h
  cases h

theorem spadPlace_sub {cl : Cluster} {o : Nat} (h : spadPlace cl o n = some f) : f.sub = 1 ∨ f.sub = 2 := by
  unfold spadPlace at h
  split at h
  case isTrue => cases h; exact .inl rfl
  case isFalse =>
    split at h
    case isTrue => cases h; exact .inr rfl
    case isFalse => cases h

/-- Only a misaligned address has subcode 3. -/
theorem addrBad_aligned (hal : a % align = 0) (h : addrBad s va a n align = some f) : f.sub ≠ 3 := by
  unfold addrBad at h
  split at h
  case isTrue =>
    split at h
    case isTrue => cases h; exact Nat.ne_of_lt (by decide : 1 < 3)
    case isFalse => rw [if_neg (not_not_intro hal)] at h; cases h
  case isFalse =>
    split at h
    case h_1 g hg =>
      cases h
      rcases spadPlace_sub hg with h1 | h2 <;> omega
    case h_2 => rw [if_neg (not_not_intro hal)] at h; cases h

/-- The store of an AST or ASTS. -/
def storeOf (s : State) (r : Row) (w : NWord) (va : Bool) : AStore :=
  { q := w.c.toNat, addr := s.gOf r w 0 + s.gOf r w 1, ty := w.ty.toNat, e := s.elems (width w.ty.toNat), va := va, seq := s.cur.seq }

/-- An AST or ASTS that its grant and its address let through. -/
theorem storeWord_end {i : Instr} (h : AccessReady s i r w) (hgrant : GrantStands s 0 1)
    (haddr : ∀ f, addrBad s va (storeOf s r w va).addr.toNat (byteLen w.ty.toNat (s.elems (width w.ty.toNat))) 4 = some f → f.sub ≠ 3) :
    storeWord i va s = endA s w (storeOrKeep s s (storeOf s r w va) 0) := by
  rw [storeWord, issueA_acting h, grantCheck_stands hgrant]
  dsimp only
  split
  case h_1 f hf => rw [if_neg (haddr f hf)]; rfl
  case h_2 => rfl

/-- Where the entry is there and no earlier store waits, it is made. -/
theorem does_storeWord_made {i : Instr} (hexec : exec i s = storeWord i va s) (hgrant : GrantStands s 0 1) (hfirst : s.me.astores = [])
    (hpop : s.pop w.c.toNat = some (s1, x)) (hbad : x.bad = false)
    (hstore : storeA s1 va (s.gOf r w 0 + s.gOf r w 1).toNat w.ty.toNat (s.elems (width w.ty.toNat)) x = .ok s2 bs) :
    Does i s r w s2 s2.me := by
  have hmake : (storeOf s r w va).make s1 x = .ok s2 bs := (AStore.make_elements hbad rfl rfl).trans hstore
  refine does_of_end fun h => ?_
  rw [hexec, storeWord_end h hgrant (fun f => addrBad_aligned (storeA_aligned hstore)), storeOrKeep_made hfirst hpop hmake]

/-- Where an earlier store waits or the entry is not there, it keeps its place. -/
theorem does_storeWord_kept {i : Instr} (hexec : exec i s = storeWord i va s) (hgrant : GrantStands s 0 1)
    (hwaits : s.me.astores ≠ [] ∨ s.pop w.c.toNat = none)
    (haddr : addrBad s va (s.gOf r w 0 + s.gOf r w 1).toNat (byteLen w.ty.toNat (s.elems (width w.ty.toNat))) 4 = none) :
    Does i s r w s (s.me.withStore (storeOf s r w va)) := by
  refine does_keeps_place fun h => ?_
  rw [hexec, storeWord_end h hgrant (fun f hf => by cases haddr.symm.trans hf), storeOrKeep_kept hwaits]

/-! ## ASTX (11 R237) -/

/-- The store of an ASTX, to the addresses that the entry `x` gives. -/
def scatterOf (s : State) (r : Row) (w : NWord) (x : QEnt) : AStore :=
  { q := w.c.toNat, addr := 0, ty := 0, e := s.elems 32, va := true, seq := s.cur.seq,
    cells := (List.range 64).map (fun c => (strided (s.gOf r w 0) (contOf x c) (s.gOf r w 1)).toNat) }

theorem exec_astx_end (h : AccessReady s (.astx w) r w) (hgrant : GrantStands s 0 1) (hpop : s.pop 0x306 = some (s1, x))
    (hbad : x.bad = false) : exec (.astx w) s = endA s w (storeOrKeep s s1 (scatterOf s r w x) 0) := by
  simp only [exec, execAstx, issueA_acting h, grantCheck_stands hgrant, hpop, hbad, Bool.false_eq_true, if_false]
  rfl

theorem State.pop_astores {k : Nat} (hpop : s.pop k = some (s1, x)) : s1.me.astores = s.me.astores := by
  unfold State.pop at hpop
  obtain ⟨y, -, hy⟩ := Option.map_eq_some_iff.mp hpop
  cases hy
  rw [State.dropHead, State.me_updMe]

theorem does_astx_made {s3 : State} {y : QEnt} (hgrant : GrantStands s 0 1) (hfirst : s.me.astores = [])
    (hpop : s.pop 0x306 = some (s1, x)) (hbad : x.bad = false) (hdata : s1.pop w.c.toNat = some (s3, y)) (hsound : y.bad = false)
    (hstore : scatterA s3 (s.elems 32) (scatterOf s r w x).cells y = .ok s2 bs) : Does (.astx w) s r w s2 s2.me := by
  have hmake : (scatterOf s r w x).make s3 y = .ok s2 bs := (AStore.make_cells hsound (fun hnil => absurd (List.map_eq_nil_iff.mp hnil) (by decide)) rfl).trans hstore
  refine does_of_end fun h => ?_
  rw [exec_astx_end h hgrant hpop hbad, storeOrKeep_made ((State.pop_astores hpop).trans hfirst) hdata hmake]

theorem does_astx_kept (hgrant : GrantStands s 0 1) (hpop : s.pop 0x306 = some (s1, x)) (hbad : x.bad = false)
    (hwaits : s.me.astores ≠ [] ∨ s1.pop w.c.toNat = none) : Does (.astx w) s r w s1 (s1.me.withStore (scatterOf s r w x)) := by
  refine does_keeps_place fun h => ?_
  rw [exec_astx_end h hgrant hpop hbad, storeOrKeep_kept (by rwa [State.pop_astores hpop])]

/-! ## VSPILL and STREL (11 R243, 14 R314) -/

/-- Register `k` of a VSPILL: its whole entry, in its place from the base on. -/
def spillOf (s : State) (r : Row) (w : NWord) (k : Nat) : AStore :=
  { q := w.b.toNat, addr := s.gOf r w 0 + BitVec.ofNat 64 (256 * k), ty := 0, e := 64, va := true, seq := s.cur.seq, whole := true }

theorem does_vspill (hplace : s.prog = 0 → s.me.vslim.toNat ≤ (s.gOf r w 0).toNat ∧ spillFault s (s.gOf r w 0) w.c.toNat = none)
    (hparts : partsFrom (fun t k => storeOrKeep t t (spillOf s r w k) k) w.c.toNat 1023 s.prog s = .ok s2) :
    Does (.vspill (.nat w)) s r w s2 s2.me := by
  refine does_of_end fun h => ?_
  have hlimit : (s.prog = 0 && s.gOf r w 0 < s.me.vslim) = false := by
    by_cases hp : s.prog = 0
    · have hle := (hplace hp).1
      simp only [hp, decide_true, Bool.true_and, decide_eq_false_iff_not, BitVec.lt_def]
      omega
    · simp only [hp, decide_false, Bool.false_and]
  have hfault : (if s.prog = 0 then spillFault s (s.gOf r w 0) w.c.toNat else none) = none := by
    split
    case isTrue hp => exact (hplace hp).2
    case isFalse => rfl
  simp only [exec, execVspill, issueA_acting h, hlimit, hfault, Bool.false_eq_true, if_false]
  exact congrArg (endA s w) hparts

/-- Below VSLIM a VSPILL that has done nothing yet traps. -/
theorem exec_vspill_below (h : AccessReady s (.vspill (.nat w)) r w) (hp : s.prog = 0) (hlow : (s.gOf r w 0).toNat < s.me.vslim.toNat) :
    exec (.vspill (.nat w)) s = s.engineTrap 27 (s.gOf r w 0) := by
  have hlimit : (s.prog = 0 && s.gOf r w 0 < s.me.vslim) = true := by
    simp only [hp, decide_true, Bool.true_and, BitVec.lt_def, hlow]
  simp only [exec, execVspill, issueA_acting h, hlimit, if_true]
  rfl

theorem does_strel (hfirst : s.me.astores = []) (haddr : addrBad s true (s.gOf r w 0).toNat 8 8 = none)
    (hput : virtPut s .A true (s.gOf r w 0).toNat ((leBytes 8 (s.gOf r w 1).toNat).map some) = .ok s2 bs) :
    Does (.strel (.nat w)) s r w s2 s2.me := by
  refine does_of_end fun h => ?_
  simp only [exec, execStrel, issueA_acting h, hfirst, List.isEmpty_nil, Bool.not_true, Bool.false_eq_true, if_false, haddr, all, hput]

end

/-! ## ACCESS_PERFORMED (11 R235, 14 R305) -/

/-- A place of `freeStores` is of a store before which none to a byte of it stands. -/
theorem mem_freeStores {l : List SbEnt} {k : Nat} (h : k ∈ freeStores l) :
    ∃ b, l[k]? = some b ∧ ∀ j c, j < k → l[j]? = some c → meets c.addr c.data.length b.addr b.data.length = false := by
  simp only [freeStores, List.mem_map, List.mem_filter, List.all_eq_true, Bool.not_eq_true'] at h
  obtain ⟨⟨b, k⟩, ⟨hmem, hfree⟩, rfl⟩ := h
  refine ⟨b, List.mk_mem_zipIdx_iff_getElem?.mp hmem, fun j c hj hc => hfree c ?_⟩
  rw [List.mem_take_iff_getElem]
  obtain ⟨hlen, rfl⟩ := List.getElem?_eq_some_iff.mp hc
  exact ⟨j, by omega, rfl⟩

/-- The first store is free. -/
theorem freeStores_ne_nil {l : List SbEnt} (h : l ≠ []) : freeStores l ≠ [] := by
  obtain ⟨b, t, rfl⟩ := List.exists_cons_of_ne_nil h
  have hmem : (b, 0) ∈ (b :: t).zipIdx := by
    rw [List.zipIdx_cons]
    exact List.mem_cons_self
  exact List.ne_nil_of_mem (List.mem_map.mpr ⟨(b, 0), List.mem_filter.mpr ⟨hmem, rfl⟩, rfl⟩)

/-- One of a list that is not empty is picked, whatever the draw. -/
theorem exists_pick {l : List Nat} (h : l ≠ []) (n : Nat) : ∃ k, l[n % l.length]? = some k ∧ k ∈ l := by
  have hlt : n % l.length < l.length := Nat.mod_lt _ (List.length_pos_iff.mpr h)
  exact ⟨_, List.getElem?_eq_getElem hlt, List.getElem_mem hlt⟩

/-- The state at work on the oldest store that waits. -/
def State.atStore (s : State) (p : AStore) : State := { s with cur := { s.cur with eng := .A, seq := p.seq, entry := false } }

/-- Whether a store of engine A is stopped at a missing page. -/
def State.storeStopped (s : State) : Prop := ∃ f, f ∈ s.me.fwait ++ s.me.fbuf ∧ f.void = false ∧ f.eng = .A ∧ f.acc = 1

/-- The state once the control core's buffered store at a place is performed. -/
def State.performed (s : State) (k : Nat) (b : SbEnt) : State :=
  { (s.updMe (fun c => { c with sbuf := c.sbuf.eraseIdx k })).physWrite s.cur.lcore b.addr b.data b.repl with
    draws := s.draws + 1, note := .ok }

section
variable {s : State}

theorem storeStopped_iff : (s.me.fwait ++ s.me.fbuf).any (fun r => !r.void && r.eng = .A && r.acc = 1) = true ↔ s.storeStopped := by
  simp only [List.any_eq_true, Bool.and_eq_true, Bool.not_eq_true', decide_eq_true_eq, State.storeStopped, and_assoc]

/-- The stores that ACCESS_PERFORMED may make: none while one is stopped. -/
def State.toMake (s : State) : List AStore :=
  if (s.me.fwait ++ s.me.fbuf).any (fun r => !r.void && r.eng = .A && r.acc = 1) then [] else s.me.astores

theorem toMake_running (hrun : ¬ s.storeStopped) : s.toMake = s.me.astores := if_neg (mt storeStopped_iff.mp hrun)
theorem toMake_stopped (hstop : s.storeStopped) : s.toMake = [] := if_pos (storeStopped_iff.mpr hstop)

/-- The oldest store is made, once its entry is there. -/
theorem exec_accessPerformed_oldest {s1 s2 : State} {p : AStore} {l : List AStore} {x : QEnt} {bs : List Byte} (hrun : ¬ s.storeStopped)
    (hl : s.me.astores = p :: l) (hpop : (s.atStore p).pop p.q = some (s1, x)) (hmake : p.make s1 x = .ok s2 bs) :
    exec .accessPerformed s = (s2.updMe (fun c => { c with astores := l })).done := by
  have hto := (toMake_running hrun).trans hl
  unfold State.toMake at hto
  unfold State.atStore at hpop
  change execAccessPerformed s = _
  simp only [execAccessPerformed, hto, hpop, hmake]

/-- With none of engine A's stores to make, a buffered store that is free is performed. -/
theorem exec_accessPerformed_buffered
    (hnone : s.me.astores = [] ∨ s.storeStopped ∨ ∀ p l, s.me.astores = p :: l → (s.atStore p).pop p.q = none) (hbuf : s.me.sbuf ≠ []) :
    ∃ k b, k ∈ freeStores s.me.sbuf ∧ s.me.sbuf[k]? = some b ∧ exec .accessPerformed s = .next (s.performed k b) := by
  have hpop : ∀ p l, s.toMake = p :: l → (s.atStore p).pop p.q = none := by
    intro p l hto
    by_cases hstop : s.storeStopped
    · cases (toMake_stopped hstop).symm.trans hto
    · rw [toMake_running hstop] at hto
      rcases hnone with h | h | h
      · cases h.symm.trans hto
      · exact absurd h hstop
      · exact h p l hto
  obtain ⟨k, hpick, hfree⟩ := exists_pick (freeStores_ne_nil hbuf) (Config.storePick s.draws)
  obtain ⟨b, hb, -⟩ := mem_freeStores hfree
  refine ⟨k, b, hfree, hb, ?_⟩
  change execAccessPerformed s = _
  simp only [execAccessPerformed, hpick, hb]
  split
  case h_1 => rfl
  case h_2 p l hto =>
    have hnopop := hpop p l hto
    unfold State.atStore at hnopop
    rw [hnopop]
    rfl

end

section
variable (s : State) (k : Nat) (b : SbEnt)

/-- A write to HBM leaves every core and the rest of the state. -/
theorem State.physWrite_places (lcore a : Nat) (l : List Byte) (repl : Bool) :
    let t := s.physWrite lcore a l repl
    t.core = s.core ∧ t.cluster = s.cluster ∧ t.die = s.die ∧ t.now = s.now ∧ t.cur = s.cur := by
  cases repl <;> exact ⟨rfl, rfl, rfl, rfl, rfl⟩

theorem State.performed_me : (s.performed k b).me = { s.me with sbuf := s.me.sbuf.eraseIdx k } := by
  obtain ⟨hcore, -, -, -, hcur⟩ := (s.updMe (fun c => { c with sbuf := c.sbuf.eraseIdx k })).physWrite_places s.cur.lcore b.addr b.data b.repl
  change SMap.get _ _ _ = _
  rw [State.performed, hcore, hcur]
  exact State.me_updMe s _

theorem State.performed_places : (∀ n, n ≠ s.cur.lcore → (s.performed k b).coreAt n = s.coreAt n) ∧
    (s.performed k b).cluster = s.cluster ∧ (s.performed k b).die = s.die ∧ (s.performed k b).now = s.now ∧
    (s.performed k b).cur = s.cur := by
  obtain ⟨hcore, hcluster, hdie, hnow, hcur⟩ :=
    (s.updMe (fun c => { c with sbuf := c.sbuf.eraseIdx k })).physWrite_places s.cur.lcore b.addr b.data b.repl
  refine ⟨fun n hn => ?_, hcluster, hdie, hnow, hcur⟩
  rw [State.coreAt, State.performed, hcore]
  exact State.coreAt_updMe_other s _ n hn

/-- The store's bytes are in HBM, or, on a replicated page, at the end of the update order (14 R310). -/
theorem State.performed_written :
    (b.repl = false → (s.performed k b).hub = s.hub ∧ (s.performed k b).hbm = s.hbm.writeN b.addr b.data ∧
      (s.performed k b).poison = cured s.poison b.addr b.data.length) ∧
    (b.repl = true → (s.performed k b).hbm = s.hbm ∧ (s.performed k b).poison = s.poison ∧
      (s.performed k b).hub = { s.hub with updates := s.hub.updates ++ [{ addr := b.addr, data := b.data, lcore := s.cur.lcore }] }) := by
  refine ⟨fun h => ?_, fun h => ?_⟩ <;> simp only [State.performed, h] <;> exact ⟨rfl, rfl, rfl⟩

end

/-- Settles O34: each store made or kept by the lemma of its word, and ACCESS_PERFORMED by whether engine A has a store to make. -/
theorem engineStores : Obligations.EngineStores := by
  unfold Obligations.EngineStores
  intro s r w s1 s2 bs
  refine ⟨fun x hg hfirst hpop hbad => ⟨fun hst => ?_, fun hst => ?_⟩, fun hg hwaits => ⟨fun haddr => ?_, fun haddr => ?_⟩,
    fun x y s3 hg hfirst hpop hbad hdata hsound hst => ?_, fun x hg hpop hbad hwaits => ?_, fun hplace hparts => ?_, fun h hp hlow => ?_,
    fun hfirst haddr hput => ?_, fun p l x hrun hl hpop hmake => ?_, fun hnone hbuf => ?_, fun i hi h => ⟨fun hchg => ?_, fun hold hcls => ?_⟩⟩
  · exact does_storeWord_made (i := .ast (.nat w)) (va := true) rfl hg hfirst hpop hbad hst
  · exact does_storeWord_made (i := .asts (.nat w)) (va := false) rfl hg hfirst hpop hbad hst
  · exact does_storeWord_kept (i := .ast (.nat w)) rfl hg hwaits haddr
  · exact does_storeWord_kept (i := .asts (.nat w)) rfl hg hwaits haddr
  · exact does_astx_made hg hfirst hpop hbad hdata hsound hst
  · exact does_astx_kept hg hpop hbad hwaits
  · exact does_vspill hplace hparts
  · exact exec_vspill_below h hp hlow
  · exact does_strel hfirst haddr hput
  · have hrun' : ¬ s.storeStopped := fun ⟨f, hf, hvoid, heng, hacc⟩ => hrun f hf hvoid heng hacc
    refine ⟨_, exec_accessPerformed_oldest hrun' hl hpop hmake, rfl, ?_, SameElse.updMe s2 _ _⟩
    rw [State.me_note, State.me_updMe]
  · obtain ⟨k, b, hfree, hb, hexec⟩ := exec_accessPerformed_buffered hnone hbuf
    obtain ⟨b', hb', hfirst⟩ := mem_freeStores hfree
    obtain rfl : b = b' := Option.some.inj (hb.symm.trans hb')
    obtain ⟨hcores, hcluster, hdie, hnow, hcur⟩ := s.performed_places k b
    obtain ⟨hmem, hupdate⟩ := s.performed_written k b
    exact ⟨k, b, _, hb, hfirst, hexec, rfl, s.performed_me k b, hcores, hcluster, hdie, hnow, hcur, rfl, hmem, hupdate⟩
  · exact exec_ungranted hi h (grantCheck_changed hchg)
  · exact exec_ungranted hi h (grantCheck_otherClass hold hcls)

end Sys2Proof.Machine
